-- ==== Sys2Proof/Word.lean ====
section
/-! DEFINITION. The word types and the plainest arithmetic on time stamps (00_scope.md rule R11). -/

namespace Sys2Proof

/-- `u8` (R11). -/
abbrev Byte := BitVec 8

/-- `u16` (R11). -/
abbrev Half := BitVec 16

/-- `u32` (R11). -/
abbrev Word := BitVec 32

/-- `a ⊖ b`, the time stamp difference mod 2^32 (R11). -/
abbrev elapsedSince (a b : Word) : Word := a - b

end Sys2Proof
end

