-- ==== Sys2Proof/Syntax.lean ====
section
/-! DEFINITION. The commands of 30_encoding.md rule R107: one constructor of `Instr` for each row of
spec/opcode_table.json, with the operands that row carries and nothing else. -/

namespace Sys2Proof

/-- A channel below `MAX_CH` = 2 (R8). -/
inductive Chan where
  | zero
  | one
  deriving DecidableEq, Repr, Inhabited

/-- The index of a channel. -/
def Chan.toNat : Chan → Nat
  | .zero => 0
  | .one => 1

/-- LinefeedState (R30, R33). -/
inductive LfState where
  | nop
  | idle
  | ringIdle
  | ringing
  deriving DecidableEq, Repr, Inhabited

/-- Hook level: ONHOOK = 1, OFFHOOK = 0 (R35). -/
inductive Level where
  | offhook
  | onhook
  deriving DecidableEq, Repr, Inhabited

/-- The two input ports that take command words (R100). -/
inductive Port where
  | host
  | interrupt
  deriving DecidableEq, Repr

/-- The 24 commands of R107. `ch` is the 4-bit CH field: that it names a channel is checked when the command runs
(R306), not by the encoding. -/
inductive Instr where
  | regRd (ch : BitVec 4) (a : Byte)
  | regWr (ch : BitVec 4) (a : Byte) (v : Byte)
  | ramRd (ch : BitVec 4) (addr : BitVec 12)
  | ramWr (ch : BitVec 4) (addr : BitVec 12) (v : Word)
  | cal (len : Byte) (seeds : Word)
  | irqEv (t : Word)
  | irqEvp (status : Byte) (t : Word)
  | irqChannels
  | irqEnable (en : Bool)
  | setLf (ch : BitVec 4) (req : LfState)
  | startRing (ch : BitVec 4)
  | stopRing (ch : BitVec 4)
  | getHook (ch : BitVec 4)
  | setLoopback (ch : BitVec 4) (mode : Byte)
  | ringBegin (ch : BitVec 4)
  | ringCancel (ch : BitVec 4)
  | ringCancelAll
  | ringSelftest
  | hookSample (ch : BitVec 4) (lvl : Level) (t : Word)
  | hookTick (ch : BitVec 4) (t : Word)
  | cfgWr (ch : BitVec 4) (idx : BitVec 12) (v : Word)
  | cfgRd (ch : BitVec 4) (idx : BitVec 12)
  | init
  | getNch
  deriving DecidableEq, Repr

/-- The port that accepts a command word (R107, R338). -/
def Instr.port : Instr → Port
  | .irqEv _ => .interrupt
  | .irqEvp _ _ => .interrupt
  | .regRd _ _ => .host
  | .regWr _ _ _ => .host
  | .ramRd _ _ => .host
  | .ramWr _ _ _ => .host
  | .cal _ _ => .host
  | .irqChannels => .host
  | .irqEnable _ => .host
  | .setLf _ _ => .host
  | .startRing _ => .host
  | .stopRing _ => .host
  | .getHook _ => .host
  | .setLoopback _ _ => .host
  | .ringBegin _ => .host
  | .ringCancel _ => .host
  | .ringCancelAll => .host
  | .ringSelftest => .host
  | .hookSample _ _ _ => .host
  | .hookTick _ _ => .host
  | .cfgWr _ _ _ => .host
  | .cfgRd _ _ => .host
  | .init => .host
  | .getNch => .host

end Sys2Proof
end

