-- ==== Sys2Proof/Config.lean ====
section
/-! DEFINITION. The named parameters of 00_scope.md rule R9 (the model's argument, plain data), the example
instantiation E of 95_test_vectors.md section 0, and the free values. -/

namespace Sys2Proof

/-- One entry of `FLAG_MAP` (R192). A HighFlag is its ordinal, its 0-based place in the enumeration (R117). -/
inductive FlagEntry where
  | unmapped
  | noflag
  | flag (h : Nat)
  deriving DecidableEq, Repr, Inhabited

/-- The six hook thresholds of one channel, in ms (R23, R37). -/
structure HookThresholds where
  minDigit       : Word
  maxDigit       : Word
  minFlash       : Word
  maxFlash       : Word
  minInterDigit  : Word
  minHookTimeout : Word
  deriving DecidableEq, Repr, Inhabited

/-- The raw 4-bit linefeed codes, `LF_CODE` (R9). -/
structure LfCodes where
  nop      : BitVec 4
  idle     : BitVec 4
  ringIdle : BitVec 4
  ringing  : BitVec 4
  deriving DecidableEq, Repr, Inhabited

/-- The named parameters the model takes as arguments (R9). -/
structure Params where
  regId         : Byte
  regRamstat    : Byte
  regRamAddrHi  : Byte
  regRamD0      : Byte
  regRamD1      : Byte
  regRamD2      : Byte
  regRamD3      : Byte
  regRamAddrLo  : Byte
  regIrqStatus  : Byte
  regIrqFlag    : Vector Byte 3
  regLinefeed   : Byte
  regAuto       : Byte
  autoMask      : Byte
  regHookStatus : Byte
  regCalBase    : Byte
  regCalStatus  : Byte
  lf            : LfCodes
  /-- The number of HighFlags in the enumeration. -/
  flagCount     : Nat
  /-- The ordinal of `HOOK`, which the enumeration must contain. -/
  hookFlag      : Nat
  flagMap       : Vector (Vector FlagEntry 8) 3
  irqQueueDepth : Nat
  hookReset0    : HookThresholds
  hookReset1    : HookThresholds
  deriving DecidableEq, Repr, Inhabited

/-- `LF_CODE(s)` (R9, R125). -/
def Params.lfCode (p : Params) : LfState → BitVec 4
  | .nop => p.lf.nop
  | .idle => p.lf.idle
  | .ringIdle => p.lf.ringIdle
  | .ringing => p.lf.ringing

/-- `HOOK_THRESH_RESET` of channel c (R9). -/
def Params.hookReset (p : Params) : Chan → HookThresholds
  | .zero => p.hookReset0
  | .one => p.hookReset1

/-- The entry names a HighFlag of the enumeration, where it names one. -/
def FlagEntry.within (count : Nat) : FlagEntry → Bool
  | .unmapped => true
  | .noflag => true
  | .flag h => decide (h < count)

/-- What R9 and R10 require of the parameters: `REG_CAL_BASE ≤ 0xFC`, `AUTO_MASK ≠ 0`, the four linefeed codes pairwise
distinct, `IRQ_QUEUE_DEPTH ≥ 1`, the HighFlag enumeration contains `HOOK` and every mapped flag, the six RAM window
registers distinct, `REG_LINEFEED ≠ REG_AUTO`. That an ordinal fits in EDATA is read from R117 (DEDUCED, log entry 13). -/
def Params.wf (p : Params) : Bool :=
  decide (p.regCalBase ≤ 0xFC#8) && decide (p.autoMask ≠ 0#8) &&
  decide ([p.lf.nop, p.lf.idle, p.lf.ringIdle, p.lf.ringing].Nodup) &&
  decide (1 ≤ p.irqQueueDepth) && decide (p.hookFlag < p.flagCount) && decide (p.flagCount ≤ 0x100000000) &&
  (List.finRange 3).all (fun i => (List.finRange 8).all (fun b => (p.flagMap[i][b]).within p.flagCount)) &&
  decide ([p.regRamAddrHi, p.regRamD0, p.regRamD1, p.regRamD2, p.regRamD3, p.regRamAddrLo].Nodup) &&
  decide (p.regLinefeed ≠ p.regAuto)

/-- The spec's example instantiation E (95_test_vectors.md section 0), used by tests and as a stand-in where the open
parameters break R9 or R10. -/
def Params.exampleE : Params where
  regId := 0x00
  regRamstat := 0x04
  regRamAddrHi := 0x05
  regRamD0 := 0x06
  regRamD1 := 0x07
  regRamD2 := 0x08
  regRamD3 := 0x09
  regRamAddrLo := 0x0A
  regIrqStatus := 0x0B
  regIrqFlag := #v[0x0C, 0x0D, 0x0E]
  regLinefeed := 0x1E
  regAuto := 0x50
  autoMask := 0x04
  regHookStatus := 0x22
  regCalBase := 0x60
  regCalStatus := 0x64
  lf := ⟨0x0, 0x1, 0x2, 0x4⟩
  flagCount := 2
  hookFlag := 0
  flagMap := #v[
    #v[.flag 0, .noflag, .unmapped, .unmapped, .unmapped, .unmapped, .unmapped, .unmapped],
    #v[.unmapped, .unmapped, .unmapped, .flag 1, .unmapped, .unmapped, .unmapped, .unmapped],
    #v[.unmapped, .unmapped, .unmapped, .unmapped, .unmapped, .flag 0, .unmapped, .unmapped]]
  irqQueueDepth := 4
  hookReset0 := ⟨0, 0, 0, 0, 0, 0⟩
  hookReset1 := ⟨0, 0, 0, 0, 0, 0⟩

/-- The open parameters (R9): free, nothing constrains them (log entry 1). -/
opaque Config.openParams : Params

/-- The parameters of the machine after reset: the open ones where they meet R9 and R10, so that every admitted choice
is one of the possible values and no other is (DESIGN CHOICE, log entry 1). -/
def Config.params : Params := if Config.openParams.wf then Config.openParams else Params.exampleE

/-- The k-th answer of the chip that no script of the environment gives: a byte, or a failure (R74; log entry 2). -/
opaque Config.freeAnswer : Nat → Option Byte

/-- `NOW` at reset, not specified (R45, R352; log entry 6). -/
opaque Config.nowAtReset : Word

/-- `S.irq_qcount` when more events wait than a u8 can count, which no rule gives (R21, R198; log entry 7). -/
opaque Config.freeQcount : Nat → Byte

end Sys2Proof
end

