-- ==== Sys2Proof/Decode.lean ====
section
/-! DEFINITION. Decoding of command words, total on any (CMD, DATA) pair and rejecting by name, and the encoder, both
written from the field layout of 30_encoding.md rules R104 to R108. -/

namespace Sys2Proof

/-- Why a command word is no command (R108). -/
inductive DecodeError where
  /-- OP is not in R107. -/
  | unknownOpcode (op : Byte)
  /-- A CMD bit the opcode does not use is not zero. -/
  | mustBeZero (op : Byte)
  deriving DecidableEq, Repr

/-- OP = CMD[31:24] (R105). -/
def opField (cmd : Word) : Byte := cmd.extractLsb' 24 8

/-- CH = CMD[23:20] (R105). -/
def chField (cmd : Word) : BitVec 4 := cmd.extractLsb' 20 4

/-- A12 = CMD[19:8] (R105). -/
def a12Field (cmd : Word) : BitVec 12 := cmd.extractLsb' 8 12

/-- A8 = CMD[15:8] (R105). -/
def a8Field (cmd : Word) : Byte := cmd.extractLsb' 8 8

/-- IMM8 = CMD[7:0] (R105). -/
def imm8Field (cmd : Word) : Byte := cmd.extractLsb' 0 8

/-- A LinefeedState from its 2-bit code (R33). -/
def LfState.ofBits (b : BitVec 2) : LfState :=
  match b.toNat with
  | 0 => .nop
  | 1 => .idle
  | 2 => .ringIdle
  | _ => .ringing

/-- The 2-bit code of a LinefeedState (R33). -/
def LfState.toBits : LfState → BitVec 2
  | .nop => 0#2
  | .idle => 1#2
  | .ringIdle => 2#2
  | .ringing => 3#2

/-- A hook level from its bit (R35). -/
def Level.ofBit (b : Bool) : Level := if b then .onhook else .offhook

/-- The bit of a hook level (R35). -/
def Level.toBit : Level → Bool
  | .onhook => true
  | .offhook => false

/-- The instruction, if the CMD bits that must be zero are zero (R108). -/
def requireZero (cmd mask : Word) (i : Instr) : Except DecodeError Instr :=
  if cmd &&& mask = 0#32 then .ok i else .error (.mustBeZero (opField cmd))

/-- The command a (CMD, DATA) pair stands for (R107). The mask of each row holds the CMD bits below OP that the row does
not use. DATA bits a row does not use are ignored. -/
def decode (cmd data : Word) : Except DecodeError Instr :=
  match opField cmd with
  | 0x01#8 => requireZero cmd 0x000F00FF#32 (.regRd (chField cmd) (a8Field cmd))
  | 0x02#8 => requireZero cmd 0x000F0000#32 (.regWr (chField cmd) (a8Field cmd) (imm8Field cmd))
  | 0x03#8 => requireZero cmd 0x000000FF#32 (.ramRd (chField cmd) (a12Field cmd))
  | 0x04#8 => requireZero cmd 0x000000FF#32 (.ramWr (chField cmd) (a12Field cmd) data)
  | 0x10#8 => requireZero cmd 0x00FFFF00#32 (.cal (imm8Field cmd) data)
  | 0x20#8 => requireZero cmd 0x00FFFFFF#32 (.irqEv data)
  | 0x21#8 => requireZero cmd 0x00FFFF00#32 (.irqEvp (imm8Field cmd) data)
  | 0x22#8 => requireZero cmd 0x00FFFFFF#32 .irqChannels
  | 0x23#8 => requireZero cmd 0x00FFFFFE#32 (.irqEnable (cmd.getLsbD 0))
  | 0x30#8 => requireZero cmd 0x000FFFFC#32 (.setLf (chField cmd) (LfState.ofBits (cmd.extractLsb' 0 2)))
  | 0x31#8 => requireZero cmd 0x000FFFFF#32 (.startRing (chField cmd))
  | 0x32#8 => requireZero cmd 0x000FFFFF#32 (.stopRing (chField cmd))
  | 0x33#8 => requireZero cmd 0x000FFFFF#32 (.getHook (chField cmd))
  | 0x34#8 => requireZero cmd 0x000FFF00#32 (.setLoopback (chField cmd) (imm8Field cmd))
  | 0x40#8 => requireZero cmd 0x000FFFFF#32 (.ringBegin (chField cmd))
  | 0x41#8 => requireZero cmd 0x000FFFFF#32 (.ringCancel (chField cmd))
  | 0x42#8 => requireZero cmd 0x00FFFFFF#32 .ringCancelAll
  | 0x43#8 => requireZero cmd 0x00FFFFFF#32 .ringSelftest
  | 0x50#8 => requireZero cmd 0x000FFFFE#32 (.hookSample (chField cmd) (Level.ofBit (cmd.getLsbD 0)) data)
  | 0x51#8 => requireZero cmd 0x000FFFFF#32 (.hookTick (chField cmd) data)
  | 0x60#8 => requireZero cmd 0x000000FF#32 (.cfgWr (chField cmd) (a12Field cmd) data)
  | 0x61#8 => requireZero cmd 0x000000FF#32 (.cfgRd (chField cmd) (a12Field cmd))
  | 0x70#8 => requireZero cmd 0x00FFFFFF#32 .init
  | 0x71#8 => requireZero cmd 0x00FFFFFF#32 .getNch
  | op => .error (.unknownOpcode op)

/-- `CMD = OP<<24 | CH<<20 | A12<<8 | IMM8` (R105). -/
def cmdWord (op : Byte) (ch : BitVec 4) (a12 : BitVec 12) (imm8 : Byte) : Word :=
  ((op ++ ch) ++ a12) ++ imm8

/-- A8 in the place of A12, CMD[19:16] = 0 (R105). -/
def a8AsA12 (a : Byte) : BitVec 12 := 0#4 ++ a

/-- One bit in the place of IMM8, IMM8[7:1] = 0. -/
def bitAsImm8 (b : Bool) : Byte := 0#7 ++ BitVec.ofBool b

/-- The (CMD, DATA) pair of a command; unused DATA bits are written as zero (R107). -/
def encode : Instr → Word × Word
  | .regRd ch a => (cmdWord 0x01 ch (a8AsA12 a) 0, 0)
  | .regWr ch a v => (cmdWord 0x02 ch (a8AsA12 a) v, 0)
  | .ramRd ch addr => (cmdWord 0x03 ch addr 0, 0)
  | .ramWr ch addr v => (cmdWord 0x04 ch addr 0, v)
  | .cal len seeds => (cmdWord 0x10 0 0 len, seeds)
  | .irqEv t => (cmdWord 0x20 0 0 0, t)
  | .irqEvp status t => (cmdWord 0x21 0 0 status, t)
  | .irqChannels => (cmdWord 0x22 0 0 0, 0)
  | .irqEnable en => (cmdWord 0x23 0 0 (bitAsImm8 en), 0)
  | .setLf ch req => (cmdWord 0x30 ch 0 (0#6 ++ req.toBits), 0)
  | .startRing ch => (cmdWord 0x31 ch 0 0, 0)
  | .stopRing ch => (cmdWord 0x32 ch 0 0, 0)
  | .getHook ch => (cmdWord 0x33 ch 0 0, 0)
  | .setLoopback ch mode => (cmdWord 0x34 ch 0 mode, 0)
  | .ringBegin ch => (cmdWord 0x40 ch 0 0, 0)
  | .ringCancel ch => (cmdWord 0x41 ch 0 0, 0)
  | .ringCancelAll => (cmdWord 0x42 0 0 0, 0)
  | .ringSelftest => (cmdWord 0x43 0 0 0, 0)
  | .hookSample ch lvl t => (cmdWord 0x50 ch 0 (bitAsImm8 lvl.toBit), t)
  | .hookTick ch t => (cmdWord 0x51 ch 0 0, t)
  | .cfgWr ch idx v => (cmdWord 0x60 ch idx 0, v)
  | .cfgRd ch idx => (cmdWord 0x61 ch idx 0, 0)
  | .init => (cmdWord 0x70 0 0 0, 0)
  | .getNch => (cmdWord 0x71 0 0 0, 0)

/-- CMD of a 64-bit command numbered as the opcode table numbers it: bits 31..0 (log entry 17). -/
def tableCmd (nbits w : Nat) : Word := BitVec.ofNat 32 (w % 2 ^ nbits)

/-- DATA of a 64-bit command numbered as the opcode table numbers it: bits 63..32 (log entry 17). -/
def tableData (nbits w : Nat) : Word := BitVec.ofNat 32 ((w % 2 ^ nbits) / 2 ^ 32)

/-- The instruction the decoder reads from a command numbered as spec/opcode_table.json numbers it. -/
def decodeTableWord (nbits w : Nat) : Option Instr :=
  (decode (tableCmd nbits w) (tableData nbits w)).toOption

end Sys2Proof
end

