-- ==== Sys2Proof/Machine/State.lean ====
section
/-! DEFINITION. The state of the machine as plain data: the block's own state (10_state.md rules R20 to R47), the
environment's side of the ports, and the recorded outputs; the value after reset (70_reset_and_hazards.md rule R352). -/

namespace Sys2Proof.Machine

/-- Why a step faults: it never does. The block has no traps (R329): an error is a response or a LOG event. Safe. -/
inductive Fault where
  deriving DecidableEq, Repr

/-- Why a command has no meaning. -/
inductive Refusal where
  /-- Raised by an arm of `exec` whose instruction has no meaning yet: by none in this model. Safe. -/
  | notModelled (mnemonic : String)
  /-- Raised by SET_LOOPBACK: the spec names loopback mode and gives it no behaviour (R236, R110). Safe. -/
  | loopbackHasNoBehaviour
  /-- Raised by RING_SELFTEST: the spec names the ring self-test and gives it no behaviour (R264, R110). Safe. -/
  | ringSelftestHasNoBehaviour
  deriving DecidableEq, Repr

/-- Response status (R112, R113). The three blob statuses are reserved and never returned. -/
inductive Status where
  | ok
  | commError
  | timeout
  | initError
  | blobInvalid
  | blobUpload
  | blobVerify
  | invalidCal
  | ringUnhook
  | illegalCmd
  | badChannel
  | badPattern
  | busy
  deriving DecidableEq, Repr, Inhabited

/-- One response on the host command port: (STATUS, RDATA) (R101). -/
structure Response where
  status : Status
  rdata  : Word
  deriving DecidableEq, Repr, Inhabited

/-- A request on the host command port (R101). -/
structure HostReq where
  cmd  : Word
  data : Word
  deriving DecidableEq, Repr, Inhabited

/-- An event presented on the interrupt event port (R102). -/
structure EventReq where
  cmd  : Word
  data : Word
  src  : Byte
  deriving DecidableEq, Repr, Inhabited

/-- A queued interrupt event: optional already-read status byte, arrival time, source identifier (R41). -/
structure IrqEvent where
  payload : Option Byte
  t       : Word
  src     : Byte
  deriving DecidableEq, Repr, Inhabited

/-- What a LOG event reports (R116). -/
inductive LogCode where
  | irqStatusReadFail
  | irqFlagReadFail
  | hookReadFail
  | ringLfFail
  | irqDiscarded
  | irqPortIllegal
  deriving DecidableEq, Repr, Inhabited

/-- Why a ring ended (R117, R259). -/
inductive RingEndReason where
  | exhausted
  | cancelled
  deriving DecidableEq, Repr, Inhabited

/-- An event on the event output port (R117). A HighFlag is its ordinal. -/
inductive Event where
  | flag (c : Chan) (h : Nat)
  | hookflash (c : Chan)
  | pulseDigit (c : Chan) (count : Byte)
  | onhookTimeout (c : Chan)
  | offhookTimeout (c : Chan)
  | ringEnd (c : Chan) (reason : RingEndReason)
  | log (c : Chan) (code : LogCode) (info : BitVec 24)
  deriving DecidableEq, Repr, Inhabited

/-- How a transport register read ended: a byte, a failure, or abandoned by a reset (R74, R350). -/
inductive ReadEnd where
  | data (v : Byte)
  | failed
  | abandoned
  deriving DecidableEq, Repr, Inhabited

/-- How a transport register write ended: done, a failure, or abandoned by a reset (R74, R350). -/
inductive WriteEnd where
  | done
  | failed
  | abandoned
  deriving DecidableEq, Repr, Inhabited

/-- One transport operation the block issued, with how it ended (R15, R75). -/
inductive WireOp where
  | read (c : Chan) (a : Byte) (r : ReadEnd)
  | write (c : Chan) (a : Byte) (v : Byte) (r : WriteEnd)
  deriving DecidableEq, Repr, Inhabited

/-- What the environment has ready for the next transport operation (R74, R350). -/
inductive Answer where
  /-- A read returns v, a write completes. -/
  | data (v : Byte)
  /-- The operation fails. -/
  | fail
  /-- Reset is asserted while the operation is outstanding; its response is never seen (R350). -/
  | resetDuring
  deriving DecidableEq, Repr, Inhabited

/-- One entry of the schedule: who moves next (R14, R81). -/
inductive Slot where
  /-- The command agent. -/
  | command
  /-- The interrupt event port looks at the event presented to it (R203). -/
  | eventPort
  /-- The interrupt agent. -/
  | interrupt
  /-- The ringer agent of channel c. -/
  | ringer (c : Chan)
  /-- The time base advances by ms (R45). -/
  | tick (ms : Word)
  /-- The reset input is asserted (R350). -/
  | reset
  deriving DecidableEq, Repr, Inhabited

/-- Who holds the transport (R43). -/
inductive Grant where
  | none
  | command
  | interrupt
  | ringer (c : Chan)
  deriving DecidableEq, Repr, Inhabited

/-- A RamTransaction: the split address and, on a write, the four lanes D0 to D3 (R40). -/
structure RamTransaction where
  addrHi : Byte
  addrLo : Byte
  lanes  : Option (Vector Byte 4)
  deriving DecidableEq, Repr, Inhabited

/-- A pending channel with its stage-1 mask (R190). -/
abbrev Pending := Chan × BitVec 4

/-- How `SetLineFeed` ended: OK, or a transport failure at a register of its channel (R220). -/
inductive LfResult where
  | ok
  | commError (a : Byte)
  deriving DecidableEq, Repr, Inhabited

/-- The interrupt agent's sequencer position inside `Process` (R24, R198). `t` is the event's arrival time, `todo` the
stage-1 pairs not yet decoded, `flags` the HighFlags of stage 2 so far. -/
inductive IrqPos where
  | idle
  /-- Wants the grant for the stage-1 read. -/
  | wantStatus (t : Word)
  /-- The stage-1 read has ended. -/
  | haveStatus (t : Word) (r : Option Byte)
  /-- About to look at the next pair. -/
  | pairs (t : Word) (todo : List Pending)
  /-- Wants the grant for the read of flag register i. -/
  | wantFlag (t : Word) (c : Chan) (i : Fin 3) (flags : List Nat) (todo : List Pending)
  /-- The read of flag register i has ended. -/
  | haveFlag (t : Word) (c : Chan) (i : Fin 3) (flags : List Nat) (todo : List Pending) (r : Option Byte)
  /-- Dispatching: the flags `left` are still to be reported; then `HOOK` is looked for in all of them. -/
  | dispatch (t : Word) (c : Chan) (left flags : List Nat) (todo : List Pending)
  /-- Wants the grant for the hook status read. -/
  | wantHook (t : Word) (c : Chan) (todo : List Pending)
  /-- The hook status read has ended. -/
  | haveHook (t : Word) (c : Chan) (todo : List Pending) (r : Option Byte)
  deriving DecidableEq, Repr, Inhabited

/-- A ringer agent's sequencer position (R24, R253, R255, R259). -/
inductive RingPos where
  /-- Not waiting: about to run `RingerPhase`. -/
  | ready
  /-- Wants the grant for the phase's `SetLineFeed(req)`; d is the phase duration. -/
  | wantPhase (req : LfState) (d : Word)
  /-- The phase's `SetLineFeed` has ended; a failure of it is still to be logged. -/
  | havePhase (d : Word) (r : LfResult)
  /-- Waits for the deadline or a cancellation. -/
  | waiting
  /-- Wants the grant for the exit's `SetLineFeed(IDLE)`. -/
  | wantExit (reason : RingEndReason)
  /-- The exit's `SetLineFeed` has ended; a failure of it is still to be logged. -/
  | haveExit (reason : RingEndReason) (r : LfResult)
  /-- `RING_END` has been emitted; about to stop. -/
  | ended
  deriving DecidableEq, Repr, Inhabited

/-- The cadence table of a channel (R23, R38). -/
structure Cadence where
  total : Word
  n     : Byte
  phase : Vector Word 16
  deriving DecidableEq, Repr, Inhabited

/-- HookDebounceState of a channel (R23, R34). -/
structure Hook where
  level : Level
  lastT : Word
  count : Byte
  await : Bool
  deriving DecidableEq, Repr, Inhabited

/-- Ringer state of a channel (R23, R39), with the agent's sequencer position. -/
structure Ring where
  active   : Bool
  idx      : Byte
  t0       : Word
  cancel   : Bool
  deadline : Word
  pos      : RingPos
  deriving DecidableEq, Repr, Inhabited

/-- The per-channel fields (R23). -/
structure ChanState where
  thr  : HookThresholds
  cad  : Cadence
  lf   : LfState
  hook : Hook
  ring : Ring
  deriving DecidableEq, Repr, Inhabited

/-- The block's own state (R20 to R44). -/
structure Block where
  ramRetryBudget : Half
  ramPollDelay   : Half
  calRetryBudget : Half
  calPollDelay   : Half
  /-- N, the number of active channels (R44). -/
  n              : Fin 3
  irqEn          : Bool
  irqQ           : List IrqEvent
  irqQcount      : Byte
  grant          : Grant
  /-- The RamTransaction of a RAM command in progress (R40). -/
  ramTx          : Option RamTransaction
  /-- The command in progress; `none` when the command agent is idle (R24, R101). -/
  cmd            : Option Instr
  irqPos         : IrqPos
  ch0            : ChanState
  ch1            : ChanState
  deriving DecidableEq, Repr

/-- The environment's side of the ports (R100) and the open choices, as data. -/
structure Env where
  /-- `NOW` (R45). -/
  now       : Word
  /-- Requests waiting at the host command port, oldest first (R101). -/
  hostQ     : List HostReq
  /-- Events waiting at the interrupt event port, oldest first (R102, R203). -/
  eventQ    : List EventReq
  /-- The chip's answers, next first (R74; log entry 2). -/
  answers   : List Answer
  /-- How many free answers have been taken (log entry 2). -/
  freeCount : Nat
  /-- Who moves next (R81; log entry 3). -/
  sched     : List Slot
  /-- Whose turn it is where the schedule names nobody: a place of the fair rotation (R81; log entry 3). -/
  turn      : Fin 6
  /-- For each moment inside a step at which only a reset can fall, next first: whether one does. Where the list has ended,
  none does (R350; log entry 15). -/
  resets    : List Bool
  deriving DecidableEq, Repr

/-- The observable sequences of R15, oldest first (log entry 10). -/
structure Output where
  wire   : List WireOp
  resps  : List Response
  events : List Event
  deriving DecidableEq, Repr

/-- The whole machine: the parameters (R9; log entry 1), the block, its environment, its outputs. -/
structure State where
  par : Params
  blk : Block
  env : Env
  out : Output
  deriving DecidableEq, Repr

/-- The reset value of a channel's fields (R352). -/
def ChanState.reset (thr : HookThresholds) : ChanState where
  thr := thr
  cad := { total := 0, n := 0, phase := Vector.replicate 16 0 }
  lf := .nop
  hook := { level := .onhook, lastT := 0, count := 0, await := false }
  ring := { active := false, idx := 0, t0 := 0, cancel := false, deadline := 0, pos := .ready }

/-- The reset value of the block (R352). -/
def Block.reset (par : Params) : Block where
  ramRetryBudget := 10
  ramPollDelay := 5
  calRetryBudget := 10
  calPollDelay := 15
  n := 0
  irqEn := false
  irqQ := []
  irqQcount := 0
  grant := .none
  ramTx := none
  cmd := none
  irqPos := .idle
  ch0 := ChanState.reset par.hookReset0
  ch1 := ChanState.reset par.hookReset1

/-- The machine right after reset (R352, R353): the environment has presented nothing yet. -/
def State.reset : State where
  par := Config.params
  blk := Block.reset Config.params
  env := { now := Config.nowAtReset, hostQ := [], eventQ := [], answers := [], freeCount := 0, sched := [],
           turn := 0, resets := [] }
  out := { wire := [], resps := [], events := [] }

end Sys2Proof.Machine
end

