-- ==== Sys2Proof/Machine/Operands.lean ====
section
/-! DEFINITION. Operand forms: channels, configuration indices, the wire encodings of 30_encoding.md section 7, and the
numeric codes of statuses, log records and events (30_encoding.md section 6). -/

namespace Sys2Proof.Machine

/-! ### Channels -/

/-- The channel a CH field names, if it is below `MAX_CH` (R8, R306). -/
def chanOf (ch : BitVec 4) : Option Chan :=
  match ch.toNat with
  | 0 => some .zero
  | 1 => some .one
  | _ => none

/-- The active channel a CH field names: `CH < S.n` (R142, R306). -/
def activeChan (n : Fin 3) (ch : BitVec 4) : Option Chan :=
  match chanOf ch with
  | some c => if c.toNat < n.val then some c else none
  | none => none

/-- The channels 0 .. n−1, ascending (R173, R303). -/
def channelsBelow (n : Fin 3) : List Chan := [Chan.zero, Chan.one].filter (fun c => decide (c.toNat < n.val))

/-- `(c << 8) | a`, what a COMM_ERROR or a TIMEOUT records (R114). -/
def failInfo (c : Chan) (a : Byte) : Word := (BitVec.ofNat 32 c.toNat <<< 8) ||| a.setWidth 32

/-! ### The RAM window -/

/-- `addr_hi = (addr >> 3) & 0xE0` (R120). -/
def ramAddrHi (addr : BitVec 12) : Byte := (addr >>> 3).setWidth 8 &&& 0xE0#8

/-- `addr_lo = addr & 0xFF` (R120). -/
def ramAddrLo (addr : BitVec 12) : Byte := addr.setWidth 8

/-- The write lanes D0 to D3 of a value (R121, R77). -/
def ramLanes (v : Word) : Vector Byte 4 :=
  #v[(v <<< 3).setWidth 8, (v >>> 5).setWidth 8, (v >>> 13).setWidth 8, (v >>> 21).setWidth 8]

/-- `(d3 << 21) | (d2 << 13) | (d1 << 5) | (d0 >> 3)` (R121). -/
def ramReassemble (d3 d2 d1 d0 : Byte) : Word :=
  (d3.setWidth 32 <<< 21) ||| (d2.setWidth 32 <<< 13) ||| (d1.setWidth 32 <<< 5) ||| (d0.setWidth 32 >>> 3)

/-- Bit 0 of the RAM status: 1 means busy (R122). -/
def ramBusy (s : Byte) : Bool := s.getLsbD 0

/-! ### Calibration -/

/-- `seed[i] = DATA[8i+7 : 8i]` (R170). -/
def seedByte (seeds : Word) (i : Nat) : Byte := seeds.extractLsb' (8 * i) 8

/-- The i-th of the four consecutive calibration registers (R173). -/
def calReg (base : Byte) (i : Nat) : Byte := base + BitVec.ofNat 8 i

/-- Bit 7 of the calibration status: 1 means in progress (R123). -/
def calBusy (s : Byte) : Bool := s.getLsbD 7

/-! ### Interrupt status -/

/-- Stage 1: the pending channels of a status byte with their masks, channel 0 first (R190, R124). -/
def stage1 (s : Byte) : List Pending :=
  (if s &&& 0x0F#8 ≠ 0#8 then [(Chan.zero, s.extractLsb' 0 4)] else []) ++
  (if s &&& 0xF0#8 ≠ 0#8 then [(Chan.one, s.extractLsb' 4 4)] else [])

/-- One pair's bits in the packing: `(1 << (8c + 4)) | (m << 8c)` (R206, R115). -/
def pendingBits (p : Pending) : Word :=
  ((1#32 <<< 4) ||| p.2.setWidth 32) <<< (8 * p.1.toNat)

/-- The RDATA of `IRQ_CHANNELS` (R206, R115). -/
def irqChannelsWord (s : Byte) : Word :=
  (stage1 s).foldl (fun r p => r ||| pendingBits p) (s.setWidth 32 <<< 16)

/-! ### Linefeed, hook status, AUTO -/

/-- `current = v[3:0]` of the linefeed byte (R125). -/
def lfCurrent (v : Byte) : BitVec 4 := v.extractLsb' 0 4

/-- `previous = v[7:4]` of the linefeed byte (R125). -/
def lfPrevious (v : Byte) : BitVec 4 := v.extractLsb' 4 4

/-- The byte written to `REG_LINEFEED`: `zext_8(LF_CODE(s))` (R125). -/
def lfWriteByte (p : Params) (req : LfState) : Byte := (p.lfCode req).setWidth 8

/-- The AUTO bracket's first value: `a & ~AUTO_MASK` (R128). -/
def autoCleared (p : Params) (a : Byte) : Byte := a &&& ~~~p.autoMask

/-- The hook level of a hook status byte: bit 1 set means on-hook (R126, R35). -/
def hookLevelOf (r : Byte) : Level := Level.ofBit (r.getLsbD 1)

/-! ### Configuration indices -/

/-- The global fields (R21). -/
inductive GlobalField where
  | ramRetryBudget
  | ramPollDelay
  | calRetryBudget
  | calPollDelay
  | n
  | irqEn
  | irqQcount
  deriving DecidableEq, Repr

/-- The per-channel fields (R23). -/
inductive ChanField where
  | minDigit
  | maxDigit
  | minFlash
  | maxFlash
  | minInterDigit
  | minHookTimeout
  | cadTotal
  | cadN
  | cadPhase (k : Fin 16)
  | lfState
  | hkLevel
  | hkLastT
  | hkCount
  | hkAwait
  | ringActive
  | ringIdx
  | ringT0
  | ringCancel
  deriving DecidableEq, Repr

/-- A configuration field (R72). -/
inductive CfgField where
  | global (f : GlobalField)
  | chan (c : Chan) (f : ChanField)
  deriving DecidableEq, Repr

/-- The global field at an index (R21). -/
def globalFieldAt (idx : BitVec 12) : Option GlobalField :=
  match idx.toNat with
  | 0x000 => some .ramRetryBudget
  | 0x001 => some .ramPollDelay
  | 0x002 => some .calRetryBudget
  | 0x003 => some .calPollDelay
  | 0x004 => some .n
  | 0x005 => some .irqEn
  | 0x006 => some .irqQcount
  | _ => none

/-- The per-channel field at an index (R23). -/
def chanFieldAt (idx : BitVec 12) : Option ChanField :=
  if idx.extractLsb' 4 8 = 0x21#8 then some (.cadPhase (idx.extractLsb' 0 4).toFin) else
  match idx.toNat with
  | 0x100 => some .minDigit
  | 0x101 => some .maxDigit
  | 0x102 => some .minFlash
  | 0x103 => some .maxFlash
  | 0x104 => some .minInterDigit
  | 0x105 => some .minHookTimeout
  | 0x200 => some .cadTotal
  | 0x201 => some .cadN
  | 0x300 => some .lfState
  | 0x301 => some .hkLevel
  | 0x302 => some .hkLastT
  | 0x303 => some .hkCount
  | 0x304 => some .hkAwait
  | 0x305 => some .ringActive
  | 0x306 => some .ringIdx
  | 0x307 => some .ringT0
  | 0x308 => some .ringCancel
  | _ => none

/-- `CfgDecode(idx, c)` (R300): the field, or the status it raises. -/
def cfgDecode (idx : BitVec 12) (ch : BitVec 4) : Except Status CfgField :=
  match globalFieldAt idx with
  | some f => if ch = 0#4 then .ok (.global f) else .error .illegalCmd
  | none =>
    match chanFieldAt idx with
    | some f =>
      match chanOf ch with
      | some c => .ok (.chan c f)
      | none => .error .badChannel
    | none => .error .illegalCmd

/-- A cadence field, BUSY while its channel rings (R25). -/
def ChanField.isCadence : ChanField → Bool
  | .cadTotal => true
  | .cadN => true
  | .cadPhase _ => true
  | .minDigit => false
  | .maxDigit => false
  | .minFlash => false
  | .maxFlash => false
  | .minInterDigit => false
  | .minHookTimeout => false
  | .lfState => false
  | .hkLevel => false
  | .hkLastT => false
  | .hkCount => false
  | .hkAwait => false
  | .ringActive => false
  | .ringIdx => false
  | .ringT0 => false
  | .ringCancel => false

/-! ### Numeric codes -/

/-- The STATUS byte (R112). -/
def Status.code : Status → Byte
  | .ok => 0x00
  | .commError => 0x01
  | .timeout => 0x02
  | .initError => 0x03
  | .blobInvalid => 0x04
  | .blobUpload => 0x05
  | .blobVerify => 0x06
  | .invalidCal => 0x07
  | .ringUnhook => 0x08
  | .illegalCmd => 0x80
  | .badChannel => 0x81
  | .badPattern => 0x82
  | .busy => 0x83

/-- The log code, EDATA[31:24] of a LOG event (R116). -/
def LogCode.code : LogCode → Byte
  | .irqStatusReadFail => 0x01
  | .irqFlagReadFail => 0x02
  | .hookReadFail => 0x03
  | .ringLfFail => 0x04
  | .irqDiscarded => 0x05
  | .irqPortIllegal => 0x06

/-- EDATA of RING_END: 0 exhausted, 1 cancelled (R117, R259). -/
def RingEndReason.code : RingEndReason → Word
  | .exhausted => 0
  | .cancelled => 1

/-- An event as the port carries it: (ETYPE, ECH, EDATA) (R117). -/
def Event.encode : Event → Byte × BitVec 4 × Word
  | .flag c h => (0x01, BitVec.ofNat 4 c.toNat, BitVec.ofNat 32 h)
  | .hookflash c => (0x02, BitVec.ofNat 4 c.toNat, 0)
  | .pulseDigit c count => (0x03, BitVec.ofNat 4 c.toNat, count.setWidth 32)
  | .onhookTimeout c => (0x04, BitVec.ofNat 4 c.toNat, 0)
  | .offhookTimeout c => (0x05, BitVec.ofNat 4 c.toNat, 0)
  | .ringEnd c reason => (0x06, BitVec.ofNat 4 c.toNat, reason.code)
  | .log c code info => (0x07, BitVec.ofNat 4 c.toNat, code.code ++ info)

/-- The status of a `SetLineFeed` (R220). -/
def LfResult.status : LfResult → Status
  | .ok => .ok
  | .commError _ => .commError

/-- A one-bit field read as a word. -/
def bitWord (b : Bool) : Word := (BitVec.ofBool b).setWidth 32

end Sys2Proof.Machine
end

