-- ==== Sys2Proof/Machine/Flags.lean ====
section
/-! DEFINITION. The pure computations over flags and fields: stage-2 flag accumulation (42_interrupt_demux.md), the hook
pulse debounce filter (45_hook_detector.md), the cadence checks (44_ring_cadence.md), the linefeed guards (43_line_state.md). -/

namespace Sys2Proof.Machine

/-! ### Stage 2 -/

/-- Add a HighFlag at its first sight only (R193). -/
def addFlag (flags : List Nat) : FlagEntry → List Nat
  | .unmapped => flags
  | .noflag => flags
  | .flag h => if h ∈ flags then flags else flags ++ [h]

/-- The flags after flag register i read r: its set bits in ascending order through `FLAG_MAP` (R191). -/
def addFlags (p : Params) (i : Fin 3) (r : Byte) (flags : List Nat) : List Nat :=
  (List.finRange 8).foldl
    (fun acc b => if r.getLsbD b.val then addFlag acc (p.flagMap[i][b]) else acc) flags

/-! ### The hook pulse debounce filter -/

/-- `d ∈ [lo, hi]`, a closed interval (R283). -/
def inWindow (lo hi d : Word) : Bool := decide (lo ≤ d) && decide (d ≤ hi)

/-- `min(count + 1, 255)` (R36, R280). -/
def countUp (count : Byte) : Byte := if count = 255#8 then 255#8 else count + 1#8

/-- `HookReset` (R281). -/
def hookReset (h : Hook) : Hook := { h with count := 0, await := false }

/-- `HookSample`'s state and whether it emits HOOKFLASH (R280, R285). -/
def hookSample (thr : HookThresholds) (lvl : Level) (t : Word) (h : Hook) : Hook × Bool :=
  if lvl = h.level then (h, false) else
  let delta := elapsedSince t h.lastT
  let counted := if lvl = .offhook && inWindow thr.minDigit thr.maxDigit delta then countUp h.count else h.count
  let changed : Hook := { h with level := lvl, lastT := t, count := counted }
  if inWindow thr.minFlash thr.maxFlash delta then (hookReset changed, true)
  else ({ changed with await := true }, false)

/-- What a hook tick reports. -/
inductive TickReport where
  | nothing
  | timeout (lvl : Level)
  | digit (count : Byte)
  deriving DecidableEq, Repr

/-- What `HookTick` reports (R282, R283). -/
def hookTickReport (thr : HookThresholds) (t : Word) (h : Hook) : TickReport :=
  if h.await = false then .nothing else
  let delta := elapsedSince t h.lastT
  if thr.minInterDigit ≤ delta then
    if thr.minHookTimeout < delta then .timeout h.level
    else if h.count ≠ 0#8 then .digit h.count else .nothing
  else .nothing

/-- `HookTick`'s state: a reset exactly when it reports (R282). -/
def hookTick (thr : HookThresholds) (t : Word) (h : Hook) : Hook :=
  match hookTickReport thr t h with
  | .nothing => h
  | .timeout _ => hookReset h
  | .digit _ => hookReset h

/-! ### The linefeed guards -/

/-- The two guards of `SetLineFeed` (R220, R225): already ringing, or ring-to-idle still settling. -/
def lfGuarded (p : Params) (req : LfState) (v : Byte) : Bool :=
  (decide (req = .ringing) && decide (lfCurrent v = p.lfCode .ringing)) ||
  (decide (lfPrevious v = p.lfCode .ringing) && decide (lfCurrent v ≠ p.lfCode .ringing))

/-! ### The cadence -/

/-- The phase duration at index k. Every index a ring uses is below 16 (log entry 14). -/
def Cadence.phaseAt (cad : Cadence) (k : Nat) : Word := if h : k < 16 then cad.phase[k] else 0

/-- Validity of a cadence table (R251, R38). -/
def Cadence.valid (cad : Cadence) : Bool :=
  decide (cad.n.toNat % 2 = 0) && decide (2 ≤ cad.n.toNat) && decide (cad.n.toNat ≤ 16) &&
  (List.range cad.n.toNat).all (fun k => decide (1#32 ≤ cad.phaseAt k))

/-- `min(phase k, time remaining)` (R253, R254). -/
def phaseDuration (cad : Cadence) (idx : Byte) (elapsed : Word) : Word :=
  let remaining := cad.total - elapsed
  let d := cad.phaseAt idx.toNat
  if d ≤ remaining then d else remaining

/-- The state of phase k: even phases are ON, odd ones OFF (R253, R38). -/
def phaseState (idx : Byte) : LfState := if idx.toNat % 2 = 0 then .ringing else .ringIdle

/-- `(k + 1) mod n` (R253). -/
def nextIdx (cad : Cadence) (idx : Byte) : Byte := BitVec.ofNat 8 ((idx.toNat + 1) % cad.n.toNat)

/-- `WaitUntil(t)` is over: `NOW ⊖ t < 2^31` (R12, R255). -/
def timeReached (now t : Word) : Bool := decide (elapsedSince now t < 0x80000000#32)

/-- The ringer's wait is over: the deadline is reached or a cancellation is requested (R255, R257). -/
def ringWakes (now : Word) (r : Ring) : Bool := timeReached now r.deadline || r.cancel

end Sys2Proof.Machine
end

