-- ==== Sys2Proof/Machine/Ops.lean ====
section
/-! DEFINITION. The named operations every meaning is built from: reads and writes of the state's fields, emission,
transport operations, reset, raising an error and ending a command (00_scope.md rule R12, 60_exceptions.md rules R329 and
R330). -/

namespace Sys2Proof.Machine

/-! ### Field access -/

/-- The fields of channel c. -/
def Block.chan (b : Block) : Chan → ChanState
  | .zero => b.ch0
  | .one => b.ch1

/-- Replace the fields of channel c. -/
def Block.setChan (b : Block) : Chan → ChanState → Block
  | .zero, x => { b with ch0 := x }
  | .one, x => { b with ch1 := x }

/-- The fields of channel c. -/
def State.chan (s : State) (c : Chan) : ChanState := s.blk.chan c

/-- Replace the fields of channel c. -/
def State.setChan (s : State) (c : Chan) (x : ChanState) : State := { s with blk := s.blk.setChan c x }

/-- Replace HookDebounceState of channel c. -/
def State.setHook (s : State) (c : Chan) (h : Hook) : State := s.setChan c { s.chan c with hook := h }

/-- Replace the ringer state of channel c. -/
def State.setRing (s : State) (c : Chan) (r : Ring) : State := s.setChan c { s.chan c with ring := r }

/-- `S.lf_state[c] <- x`. -/
def State.setLf (s : State) (c : Chan) (x : LfState) : State := s.setChan c { s.chan c with lf := x }

/-- `if S.ring_active[c] == 1: S.ring_cancel[c] <- 1` (R195, R260, R261). The test and the write are one
change for `Dispatch` (R341); for RING_CANCEL and RING_CANCEL_ALL that is the model's choice (log entry 5). -/
def State.requestCancel (s : State) (c : Chan) : State :=
  if (s.chan c).ring.active then s.setRing c { (s.chan c).ring with cancel := true } else s

/-- `S.grant <- g` (R43). -/
def State.setGrant (s : State) (g : Grant) : State := { s with blk := { s.blk with grant := g } }

/-- `S.n <- n` (R44). -/
def State.setN (s : State) (n : Fin 3) : State := { s with blk := { s.blk with n := n } }

/-- The RamTransaction in progress (R40). -/
def State.setRamTx (s : State) (tx : Option RamTransaction) : State := { s with blk := { s.blk with ramTx := tx } }

/-- The command in progress (R24). -/
def State.setCmd (s : State) (i : Option Instr) : State := { s with blk := { s.blk with cmd := i } }

/-- The interrupt agent's position (R24). -/
def State.setIrqPos (s : State) (p : IrqPos) : State := { s with blk := { s.blk with irqPos := p } }

/-- `len(S.irq_q)` as the u8 `S.irq_qcount`; more than a u8 counts is a free value (log entry 7). -/
def queueCount (len : Nat) : Byte := if len < 256 then BitVec.ofNat 8 len else Config.freeQcount len

/-- `S.irq_q <- q; S.irq_qcount <- len(S.irq_q)` (R198, R203). -/
def State.setIrqQ (s : State) (q : List IrqEvent) : State :=
  { s with blk := { s.blk with irqQ := q, irqQcount := queueCount q.length } }

/-- The schedule. -/
def State.setSched (s : State) (l : List Slot) : State := { s with env := { s.env with sched := l } }

/-- The moments at which a reset falls. -/
def State.setResets (s : State) (l : List Bool) : State := { s with env := { s.env with resets := l } }

/-- Whose turn it is where the schedule names nobody. -/
def State.setTurn (s : State) (k : Fin 6) : State := { s with env := { s.env with turn := k } }

/-- `NOW`. -/
def State.setNow (s : State) (t : Word) : State := { s with env := { s.env with now := t } }

/-- The time base advances by ms (R45). -/
def State.advance (s : State) (ms : Word) : State := s.setNow (s.env.now + ms)

/-! ### Outputs -/

/-- `Emit(e)` (R12, R103). -/
def State.emit (s : State) (e : Event) : State := { s with out := { s.out with events := s.out.events ++ [e] } }

/-- Record a transport operation (R15). -/
def State.logWire (s : State) (w : WireOp) : State := { s with out := { s.out with wire := s.out.wire ++ [w] } }

/-- Present a response (R101). -/
def State.present (s : State) (r : Response) : State := { s with out := { s.out with resps := s.out.resps ++ [r] } }

/-! ### Reset -/

/-- The reset input (R350, R351): every field of the block takes its reset value, every agent is idle, a command in
progress gets no response, no event is emitted. The environment and what was already output stay (log entry 15). -/
def State.blockReset (s : State) : State := { s with blk := Block.reset s.par }

/-! ### Runs -/

/-- Why a sequence ends before its end: an error raised (R12 `raise`), or reset. -/
inductive Stop where
  | raised (st : Status) (info : Word)
  | reset
  deriving DecidableEq, Repr, Inhabited

/-- A sequence of an agent: it changes the state and either goes on with a value or stops. The state of a stop is kept:
nothing is rolled back (R330). -/
abbrev Run (α : Type) := EStateM Stop State α

/-- `raise st(info)` (R12). -/
def raise {α : Type} (st : Status) (info : Word) : Run α := fun s => .error (.raised st info) s

/-- Raise st with RDATA = 0 unless b (R325). -/
def require (b : Bool) (st : Status) : Run Unit := if b then pure () else raise st 0

/-- A moment at which a reset may fall and nothing else happens: the environment says whether one does (R350; log entry
15). -/
def moment : Run Unit := fun s =>
  match s.env.resets with
  | [] => .ok () s
  | false :: rest => .ok () (s.setResets rest)
  | true :: rest => .error .reset (s.setResets rest).blockReset

/-- Read from the state. -/
def readS {α : Type} (f : State → α) : Run α := fun s => .ok (f s) s

/-- Change the state. -/
def changeS (f : State → State) : Run Unit := fun s => .ok () (f s)

/-! ### Transport operations -/

/-- The next answer of the chip: the environment's, or, where it has none ready, a free value (R74, log entry 2). -/
def State.takeAnswer (s : State) : Answer × State :=
  match s.env.answers with
  | a :: rest => (a, { s with env := { s.env with answers := rest } })
  | [] =>
    (match Config.freeAnswer s.env.freeCount with
      | some v => .data v
      | none => .fail,
     { s with env := { s.env with freeCount := s.env.freeCount + 1 } })

/-- One transport register read: the byte, or `none` where the transport fails (R12 `MemRead`, R74). -/
def readOp (c : Chan) (a : Byte) : Run (Option Byte) := fun s =>
  match s.takeAnswer with
  | (.data v, s') => .ok (some v) (s'.logWire (.read c a (.data v)))
  | (.fail, s') => .ok none (s'.logWire (.read c a .failed))
  | (.resetDuring, s') => .error .reset (s'.logWire (.read c a .abandoned)).blockReset

/-- One transport register write: whether it completed (R12 `MemWrite`, R74). -/
def writeOp (c : Chan) (a : Byte) (v : Byte) : Run Bool := fun s =>
  match s.takeAnswer with
  | (.data _, s') => .ok true (s'.logWire (.write c a v .done))
  | (.fail, s') => .ok false (s'.logWire (.write c a v .failed))
  | (.resetDuring, s') => .error .reset (s'.logWire (.write c a v .abandoned)).blockReset

/-- Run a sequence while holding the grant; the grant returns to none when it ends or raises (R80). -/
def holding {α : Type} (g : Grant) (body : Run α) : Run α := fun s =>
  match body.run (s.setGrant g) with
  | .ok a s' => .ok a (s'.setGrant .none)
  | .error e s' => .error e (s'.setGrant .none)

/-! ### Ending a command -/

/-- The command in progress ends: its RamTransaction is gone and the command agent is idle (R40, R24, R329). -/
def State.endCommand (s : State) : State := (s.setRamTx none).setCmd none

/-- The state a sequence leaves, however it ends: so a step of another agent ends, a reset included. -/
def settle {α : Type} (r : EStateM.Result Stop State α) : State :=
  match r with
  | .ok _ s => s
  | .error _ s => s

/-- Present a response, unless a reset falls before it (R101, R350). -/
def State.respond (s : State) (r : Response) : State :=
  settle ((do moment; changeS (fun s' => s'.present r) : Run Unit).run s)

/-- How every host command ends: a response, with OK or with the error raised, and the agent idle. This is all the
"exception entry" there is: an error saves nothing and transfers control nowhere (R101, R329). A reset gives no response
(R350). -/
def finish (r : EStateM.Result Stop State Word) : State :=
  match r with
  | .ok rdata s => s.endCommand.respond ⟨.ok, rdata⟩
  | .error (.raised st info) s => s.endCommand.respond ⟨st, info⟩
  | .error .reset s => s

/-- Run the host command i, whose rule is `body`, to its end (R101). A reset may fall before it begins. -/
def command (i : Instr) (body : Run Word) (s : State) : Host.Outcome State Fault Refusal :=
  .next (finish ((do moment; body : Run Word).run (s.setCmd (some i))))

end Sys2Proof.Machine
end

