-- ==== Sys2Proof/Machine/LineFeed.lean ====
section
/-! DEFINITION. The shared sequences of the Line State Machine and the Hook Pulse Detector: `SetLineFeed` (43_line_state.md
rule R220), `HookSample` and `HookTick` with their events (45_hook_detector.md rules R280 and R282). -/

namespace Sys2Proof.Machine

/-- The AUTO bracket of `SetLineFeed`: AUTO cleared, the linefeed code written, AUTO restored to the byte read (R220, R227,
R229). `pt` is what may happen before each operation. -/
def autoBracket (pt : Run Unit) (p : Params) (c : Chan) (req : LfState) (a : Byte) : Run LfResult := do
  pt
  let cleared ← writeOp c p.regAuto (autoCleared p a)
  if cleared then
    pt
    let written ← writeOp c p.regLinefeed (lfWriteByte p req)
    if written then
      pt
      let restored ← writeOp c p.regAuto a
      if restored then
        changeS (fun s => s.setLf c req)
        pure .ok
      else pure (.commError p.regAuto)
    else pure (.commError p.regLinefeed)
  else pure (.commError p.regAuto)

/-- `SetLineFeed(c, req)` (R220): the linefeed read, the two guards, the AUTO read, the bracket. -/
def setLineFeed (pt : Run Unit) (c : Chan) (req : LfState) : Run LfResult := do
  let p ← readS State.par
  pt
  let v ← readOp c p.regLinefeed
  match v with
  | none => pure (.commError p.regLinefeed)
  | some v =>
    if lfGuarded p req v then pure .ok
    else
      pt
      let a ← readOp c p.regAuto
      match a with
      | none => pure (.commError p.regAuto)
      | some a => autoBracket pt p c req a

/-- `HookSample(c, lvl, t)` (R280). -/
def State.feedHook (s : State) (c : Chan) (lvl : Level) (t : Word) : State :=
  match hookSample (s.chan c).thr lvl t (s.chan c).hook with
  | (h, true) => (s.setHook c h).emit (.hookflash c)
  | (h, false) => s.setHook c h

/-- The event of a tick's report, if it reports one (R282, R117). -/
def tickEvent (c : Chan) : TickReport → Option Event
  | .nothing => none
  | .timeout .onhook => some (.onhookTimeout c)
  | .timeout .offhook => some (.offhookTimeout c)
  | .digit count => some (.pulseDigit c count)

/-- `HookTick(c, t)` (R282). -/
def State.tickHook (s : State) (c : Chan) (t : Word) : State :=
  let h := (s.chan c).hook
  let thr := (s.chan c).thr
  let s' := s.setHook c (hookTick thr t h)
  match tickEvent c (hookTickReport thr t h) with
  | some e => s'.emit e
  | none => s'

end Sys2Proof.Machine
end

