-- ==== Sys2Proof/Machine/InterruptAgent.lean ====
section
/-! DEFINITION. The interrupt event port's gate (42_interrupt_demux.md rule R203) and the interrupt agent: one call of
`irqMove` is one atomic unit of the agent or one of its computations (42_interrupt_demux.md rules R190 to R202, R208 to
R212; log entry 5). -/

namespace Sys2Proof.Machine

/-! ### The event port -/

/-- SRC of the event presented to the port; 0 where none is (log entry 9). -/
def State.eventSrc (s : State) : Byte :=
  match s.env.eventQ with
  | r :: _ => r.src
  | [] => 0

/-- The event presented to the port is consumed. -/
def State.consumeEvent (s : State) : State := { s with env := { s.env with eventQ := s.env.eventQ.tail } }

/-- A LOG event of the port carries SRC (R203, R116). -/
def srcInfo (src : Byte) : BitVec 24 := src.setWidth 24

/-- The event presented is consumed and then logged; a reset may fall between (R203, R350). -/
def discardEvent (code : LogCode) : Run Unit := do
  let src ← readS State.eventSrc
  changeS State.consumeEvent
  moment
  changeS (fun s => s.emit (.log .zero code (srcInfo src)))

/-- An ill-formed event is consumed and logged, even while the queue is full (R109, R203; log entry 8). -/
def rejectEvent : Run Unit := discardEvent .irqPortIllegal

/-- There is room in the event queue (R41, R203). -/
def State.hasRoom (s : State) : Bool := decide (s.blk.irqQ.length < s.par.irqQueueDepth)

/-- The event presented is consumed and queued at the tail (R203). -/
def State.queueEvent (s : State) (payload : Option Byte) (t : Word) : State :=
  s.consumeEvent.setIrqQ (s.blk.irqQ ++ [⟨payload, t, s.eventSrc⟩])

/-- The gate for a well-formed event (R203): discarded with a LOG while the port is closed, even while the queue is full (log
entry 8), queued while there is room, else left with its source. -/
def gateEvent (payload : Option Byte) (t : Word) : Run Unit := do
  let opened ← readS (fun s => s.blk.irqEn)
  if opened then
    changeS (fun s => if s.hasRoom then s.queueEvent payload t else s)
  else discardEvent .irqDiscarded

/-- The event port looks at the event presented to it (R203, R102). -/
def eventMove : Run Unit := fun s =>
  match s.env.eventQ with
  | [] => .ok () s
  | r :: _ =>
    match decode r.cmd r.data with
    | .ok (.irqEv t) => (gateEvent none t).run s
    | .ok (.irqEvp status t) => (gateEvent (some status) t).run s
    | _ => rejectEvent.run s

/-! ### The interrupt agent -/

/-- An atomic unit of another agent: run it under its grant if nobody holds the transport, else wait (R80, R82). -/
def whenGranted (g : Grant) (body : Run Unit) : Run Unit := fun s =>
  if s.blk.grant = .none then (holding g body).run s else .ok () s

/-- The agent's next position. -/
def goIrq (p : IrqPos) : Run Unit := changeS (fun s => s.setIrqPos p)

/-- The agent takes the head event of the queue (R198). -/
def State.takeEvent (s : State) (e : IrqEvent) (rest : List IrqEvent) : State :=
  match e.payload with
  | some b => (s.setIrqQ rest).setIrqPos (.pairs e.t (stage1 b))
  | none => (s.setIrqQ rest).setIrqPos (.wantStatus e.t)

/-- After flag register i: the next register, or the dispatch after the last (R191). -/
def afterFlag (t : Word) (c : Chan) (i : Fin 3) (flags : List Nat) (todo : List Pending) : IrqPos :=
  if i = 2 then .dispatch t c flags flags todo else .wantFlag t c (i + 1) flags todo

/-- `HOOK` requests the cancellation of a running ring (R195, R196, R197). -/
def State.preempt (s : State) (c : Chan) (flags : List Nat) : State :=
  if s.par.hookFlag ∈ flags then s.requestCancel c else s

/-- Where `Dispatch` goes on: the hook status read when `HOOK` is among the flags, else the next pair (R195). -/
def afterDispatch (p : Params) (t : Word) (c : Chan) (flags : List Nat) (todo : List Pending) : IrqPos :=
  if p.hookFlag ∈ flags then .wantHook t c todo else .pairs t todo

/-- One move of the interrupt agent (R198). Each FLAG of a dispatch is a move of its own, in first-seen order, so that other
agents may move between two of them (R14, R84, R195). -/
def irqMove : Run Unit := fun s =>
  match s.blk.irqPos with
  | .idle =>
    match s.blk.irqQ with
    | [] => .ok () s
    | e :: rest => .ok () (s.takeEvent e rest)
  | .wantStatus t =>
    (whenGranted .interrupt (do
      let r ← readOp .zero s.par.regIrqStatus
      goIrq (.haveStatus t r))).run s
  | .haveStatus t r =>
    match r with
    | none => .ok () ((s.emit (.log .zero .irqStatusReadFail 0)).setIrqPos .idle)
    | some b => .ok () (s.setIrqPos (.pairs t (stage1 b)))
  | .pairs t todo =>
    match todo with
    | [] => .ok () (s.setIrqPos .idle)
    | (c, _) :: rest =>
      if c.toNat < s.blk.n.val then .ok () (s.setIrqPos (.wantFlag t c 0 [] rest))
      else .ok () (s.setIrqPos (.pairs t rest))
  | .wantFlag t c i flags todo =>
    (whenGranted .interrupt (do
      let r ← readOp c s.par.regIrqFlag[i]
      goIrq (.haveFlag t c i flags todo r))).run s
  | .haveFlag t c i flags todo r =>
    match r with
    | none =>
      .ok () ((s.emit (.log c .irqFlagReadFail (BitVec.ofNat 24 i.val))).setIrqPos (.dispatch t c flags flags todo))
    | some b => .ok () (s.setIrqPos (afterFlag t c i (addFlags s.par i b flags) todo))
  | .dispatch t c left flags todo =>
    match left with
    | h :: rest => .ok () ((s.emit (.flag c h)).setIrqPos (.dispatch t c rest flags todo))
    | [] => .ok () ((s.preempt c flags).setIrqPos (afterDispatch s.par t c flags todo))
  | .wantHook t c todo =>
    (whenGranted .interrupt (do
      let r ← readOp c s.par.regHookStatus
      goIrq (.haveHook t c todo r))).run s
  | .haveHook t c todo r =>
    match r with
    | none => .ok () ((s.emit (.log c .hookReadFail 0)).setIrqPos (.pairs t todo))
    | some b => .ok () ((s.feedHook c (hookLevelOf b) t).setIrqPos (.pairs t todo))

end Sys2Proof.Machine
end

