-- ==== Sys2Proof/Machine/RingerAgent.lean ====
section
/-! DEFINITION. The ringer agents: one call of `ringerMove c` is one atomic unit of channel c's agent or one of its
computations (44_ring_cadence.md rules R253 to R259; log entry 5). A reset may fall between two operations of a unit (R350). -/

namespace Sys2Proof.Machine

/-- The agent's next position. -/
def State.setRingPos (s : State) (c : Chan) (p : RingPos) : State :=
  s.setRing c { (s.chan c).ring with pos := p }

/-- `RingerPhase`'s checks and computation (R253): cancelled, exhausted, or the next phase with its duration and the index
moved on. -/
def State.startPhase (s : State) (c : Chan) : State :=
  let r := (s.chan c).ring
  let cad := (s.chan c).cad
  let elapsed := elapsedSince s.env.now r.t0
  if r.cancel then s.setRingPos c (.wantExit .cancelled)
  else if cad.total ≤ elapsed then s.setRingPos c (.wantExit .exhausted)
  else s.setRing c { r with
    idx := nextIdx cad r.idx
    pos := .wantPhase (phaseState r.idx) (phaseDuration cad r.idx elapsed) }

/-- A `SetLineFeed` of a ringer that failed at register a is logged with its status (R258); the agent goes on at p. -/
def State.logLfFail (s : State) (c : Chan) (a : Byte) (p : RingPos) : State :=
  (s.emit (.log c .ringLfFail ((LfResult.commError a).status.code.setWidth 24))).setRingPos c p

/-- After the phase's `SetLineFeed` and its log: the deadline is set from the time now and the wait begins (R253). -/
def State.beginWait (s : State) (c : Chan) (d : Word) : State :=
  s.setRing c { (s.chan c).ring with deadline := s.env.now + d, pos := .waiting }

/-- After the exit's `SetLineFeed` and its log: RING_END (R259). -/
def State.reportEnd (s : State) (c : Chan) (reason : RingEndReason) : State :=
  (s.emit (.ringEnd c reason)).setRingPos c .ended

/-- The agent stops (R259): it is live only while the channel rings, so its two writes are one move (log entry 5). -/
def State.stopRing (s : State) (c : Chan) : State :=
  s.setRing c { (s.chan c).ring with active := false, cancel := false, pos := .ready }

/-- One move of the ringer agent of channel c; none while it is not live (R253, R255, R257, R259). The log of a failure,
RING_END and the stop are moves of their own, so that other agents may move between them (R14, R84). -/
def ringerMove (c : Chan) : Run Unit := fun s =>
  let r := (s.chan c).ring
  if r.active then
    match r.pos with
    | .ready => .ok () (s.startPhase c)
    | .wantPhase req d =>
      (whenGranted (.ringer c) (do
        let res ← setLineFeed moment c req
        changeS (fun s' => s'.setRingPos c (.havePhase d res)))).run s
    | .havePhase d res =>
      match res with
      | .commError a => .ok () (s.logLfFail c a (.havePhase d .ok))
      | .ok => .ok () (s.beginWait c d)
    | .waiting => if ringWakes s.env.now r then .ok () (s.startPhase c) else .ok () s
    | .wantExit reason =>
      (whenGranted (.ringer c) (do
        let res ← setLineFeed moment c .idle
        changeS (fun s' => s'.setRingPos c (.haveExit reason res)))).run s
    | .haveExit reason res =>
      match res with
      | .commError a => .ok () (s.logLfFail c a (.haveExit reason .ok))
      | .ok => .ok () (s.reportEnd c reason)
    | .ended => .ok () (s.stopRing c)
  else .ok () s

end Sys2Proof.Machine
end

