-- ==== Sys2Proof/Machine/Schedule.lean ====
section
/-! DEFINITION. The open choice of who moves next as data (20_memory.md rules R80 to R84), and the operations of the
command agent: atomic units, transport operations that raise, and delays, between which other agents may move (log
entries 3 and 4). -/

namespace Sys2Proof.Machine

/-- What one slot other than the command agent's does (R14, R45, R203, R350). -/
def move : Slot → Run Unit
  | .command => pure ()
  | .eventPort => eventMove
  | .interrupt => irqMove
  | .ringer c => ringerMove c
  | .tick ms => changeS (fun s => s.advance ms)
  | .reset => fun s => .error .reset s.blockReset

/-- The moves of the others up to the command agent's next turn. -/
def movesUpToCommand : List Slot → Run Unit
  | [] => fun s => .ok () (s.setSched [])
  | slot :: rest => fun s =>
    if slot = .command then .ok () (s.setSched rest)
    else
      match (move slot).run (s.setSched rest) with
      | .ok _ s' => (movesUpToCommand rest).run s'
      | .error e s' => .error e s'

/-- A scheduling point of the command agent: others move as the schedule says, until it is the command agent's turn or
the schedule ends (R81, R84). A reset there abandons the command (R350). -/
def point : Run Unit := fun s => (movesUpToCommand s.env.sched).run s

/-- An atomic unit of the command agent: it waits for the grant, holds it for the whole body, and others may move again
before it goes on (R80). -/
def atomicUnit {α : Type} (body : Run α) : Run α := do
  point
  let a ← holding .command body
  point
  pure a

/-- A register read of a command; a failure raises COMM_ERROR (R12, R76, R320). -/
def cmdRead (c : Chan) (a : Byte) : Run Byte := do
  point
  let r ← readOp c a
  match r with
  | some v => pure v
  | none => raise .commError (failInfo c a)

/-- A register write of a command; a failure raises COMM_ERROR (R12, R76, R320). -/
def cmdWrite (c : Chan) (a : Byte) (v : Byte) : Run Unit := do
  point
  let ok ← writeOp c a v
  if ok then pure () else raise .commError (failInfo c a)

/-- The time base has advanced by at least ms since t0: where the schedule let less pass, the rest passes now. -/
def State.passUntil (s : State) (t0 ms : Word) : State :=
  if elapsedSince s.env.now t0 < ms then s.setNow (t0 + ms) else s

/-- `Delay(ms)` (R12): others may move meanwhile; no transport activity of the command agent. -/
def delay (ms : Half) : Run Unit := do
  let t0 ← readS (fun s => s.env.now)
  point
  changeS (fun s => s.passUntil t0 (ms.setWidth 32))

/-- The check that CH names an active channel (R142, R306). -/
def activeChannel (ch : BitVec 4) : Run Chan := fun s =>
  match activeChan s.blk.n ch with
  | some c => .ok c s
  | none => .error (.raised .badChannel 0) s

end Sys2Proof.Machine
end

