-- ==== Sys2Proof/Machine/Calibration.lean ====
section
/-! DEFINITION. The calibration poll controller: CAL (41_calibration.md). Every transport operation is an atomic unit of
its own, and the grant is not held during a delay (20_memory.md rule R80). -/

namespace Sys2Proof.Machine

/-- Write the seed bytes to the calibration registers listed, ascending (R173). -/
def writeSeeds (c : Chan) (base : Byte) (seeds : Word) : List Nat → Run Unit
  | [] => pure ()
  | i :: rest => do
    atomicUnit (cmdWrite c (calReg base i) (seedByte seeds i))
    writeSeeds c base seeds rest

/-- The seed writes of every channel listed, ascending (R173). -/
def writeAllSeeds (base : Byte) (seeds : Word) : List Chan → Run Unit
  | [] => pure ()
  | c :: rest => do
    writeSeeds c base seeds [0, 1, 2, 3]
    writeAllSeeds base seeds rest

/-- One iteration: read the status of every channel listed; the first busy one, if any (R173). -/
def scanCal (calStatus : Byte) : List Chan → Option Chan → Run (Option Chan)
  | [], firstBusy => pure firstBusy
  | c :: rest, firstBusy => do
    let s ← atomicUnit (cmdRead c calStatus)
    scanCal calStatus rest (if calBusy s && firstBusy.isNone then some c else firstBusy)

/-- `(first_busy << 8) | REG_CAL_STATUS`, with channel 0 where no iteration ran (R173, R321). -/
def calTimeoutInfo (calStatus : Byte) (firstBusy : Option Chan) : Word :=
  failInfo (firstBusy.getD .zero) calStatus

/-- The iterations that are left: a delay between two iterations and none after the last (R173 to R175). -/
def pollCal (calStatus : Byte) (pause : Half) (chans : List Chan) : Nat → Option Chan → Run Unit
  | 0, firstBusy => raise .timeout (calTimeoutInfo calStatus firstBusy)
  | k + 1, _ => do
    let firstBusy ← scanCal calStatus chans none
    match firstBusy with
    | none => pure ()
    | some c =>
      if k = 0 then pollCal calStatus pause chans k (some c)
      else
        delay pause
        pollCal calStatus pause chans k (some c)

/-- The iteration limit `L = 5 × S.cal_retry_budget` (R171). -/
def calLimit (budget : Half) : Nat := 5 * budget.toNat

/-- `CAL len, data` (R173). -/
def calibrate (len : Byte) (seeds : Word) : Run Word := do
  require (decide (len = 4#8)) .invalidCal
  let p ← readS State.par
  let n ← readS (fun s => s.blk.n)
  writeAllSeeds p.regCalBase seeds (channelsBelow n)
  let budget ← readS (fun s => s.blk.calRetryBudget)
  let pause ← readS (fun s => s.blk.calPollDelay)
  pollCal p.regCalStatus pause (channelsBelow n) (calLimit budget) none
  pure 0

/-- CAL (R173). -/
def execCal (len : Byte) (seeds : Word) (s : State) : Host.Outcome State Fault Refusal :=
  command (.cal len seeds) (calibrate len seeds) s

end Sys2Proof.Machine
end

