-- ==== Sys2Proof/Machine/Control.lean ====
section
/-! DEFINITION. The control unit: CFG_WR, CFG_RD, INIT, GET_NCH (46_control.md). -/

namespace Sys2Proof.Machine

/-! ### The configuration map -/

/-- A global field as CFG_RD returns it (R21, R22). -/
def Block.globalField (b : Block) : GlobalField → Word
  | .ramRetryBudget => b.ramRetryBudget.setWidth 32
  | .ramPollDelay => b.ramPollDelay.setWidth 32
  | .calRetryBudget => b.calRetryBudget.setWidth 32
  | .calPollDelay => b.calPollDelay.setWidth 32
  | .n => BitVec.ofNat 32 b.n.val
  | .irqEn => bitWord b.irqEn
  | .irqQcount => b.irqQcount.setWidth 32

/-- A per-channel field as CFG_RD returns it (R23, R33, R35). -/
def ChanState.field (x : ChanState) : ChanField → Word
  | .minDigit => x.thr.minDigit
  | .maxDigit => x.thr.maxDigit
  | .minFlash => x.thr.minFlash
  | .maxFlash => x.thr.maxFlash
  | .minInterDigit => x.thr.minInterDigit
  | .minHookTimeout => x.thr.minHookTimeout
  | .cadTotal => x.cad.total
  | .cadN => x.cad.n.setWidth 32
  | .cadPhase k => x.cad.phase[k]
  | .lfState => x.lf.toBits.setWidth 32
  | .hkLevel => bitWord x.hook.level.toBit
  | .hkLastT => x.hook.lastT
  | .hkCount => x.hook.count.setWidth 32
  | .hkAwait => bitWord x.hook.await
  | .ringActive => bitWord x.ring.active
  | .ringIdx => x.ring.idx.setWidth 32
  | .ringT0 => x.ring.t0
  | .ringCancel => bitWord x.ring.cancel

/-- The field CFG_RD returns (R302). -/
def State.field (s : State) : CfgField → Word
  | .global f => s.blk.globalField f
  | .chan c f => (s.chan c).field f

/-- CFG_WR of a global field: DATA[15:0] into the four RW fields, nothing into the read-only ones (R21, R22). -/
def Block.writeGlobal (b : Block) (v : Word) : GlobalField → Block
  | .ramRetryBudget => { b with ramRetryBudget := v.setWidth 16 }
  | .ramPollDelay => { b with ramPollDelay := v.setWidth 16 }
  | .calRetryBudget => { b with calRetryBudget := v.setWidth 16 }
  | .calPollDelay => { b with calPollDelay := v.setWidth 16 }
  | .n => b
  | .irqEn => b
  | .irqQcount => b

/-- CFG_WR of a per-channel field: DATA[31:0], DATA[7:0] into `cad_n`, nothing into the read-only ones (R23, R25). -/
def ChanState.writeField (x : ChanState) (v : Word) : ChanField → ChanState
  | .minDigit => { x with thr := { x.thr with minDigit := v } }
  | .maxDigit => { x with thr := { x.thr with maxDigit := v } }
  | .minFlash => { x with thr := { x.thr with minFlash := v } }
  | .maxFlash => { x with thr := { x.thr with maxFlash := v } }
  | .minInterDigit => { x with thr := { x.thr with minInterDigit := v } }
  | .minHookTimeout => { x with thr := { x.thr with minHookTimeout := v } }
  | .cadTotal => { x with cad := { x.cad with total := v } }
  | .cadN => { x with cad := { x.cad with n := v.setWidth 8 } }
  | .cadPhase k => { x with cad := { x.cad with phase := x.cad.phase.set k v } }
  | .lfState => x
  | .hkLevel => x
  | .hkLastT => x
  | .hkCount => x
  | .hkAwait => x
  | .ringActive => x
  | .ringIdx => x
  | .ringT0 => x
  | .ringCancel => x

/-- Write a configuration field (R301). -/
def State.writeField (s : State) (v : Word) : CfgField → State
  | .global f => { s with blk := s.blk.writeGlobal v f }
  | .chan c f => s.setChan c ((s.chan c).writeField v f)

/-- The field is a cadence field of a ringing channel (R25, R301). -/
def State.fieldBusy (s : State) : CfgField → Bool
  | .global _ => false
  | .chan c f => f.isCadence && (s.chan c).ring.active

/-- `CfgDecode(idx, c)` as a step of a command (R300). -/
def decodeField (ch : BitVec 4) (idx : BitVec 12) : Run CfgField :=
  match cfgDecode idx ch with
  | .ok f => pure f
  | .error st => raise st 0

/-- `CFG_WR ch, idx, data` (R301). -/
def cfgWrite (ch : BitVec 4) (idx : BitVec 12) (v : Word) : Run Word := do
  let f ← decodeField ch idx
  let busy ← readS (fun s => s.fieldBusy f)
  require (!busy) .busy
  changeS (fun s => s.writeField v f)
  pure 0

/-- `CFG_RD ch, idx` (R302). -/
def cfgRead (ch : BitVec 4) (idx : BitVec 12) : Run Word := do
  let f ← decodeField ch idx
  readS (fun s => s.field f)

/-! ### Probe and initialisation -/

/-- A read of INIT: any transport failure is INIT_ERROR with RDATA = 0 (R303, R322). -/
def initRead (c : Chan) (a : Byte) : Run Byte := do
  point
  let r ← readOp c a
  match r with
  | some v => pure v
  | none => raise .initError 0

/-- The probe: how many channels answer before the first absent one, 0xFF (R303, R127). -/
def probe (regId : Byte) : List Chan → Nat → Run Nat
  | [], n => pure n
  | c :: rest, n => do
    let id ← initRead c regId
    if id = 0xFF#8 then pure n else probe regId rest (n + 1)

/-- `HookInit(c)` once the hook status has been read (R304). R341 does not name it among the helpers that run without
interleaving: that its four field writes are one change, with no sample of another agent between them, is the model's choice
(log entry 5). -/
def State.initHook (s : State) (c : Chan) (r : Byte) : State :=
  s.setHook c { level := hookLevelOf r, lastT := s.env.now, count := 0, await := false }

/-- `HookInit` of every channel listed, ascending (R303, R304). -/
def initHooks (regHook : Byte) : List Chan → Run Unit
  | [] => pure ()
  | c :: rest => do
    let r ← initRead c regHook
    changeS (fun s => s.initHook c r)
    initHooks regHook rest

/-- The probe and the hook initialisation, one atomic unit (R303, R80). It holds the transport, but others may do what needs
no grant at any point of it, before N is stored too (R82, R341). -/
def initSequence : Run (Fin 3) := do
  changeS (fun s => s.setN 0)
  let p ← readS State.par
  let count ← probe p.regId [.zero, .one] 0
  require (decide (count ≠ 0)) .initError
  let n : Fin 3 := Fin.ofNat 3 count
  initHooks p.regHookStatus (channelsBelow n)
  point
  changeS (fun s => s.setN n)
  pure n

/-- `INIT` (R303): RDATA is N, as `respond(OK, n)` of R303 says, against R114's list (log entry 18). -/
def initCmd : Run Word := do
  let ringing ← readS (fun s => (s.chan .zero).ring.active || (s.chan .one).ring.active)
  require (!ringing) .busy
  let n ← atomicUnit initSequence
  pure (BitVec.ofNat 32 n.val)

/-- `GET_NCH` (R305). -/
def getNch : Run Word := readS (fun s => BitVec.ofNat 32 s.blk.n.val)

/-- CFG_WR (R301). -/
def execCfgWr (ch : BitVec 4) (idx : BitVec 12) (v : Word) (s : State) : Host.Outcome State Fault Refusal :=
  command (.cfgWr ch idx v) (cfgWrite ch idx v) s

/-- CFG_RD (R302). -/
def execCfgRd (ch : BitVec 4) (idx : BitVec 12) (s : State) : Host.Outcome State Fault Refusal :=
  command (.cfgRd ch idx) (cfgRead ch idx) s

/-- INIT (R303). -/
def execInit (s : State) : Host.Outcome State Fault Refusal := command .init initCmd s

/-- GET_NCH (R305). -/
def execGetNch (s : State) : Host.Outcome State Fault Refusal := command .getNch getNch s

end Sys2Proof.Machine
end

