-- ==== Sys2Proof/Machine/HookCommands.lean ====
section
/-! DEFINITION. The direct inputs of the hook pulse debounce filter: HOOK_SAMPLE and HOOK_TICK (45_hook_detector.md). -/

namespace Sys2Proof.Machine

/-- `HOOK_SAMPLE ch, level, t` (R286). -/
def hookSampleCmd (ch : BitVec 4) (lvl : Level) (t : Word) : Run Word := do
  let c ← activeChannel ch
  changeS (fun s => s.feedHook c lvl t)
  pure 0

/-- `HOOK_TICK ch, t` (R287). -/
def hookTickCmd (ch : BitVec 4) (t : Word) : Run Word := do
  let c ← activeChannel ch
  changeS (fun s => s.tickHook c t)
  pure 0

/-- HOOK_SAMPLE (R286). -/
def execHookSample (ch : BitVec 4) (lvl : Level) (t : Word) (s : State) : Host.Outcome State Fault Refusal :=
  command (.hookSample ch lvl t) (hookSampleCmd ch lvl t) s

/-- HOOK_TICK (R287). -/
def execHookTick (ch : BitVec 4) (t : Word) (s : State) : Host.Outcome State Fault Refusal :=
  command (.hookTick ch t) (hookTickCmd ch t) s

end Sys2Proof.Machine
end

