-- ==== Sys2Proof/Machine/Interrupt.lean ====
section
/-! DEFINITION. The interrupt commands: IRQ_EV and IRQ_EVP on the interrupt event port, IRQ_CHANNELS and IRQ_ENABLE on the
host port (42_interrupt_demux.md). -/

namespace Sys2Proof.Machine

/-- IRQ_EV on the interrupt event port (R204): the gate of R203. Its processing is the interrupt agent's. -/
def execIrqEv (t : Word) (s : State) : Host.Outcome State Fault Refusal :=
  .next (settle ((gateEvent none t).run s))

/-- IRQ_EVP on the interrupt event port (R205): the gate of R203 with the status byte as payload. -/
def execIrqEvp (status : Byte) (t : Word) (s : State) : Host.Outcome State Fault Refusal :=
  .next (settle ((gateEvent (some status) t).run s))

/-- `IRQ_CHANNELS` (R206). -/
def irqChannels : Run Word := do
  let a ← readS (fun s => s.par.regIrqStatus)
  let status ← atomicUnit (cmdRead .zero a)
  pure (irqChannelsWord status)

/-- `IRQ_ENABLE en` (R207). -/
def irqEnable (en : Bool) : Run Word := do
  changeS (fun s => { s with blk := { s.blk with irqEn := en } })
  pure 0

/-- IRQ_CHANNELS (R206). -/
def execIrqChannels (s : State) : Host.Outcome State Fault Refusal := command .irqChannels irqChannels s

/-- IRQ_ENABLE (R207). -/
def execIrqEnable (en : Bool) (s : State) : Host.Outcome State Fault Refusal :=
  command (.irqEnable en) (irqEnable en) s

end Sys2Proof.Machine
end

