-- ==== Sys2Proof/Machine/LineState.lean ====
section
/-! DEFINITION. The commands of the Line State Machine: SET_LF, START_RING, STOP_RING, GET_HOOK, SET_LOOPBACK
(43_line_state.md). -/

namespace Sys2Proof.Machine

/-- The response of a linefeed request (R221): OK, or COMM_ERROR with the channel and register. -/
def lfRespond (c : Chan) : LfResult → Run Word
  | .ok => pure 0
  | .commError a => raise .commError (failInfo c a)

/-- `SET_LF ch, state` (R221): `SetLineFeed` as one atomic unit. -/
def requestLf (ch : BitVec 4) (req : LfState) : Run Word := do
  let c ← activeChannel ch
  let r ← atomicUnit (setLineFeed point c req)
  lfRespond c r

/-- `GET_HOOK ch` (R224). -/
def getHook (ch : BitVec 4) : Run Word := do
  let c ← activeChannel ch
  let a ← readS (fun s => s.par.regHookStatus)
  let r ← atomicUnit (cmdRead c a)
  pure (bitWord (hookLevelOf r).toBit)

/-- SET_LF (R221). -/
def execSetLf (ch : BitVec 4) (req : LfState) (s : State) : Host.Outcome State Fault Refusal :=
  command (.setLf ch req) (requestLf ch req) s

/-- START_RING, exactly SET_LF ch, RINGING (R222). -/
def execStartRing (ch : BitVec 4) (s : State) : Host.Outcome State Fault Refusal :=
  command (.startRing ch) (requestLf ch .ringing) s

/-- STOP_RING, exactly SET_LF ch, IDLE (R223). -/
def execStopRing (ch : BitVec 4) (s : State) : Host.Outcome State Fault Refusal :=
  command (.stopRing ch) (requestLf ch .idle) s

/-- GET_HOOK (R224). -/
def execGetHook (ch : BitVec 4) (s : State) : Host.Outcome State Fault Refusal :=
  command (.getHook ch) (getHook ch) s

/-- SET_LOOPBACK: refused, "A model **refuses** them: it gives them no step and no response" (R110, R236; log entry 12). -/
def execSetLoopback (_ch : BitVec 4) (_mode : Byte) (_s : State) : Host.Outcome State Fault Refusal :=
  .refused .loopbackHasNoBehaviour

end Sys2Proof.Machine
end

