-- ==== Sys2Proof/Machine/Protocol.lean ====
section
/-! DEFINITION. The Register/RAM Protocol Engine: REG_RD, REG_WR, RAM_RD, RAM_WR (40_protocol_engine.md). -/

namespace Sys2Proof.Machine

/-- `REG_RD ch, a8` (R143). -/
def regRead (ch : BitVec 4) (a : Byte) : Run Word := do
  let c ← activeChannel ch
  let v ← atomicUnit (cmdRead c a)
  pure (v.setWidth 32)

/-- `REG_WR ch, a8, v8` (R144). -/
def regWrite (ch : BitVec 4) (a v : Byte) : Run Word := do
  let c ← activeChannel ch
  atomicUnit (cmdWrite c a v)
  pure 0

/-- The polls of `WaitReady(c)` that are left: a delay between two polls and none after the last (R140, R141). -/
def pollReady (c : Chan) (ramstat : Byte) (pause : Half) : Nat → Run Unit
  | 0 => raise .timeout (failInfo c ramstat)
  | k + 1 => do
    let s ← cmdRead c ramstat
    if ramBusy s then
      if k = 0 then pollReady c ramstat pause k
      else
        delay pause
        pollReady c ramstat pause k
    else pure ()

/-- `WaitReady(c)` (R140). -/
def waitReady (c : Chan) : Run Unit := do
  let budget ← readS (fun s => s.blk.ramRetryBudget)
  let pause ← readS (fun s => s.blk.ramPollDelay)
  let ramstat ← readS (fun s => s.par.regRamstat)
  pollReady c ramstat pause budget.toNat

/-- The one atomic unit of `RAM_WR` (R145, R80). -/
def ramWriteUnit (p : Params) (c : Chan) (addr : BitVec 12) (v : Word) : Run Unit := do
  let d := ramLanes v
  changeS (fun s => s.setRamTx (some ⟨ramAddrHi addr, ramAddrLo addr, some d⟩))
  waitReady c
  cmdWrite c p.regRamAddrHi (ramAddrHi addr)
  cmdWrite c p.regRamD0 d[0]
  cmdWrite c p.regRamD1 d[1]
  cmdWrite c p.regRamD2 d[2]
  cmdWrite c p.regRamD3 d[3]
  cmdWrite c p.regRamAddrLo (ramAddrLo addr)
  waitReady c

/-- `RAM_WR ch, a12, data` (R145). -/
def ramWrite (ch : BitVec 4) (addr : BitVec 12) (v : Word) : Run Word := do
  let c ← activeChannel ch
  let p ← readS State.par
  atomicUnit (ramWriteUnit p c addr v)
  pure 0

/-- The one atomic unit of `RAM_RD` (R146, R80). -/
def ramReadUnit (p : Params) (c : Chan) (addr : BitVec 12) : Run Word := do
  changeS (fun s => s.setRamTx (some ⟨ramAddrHi addr, ramAddrLo addr, none⟩))
  waitReady c
  cmdWrite c p.regRamAddrHi (ramAddrHi addr)
  cmdWrite c p.regRamAddrLo (ramAddrLo addr)
  waitReady c
  let d3 ← cmdRead c p.regRamD3
  let d2 ← cmdRead c p.regRamD2
  let d1 ← cmdRead c p.regRamD1
  let d0 ← cmdRead c p.regRamD0
  pure (ramReassemble d3 d2 d1 d0)

/-- `RAM_RD ch, a12` (R146). -/
def ramRead (ch : BitVec 4) (addr : BitVec 12) : Run Word := do
  let c ← activeChannel ch
  let p ← readS State.par
  atomicUnit (ramReadUnit p c addr)

/-- REG_RD (R143). -/
def execRegRd (ch : BitVec 4) (a : Byte) (s : State) : Host.Outcome State Fault Refusal :=
  command (.regRd ch a) (regRead ch a) s

/-- REG_WR (R144). -/
def execRegWr (ch : BitVec 4) (a v : Byte) (s : State) : Host.Outcome State Fault Refusal :=
  command (.regWr ch a v) (regWrite ch a v) s

/-- RAM_RD (R146). -/
def execRamRd (ch : BitVec 4) (addr : BitVec 12) (s : State) : Host.Outcome State Fault Refusal :=
  command (.ramRd ch addr) (ramRead ch addr) s

/-- RAM_WR (R145). -/
def execRamWr (ch : BitVec 4) (addr : BitVec 12) (v : Word) (s : State) : Host.Outcome State Fault Refusal :=
  command (.ramWr ch addr v) (ramWrite ch addr v) s

end Sys2Proof.Machine
end

