-- ==== Sys2Proof/Machine/RingCommands.lean ====
section
/-! DEFINITION. The commands of the ring cadence generator: RING_BEGIN, RING_CANCEL, RING_CANCEL_ALL, RING_SELFTEST
(44_ring_cadence.md). -/

namespace Sys2Proof.Machine

/-- The ringer agent of channel c becomes live: four field writes, `S.ring_active[c]` last (R252; log entry 5). -/
def State.beginRing (s : State) (c : Chan) : State :=
  s.setRing c { (s.chan c).ring with active := true, idx := 0, t0 := s.env.now, cancel := false, pos := .ready }

/-- `RING_BEGIN` on a channel that is not ringing (R252). -/
def beginWhenIdle (c : Chan) : Run Word := do
  let valid ← readS (fun s => (s.chan c).cad.valid)
  require valid .badPattern
  let a ← readS (fun s => s.par.regHookStatus)
  let r ← atomicUnit (cmdRead c a)
  require (decide (hookLevelOf r = .offhook)) .ringUnhook
  changeS (fun s => s.beginRing c)
  pure 0

/-- `RING_BEGIN ch` (R252). -/
def ringBegin (ch : BitVec 4) : Run Word := do
  let c ← activeChannel ch
  let active ← readS (fun s => (s.chan c).ring.active)
  if active then pure 0 else beginWhenIdle c

/-- `RING_CANCEL ch` (R260). -/
def ringCancel (ch : BitVec 4) : Run Word := do
  let c ← activeChannel ch
  changeS (fun s => s.requestCancel c)
  pure 0

/-- `RING_CANCEL_ALL` (R261): channel 0 and then channel 1; others may move between the two (R14, R341). -/
def ringCancelAll : Run Word := do
  changeS (fun s => s.requestCancel .zero)
  point
  changeS (fun s => s.requestCancel .one)
  pure 0

/-- RING_BEGIN (R252). -/
def execRingBegin (ch : BitVec 4) (s : State) : Host.Outcome State Fault Refusal :=
  command (.ringBegin ch) (ringBegin ch) s

/-- RING_CANCEL (R260). -/
def execRingCancel (ch : BitVec 4) (s : State) : Host.Outcome State Fault Refusal :=
  command (.ringCancel ch) (ringCancel ch) s

/-- RING_CANCEL_ALL (R261). -/
def execRingCancelAll (s : State) : Host.Outcome State Fault Refusal := command .ringCancelAll ringCancelAll s

/-- RING_SELFTEST: refused, "A model **refuses** them: it gives them no step and no response" (R110, R264; log entry 12). -/
def execRingSelftest (_s : State) : Host.Outcome State Fault Refusal := .refused .ringSelftestHasNoBehaviour

end Sys2Proof.Machine
end

