-- ==== Sys2Proof/Machine/Dispatch.lean ====
section
/-! DEFINITION. The dispatch: one arm per command, each one direct call of its meaning. -/

namespace Sys2Proof.Machine

def exec (i : Instr) (s : State) : Host.Outcome State Fault Refusal :=
  match i with
  | .regRd ch a => Sys2Proof.Machine.execRegRd ch a s
  | .regWr ch a v => Sys2Proof.Machine.execRegWr ch a v s
  | .ramRd ch addr => Sys2Proof.Machine.execRamRd ch addr s
  | .ramWr ch addr v => Sys2Proof.Machine.execRamWr ch addr v s
  | .cal len seeds => Sys2Proof.Machine.execCal len seeds s
  | .irqEv t => Sys2Proof.Machine.execIrqEv t s
  | .irqEvp status t => Sys2Proof.Machine.execIrqEvp status t s
  | .irqChannels => Sys2Proof.Machine.execIrqChannels s
  | .irqEnable en => Sys2Proof.Machine.execIrqEnable en s
  | .setLf ch req => Sys2Proof.Machine.execSetLf ch req s
  | .startRing ch => Sys2Proof.Machine.execStartRing ch s
  | .stopRing ch => Sys2Proof.Machine.execStopRing ch s
  | .getHook ch => Sys2Proof.Machine.execGetHook ch s
  | .setLoopback ch mode => Sys2Proof.Machine.execSetLoopback ch mode s
  | .ringBegin ch => Sys2Proof.Machine.execRingBegin ch s
  | .ringCancel ch => Sys2Proof.Machine.execRingCancel ch s
  | .ringCancelAll => Sys2Proof.Machine.execRingCancelAll s
  | .ringSelftest => Sys2Proof.Machine.execRingSelftest s
  | .hookSample ch lvl t => Sys2Proof.Machine.execHookSample ch lvl t s
  | .hookTick ch t => Sys2Proof.Machine.execHookTick ch t s
  | .cfgWr ch idx v => Sys2Proof.Machine.execCfgWr ch idx v s
  | .cfgRd ch idx => Sys2Proof.Machine.execCfgRd ch idx s
  | .init => Sys2Proof.Machine.execInit s
  | .getNch => Sys2Proof.Machine.execGetNch s

end Sys2Proof.Machine
end

