-- ==== Sys2Proof/Machine/Turn.lean ====
section
/-! DEFINITION. Whose turn a step is, and what that turn does: the host command port (30_encoding.md rules R101 and R108),
the interrupt event port (R109, R203), the other agents, and who moves where the schedule names nobody (log entry 3). -/

namespace Sys2Proof.Machine

/-- The response to an ill-formed request, or to an interrupt-port opcode on the host port (R108, R338): no state changes
and no transport operation is issued. -/
def State.illegal (s : State) : State := s.respond ⟨.illegalCmd, 0⟩

/-- The command agent takes the word of a request (R101, R108). -/
def runRequest (r : HostReq) (s : State) : Host.Outcome State Fault Refusal :=
  match decode r.cmd r.data with
  | .ok i =>
    match i.port with
    | .host => exec i s
    | .interrupt => .next s.illegal
  | .error _ => .next s.illegal

/-- The request at the head of the host port has been taken. -/
def State.takeRequest (s : State) : State := { s with env := { s.env with hostQ := s.env.hostQ.tail } }

/-- The command agent's turn: it takes a waiting request only while it is idle (R101). -/
def hostTurn (s : State) : Host.Outcome State Fault Refusal :=
  if s.blk.cmd = none then
    match s.env.hostQ with
    | [] => .next s
    | r :: _ => runRequest r s.takeRequest
  else .next s

/-- The event port's turn: a well-formed event runs its meaning, any other is consumed and logged, even while the queue is
full (R109, R203; log entry 8). -/
def eventTurn (s : State) : Host.Outcome State Fault Refusal :=
  match s.env.eventQ with
  | [] => .next s
  | r :: _ =>
    match decode r.cmd r.data with
    | .ok i =>
      match i.port with
      | .interrupt => exec i s
      | .host => .next (settle (rejectEvent.run s))
    | .error _ => .next (settle (rejectEvent.run s))

/-- The turn a slot names. -/
def slotTurn (slot : Slot) (s : State) : Host.Outcome State Fault Refusal :=
  match slot with
  | .command => hostTurn s
  | .eventPort => eventTurn s
  | .interrupt => .next (settle ((move .interrupt).run s))
  | .ringer c => .next (settle ((move (.ringer c)).run s))
  | .tick ms => .next (settle ((move (.tick ms)).run s))
  | .reset => .next (settle ((move .reset).run s))

/-- The event is a well-formed IRQ_EV or IRQ_EVP word (R109). -/
def EventReq.wellFormed (r : EventReq) : Bool :=
  match decode r.cmd r.data with
  | .ok i => decide (i.port = .interrupt)
  | .error _ => false

/-- The event port can take the event presented to it (R203): always one that is ill-formed or that finds the port closed,
even while the queue is full (log entry 8), and any other while there is room. -/
def State.eventReady (s : State) : Bool :=
  match s.env.eventQ with
  | [] => false
  | r :: _ => !r.wellFormed || !s.blk.irqEn || s.hasRoom

/-- The interrupt agent has something to do (R198). -/
def State.irqReady (s : State) : Bool := decide (s.blk.irqPos ≠ .idle) || !s.blk.irqQ.isEmpty

/-- The ringer agent of channel c has something to do (R253, R255). -/
def State.ringerReady (s : State) (c : Chan) : Bool :=
  let r := (s.chan c).ring
  r.active && (decide (r.pos ≠ .waiting) || ringWakes s.env.now r)

/-- Whose turn a slot names has something to do: a request for an idle command agent, an event the port can take, work of
an agent. Time can always pass. -/
def State.ready (s : State) : Slot → Bool
  | .command => decide (s.blk.cmd = none) && !s.env.hostQ.isEmpty
  | .eventPort => s.eventReady
  | .interrupt => s.irqReady
  | .ringer c => s.ringerReady c
  | .tick _ => true
  | .reset => false

/-- The order in which the parties take turns where the schedule names nobody (DESIGN CHOICE, log entry 3). -/
def turnOrder : Vector Slot 6 := #v[.command, .eventPort, .interrupt, .ringer .zero, .ringer .one, .tick 1]

/-- The places of the rotation, beginning with k. -/
def placesFrom (k : Fin 6) : List (Fin 6) := [k, k + 1, k + 2, k + 3, k + 4, k + 5]

/-- The first party from the present turn on that has something to do (R81; log entry 3). -/
def State.defaultPlace (s : State) : Fin 6 :=
  ((placesFrom s.env.turn).find? (fun k => s.ready turnOrder[k])).getD 5

/-- Who moves where the schedule names nobody. -/
def State.defaultSlot (s : State) : Slot := turnOrder[s.defaultPlace]

/-- The turn passes to the place after the party that moves, so that everyone who waits is served within one round: the
weak fairness of R81 (log entry 3). -/
def State.passTurn (s : State) : State := s.setTurn (s.defaultPlace + 1)

/-- Who moves next: whom the schedule names, or whose turn it is where it names nobody. -/
def State.nextSlot (s : State) : Slot :=
  match s.env.sched with
  | [] => s.defaultSlot
  | slot :: _ => slot

end Sys2Proof.Machine
end

