-- ==== Sys2Proof/Machine/Step.lean ====
section
/-! DEFINITION. One step of the machine: the turn the schedule names next, or the default turn where it names none. -/

namespace Sys2Proof.Machine

/-- One step (R14, R81): a whole host command with what other agents do meanwhile, or one move of another agent, of the
event port, of the time base, or a reset. -/
def step (s : State) : Host.Outcome State Fault Refusal :=
  match s.env.sched with
  | [] => slotTurn s.defaultSlot s.passTurn
  | slot :: rest => slotTurn slot (s.setSched rest)

/-- s with the command w presented at the port that accepts it, and that port's turn next (log entry 11). A host command
waits at the host command port, with the command agent idle; an interrupt event is presented to the event port with
SRC = 0. -/
def State.withFetchWord (s : State) (nbits w : Nat) : State :=
  let cmd := tableCmd nbits w
  let data := tableData nbits w
  if opField cmd = 0x20#8 ∨ opField cmd = 0x21#8 then
    { s with env := { s.env with
        eventQ := ⟨cmd, data, 0⟩ :: s.env.eventQ
        sched := .eventPort :: s.env.sched } }
  else
    { s with
      blk := { s.blk with cmd := none }
      env := { s.env with
        hostQ := ⟨cmd, data⟩ :: s.env.hostQ
        sched := .command :: s.env.sched } }

end Sys2Proof.Machine
end

