-- ==== Sys2Proof/Machine/Assembler.lean ====
section
/-! DEFINITION. The text forms of the spec: the cadence pattern (44_ring_cadence.md rule R250) and the assembler syntax with
its pseudo-instructions (30_encoding.md rule R111; log entry 16). Text is a list of characters. -/

namespace Sys2Proof.Machine

/-! ### Numbers -/

/-- The value of a character as a digit of the base, if it is one. -/
def digitIn (base : Nat) (ch : Char) : Option Nat :=
  let v := ch.toNat
  let d := if 48 ≤ v ∧ v ≤ 57 then some (v - 48)
    else if 97 ≤ v ∧ v ≤ 102 then some (v - 87)
    else if 65 ≤ v ∧ v ≤ 70 then some (v - 55)
    else none
  match d with
  | some k => if k < base then some k else none
  | none => none

/-- The number the digits spell, most significant first, from an accumulator. -/
def digitsFrom (base : Nat) : Nat → List Char → Option Nat
  | acc, [] => some acc
  | acc, ch :: rest =>
    match digitIn base ch with
    | some d => digitsFrom base (acc * base + d) rest
    | none => none

/-- One or more digits. -/
def digits (base : Nat) : List Char → Option Nat
  | [] => none
  | ch :: rest => digitsFrom base 0 (ch :: rest)

/-- A decimal or `0x` hexadecimal number (R111). -/
def number (text : List Char) : Option Nat :=
  match text with
  | '0' :: 'x' :: rest => digits 16 rest
  | _ => digits 10 text

/-- A number that fits in w bits. -/
def numberIn (w : Nat) (text : List Char) : Option (BitVec w) :=
  match number text with
  | some v => if v < 2 ^ w then some (BitVec.ofNat w v) else none
  | none => none

/-! ### The cadence pattern -/

/-- The parsed RingPattern: total and phases in ms (R250). -/
structure Pattern where
  total  : Word
  phases : List Word
  deriving DecidableEq, Repr

/-- A duration of `num / 10^k` seconds in ms, if it is an integer of u32 (R250). -/
def exactMs (num k : Nat) : Option Word :=
  let scaled := num * 1000
  if scaled % 10 ^ k = 0 ∧ scaled / 10 ^ k < 2 ^ 32 then some (BitVec.ofNat 32 (scaled / 10 ^ k)) else none

/-- A phase's decimal seconds in ms, whatever its value (R250). -/
def phaseMs (text : List Char) : Option Word :=
  match text.splitOn '.' with
  | [whole] =>
    match digits 10 whole with
    | some n => exactMs n 0
    | none => none
  | [whole, frac] =>
    match digits 10 whole, digits 10 frac with
    | some n, some f => exactMs (n * 10 ^ frac.length + f) frac.length
    | _, _ => none
  | _ => none

/-- A phase: its decimal seconds in ms, rejected if 0 (R250). -/
def parsePhase (text : List Char) : Option Word :=
  match phaseMs text with
  | some d => if d = 0 then none else some d
  | none => none

/-- All phases, or none if one is rejected. -/
def parsePhases : List (List Char) → Option (List Word)
  | [] => some []
  | text :: rest =>
    match parsePhase text, parsePhases rest with
    | some d, some ds => some (d :: ds)
    | _, _ => none

/-- The integer seconds before the bracket, in ms (R250). -/
def parseTotal (text : List Char) : Option Word :=
  match digits 10 text with
  | some n => exactMs n 0
  | none => none

/-- An admitted number of phases: even, 2 to 16 (R250). -/
def phaseCountOk (n : Nat) : Bool := decide (n % 2 = 0) && decide (2 ≤ n) && decide (n ≤ 16)

/-- A cadence pattern (R250): total, "(", phases separated by "/", ")". -/
def parsePattern (text : List Char) : Option Pattern :=
  match text.splitOn '(' with
  | [total, rest] =>
    if rest.getLast? = some ')' then
      match parseTotal total, parsePhases (rest.dropLast.splitOn '/') with
      | some t, some ds => if phaseCountOk ds.length then some ⟨t, ds⟩ else none
      | _, _ => none
    else none
  | _ => none

/-! ### The assembler -/

/-- The operand kinds of a command line, in their order (R111). -/
inductive OperandKind where
  | ch
  | a12
  | a8
  | imm8
  | data
  deriving DecidableEq, Repr

/-- A command word being assembled. -/
structure Fields where
  ch   : BitVec 4
  a12  : BitVec 12
  imm8 : Byte
  data : Word
  deriving DecidableEq, Repr

/-- The opcode and operands of each mnemonic (R107, R111). -/
def asmRows : List (List Char × Byte × List OperandKind) :=
  [ ("REG_RD".toList, 0x01, [.ch, .a8]), ("REG_WR".toList, 0x02, [.ch, .a8, .imm8]),
    ("RAM_RD".toList, 0x03, [.ch, .a12]), ("RAM_WR".toList, 0x04, [.ch, .a12, .data]),
    ("CAL".toList, 0x10, [.imm8, .data]), ("IRQ_EV".toList, 0x20, [.data]), ("IRQ_EVP".toList, 0x21, [.imm8, .data]),
    ("IRQ_CHANNELS".toList, 0x22, []), ("IRQ_ENABLE".toList, 0x23, [.imm8]) ] ++
  [ ("SET_LF".toList, 0x30, [.ch, .imm8]), ("START_RING".toList, 0x31, [.ch]), ("STOP_RING".toList, 0x32, [.ch]),
    ("GET_HOOK".toList, 0x33, [.ch]), ("SET_LOOPBACK".toList, 0x34, [.ch, .imm8]), ("RING_BEGIN".toList, 0x40, [.ch]),
    ("RING_CANCEL".toList, 0x41, [.ch]), ("RING_CANCEL_ALL".toList, 0x42, []), ("RING_SELFTEST".toList, 0x43, []) ] ++
  [ ("HOOK_SAMPLE".toList, 0x50, [.ch, .imm8, .data]), ("HOOK_TICK".toList, 0x51, [.ch, .data]),
    ("CFG_WR".toList, 0x60, [.ch, .a12, .data]), ("CFG_RD".toList, 0x61, [.ch, .a12]),
    ("INIT".toList, 0x70, []), ("GET_NCH".toList, 0x71, []) ]

/-- The names that may stand for the byte operand of a mnemonic (R111). -/
def imm8Names (mnemonic : List Char) : List (List Char × Byte) :=
  if mnemonic = "SET_LF".toList then
    [("NOP".toList, 0), ("IDLE".toList, 1), ("RING_IDLE".toList, 2), ("RINGING".toList, 3)]
  else if mnemonic = "HOOK_SAMPLE".toList then [("ONHOOK".toList, 1), ("OFFHOOK".toList, 0)]
  else []

/-- A byte operand: a number, or one of the mnemonic's names (R111). -/
def imm8Operand (mnemonic text : List Char) : Option Byte :=
  match (imm8Names mnemonic).lookup text with
  | some b => some b
  | none => numberIn 8 text

/-- Put one operand into its field (R105, R111). -/
def placeOperand (mnemonic : List Char) (f : Fields) : OperandKind → List Char → Option Fields
  | .ch, text => (numberIn 4 text).map (fun v => { f with ch := v })
  | .a12, text => (numberIn 12 text).map (fun v => { f with a12 := v })
  | .a8, text => (numberIn 8 text).map (fun v => { f with a12 := a8AsA12 v })
  | .imm8, text => (imm8Operand mnemonic text).map (fun v => { f with imm8 := v })
  | .data, text => (numberIn 32 text).map (fun v => { f with data := v })

/-- Put all operands into their fields; too many or too few do not assemble (R111). -/
def placeOperands (mnemonic : List Char) : Fields → List OperandKind → List (List Char) → Option Fields
  | f, [], [] => some f
  | f, k :: ks, text :: rest =>
    match placeOperand mnemonic f k text with
    | some f' => placeOperands mnemonic f' ks rest
    | none => none
  | _, _, _ => none

/-- The text without spaces at either end (log entry 16). -/
def trim (text : List Char) : List Char :=
  ((text.dropWhile (fun ch => ch = ' ')).reverse.dropWhile (fun ch => ch = ' ')).reverse

/-- The operands of a line: separated by commas; none where nothing stands after the mnemonic. -/
def operandTexts (text : List Char) : List (List Char) :=
  if trim text = [] then [] else (text.splitOn ',').map trim

/-- The mnemonic and the operands of a line. -/
def splitLine (line : List Char) : List Char × List (List Char) :=
  let t := trim line
  (t.takeWhile (fun ch => ch ≠ ' '), operandTexts (t.dropWhile (fun ch => ch ≠ ' ')))

/-- A command line of R107 as (CMD, DATA). -/
def assembleCommand (mnemonic : List Char) (operands : List (List Char)) : Option (Word × Word) :=
  match asmRows.lookup mnemonic with
  | some (op, kinds) =>
    match placeOperands mnemonic ⟨0, 0, 0, 0⟩ kinds operands with
    | some f => some (cmdWord op f.ch f.a12 f.imm8, f.data)
    | none => none
  | none => none

/-- The `CFG_WR` of one field (R111). -/
def cfgWrWord (ch : BitVec 4) (idx : BitVec 12) (v : Word) : Word × Word := (cmdWord 0x60 ch idx 0, v)

/-- `CFG_WR`s of consecutive indices, ascending (R111). -/
def cfgWrRun (ch : BitVec 4) : BitVec 12 → List Word → List (Word × Word)
  | _, [] => []
  | idx, v :: rest => cfgWrWord ch idx v :: cfgWrRun ch (idx + 1) rest

/-- `LOADCAD ch, "<pattern>"` (R111). -/
def loadcad (ch : BitVec 4) (p : Pattern) : List (Word × Word) :=
  [cfgWrWord ch 0x200 p.total, cfgWrWord ch 0x201 (BitVec.ofNat 32 p.phases.length)] ++ cfgWrRun ch 0x210 p.phases

/-- `HOOKCFG ch, a, b, c, d, e, f` (R111). -/
def hookcfg (ch : BitVec 4) (values : List Word) : List (Word × Word) := cfgWrRun ch 0x100 values

/-- The text between a pair of double quotes. -/
def unquote (text : List Char) : Option (List Char) :=
  match text with
  | '"' :: rest => if rest.getLast? = some '"' then some rest.dropLast else none
  | _ => none

/-- Numbers of u32, all of them or none. -/
def words : List (List Char) → Option (List Word)
  | [] => some []
  | text :: rest =>
    match numberIn 32 text, words rest with
    | some v, some vs => some (v :: vs)
    | _, _ => none

/-- The pseudo-instruction of a mnemonic, if it is one and its operands are right (R111). -/
def assemblePseudo (mnemonic : List Char) (operands : List (List Char)) : Option (List (Word × Word)) :=
  if mnemonic = "LOADCAD".toList then
    match operands with
    | [ch, text] =>
      match numberIn 4 ch, (unquote text).bind parsePattern with
      | some c, some p => some (loadcad c p)
      | _, _ => none
    | _ => none
  else if mnemonic = "HOOKCFG".toList then
    match operands with
    | ch :: values =>
      match numberIn 4 ch, words values with
      | some c, some vs => if vs.length = 6 then some (hookcfg c vs) else none
      | _, _ => none
    | [] => none
  else if mnemonic = "RINGING".toList then
    (assembleCommand "START_RING".toList operands).map (fun w => [w])
  else if mnemonic = "IDLE".toList then
    (assembleCommand "STOP_RING".toList operands).map (fun w => [w])
  else none

/-- One line of assembler text as the commands it stands for (R111). -/
def assembleLine (line : List Char) : Option (List (Word × Word)) :=
  let (mnemonic, operands) := splitLine line
  match assembleCommand mnemonic operands with
  | some w => some [w]
  | none => assemblePseudo mnemonic operands

end Sys2Proof.Machine
end

