-- ==== Sys2Proof/WellFormed.lean ====
section
/-! DEFINITION. Which instruction terms have their operands in the legal set the rules give (30_encoding.md rule R108,
46_control.md rules R300 and R306). The widths and enumerations of `Instr` leave one operand to check: the configuration
index of `CFG_WR` and `CFG_RD`. An ill-formed term still has a meaning: it responds ILLEGAL_CMD. -/

namespace Sys2Proof

/-- A configuration index of a global field, 0x000 to 0x006 (R21, R300). -/
def isGlobalIndex (idx : BitVec 12) : Bool := decide (idx.toNat ≤ 0x006)

/-- A configuration index of a per-channel field (R23, R300). -/
def isChannelIndex (idx : BitVec 12) : Bool :=
  decide (0x100 ≤ idx.toNat ∧ idx.toNat ≤ 0x105) || decide (0x200 ≤ idx.toNat ∧ idx.toNat ≤ 0x201) ||
  decide (0x210 ≤ idx.toNat ∧ idx.toNat ≤ 0x21F) || decide (0x300 ≤ idx.toNat ∧ idx.toNat ≤ 0x308)

/-- The index exists, and a global one comes with CH = 0 (R300). -/
def cfgOperandsLegal (ch : BitVec 4) (idx : BitVec 12) : Bool :=
  if isGlobalIndex idx then decide (ch = 0#4) else isChannelIndex idx

/-- Every operand lies in the legal set its rule gives (R108). -/
def Instr.wf : Instr → Bool
  | .cfgWr ch idx _ => cfgOperandsLegal ch idx
  | .cfgRd ch idx => cfgOperandsLegal ch idx
  | .regRd _ _ => true
  | .regWr _ _ _ => true
  | .ramRd _ _ => true
  | .ramWr _ _ _ => true
  | .cal _ _ => true
  | .irqEv _ => true
  | .irqEvp _ _ => true
  | .irqChannels => true
  | .irqEnable _ => true
  | .setLf _ _ => true
  | .startRing _ => true
  | .stopRing _ => true
  | .getHook _ => true
  | .setLoopback _ _ => true
  | .ringBegin _ => true
  | .ringCancel _ => true
  | .ringCancelAll => true
  | .ringSelftest => true
  | .hookSample _ _ _ => true
  | .hookTick _ _ => true
  | .init => true
  | .getNch => true

/-! ### The opcode table as data -/

/-- One row of spec/opcode_table.json: the port, and the CMD bits (`mask`) that must have the value `fixed`. -/
structure TableRow where
  port  : Port
  fixed : Word
  mask  : Word
  deriving DecidableEq, Repr

/-- The rows of spec/opcode_table.json in their order (R107). -/
def opcodeTable : List TableRow :=
  [
    ⟨.host, 0x01000000#32, 0xFF0F00FF#32⟩,
    ⟨.host, 0x02000000#32, 0xFF0F0000#32⟩,
    ⟨.host, 0x03000000#32, 0xFF0000FF#32⟩,
    ⟨.host, 0x04000000#32, 0xFF0000FF#32⟩,
    ⟨.host, 0x10000000#32, 0xFFFFFF00#32⟩,
    ⟨.interrupt, 0x20000000#32, 0xFFFFFFFF#32⟩,
    ⟨.interrupt, 0x21000000#32, 0xFFFFFF00#32⟩,
    ⟨.host, 0x22000000#32, 0xFFFFFFFF#32⟩ ] ++
  [
    ⟨.host, 0x23000000#32, 0xFFFFFFFE#32⟩,
    ⟨.host, 0x30000000#32, 0xFF0FFFFC#32⟩,
    ⟨.host, 0x31000000#32, 0xFF0FFFFF#32⟩,
    ⟨.host, 0x32000000#32, 0xFF0FFFFF#32⟩,
    ⟨.host, 0x33000000#32, 0xFF0FFFFF#32⟩,
    ⟨.host, 0x34000000#32, 0xFF0FFF00#32⟩,
    ⟨.host, 0x40000000#32, 0xFF0FFFFF#32⟩,
    ⟨.host, 0x41000000#32, 0xFF0FFFFF#32⟩ ] ++
  [
    ⟨.host, 0x42000000#32, 0xFFFFFFFF#32⟩,
    ⟨.host, 0x43000000#32, 0xFFFFFFFF#32⟩,
    ⟨.host, 0x50000000#32, 0xFF0FFFFE#32⟩,
    ⟨.host, 0x51000000#32, 0xFF0FFFFF#32⟩,
    ⟨.host, 0x60000000#32, 0xFF0000FF#32⟩,
    ⟨.host, 0x61000000#32, 0xFF0000FF#32⟩,
    ⟨.host, 0x70000000#32, 0xFFFFFFFF#32⟩,
    ⟨.host, 0x71000000#32, 0xFFFFFFFF#32⟩ ]

/-- CMD is a word of the row. -/
def TableRow.matchesWord (r : TableRow) (cmd : Word) : Bool := decide (cmd &&& r.mask = r.fixed)

/-- CMD is a well-formed command word of the port: it matches a row of the opcode table (R107, R108). -/
def wellFormedWord (p : Port) (cmd : Word) : Bool :=
  opcodeTable.any (fun r => decide (r.port = p) && r.matchesWord cmd)

end Sys2Proof
end

