-- ==== Sys2Proof/Safety.lean ====
section
/-! DEFINITION. The terms claims are stated in: idle and quiet states, what a sequence of transport operations leaves, the
invariant of the machine, and the status table of 60_exceptions.md rule R326. -/

namespace Sys2Proof.Machine

/-! ### Where a command starts -/

/-- The command agent is idle and no RamTransaction exists (R24, R40, R101): so it is at every step boundary. -/
def State.Idle (s : State) : Prop := s.blk.cmd = none ∧ s.blk.ramTx = none

/-- The command agent is idle and no reset falls within the next command, whatever the schedule. -/
def State.Calm (s : State) : Prop := s.Idle ∧ s.env.resets = []

/-- The command agent is idle, nobody holds the transport, no reset falls within the next command, and the schedule lets no
other agent move during it. What other agents do when they do move is stated of their own moves. -/
def State.Quiet (s : State) : Prop := s.Idle ∧ s.blk.grant = .none ∧ s.env.sched = [] ∧ s.env.resets = []

/-- The next step runs the host command i: it is the turn of the command agent, which is idle with i's word waiting (R101). -/
def State.runs (s : State) (i : Instr) : Prop :=
  s.nextSlot = .command ∧ s.blk.cmd = none ∧ ∃ r rest, s.env.hostQ = r :: rest ∧ decode r.cmd r.data = .ok i

/-- k steps, up to the first that gives no next state. -/
def steps : Nat → State → Host.Outcome State Fault Refusal
  | 0, s => .next s
  | k + 1, s =>
    match step s with
    | .next t => steps k t
    | .fault r => .fault r
    | .refused r => .refused r

/-! ### What a command leaves -/

/-- s after the transport operations `ops`, with `rest` the chip's answers that are left: the rest of the state as in s. -/
def State.afterOps (s : State) (ops : List WireOp) (rest : List Answer) : State :=
  { s with env := { s.env with answers := rest }, out := { s.out with wire := s.out.wire ++ ops } }

/-- Reads of one register of channel c that returned these bytes. -/
def readsOf (c : Chan) (a : Byte) (bytes : List Byte) : List WireOp := bytes.map (fun v => .read c a (.data v))

/-- The chip answers these bytes. -/
def answering (bytes : List Byte) : List Answer := bytes.map Answer.data

/-- `k` delays of `pause` ms, as an advance of the time base. -/
def pauses (k : Nat) (pause : Half) : Word := BitVec.ofNat 32 k * pause.setWidth 32

/-- The polls of one wait: busy ones, then the ready one (R140). -/
def waitOps (p : Params) (c : Chan) (busy : List Byte) (r : Byte) : List WireOp := readsOf c p.regRamstat (busy ++ [r])

/-- The six writes of a RAM_WR, address-low last (R145). -/
def ramWriteWindow (p : Params) (c : Chan) (addr : BitVec 12) (v : Word) : List WireOp :=
  [ .write c p.regRamAddrHi (ramAddrHi addr) .done,
    .write c p.regRamD0 (ramLanes v)[0] .done,
    .write c p.regRamD1 (ramLanes v)[1] .done,
    .write c p.regRamD2 (ramLanes v)[2] .done,
    .write c p.regRamD3 (ramLanes v)[3] .done,
    .write c p.regRamAddrLo (ramAddrLo addr) .done ]

/-- The two address writes of a RAM_RD (R146). -/
def ramReadWindow (p : Params) (c : Chan) (addr : BitVec 12) : List WireOp :=
  [ .write c p.regRamAddrHi (ramAddrHi addr) .done, .write c p.regRamAddrLo (ramAddrLo addr) .done ]

/-- The four lane reads of a RAM_RD, D3 first (R146). -/
def ramLaneReads (p : Params) (c : Chan) (d3 d2 d1 d0 : Byte) : List WireOp :=
  [ .read c p.regRamD3 (.data d3), .read c p.regRamD2 (.data d2), .read c p.regRamD1 (.data d1),
    .read c p.regRamD0 (.data d0) ]

/-- The operations of a RAM_WR (R145): `b1` and `b2` are the busy polls of its two waits, r1 and r2 their last ones. -/
def ramWriteOps (p : Params) (c : Chan) (addr : BitVec 12) (v : Word) (b1 : List Byte) (r1 : Byte) (b2 : List Byte)
    (r2 : Byte) : List WireOp :=
  waitOps p c b1 r1 ++ ramWriteWindow p c addr v ++ waitOps p c b2 r2

/-- The operations of a RAM_RD (R146): `b1` and `b2` are the busy polls of its two waits, r1 and r2 their last ones. -/
def ramReadOps (p : Params) (c : Chan) (addr : BitVec 12) (b1 : List Byte) (r1 : Byte) (b2 : List Byte) (r2 : Byte)
    (d3 d2 d1 d0 : Byte) : List WireOp :=
  waitOps p c b1 r1 ++ ramReadWindow p c addr ++ waitOps p c b2 r2 ++ ramLaneReads p c d3 d2 d1 d0

/-- The busy polls of one wait: fewer than the budget, each with bit 0 set (R140, R122). -/
def busyPolls (budget : Half) (polls : List Byte) : Prop :=
  polls.length < budget.toNat ∧ ∀ b ∈ polls, b.getLsbD 0 = true

/-- The channel of a transport operation. -/
def WireOp.chan : WireOp → Chan
  | .read c _ _ => c
  | .write c _ _ _ => c

/-- The register of a transport operation. -/
def WireOp.reg : WireOp → Byte
  | .read _ a _ => a
  | .write _ a _ _ => a

/-- The same transport operation, failed. -/
def WireOp.fails : WireOp → WireOp
  | .read c a _ => .read c a .failed
  | .write c a v _ => .write c a v .failed

/-- The answers under which these operations end as they say. `acks` are the (ignored) bytes of the writes. -/
def WireOp.answeredBy : WireOp → Answer → Prop
  | .read _ _ (.data v), a => a = .data v
  | .read _ _ .failed, a => a = .fail
  | .read _ _ .abandoned, a => a = .resetDuring
  | .write _ _ _ .done, a => ∃ b, a = .data b
  | .write _ _ _ .failed, a => a = .fail
  | .write _ _ _ .abandoned, a => a = .resetDuring

/-- The seed writes of CAL to the channels listed (R173). -/
def seedOps (p : Params) (seeds : Word) (chans : List Chan) : List WireOp :=
  chans.flatMap (fun c => [0, 1, 2, 3].map (fun i => .write c (calReg p.regCalBase i) (seedByte seeds i) .done))

/-- The status reads of one CAL iteration: one byte for each channel listed (R173). -/
def scanOps (p : Params) (chans : List Chan) (bytes : List Byte) : List WireOp :=
  List.zipWith (fun c v => .read c p.regCalStatus (.data v)) chans bytes

/-- The first channel whose status byte shows calibration in progress (R173). -/
def firstBusyOf (chans : List Chan) (bytes : List Byte) : Option Chan :=
  ((chans.zip bytes).find? (fun x => calBusy x.2)).map Prod.fst

/-- The two guards of `SetLineFeed` in the rule's words: already ringing, or a ring-to-idle still settling (R220). -/
def lfGuards (p : Params) (req : LfState) (v : Byte) : Prop :=
  (req = .ringing ∧ v.extractLsb' 0 4 = p.lf.ringing) ∨
  (v.extractLsb' 4 4 = p.lf.ringing ∧ v.extractLsb' 0 4 ≠ p.lf.ringing)

/-- The three completed writes of the AUTO bracket (R220, R128). -/
def bracketWrites (p : Params) (c : Chan) (req : LfState) (a : Byte) : List WireOp :=
  [ .write c p.regAuto (autoCleared p a) .done,
    .write c p.regLinefeed (lfWriteByte p req) .done,
    .write c p.regAuto a .done ]

/-- The five operations of a full linefeed transition (R220, R226). -/
def bracketOps (p : Params) (c : Chan) (req : LfState) (v a : Byte) : List WireOp :=
  [.read c p.regLinefeed (.data v), .read c p.regAuto (.data a)] ++ bracketWrites p c req a

/-- How one `SetLineFeed(c, req)` can go (R220): its operations, the answers it takes, what it returns, and whether it
moved the line. A guarded one is a single read, a full one the bracket, and a failing operation ends it. -/
inductive LinefeedRun (p : Params) (c : Chan) (req : LfState) : List WireOp → List Answer → LfResult → Bool → Prop
  | guarded (v : Byte) (h : lfGuards p req v) :
    LinefeedRun p c req [.read c p.regLinefeed (.data v)] [.data v] .ok false
  | full (v a : Byte) (as : List Answer) (h : ¬ lfGuards p req v)
    (has : List.Forall₂ WireOp.answeredBy (bracketOps p c req v a) as) :
    LinefeedRun p c req (bracketOps p c req v a) as .ok true
  | failed (v a : Byte) (k : Nat) (op : WireOp) (as : List Answer) (h : ¬ lfGuards p req v)
    (hk : (bracketOps p c req v a)[k]? = some op)
    (has : List.Forall₂ WireOp.answeredBy ((bracketOps p c req v a).take k) as) :
    LinefeedRun p c req ((bracketOps p c req v a).take k ++ [op.fails]) (as ++ [.fail]) (.commError op.reg) false

/-- The linefeed state a linefeed command requests of channel field ch (R221, R222, R223). -/
def linefeedRequest : Instr → Option (BitVec 4 × LfState)
  | .setLf ch req => some (ch, req)
  | .startRing ch => some (ch, .ringing)
  | .stopRing ch => some (ch, .idle)
  | _ => none

/-- A command whose rule is one atomic unit of several operations (R80). -/
def oneUnit : Instr → Bool
  | .ramRd _ _ => true
  | .ramWr _ _ _ => true
  | .setLf _ _ => true
  | .startRing _ => true
  | .stopRing _ => true
  | .init => true
  | _ => false

/-- What the atomic unit of such a command, begun in s, can put on the wire when the command responds (OK, rdata): the whole
sequence of its rule (R80, R145, R146, R220, R303). -/
inductive UnitRun (s : State) : Instr → Word → List WireOp → Prop
  | ramWrite {ch : BitVec 4} {c : Chan} {addr : BitVec 12} {v : Word} {b1 b2 : List Byte} {r1 r2 : Byte}
    (hc : activeChan s.blk.n ch = some c) (h1 : busyPolls s.blk.ramRetryBudget b1) (e1 : r1.getLsbD 0 = false)
    (h2 : busyPolls s.blk.ramRetryBudget b2) (e2 : r2.getLsbD 0 = false) :
    UnitRun s (.ramWr ch addr v) 0 (ramWriteOps s.par c addr v b1 r1 b2 r2)
  | ramRead {ch : BitVec 4} {c : Chan} {addr : BitVec 12} {b1 b2 : List Byte} {r1 r2 d3 d2 d1 d0 : Byte}
    (hc : activeChan s.blk.n ch = some c) (h1 : busyPolls s.blk.ramRetryBudget b1) (e1 : r1.getLsbD 0 = false)
    (h2 : busyPolls s.blk.ramRetryBudget b2) (e2 : r2.getLsbD 0 = false) :
    UnitRun s (.ramRd ch addr) (ramReassemble d3 d2 d1 d0) (ramReadOps s.par c addr b1 r1 b2 r2 d3 d2 d1 d0)
  | linefeed {i : Instr} {ch : BitVec 4} {c : Chan} {req : LfState} {ops : List WireOp} {as : List Answer} {moved : Bool}
    (hi : linefeedRequest i = some (ch, req)) (hc : activeChan s.blk.n ch = some c)
    (h : LinefeedRun s.par c req ops as .ok moved) : UnitRun s i 0 ops
  | initOne {id0 h0 : Byte} (h : id0 ≠ 0xFF) :
    UnitRun s .init 1 [.read .zero s.par.regId (.data id0), .read .one s.par.regId (.data 0xFF),
      .read .zero s.par.regHookStatus (.data h0)]
  | initTwo {id0 id1 h0 h1 : Byte} (h : id0 ≠ 0xFF) (h' : id1 ≠ 0xFF) :
    UnitRun s .init 2 [.read .zero s.par.regId (.data id0), .read .one s.par.regId (.data id1),
      .read .zero s.par.regHookStatus (.data h0), .read .one s.par.regHookStatus (.data h1)]

/-- LOG(RING_LF_FAIL) with the failing status, for a ringer's `SetLineFeed` that failed (R258, R116). -/
def lfFailLog (c : Chan) : LfResult → List Event
  | .ok => []
  | .commError _ => [.log c .ringLfFail 1]

/-- s after these events. -/
def State.afterEvents (s : State) (es : List Event) : State := { s with out := { s.out with events := s.out.events ++ es } }

/-- The channel field of a command that needs an active channel (R306's first list). -/
def activeChannelField : Instr → Option (BitVec 4)
  | .regRd ch _ => some ch
  | .regWr ch _ _ => some ch
  | .ramRd ch _ => some ch
  | .ramWr ch _ _ => some ch
  | .setLf ch _ => some ch
  | .startRing ch => some ch
  | .stopRing ch => some ch
  | .getHook ch => some ch
  | .ringBegin ch => some ch
  | .ringCancel ch => some ch
  | .hookSample ch _ _ => some ch
  | .hookTick ch _ => some ch
  | _ => none

/-! ### The status table -/

/-- The statuses R326 gives each command; the refused commands and the interrupt events give no response. -/
def allowedStatuses : Instr → List Status
  | .regRd _ _ => [.ok, .commError, .illegalCmd, .badChannel]
  | .regWr _ _ _ => [.ok, .commError, .illegalCmd, .badChannel]
  | .ramRd _ _ => [.ok, .commError, .timeout, .illegalCmd, .badChannel]
  | .ramWr _ _ _ => [.ok, .commError, .timeout, .illegalCmd, .badChannel]
  | .cal _ _ => [.ok, .commError, .timeout, .invalidCal, .illegalCmd]
  | .irqEv _ => []
  | .irqEvp _ _ => []
  | .irqChannels => [.ok, .commError, .illegalCmd]
  | .irqEnable _ => [.ok, .illegalCmd]
  | .setLf _ _ => [.ok, .commError, .illegalCmd, .badChannel]
  | .startRing _ => [.ok, .commError, .illegalCmd, .badChannel]
  | .stopRing _ => [.ok, .commError, .illegalCmd, .badChannel]
  | .getHook _ => [.ok, .commError, .illegalCmd, .badChannel]
  | .setLoopback _ _ => []
  | .ringBegin _ => [.ok, .commError, .ringUnhook, .illegalCmd, .badChannel, .badPattern]
  | .ringCancel _ => [.ok, .illegalCmd, .badChannel]
  | .ringCancelAll => [.ok, .illegalCmd]
  | .ringSelftest => []
  | .hookSample _ _ _ => [.ok, .illegalCmd, .badChannel]
  | .hookTick _ _ => [.ok, .illegalCmd, .badChannel]
  | .cfgWr _ _ _ => [.ok, .illegalCmd, .badChannel, .busy]
  | .cfgRd _ _ => [.ok, .illegalCmd, .badChannel]
  | .init => [.ok, .initError, .illegalCmd, .busy]
  | .getNch => [.ok, .illegalCmd]

/-- A command the spec gives a behaviour on the host port. -/
def answersOnHostPort (i : Instr) : Bool := !(allowedStatuses i).isEmpty

/-! ### The invariant -/

/-- What holds of a channel's fields at every step: a ringing channel has a valid cadence and a phase index inside it
(R38, R39, R25), a cancellation is pending only on a ringing channel (R195, R259, R260), a ringer that is not live has no
position (R253), and pulses are pending only while a timeout is awaited (R280, R281). -/
def ChanState.Ok (x : ChanState) : Prop :=
  (x.ring.active = true → x.cad.valid = true ∧ x.ring.idx.toNat < x.cad.n.toNat) ∧
  (x.ring.cancel = true → x.ring.active = true) ∧
  (x.ring.active = false → x.ring.pos = .ready) ∧
  (x.hook.await = false → x.hook.count = 0#8)

/-- A list of HighFlags holds each at most once, and only flags of the enumeration (R193, R117). -/
def flagsOk (p : Params) (flags : List Nat) : Prop := flags.Nodup ∧ ∀ h ∈ flags, h < p.flagCount

/-- The HighFlags the interrupt agent has collected (R191). -/
def IrqPos.flags : IrqPos → List Nat
  | .wantFlag _ _ _ flags _ => flags
  | .haveFlag _ _ _ flags _ _ => flags
  | .dispatch _ _ _ flags _ => flags
  | _ => []

/-- What holds of the machine even while a command runs. -/
def State.Sound (s : State) : Prop :=
  s.par.wf = true ∧ s.blk.irqQ.length ≤ s.par.irqQueueDepth ∧
  s.blk.irqQcount = queueCount s.blk.irqQ.length ∧ flagsOk s.par s.blk.irqPos.flags ∧
  s.blk.ch0.Ok ∧ s.blk.ch1.Ok

/-- The invariant of every step: the machine is sound, the command agent idle and the transport free. -/
def State.Inv (s : State) : Prop := s.Sound ∧ s.Idle ∧ s.blk.grant = .none

/-! ### The hook detector as a sequence of operations -/

/-- What may act on a channel's HookDebounceState (R288): a sample, a tick, or INIT. -/
inductive DetectorOp where
  | sample (lvl : Level) (t : Word)
  | tick (t : Word)
  | start (lvl : Level) (t : Word)
  deriving DecidableEq, Repr

/-- The state after one operation, and its events on channel c (R280, R282, R304). -/
def DetectorOp.act (thr : HookThresholds) (c : Chan) (h : Hook) : DetectorOp → Hook × List Event
  | .sample lvl t => ((hookSample thr lvl t h).1, if (hookSample thr lvl t h).2 then [.hookflash c] else [])
  | .tick t => (hookTick thr t h, (tickEvent c (hookTickReport thr t h)).toList)
  | .start lvl t => (⟨lvl, t, 0, false⟩, [])

/-- The state after a sequence of operations, and all their events. -/
def detect (thr : HookThresholds) (c : Chan) : List DetectorOp → Hook → Hook × List Event
  | [], h => (h, [])
  | op :: rest, h =>
    let r := op.act thr c h
    let r' := detect thr c rest r.1
    (r'.1, r.2 ++ r'.2)

/-- How many samples of a sequence change the level (R285). -/
def levelChanges (thr : HookThresholds) (c : Chan) : List DetectorOp → Hook → Nat
  | [], _ => 0
  | op :: rest, h =>
    (match op with
      | .sample lvl _ => if lvl = h.level then 0 else 1
      | .tick _ => 0
      | .start _ _ => 0) + levelChanges thr c rest (op.act thr c h).1

/-- A timeout or digit event of channel c (R282). -/
def Event.reports (c : Chan) : Event → Bool
  | .pulseDigit d _ => decide (d = c)
  | .onhookTimeout d => decide (d = c)
  | .offhookTimeout d => decide (d = c)
  | _ => false

/-- An event of channel c's hook detector (R280, R282). -/
def Event.detected (c : Chan) (e : Event) : Bool := decide (e = .hookflash c) || e.reports c

/-! ### Whole-machine relations -/

/-- Nothing already output is withdrawn or reordered: each observable sequence of s begins that of t (R15, R103). -/
def OutputGrows (s t : State) : Prop :=
  s.out.wire <+: t.out.wire ∧ s.out.resps <+: t.out.resps ∧ s.out.events <+: t.out.events

/-- The fields only the command agent writes (R341): N, the budgets and delays, the event-port enable, the cadence
tables and the hook thresholds. -/
def SameCommandFields (s t : State) : Prop :=
  t.blk.n = s.blk.n ∧ t.blk.ramRetryBudget = s.blk.ramRetryBudget ∧ t.blk.ramPollDelay = s.blk.ramPollDelay ∧
  t.blk.calRetryBudget = s.blk.calRetryBudget ∧ t.blk.calPollDelay = s.blk.calPollDelay ∧
  t.blk.irqEn = s.blk.irqEn ∧
  t.blk.ch0.cad = s.blk.ch0.cad ∧ t.blk.ch1.cad = s.blk.ch1.cad ∧
  t.blk.ch0.thr = s.blk.ch0.thr ∧ t.blk.ch1.thr = s.blk.ch1.thr

end Sys2Proof.Machine
end

