-- ==== Sys2Proof/Certificates/Slice0/Obligations.lean ====
section
/-! DEFINITION. The statements for the provers, from the numbered rules of spec/. `s.Quiet` says that the command agent is
idle, the transport free, that nobody else moves during the command, so that transport operations take no time (log entries
3 and 6), and that no reset falls within it (log entry 15); `s.Calm` asks for the idle agent and no reset only, and
holds whatever the schedule. What a reset within a step leaves is stated of its own
(`ResetInputRestoresTheBlock`). -/

open Sys2Proof Sys2Proof.Machine

/-! ### Encoding -/

/-- Every command is read back from its own words (R105, R106, R107). -/
def Obligations.DecodeOfEncodeGivesTheCommandBack : Prop :=
  ∀ i : Instr, decode (encode i).1 (encode i).2 = .ok i

/-- The decoder accepts exactly the words of the opcode table's rows, each for the port of its row (R107, R108); an accepted
word is the encoding of its command: no CMD bit is dropped, and DATA is either the command's operand or ignored (R106). -/
def Obligations.DecoderAcceptsExactlyTheTableWords : Prop :=
  (∀ (p : Port) (cmd data : Word),
    (∃ i, decode cmd data = .ok i ∧ i.port = p) ↔ wellFormedWord p cmd = true) ∧
  (∀ (cmd data : Word) (i : Instr), decode cmd data = .ok i →
    (encode i).1 = cmd ∧ ((encode i).2 = data ∨ ∀ data', decode cmd data' = .ok i))

/-- Words of the spec's own test vectors (95_test_vectors.md sections 2 and 3), one or more of each family. -/
def Obligations.SampleCommandWordsDecode : Prop :=
  decode 0x02005004 0 = .ok (.regWr 0 0x50 0x04) ∧
  decode 0x04012300 0x12345678 = .ok (.ramWr 0 0x123 0x12345678) ∧
  decode 0x10000004 0x44332211 = .ok (.cal 4 0x44332211) ∧
  decode 0x21000001 0x29CC = .ok (.irqEvp 1 10700) ∧
  decode 0x30100001 0 = .ok (.setLf 1 .idle) ∧
  decode 0x40000000 0 = .ok (.ringBegin 0) ∧
  decode 0x50000001 0x1388 = .ok (.hookSample 0 .onhook 5000) ∧
  decode 0x61130100 0 = .ok (.cfgRd 1 0x301) ∧
  decode 0x01010000 0 = .error (.mustBeZero 0x01) ∧
  decode 0x72000000 0 = .error (.unknownOpcode 0x72)

/-! ### Steps and ports -/

/-- A step whose turn is the command agent's, idle and with a request waiting, runs the decoded command (R101); a step in
which the event port looks at a well-formed event runs that event's meaning (R203). The turn comes from the schedule, or,
where the schedule is empty, from the model's own rotation, whose place 0 is the command agent's (log entry 3). -/
def Obligations.StepRunsTheDecodedCommand : Prop :=
  (∀ (s : State) (r : HostReq) (rest : List HostReq) (i : Instr),
    s.blk.cmd = none → s.env.hostQ = r :: rest → decode r.cmd r.data = .ok i → i.port = .host →
      (∀ l, s.env.sched = .command :: l → step s = exec i ((s.setSched l).takeRequest)) ∧
      (s.env.sched = [] → s.env.turn = 0 →
        step s = exec i (s.setTurn 1).takeRequest)) ∧
  (∀ (s : State) (r : EventReq) (rest : List EventReq) (i : Instr) (l : List Slot),
    s.env.eventQ = r :: rest → decode r.cmd r.data = .ok i → i.port = .interrupt →
    s.env.sched = .eventPort :: l → step s = exec i (s.setSched l))

/-- Weak fairness (R81): in every run, a party of the rotation (the command agent with a request waiting, the event port, the
interrupt agent, a ringer, the time base) that has something to do at every step is served: at the latest six steps after
the schedule has ended it is the one who moves, unless a refused command ends the run first. The schedule and the rotation
are the model's (log entry 3). -/
def Obligations.WhoeverWaitsIsServed : Prop :=
  ∀ (s : State) (k : Fin 6),
    (∀ j u, j ≤ s.env.sched.length + 5 → steps j s = .next u → u.ready turnOrder[k] = true) →
    (∃ j u, j ≤ s.env.sched.length + 5 ∧ steps j s = .next u ∧ u.nextSlot = turnOrder[k]) ∨
    (∃ j r, j ≤ s.env.sched.length + 5 ∧ steps j s = .refused r)

/-- R108: on the host port, a word of no host row changes no state, issues no operation and responds ILLEGAL_CMD with
RDATA = 0; so does a configuration index outside the legal set. (A SET_LF state above 3 is a word of no row.) -/
def Obligations.IllegalRequestsRespondIllegalCmd : Prop :=
  (∀ (s : State) (r : HostReq) (rest : List HostReq) (l : List Slot),
    s.blk.cmd = none → s.env.hostQ = r :: rest → s.env.sched = .command :: l → s.env.resets = [] →
    wellFormedWord .host r.cmd = false →
      step s = .next { s with
        env := { s.env with hostQ := rest, sched := l }
        out := { s.out with resps := s.out.resps ++ [⟨.illegalCmd, 0⟩] } }) ∧
  (∀ (s : State) (i : Instr), s.Calm → i.wf = false → exec i s = .next (s.present ⟨.illegalCmd, 0⟩))

/-- R109: on the event port, a word of no interrupt row is consumed, changes no other state and emits
LOG(IRQ_PORT_ILLEGAL) with SRC, even while the queue is full (log entry 8). -/
def Obligations.IllegalEventsAreConsumedAndLogged : Prop :=
  ∀ (s : State) (r : EventReq) (rest : List EventReq) (l : List Slot),
    s.env.eventQ = r :: rest → s.env.sched = .eventPort :: l → s.env.resets = [] →
    wellFormedWord .interrupt r.cmd = false →
      step s = .next { s with
        env := { s.env with eventQ := rest, sched := l }
        out := { s.out with events := s.out.events ++ [.log .zero .irqPortIllegal (r.src.setWidth 24)] } }

/-! ### Protocol engine -/

/-- REG_RD on an active channel: one read, then the byte zero-extended, or COMM_ERROR with the channel and register, or,
where a reset falls on the read, no response. All other state is as before (R143, R114, R320, R350). -/
def Obligations.RegRdReadsTheRegisterOnce : Prop :=
  ∀ (s : State) (ch : BitVec 4) (c : Chan) (a : Byte), s.Quiet → activeChan s.blk.n ch = some c →
    exec (.regRd ch a) s =
      match s.takeAnswer with
      | (.data v, s') => .next ((s'.logWire (.read c a (.data v))).present ⟨.ok, v.setWidth 32⟩)
      | (.fail, s') => .next ((s'.logWire (.read c a .failed)).present ⟨.commError, failInfo c a⟩)
      | (.resetDuring, s') => .next (s'.logWire (.read c a .abandoned)).blockReset

/-- REG_WR on an active channel: one write, never repeated, then OK or COMM_ERROR (R144, R114, R320, R350). -/
def Obligations.RegWrWritesTheRegisterOnce : Prop :=
  ∀ (s : State) (ch : BitVec 4) (c : Chan) (a v : Byte), s.Quiet → activeChan s.blk.n ch = some c →
    exec (.regWr ch a v) s =
      match s.takeAnswer with
      | (.data _, s') => .next ((s'.logWire (.write c a v .done)).present ⟨.ok, 0⟩)
      | (.fail, s') => .next ((s'.logWire (.write c a v .failed)).present ⟨.commError, failInfo c a⟩)
      | (.resetDuring, s') => .next (s'.logWire (.write c a v .abandoned)).blockReset

/-- RAM_WR whose two waits each see the chip ready within their budget: the polls, ADDR_HI, D0 to D3 in ascending order,
address-low last, the polls again, then OK; with no busy poll exactly eight operations. A delay follows each busy poll, and
all other state is as before (R145, R120, R121; the exact delays are log entry 6's). -/
def Obligations.RamWrSendsLanesThenAddressLow : Prop :=
  ∀ (s : State) (ch : BitVec 4) (c : Chan) (addr : BitVec 12) (v : Word) (b1 b2 : List Byte) (r1 r2 : Byte)
    (as rest : List Answer),
    s.Quiet → activeChan s.blk.n ch = some c → busyPolls s.blk.ramRetryBudget b1 → busyPolls s.blk.ramRetryBudget b2 →
    r1.getLsbD 0 = false → r2.getLsbD 0 = false →
    List.Forall₂ WireOp.answeredBy (ramWriteOps s.par c addr v b1 r1 b2 r2) as → s.env.answers = as ++ rest →
      exec (.ramWr ch addr v) s =
        .next (((s.afterOps (ramWriteOps s.par c addr v b1 r1 b2 r2) rest).advance
          (pauses (b1.length + b2.length) s.blk.ramPollDelay)).present ⟨.ok, 0⟩)

/-- RAM_RD whose two waits each see the chip ready within their budget: the polls, the two address writes, the polls again,
the lanes D3 to D0 in descending order, then OK with the reassembled 29-bit value; with no busy poll exactly eight
operations. A delay follows each busy poll, and all other state is as before (R146, R120, R121; the exact delays are log
entry 6's). -/
def Obligations.RamRdReadsLanesDescending : Prop :=
  ∀ (s : State) (ch : BitVec 4) (c : Chan) (addr : BitVec 12) (b1 b2 : List Byte) (r1 r2 d3 d2 d1 d0 : Byte)
    (as rest : List Answer),
    s.Quiet → activeChan s.blk.n ch = some c → busyPolls s.blk.ramRetryBudget b1 → busyPolls s.blk.ramRetryBudget b2 →
    r1.getLsbD 0 = false → r2.getLsbD 0 = false →
    List.Forall₂ WireOp.answeredBy (ramReadOps s.par c addr b1 r1 b2 r2 d3 d2 d1 d0) as → s.env.answers = as ++ rest →
      exec (.ramRd ch addr) s =
        .next (((s.afterOps (ramReadOps s.par c addr b1 r1 b2 r2 d3 d2 d1 d0) rest).advance
          (pauses (b1.length + b2.length) s.blk.ramPollDelay)).present
          ⟨.ok, (d3.setWidth 32 <<< 21) ||| (d2.setWidth 32 <<< 13) ||| (d1.setWidth 32 <<< 5) |||
            (d0.setWidth 32 >>> 3)⟩) ∧
      (ramReassemble d3 d2 d1 d0).toNat < 2 ^ 29

/-- A RAM command or a CAL ends at its first failing operation, whichever that is (a poll after any number of busy ones, a
window write, a lane read, a seed write, a status read of any iteration), with COMM_ERROR naming it, and issues nothing
after it (R145, R146, R147, R173, R176, R320; the exact delays are log entry 6's). -/
def Obligations.RamAndCalCommandsStopAtTheFirstFailure : Prop :=
  (∀ (s : State) (ch : BitVec 4) (c : Chan) (addr : BitVec 12) (i : Instr) (b1 b2 : List Byte) (window : Nat)
    (ops : List WireOp) (k : Nat) (op : WireOp) (as rest : List Answer),
    s.Quiet → activeChan s.blk.n ch = some c → busyPolls s.blk.ramRetryBudget b1 → busyPolls s.blk.ramRetryBudget b2 →
    ((∃ v r1 r2, r1.getLsbD 0 = false ∧ r2.getLsbD 0 = false ∧ i = .ramWr ch addr v ∧ window = 6 ∧
        ops = ramWriteOps s.par c addr v b1 r1 b2 r2) ∨
     (∃ r1 r2 d3 d2 d1 d0, r1.getLsbD 0 = false ∧ r2.getLsbD 0 = false ∧ i = .ramRd ch addr ∧ window = 2 ∧
        ops = ramReadOps s.par c addr b1 r1 b2 r2 d3 d2 d1 d0)) →
    ops[k]? = some op → List.Forall₂ WireOp.answeredBy (ops.take k) as → s.env.answers = as ++ .fail :: rest →
      exec i s =
        .next (((s.afterOps (ops.take k ++ [op.fails]) rest).advance
          (pauses (min k b1.length + min (k - (b1.length + 1 + window)) b2.length) s.blk.ramPollDelay)).present
            ⟨.commError, failInfo c op.reg⟩)) ∧
  (∀ (s : State) (seeds : Word) (scans : List (List Byte)) (k : Nat) (op : WireOp) (as rest : List Answer),
    let chans := channelsBelow s.blk.n
    let ops := seedOps s.par seeds chans ++ scans.flatMap (scanOps s.par chans)
    s.Quiet → (∀ b ∈ scans, b.length = s.blk.n.val ∧ ∃ v ∈ b, v.getLsbD 7 = true) →
    scans.length ≤ 5 * s.blk.calRetryBudget.toNat →
    ops[k]? = some op → List.Forall₂ WireOp.answeredBy (ops.take k) as → s.env.answers = as ++ .fail :: rest →
      exec (.cal 4 seeds) s =
        .next (((s.afterOps (ops.take k ++ [op.fails]) rest).advance
          (pauses ((k - 4 * s.blk.n.val) / s.blk.n.val) s.blk.calPollDelay)).present
            ⟨.commError, failInfo op.chan op.reg⟩))

/-- k busy polls and then a ready one are k + 1 reads with a delay after each busy one; a bit that never clears is exactly
`S.ram_retry_budget` reads with a delay between two reads, then TIMEOUT; a budget of 0 is no read (R140, R141). That NOW
advances by exactly the delays, and by nothing else, is the model's choice where the schedule is empty (log entries 3 and 6;
R12 says at least). -/
def Obligations.WaitReadyPollsExactlyTheBudget : Prop :=
  (∀ (s : State) (c : Chan) (polls : List Byte) (r : Byte) (rest : List Answer),
    s.env.sched = [] → (∀ b ∈ polls, b.getLsbD 0 = true) → r.getLsbD 0 = false →
    polls.length < s.blk.ramRetryBudget.toNat → s.env.answers = answering (polls ++ [r]) ++ rest →
      (waitReady c).run s =
        .ok () ((s.afterOps (readsOf c s.par.regRamstat (polls ++ [r])) rest).advance
          (pauses polls.length s.blk.ramPollDelay))) ∧
  (∀ (s : State) (c : Chan) (polls : List Byte) (rest : List Answer),
    s.env.sched = [] → (∀ b ∈ polls, b.getLsbD 0 = true) →
    polls.length = s.blk.ramRetryBudget.toNat → s.env.answers = answering polls ++ rest →
      (waitReady c).run s =
        .error (.raised .timeout (failInfo c s.par.regRamstat))
          ((s.afterOps (readsOf c s.par.regRamstat polls) rest).advance
            (pauses (polls.length - 1) s.blk.ramPollDelay)))

/-- A RAM command whose first wait never sees the chip ready responds TIMEOUT with the status register, after the polls
alone: no window register was written. One whose second wait never does responds TIMEOUT too: a RAM_WR although address-low
has been written, a RAM_RD without a lane read (R148, R141, R145, R146, R321). That NOW advances by exactly the delays is
the model's choice (log entry 6). -/
def Obligations.RamCommandsTimeOut : Prop :=
  (∀ (s : State) (ch : BitVec 4) (c : Chan) (addr : BitVec 12) (v : Word) (polls : List Byte) (rest : List Answer),
    s.Quiet → activeChan s.blk.n ch = some c → (∀ b ∈ polls, b.getLsbD 0 = true) →
    polls.length = s.blk.ramRetryBudget.toNat → s.env.answers = answering polls ++ rest →
    ∀ i ∈ [Instr.ramRd ch addr, Instr.ramWr ch addr v],
      exec i s =
        .next (((s.afterOps (readsOf c s.par.regRamstat polls) rest).advance
          (pauses (polls.length - 1) s.blk.ramPollDelay)).present ⟨.timeout, failInfo c s.par.regRamstat⟩)) ∧
  (∀ (s : State) (ch : BitVec 4) (c : Chan) (addr : BitVec 12) (v : Word) (b1 : List Byte) (r1 : Byte) (polls : List Byte),
    s.Quiet → activeChan s.blk.n ch = some c → busyPolls s.blk.ramRetryBudget b1 → r1.getLsbD 0 = false →
    (∀ b ∈ polls, b.getLsbD 0 = true) → polls.length = s.blk.ramRetryBudget.toNat →
    ∀ x ∈ [(Instr.ramWr ch addr v, ramWriteWindow s.par c addr v), (Instr.ramRd ch addr, ramReadWindow s.par c addr)],
    ∀ as rest, List.Forall₂ WireOp.answeredBy (waitOps s.par c b1 r1 ++ x.2) as →
    s.env.answers = as ++ answering polls ++ rest →
      exec x.1 s =
        .next (((s.afterOps (waitOps s.par c b1 r1 ++ x.2 ++ readsOf c s.par.regRamstat polls) rest).advance
          (pauses (b1.length + (polls.length - 1)) s.blk.ramPollDelay)).present
            ⟨.timeout, failInfo c s.par.regRamstat⟩))

/-- R149: a RAM_RD whose address has the same low eleven bits as a RAM_WR's sends the same address bytes, and where the
chip returns the lanes that write sent, it returns the written value without its top three bits. -/
def Obligations.RamRoundTripReturnsTheValue : Prop :=
  ∀ (s : State) (ch : BitVec 4) (c : Chan) (addr addr' : BitVec 12) (v : Word) (b1 b2 : List Byte) (r1 r2 : Byte)
    (as rest : List Answer),
    let ops := ramReadOps s.par c addr b1 r1 b2 r2 (ramLanes v)[3] (ramLanes v)[2] (ramLanes v)[1] (ramLanes v)[0]
    addr'.setWidth 11 = addr.setWidth 11 →
    s.Quiet → activeChan s.blk.n ch = some c → busyPolls s.blk.ramRetryBudget b1 → busyPolls s.blk.ramRetryBudget b2 →
    r1.getLsbD 0 = false → r2.getLsbD 0 = false →
    List.Forall₂ WireOp.answeredBy ops as → s.env.answers = as ++ rest →
      exec (.ramRd ch addr') s =
        .next (((s.afterOps ops rest).advance (pauses (b1.length + b2.length) s.blk.ramPollDelay)).present
          ⟨.ok, v &&& 0x1FFFFFFF#32⟩)

/-! ### Calibration -/

/-- CAL succeeds at the first iteration in which every active channel reads clear: the seed writes in ascending order, one
read of every channel in every iteration, a delay after each busy iteration, then OK (R173, R174, R175). That NOW advances
by exactly the delays is the model's choice (log entry 6; R12 says at least). -/
def Obligations.CalSucceedsAtTheFirstClearIteration : Prop :=
  ∀ (s : State) (seeds : Word) (acks : List Byte) (busyScans : List (List Byte)) (last : List Byte)
    (rest : List Answer),
    s.Quiet → acks.length = 4 * s.blk.n.val →
    (∀ b ∈ busyScans, b.length = s.blk.n.val ∧ ∃ v ∈ b, v.getLsbD 7 = true) →
    last.length = s.blk.n.val → (∀ v ∈ last, v.getLsbD 7 = false) →
    busyScans.length < 5 * s.blk.calRetryBudget.toNat →
    s.env.answers = answering acks ++ busyScans.flatMap answering ++ answering last ++ rest →
      exec (.cal 4 seeds) s =
        .next (((s.afterOps (seedOps s.par seeds (channelsBelow s.blk.n) ++
            busyScans.flatMap (scanOps s.par (channelsBelow s.blk.n)) ++
            scanOps s.par (channelsBelow s.blk.n) last) rest).advance
          (pauses busyScans.length s.blk.calPollDelay)).present ⟨.ok, 0⟩)

/-- CAL times out after `5 × S.cal_retry_budget` iterations that each saw a busy channel, with a delay between two
iterations, and names the first busy channel of the last one; with a budget of 0 there is no poll and channel 0 is named
(R171, R172, R173, R175). That NOW advances by exactly the delays is the model's choice (log entry 6; R12 says at least). -/
def Obligations.CalTimesOutAfterItsLimit : Prop :=
  ∀ (s : State) (seeds : Word) (acks : List Byte) (scans : List (List Byte)) (rest : List Answer),
    s.Quiet → acks.length = 4 * s.blk.n.val →
    (∀ b ∈ scans, b.length = s.blk.n.val ∧ ∃ v ∈ b, v.getLsbD 7 = true) →
    scans.length = 5 * s.blk.calRetryBudget.toNat →
    s.env.answers = answering acks ++ scans.flatMap answering ++ rest →
      exec (.cal 4 seeds) s =
        .next (((s.afterOps (seedOps s.par seeds (channelsBelow s.blk.n) ++
            scans.flatMap (scanOps s.par (channelsBelow s.blk.n))) rest).advance
          (pauses (scans.length - 1) s.blk.calPollDelay)).present
            ⟨.timeout, failInfo (((scans.getLast?).bind (firstBusyOf (channelsBelow s.blk.n))).getD .zero)
              s.par.regCalStatus⟩)

/-! ### Interrupts -/

/-- A well-formed event at the event port is discarded with a LOG of SRC while the port is closed, queued at the tail
while there is room, and left with its source otherwise; all other state is as before (R203, R204, R205). That a closed port
discards an event even while the queue is full is read from R203 against R102 (log entry 8), and the count above 255 is a
free value (log entry 7). -/
def Obligations.EventPortDiscardsQueuesOrHolds : Prop :=
  ∀ (s : State) (r : EventReq) (rest : List EventReq) (payload : Option Byte) (t : Word) (i : Instr),
    s.env.eventQ = r :: rest →
    (i = .irqEv t ∧ payload = none ∨ ∃ b, i = .irqEvp b t ∧ payload = some b) →
      (s.blk.irqEn = false → s.env.resets = [] → exec i s = .next { s with
        env := { s.env with eventQ := rest }
        out := { s.out with events := s.out.events ++ [.log .zero .irqDiscarded (r.src.setWidth 24)] } }) ∧
      (s.blk.irqEn = true → s.blk.irqQ.length < s.par.irqQueueDepth → exec i s = .next { s with
        blk := { s.blk with
          irqQ := s.blk.irqQ ++ [⟨payload, t, r.src⟩]
          irqQcount := queueCount (s.blk.irqQ.length + 1) }
        env := { s.env with eventQ := rest } }) ∧
      (s.blk.irqEn = true → s.par.irqQueueDepth ≤ s.blk.irqQ.length → exec i s = .next s)

/-- IRQ_CHANNELS: one read of the shared status register on channel 0, then the packing; no stage 2, no event (R206,
R115). -/
def Obligations.IrqChannelsPacksTheStatusByte : Prop :=
  ∀ (s : State), s.Quiet →
    exec .irqChannels s =
      (match s.takeAnswer with
      | (.data v, s') =>
        .next ((s'.logWire (.read .zero s.par.regIrqStatus (.data v))).present ⟨.ok, irqChannelsWord v⟩)
      | (.fail, s') =>
        .next ((s'.logWire (.read .zero s.par.regIrqStatus .failed)).present
          ⟨.commError, failInfo .zero s.par.regIrqStatus⟩)
      | (.resetDuring, s') => .next (s'.logWire (.read .zero s.par.regIrqStatus .abandoned)).blockReset)

/-- R115: RDATA[23:16] is the status byte; bit 12 and bits 11:8 are channel 1's pending flag and mask, bit 4 and bits 3:0
channel 0's; all other bits are 0. -/
def Obligations.IrqChannelsWordHasTheStatedBits : Prop :=
  ∀ v : Byte,
    irqChannelsWord v =
      0#8 ++ v ++ 0#3 ++ BitVec.ofBool (decide (v.extractLsb' 4 4 ≠ 0)) ++ v.extractLsb' 4 4 ++
        0#3 ++ BitVec.ofBool (decide (v.extractLsb' 0 4 ≠ 0)) ++ v.extractLsb' 0 4

/-- R190: a zero byte has no pending channel, a channel is pending exactly when its nibble is not zero, with that nibble as
its mask, and channel 0 comes before channel 1. -/
def Obligations.StageOneListsPendingChannels : Prop :=
  stage1 0x00 = [] ∧ stage1 0x03 = [(.zero, 3)] ∧ stage1 0x30 = [(.one, 3)] ∧ stage1 0x33 = [(.zero, 3), (.one, 3)] ∧
  ∀ v : Byte, stage1 v =
    [(Chan.zero, v.extractLsb' 0 4), (Chan.one, v.extractLsb' 4 4)].filter (fun x => decide (x.2 ≠ 0))

/-- IRQ_ENABLE writes `S.irq_en` and nothing else, without a transport operation, whatever the schedule (R207). -/
def Obligations.IrqEnableWritesTheGate : Prop :=
  ∀ (s : State) (en : Bool), s.Calm →
    exec (.irqEnable en) s = .next { s with
      blk := { s.blk with irqEn := en }
      out := { s.out with resps := s.out.resps ++ [⟨.ok, 0⟩] } }

/-- Stage 2 of a channel: six moves of the interrupt agent read the three flag registers in order, each once, and collect
the flags of their set bits; the dispatch comes next and all other state is as before (R191, R194). -/
def Obligations.StageTwoReadsTheThreeFlagRegisters : Prop :=
  ∀ (s : State) (t : Word) (c : Chan) (todo : List Pending) (r0 r1 r2 : Byte) (rest : List Answer) (l : List Slot),
    s.blk.irqPos = .wantFlag t c 0 [] todo → s.blk.grant = .none →
    s.env.sched = List.replicate 6 .interrupt ++ l → s.env.answers = answering [r0, r1, r2] ++ rest →
      steps 6 s =
        .next (((s.afterOps [.read c s.par.regIrqFlag[0] (.data r0), .read c s.par.regIrqFlag[1] (.data r1),
            .read c s.par.regIrqFlag[2] (.data r2)] rest).setSched l).setIrqPos
          (let flags := addFlags s.par 2 r2 (addFlags s.par 1 r1 (addFlags s.par 0 r0 []))
          .dispatch t c flags flags todo))

/-- R193: what a flag register adds keeps the flags already seen in front, adds each HighFlag at most once, and adds
exactly those its set bits map to; of two new flags, the one whose first set bit is lower comes first, whatever the unset
bits map to. -/
def Obligations.StageTwoKeepsFirstSeenOrder : Prop :=
  ∀ (p : Params) (i : Fin 3) (r : Byte) (flags : List Nat),
    flags <+: addFlags p i r flags ∧
    (flags.Nodup → (addFlags p i r flags).Nodup) ∧
    (∀ h, h ∈ addFlags p i r flags ↔
      h ∈ flags ∨ ∃ b : Fin 8, r.getLsbD b.val = true ∧ p.flagMap[i][b] = .flag h) ∧
    (∀ b b' : Fin 8, b < b' → ∀ h h', p.flagMap[i][b] = .flag h → p.flagMap[i][b'] = .flag h' →
      r.getLsbD b.val = true → r.getLsbD b'.val = true → h ∉ flags → h' ∉ flags → h ≠ h' →
      (∀ b'' : Fin 8, b'' < b → r.getLsbD b''.val = true → p.flagMap[i][b''] ≠ .flag h') →
        (addFlags p i r flags).idxOf h < (addFlags p i r flags).idxOf h')

/-- The dispatch emits every flag in order, one move each, so that others may move between two of them; the move after the
last, with HOOK among the flags, requests the cancellation of a running ring and goes on to read the hook status, else it
goes on to the next channel (R195, R196, R197, R84). Two moves then read the hook status of the channel once and feed its
level, with the arrival time of the event, to the channel's detector: a repeated level changes nothing, a change in the
flash window flashes and resets, any other change counts a pulse where it is one and awaits a timeout (R195, R280). Every
other field is as before (the moves are log entry 5's). -/
def Obligations.DispatchReportsFlagsAndPreemptsTheRing : Prop :=
  (∀ (s : State) (t : Word) (c : Chan) (h : Nat) (left flags : List Nat) (todo : List Pending) (l : List Slot),
    s.blk.irqPos = .dispatch t c (h :: left) flags todo → s.env.sched = .interrupt :: l →
      step s = .next (((s.setSched l).emit (.flag c h)).setIrqPos (.dispatch t c left flags todo))) ∧
  (∀ (s : State) (t : Word) (c : Chan) (left flags : List Nat) (todo : List Pending) (l : List Slot),
    s.blk.irqPos = .dispatch t c left flags todo → s.env.sched = List.replicate (left.length + 1) .interrupt ++ l →
      ∃ u, steps (left.length + 1) s = .next u ∧ u.par = s.par ∧ u.env = { s.env with sched := l } ∧
        u.out = { s.out with events := s.out.events ++ left.map (Event.flag c) } ∧
        (s.par.hookFlag ∉ flags → u.blk = { s.blk with irqPos := .pairs t todo }) ∧
        (s.par.hookFlag ∈ flags → (s.chan c).ring.active = false →
          u.blk = { s.blk with irqPos := .wantHook t c todo }) ∧
        (s.par.hookFlag ∈ flags → (s.chan c).ring.active = true →
          u.blk = { s.blk with irqPos := .wantHook t c todo }.setChan c
            { s.chan c with ring := { (s.chan c).ring with cancel := true } })) ∧
  (∀ (s : State) (t : Word) (c : Chan) (todo : List Pending) (r : Byte) (rest : List Answer) (l : List Slot),
    s.blk.irqPos = .wantHook t c todo → s.blk.grant = .none → s.env.sched = .interrupt :: .interrupt :: l →
    s.env.answers = .data r :: rest →
      let h := (s.chan c).hook
      let thr := (s.chan c).thr
      let lvl := if r.getLsbD 1 then Level.onhook else Level.offhook
      let d := t - h.lastT
      let flash := thr.minFlash ≤ d ∧ d ≤ thr.maxFlash
      let count := if lvl = .offhook ∧ thr.minDigit ≤ d ∧ d ≤ thr.maxDigit then
        BitVec.ofNat 8 (min (h.count.toNat + 1) 255) else h.count
      let u := ((s.afterOps [.read c s.par.regHookStatus (.data r)] rest).setSched l).setIrqPos (.pairs t todo)
      (lvl = h.level → steps 2 s = .next u) ∧
      (lvl ≠ h.level → flash → steps 2 s = .next ((u.setHook c ⟨lvl, t, 0, false⟩).emit (.hookflash c))) ∧
      (lvl ≠ h.level → ¬ flash → steps 2 s = .next (u.setHook c ⟨lvl, t, count, true⟩)))

/-- The interrupt agent's failures are LOG events and nothing more. A transport failure of the status read, seen by the
agent at its next move, ends the event (R208); of flag register i, dispatches the flags collected so far (R210); of the hook
status, leaves the detector alone and goes on with the next channel (R212, R211). The first three clauses start where the
read fails, the last three where the failure has been seen. -/
def Obligations.InterruptFailuresAreLoggedAndIsolated : Prop :=
  ∀ (s : State) (l : List Slot) (t : Word) (c : Chan) (i : Fin 3) (flags : List Nat) (todo : List Pending)
    (rest : List Answer),
    (s.blk.grant = .none → s.env.sched = .interrupt :: .interrupt :: l → s.env.answers = .fail :: rest →
      (s.blk.irqPos = .wantStatus t → steps 2 s = .next
        ((((s.afterOps [.read .zero s.par.regIrqStatus .failed] rest).setSched l).emit
          (.log .zero .irqStatusReadFail 0)).setIrqPos .idle)) ∧
      (s.blk.irqPos = .wantFlag t c i flags todo → steps 2 s = .next
        ((((s.afterOps [.read c s.par.regIrqFlag[i] .failed] rest).setSched l).emit
          (.log c .irqFlagReadFail (BitVec.ofNat 24 i.val))).setIrqPos (.dispatch t c flags flags todo))) ∧
      (s.blk.irqPos = .wantHook t c todo → steps 2 s = .next
        ((((s.afterOps [.read c s.par.regHookStatus .failed] rest).setSched l).emit
          (.log c .hookReadFail 0)).setIrqPos (.pairs t todo)))) ∧
    (s.env.sched = .interrupt :: l →
      (s.blk.irqPos = .haveStatus t none → step s = .next { s with
        blk := { s.blk with irqPos := .idle }
        env := { s.env with sched := l }
        out := { s.out with events := s.out.events ++ [.log .zero .irqStatusReadFail 0] } }) ∧
      (s.blk.irqPos = .haveFlag t c i flags todo none → step s = .next { s with
        blk := { s.blk with irqPos := .dispatch t c flags flags todo }
        env := { s.env with sched := l }
        out := { s.out with events := s.out.events ++ [.log c .irqFlagReadFail (BitVec.ofNat 24 i.val)] } }) ∧
      (s.blk.irqPos = .haveHook t c todo none → step s = .next { s with
        blk := { s.blk with irqPos := .pairs t todo }
        env := { s.env with sched := l }
        out := { s.out with events := s.out.events ++ [.log c .hookReadFail 0] } }))

/-- R198: an idle interrupt agent takes the head event of the queue, in arrival order, and the count follows; an event
with a payload needs no status read, one without reads the shared status register once, on channel 0, and takes its stage 1
(R198, R201). R200: a pending channel that is not active is skipped without a read, a dispatch or an
event; an active one starts stage 2 at flag register 0; after the last the agent is idle again. -/
def Obligations.InterruptAgentTakesTheHeadEventAndSkipsInactiveChannels : Prop :=
  (∀ (s : State) (t : Word) (r : Byte) (rest : List Answer) (l : List Slot),
    s.blk.irqPos = .wantStatus t → s.blk.grant = .none → s.env.sched = .interrupt :: .interrupt :: l →
    s.env.answers = .data r :: rest →
      steps 2 s = .next (((s.afterOps [.read .zero s.par.regIrqStatus (.data r)] rest).setSched l).setIrqPos
        (.pairs t ([(Chan.zero, r.extractLsb' 0 4), (Chan.one, r.extractLsb' 4 4)].filter
          (fun x => decide (x.2 ≠ 0)))))) ∧
  ∀ (s : State) (l : List Slot), s.env.sched = .interrupt :: l →
    (∀ (e : IrqEvent) (q : List IrqEvent), s.blk.irqPos = .idle → s.blk.irqQ = e :: q →
      step s = .next { s with
        blk := { s.blk with
          irqQ := q
          irqQcount := queueCount q.length
          irqPos := match e.payload with
            | some b => .pairs e.t (stage1 b)
            | none => .wantStatus e.t }
        env := { s.env with sched := l } }) ∧
    (∀ (t : Word) (c : Chan) (m : BitVec 4) (todo : List Pending), s.blk.irqPos = .pairs t ((c, m) :: todo) →
      (s.blk.n.val ≤ c.toNat → step s = .next ((s.setSched l).setIrqPos (.pairs t todo))) ∧
      (c.toNat < s.blk.n.val → step s = .next ((s.setSched l).setIrqPos (.wantFlag t c 0 [] todo)))) ∧
    (∀ t : Word, s.blk.irqPos = .pairs t [] → step s = .next ((s.setSched l).setIrqPos .idle))

/-! ### Line state -/

/-- SET_LF, START_RING and STOP_RING under either guard: one linefeed read, OK, and `S.lf_state` and all other state as
before (R220 guards, R221, R222, R223, R226). -/
def Obligations.LinefeedGuardsIssueNoWrite : Prop :=
  ∀ (s : State) (i : Instr) (ch : BitVec 4) (c : Chan) (req : LfState) (v : Byte) (rest : List Answer),
    s.Quiet → linefeedRequest i = some (ch, req) → activeChan s.blk.n ch = some c → s.env.answers = .data v :: rest →
    lfGuards s.par req v →
      exec i s = .next ((s.afterOps [.read c s.par.regLinefeed (.data v)] rest).present ⟨.ok, 0⟩)

/-- SET_LF, START_RING and STOP_RING where neither guard applies: the linefeed read, the AUTO read, AUTO cleared, the
linefeed code written, AUTO restored to the byte read, then OK; `S.lf_state` becomes the requested state and all other
state is as before (R220, R226, R227, R128). -/
def Obligations.LinefeedTransitionRunsTheAutoBracket : Prop :=
  ∀ (s : State) (i : Instr) (ch : BitVec 4) (c : Chan) (req : LfState) (v a : Byte) (as rest : List Answer),
    s.Quiet → linefeedRequest i = some (ch, req) → activeChan s.blk.n ch = some c →
    ¬ lfGuards s.par req v →
    List.Forall₂ WireOp.answeredBy (bracketOps s.par c req v a) as → s.env.answers = as ++ rest →
      exec i s =
        .next (((s.afterOps (bracketOps s.par c req v a) rest).setLf c req).present ⟨.ok, 0⟩)

/-- A linefeed command whose k-th operation fails ends at once with COMM_ERROR naming that register; no operation follows
it (AUTO is not restored) and `S.lf_state` is as before (R220, R228, R229). -/
def Obligations.LinefeedFailureEndsTheBracket : Prop :=
  ∀ (s : State) (i : Instr) (ch : BitVec 4) (c : Chan) (req : LfState) (v a : Byte) (k : Nat) (op : WireOp)
    (as rest : List Answer),
    s.Quiet → linefeedRequest i = some (ch, req) → activeChan s.blk.n ch = some c →
    ¬ lfGuards s.par req v →
    (bracketOps s.par c req v a)[k]? = some op →
    List.Forall₂ WireOp.answeredBy ((bracketOps s.par c req v a).take k) as → s.env.answers = as ++ .fail :: rest →
      exec i s =
        .next ((s.afterOps ((bracketOps s.par c req v a).take k ++ [op.fails]) rest).present
          ⟨.commError, failInfo c op.reg⟩)

/-- GET_HOOK: one read of the hook status register, then bit 1 as the level (1 on-hook), or COMM_ERROR (R224, R126). -/
def Obligations.GetHookReturnsBitOne : Prop :=
  ∀ (s : State) (ch : BitVec 4) (c : Chan), s.Quiet → activeChan s.blk.n ch = some c →
    exec (.getHook ch) s =
      match s.takeAnswer with
      | (.data v, s') =>
        .next ((s'.logWire (.read c s.par.regHookStatus (.data v))).present ⟨.ok, (v.extractLsb' 1 1).setWidth 32⟩)
      | (.fail, s') =>
        .next ((s'.logWire (.read c s.par.regHookStatus .failed)).present ⟨.commError, failInfo c s.par.regHookStatus⟩)
      | (.resetDuring, s') => .next (s'.logWire (.read c s.par.regHookStatus .abandoned)).blockReset

/-! ### Ringing -/

/-- RING_BEGIN: on a ringing channel nothing changes; an invalid cadence gives BAD_PATTERN without a read; else the hook
status is read once, bit 1 set gives RING_UNHOOK, and bit 1 clear starts the ringer at phase 0 with a fresh baseline
(R252, R251). -/
def Obligations.RingBeginStartsTheRinger : Prop :=
  ∀ (s : State) (ch : BitVec 4) (c : Chan), s.Quiet → activeChan s.blk.n ch = some c →
    let cad := (s.chan c).cad
    let valid := cad.n.toNat % 2 = 0 ∧ 2 ≤ cad.n.toNat ∧ cad.n.toNat ≤ 16 ∧
      ∀ k : Fin 16, k.val < cad.n.toNat → cad.phase[k] ≠ 0
    ((s.chan c).ring.active = true → exec (.ringBegin ch) s = .next (s.present ⟨.ok, 0⟩)) ∧
    ((s.chan c).ring.active = false → ¬ valid → exec (.ringBegin ch) s = .next (s.present ⟨.badPattern, 0⟩)) ∧
    ((s.chan c).ring.active = false → valid →
      exec (.ringBegin ch) s =
        match s.takeAnswer with
        | (.data v, s') =>
          if v.getLsbD 1 then
            .next ((s'.logWire (.read c s.par.regHookStatus (.data v))).present ⟨.ringUnhook, 0⟩)
          else
            .next (((s'.logWire (.read c s.par.regHookStatus (.data v))).setRing c
              { (s.chan c).ring with
                active := true, idx := 0, t0 := s.env.now, cancel := false, pos := .ready }).present ⟨.ok, 0⟩)
        | (.fail, s') =>
          .next ((s'.logWire (.read c s.par.regHookStatus .failed)).present
            ⟨.commError, failInfo c s.par.regHookStatus⟩)
        | (.resetDuring, s') => .next (s'.logWire (.read c s.par.regHookStatus .abandoned)).blockReset)

/-- RING_CANCEL sets the cancellation of a ringing channel and nothing else; on a channel that is not ringing nothing
changes (R260). RING_CANCEL_ALL does so for both channels, active or not, one after the other; where nobody moves between
the two (log entry 3) nothing else changes, and whatever the schedule, no channel that still rings at its end is without a
cancellation (R261). The test and the write of one channel are one change (log entry 5). No transport operation is issued. -/
def Obligations.RingCancelRequestsCancellation : Prop :=
  (∀ (s : State) (ch : BitVec 4) (c : Chan), s.Calm → activeChan s.blk.n ch = some c →
    exec (.ringCancel ch) s =
      if (s.chan c).ring.active then
        .next ((s.setRing c { (s.chan c).ring with cancel := true }).present ⟨.ok, 0⟩)
      else .next (s.present ⟨.ok, 0⟩)) ∧
  (∀ (s t : State) (d : Chan), exec .ringCancelAll s = .next t → (t.chan d).ring.active = true →
    (t.chan d).ring.cancel = true) ∧
  (∀ (s : State), s.Calm → s.env.sched = [] → ∃ t : State, exec .ringCancelAll s = .next (t.present ⟨.ok, 0⟩) ∧
    t.par = s.par ∧ t.env = s.env ∧ t.out = s.out ∧
    t.blk = { s.blk with
      ch0 := { s.blk.ch0 with ring := { s.blk.ch0.ring with cancel := s.blk.ch0.ring.cancel || s.blk.ch0.ring.active } }
      ch1 := { s.blk.ch1 with ring := { s.blk.ch1.ring with cancel := s.blk.ch1.ring.cancel || s.blk.ch1.ring.active } } })

/-- A live ringer that is not waiting and not cancelled, with time left: its moves compute the phase, run its `SetLineFeed`,
log a failure and begin the wait. The duration is the smaller of the phase and the time remaining, even phases ring, the
index moves on cyclically, and the deadline is the time after the transition plus the duration. So it is however the
`SetLineFeed` goes: a full transition sets `S.lf_state`, a guarded one leaves it, and a failed one leaves it, is logged
with its status and does not end the ring (R253, R254, R258, R262, R220; the moves are log entry 5's). -/
def Obligations.RingerRunsOnePhase : Prop :=
  ∀ (s : State) (c : Chan) (ops : List WireOp) (as : List Answer) (res : LfResult) (moved : Bool) (rest : List Answer)
    (l : List Slot) (k : Fin 16),
    let r := (s.chan c).ring
    let cad := (s.chan c).cad
    let req := if k.val % 2 = 0 then LfState.ringing else LfState.ringIdle
    r.active = true → r.pos = .ready → r.cancel = false → s.blk.grant = .none → r.idx.toNat = k.val →
    k.val < cad.n.toNat → s.env.now - r.t0 < cad.total →
    s.env.sched = List.replicate (3 + (lfFailLog c res).length) (.ringer c) ++ l → s.env.resets = [] →
    LinefeedRun s.par c req ops as res moved → s.env.answers = as ++ rest →
      steps (3 + (lfFailLog c res).length) s =
        .next ((((s.afterOps ops rest).setSched l).setChan c
          { s.chan c with
            lf := if moved then req else (s.chan c).lf
            ring := { r with
              idx := BitVec.ofNat 8 ((k.val + 1) % cad.n.toNat)
              deadline := s.env.now +
                (if cad.phase[k] ≤ cad.total - (s.env.now - r.t0) then cad.phase[k] else cad.total - (s.env.now - r.t0))
              pos := .waiting } }).afterEvents (lfFailLog c res))

/-- A waiting ringer does nothing until its deadline is reached or a cancellation is requested. One that is due, because it
is not waiting yet or because its wait is over, goes to its exit where a cancellation is requested or the elapsed time has
reached the total (at once, where it has not begun its first phase), and else starts the next phase: the state of its index,
the smaller of its duration and the time remaining, the index moved on cyclically (R253, R254, R255, R256, R257, R251). -/
def Obligations.RingerWaitsForDeadlineOrCancellation : Prop :=
  ∀ (s : State) (c : Chan) (l : List Slot) (k : Fin 16),
    let r := (s.chan c).ring
    let cad := (s.chan c).cad
    let left := cad.total - (s.env.now - r.t0)
    let reached := (s.env.now - r.deadline).toNat < 2 ^ 31
    let due := r.pos = .ready ∨ r.pos = .waiting ∧ (reached ∨ r.cancel = true)
    r.active = true → s.env.sched = .ringer c :: l →
      (r.pos = .waiting → ¬ due → step s = .next (s.setSched l)) ∧
      (due → r.cancel = true →
        step s = .next ((s.setSched l).setRing c { r with pos := .wantExit .cancelled })) ∧
      (due → r.cancel = false → cad.total ≤ s.env.now - r.t0 →
        step s = .next ((s.setSched l).setRing c { r with pos := .wantExit .exhausted })) ∧
      (due → r.cancel = false → s.env.now - r.t0 < cad.total → r.idx.toNat = k.val → k.val < cad.n.toNat →
        step s = .next ((s.setSched l).setRing c { r with
          idx := BitVec.ofNat 8 ((k.val + 1) % cad.n.toNat)
          pos := .wantPhase (if k.val % 2 = 0 then .ringing else .ringIdle)
            (if cad.phase[k] ≤ left then cad.phase[k] else left) }))

/-- The end of a ring, cancelled or exhausted: its moves run `SetLineFeed(c, IDLE)`, guarded like every linefeed request,
log a failed exit write, which does not keep the ring alive, report the reason with RING_END, and stop the agent. The cadence, the baseline and
all other state are as before (R258, R259; the moves are log entry 5's). -/
def Obligations.RingerExitReportsAndStops : Prop :=
  (∀ (s : State) (c : Chan) (reason : RingEndReason) (ops : List WireOp) (as : List Answer) (res : LfResult)
    (moved : Bool) (rest : List Answer) (l : List Slot),
    (s.chan c).ring.active = true → (s.chan c).ring.pos = .wantExit reason → s.blk.grant = .none →
    s.env.sched = List.replicate (3 + (lfFailLog c res).length) (.ringer c) ++ l → s.env.resets = [] →
    LinefeedRun s.par c .idle ops as res moved → s.env.answers = as ++ rest →
      steps (3 + (lfFailLog c res).length) s =
        .next ((((s.afterOps ops rest).setSched l).setChan c
          { s.chan c with
            lf := if moved then .idle else (s.chan c).lf
            ring := { (s.chan c).ring with active := false, cancel := false, pos := .ready } }).afterEvents
              (lfFailLog c res ++ [.ringEnd c reason]))) ∧
  (∀ (s : State) (c : Chan) (reason : RingEndReason) (res : LfResult) (l : List Slot),
    (s.chan c).ring.active = true → (s.chan c).ring.pos = .haveExit reason res →
    s.env.sched = List.replicate (2 + (lfFailLog c res).length) (.ringer c) ++ l →
      steps (2 + (lfFailLog c res).length) s = .next (((s.setSched l).setRing c
        { (s.chan c).ring with active := false, cancel := false, pos := .ready }).afterEvents
          (lfFailLog c res ++ [.ringEnd c reason])))

/-- Every phase duration fits in the time remaining when it is computed, and in the phase's own duration (R254). -/
def Obligations.PhaseDurationFitsInTheTimeRemaining : Prop :=
  ∀ (s u : State) (c : Chan) (l : List Slot) (req : LfState) (d : Word),
    s.env.sched = .ringer c :: l → step s = .next u →
    (s.chan c).ring.pos ≠ .wantPhase req d → (u.chan c).ring.pos = .wantPhase req d →
      (s.env.now - (s.chan c).ring.t0).toNat + d.toNat ≤ (s.chan c).cad.total.toNat ∧
      d ≤ (s.chan c).cad.phaseAt (s.chan c).ring.idx.toNat

/-! ### Hook detector -/

/-- HOOK_SAMPLE on an active channel: a repeated level changes nothing; a level change sets level and time, counts a pulse
when the new level is off-hook and the time lies in the closed digit window, and then either flashes and resets (closed
flash window, at either level) or awaits a timeout. All other state is as before, whatever the schedule (R280, R281, R283,
R285, R286, R289, R36). -/
def Obligations.HookSampleClassifiesOneLevelChange : Prop :=
  ∀ (s : State) (ch : BitVec 4) (c : Chan) (lvl : Level) (t : Word), s.Calm → activeChan s.blk.n ch = some c →
    let h := (s.chan c).hook
    let thr := (s.chan c).thr
    let d := t - h.lastT
    let flash := thr.minFlash ≤ d ∧ d ≤ thr.maxFlash
    let count := if lvl = .offhook ∧ thr.minDigit ≤ d ∧ d ≤ thr.maxDigit then
      BitVec.ofNat 8 (min (h.count.toNat + 1) 255) else h.count
    (lvl = h.level → exec (.hookSample ch lvl t) s = .next (s.present ⟨.ok, 0⟩)) ∧
    (lvl ≠ h.level → flash → exec (.hookSample ch lvl t) s =
      .next (((s.setHook c ⟨lvl, t, 0, false⟩).emit (.hookflash c)).present ⟨.ok, 0⟩)) ∧
    (lvl ≠ h.level → ¬ flash → exec (.hookSample ch lvl t) s =
      .next ((s.setHook c ⟨lvl, t, count, true⟩).present ⟨.ok, 0⟩))

/-- HOOK_TICK on an active channel: while a timeout is awaited and the quiet time has reached `min_inter_digit`, a quiet
time above `min_hook_timeout` reports the timeout of the present level, and otherwise a pending count is reported as a
digit; each report clears count and flag and nothing else. In every other case nothing changes (R282, R283, R284, R287). -/
def Obligations.HookTickReportsTimeoutOrDigit : Prop :=
  ∀ (s : State) (ch : BitVec 4) (c : Chan) (t : Word), s.Calm → activeChan s.blk.n ch = some c →
    let h := (s.chan c).hook
    let thr := (s.chan c).thr
    let d := t - h.lastT
    let ends := h.await = true ∧ thr.minInterDigit ≤ d
    let quiet := s.setHook c { h with count := 0, await := false }
    (ends → thr.minHookTimeout < d → h.level = .onhook →
      exec (.hookTick ch t) s = .next ((quiet.emit (.onhookTimeout c)).present ⟨.ok, 0⟩)) ∧
    (ends → thr.minHookTimeout < d → h.level = .offhook →
      exec (.hookTick ch t) s = .next ((quiet.emit (.offhookTimeout c)).present ⟨.ok, 0⟩)) ∧
    (ends → ¬ thr.minHookTimeout < d → h.count ≠ 0 →
      exec (.hookTick ch t) s = .next ((quiet.emit (.pulseDigit c h.count)).present ⟨.ok, 0⟩)) ∧
    (ends → ¬ thr.minHookTimeout < d → h.count = 0 → exec (.hookTick ch t) s = .next (s.present ⟨.ok, 0⟩)) ∧
    (¬ ends → exec (.hookTick ch t) s = .next (s.present ⟨.ok, 0⟩))

/-- A tick acts only while a timeout is awaited; a tick that reports ends the awaiting and reports once; a sample of
the present level changes nothing. In every step, whoever moves in it, a channel's hook state and the detector's events
come from a sequence of samples, ticks and INIT starts and from nothing else (a reset apart), a start only in a step that
runs INIT (its four field writes at once: log entry 5) and a tick only in one that runs the HOOK_TICK of that channel and
time. In every such sequence the reports, with
the awaiting left at the end, are no more than the level changes, with the awaiting at the start: each level change yields
at most one report, and nothing else starts the awaiting (R280, R282, R284, R285, R288, R304). -/
def Obligations.OneReportForEachLevelChange : Prop :=
  (∀ (s : State) (ch : BitVec 4) (c : Chan) (t : Word), s.Calm → activeChan s.blk.n ch = some c →
    (s.chan c).hook.await = false → exec (.hookTick ch t) s = .next (s.present ⟨.ok, 0⟩)) ∧
  (∀ (s u : State) (ch : BitVec 4) (c : Chan) (t : Word), s.Calm → activeChan s.blk.n ch = some c →
    exec (.hookTick ch t) s = .next u → u.out.events ≠ s.out.events →
      (u.chan c).hook.await = false ∧ u.out.events.length = s.out.events.length + 1) ∧
  (∀ (s : State) (ch : BitVec 4) (c : Chan) (t : Word), s.Calm → activeChan s.blk.n ch = some c →
    exec (.hookSample ch (s.chan c).hook.level t) s = .next (s.present ⟨.ok, 0⟩)) ∧
  (∀ (s u : State) (c : Chan), step s = .next u → u.blk ≠ Block.reset s.par →
    ∃ ops new, (u.chan c).hook = (detect (s.chan c).thr c ops (s.chan c).hook).1 ∧
      u.out.events = s.out.events ++ new ∧
      new.filter (Event.detected c) = (detect (s.chan c).thr c ops (s.chan c).hook).2 ∧
      (∀ lvl t, .start lvl t ∈ ops → s.runs .init) ∧
      (∀ t, .tick t ∈ ops → ∃ ch, chanOf ch = some c ∧ s.runs (.hookTick ch t))) ∧
  (∀ (thr : HookThresholds) (c : Chan) (ops : List DetectorOp) (h : Hook),
    ((detect thr c ops h).2.filter (Event.reports c)).length + (detect thr c ops h).1.await.toNat ≤
      levelChanges thr c ops h + h.await.toNat)

/-- Only the hook detector of a channel changes its HookDebounceState: no move of a ringer, of the event port or of the
time base does, and the interrupt agent only where it feeds the sample of that channel (R288). -/
def Obligations.OnlyTheDetectorChangesHookState : Prop :=
  ∀ (s u : State) (c : Chan) (slot : Slot) (l : List Slot),
    s.env.sched = slot :: l → slot ≠ .command → step s = .next u → u.blk ≠ Block.reset s.par →
    (u.chan c).hook ≠ (s.chan c).hook →
      slot = .interrupt ∧ ∃ t todo b, s.blk.irqPos = .haveHook t c todo (some b) ∧
        (u.chan c).hook.level ≠ (s.chan c).hook.level ∧ (u.chan c).hook.lastT = t

/-! ### Control -/

/-- CFG_RD of a per-channel field returns it, for both channels whether active or not, CFG_RD of a global field returns it
zero-extended, and neither changes anything (R21, R22, R23, R302). -/
def Obligations.CfgRdReturnsTheField : Prop :=
  (∀ (s : State) (ch : BitVec 4) (c : Chan), s.Calm → chanOf ch = some c →
    let x := s.chan c
    let bit : Bool → Word := fun b => if b then 1 else 0
    let lf : Word := match x.lf with
      | .nop => 0
      | .idle => 1
      | .ringIdle => 2
      | .ringing => 3
    (∀ f ∈ [((0x100 : BitVec 12), x.thr.minDigit), (0x101, x.thr.maxDigit), (0x102, x.thr.minFlash),
        (0x103, x.thr.maxFlash), (0x104, x.thr.minInterDigit), (0x105, x.thr.minHookTimeout),
        (0x200, x.cad.total), (0x201, x.cad.n.setWidth 32), (0x300, lf),
        (0x301, bit (decide (x.hook.level = .onhook))), (0x302, x.hook.lastT), (0x303, x.hook.count.setWidth 32),
        (0x304, bit x.hook.await), (0x305, bit x.ring.active), (0x306, x.ring.idx.setWidth 32), (0x307, x.ring.t0),
        (0x308, bit x.ring.cancel)],
      exec (.cfgRd ch f.1) s = .next (s.present ⟨.ok, f.2⟩)) ∧
    (∀ k : Fin 16, exec (.cfgRd ch (0x210 + BitVec.ofNat 12 k.val)) s = .next (s.present ⟨.ok, x.cad.phase[k]⟩))) ∧
  (∀ (s : State), s.Calm →
    ∀ f ∈ [((0x000 : BitVec 12), s.blk.ramRetryBudget.setWidth 32), (0x001, s.blk.ramPollDelay.setWidth 32),
        (0x002, s.blk.calRetryBudget.setWidth 32), (0x003, s.blk.calPollDelay.setWidth 32),
        (0x004, BitVec.ofNat 32 s.blk.n.val), (0x005, if s.blk.irqEn then 1 else 0),
        (0x006, s.blk.irqQcount.setWidth 32)],
      exec (.cfgRd 0 f.1) s = .next (s.present ⟨.ok, f.2⟩))

/-- CFG_WR of a writable field is read back, cut to the field's width, and every other field reads as before; nothing but
the configuration changes, and a read-only field is left alone with OK (R21, R22, R23, R25, R301, R302). -/
def Obligations.CfgWrIsReadBackAndNothingElseMoves : Prop :=
  ∀ (s : State) (ch : BitVec 4) (idx : BitVec 12) (v : Word), s.Calm → (Instr.cfgWr ch idx v).wf = true →
    (isGlobalIndex idx = false → ch.toNat < 2) →
    (∀ c, chanOf ch = some c → 0x200 ≤ idx.toNat → idx.toNat < 0x300 → (s.chan c).ring.active = false) →
    ∃ t : State, exec (.cfgWr ch idx v) s = .next (t.present ⟨.ok, 0⟩) ∧
      t.par = s.par ∧ t.env = s.env ∧ t.out = s.out ∧
      (idx.toNat ≤ 3 → exec (.cfgRd ch idx) t = .next (t.present ⟨.ok, (v.setWidth 16).setWidth 32⟩)) ∧
      (idx = 0x201 → exec (.cfgRd ch idx) t = .next (t.present ⟨.ok, (v.setWidth 8).setWidth 32⟩)) ∧
      (0x100 ≤ idx.toNat → idx.toNat < 0x300 → idx ≠ 0x201 →
        exec (.cfgRd ch idx) t = .next (t.present ⟨.ok, v⟩)) ∧
      ((4 ≤ idx.toNat ∧ idx.toNat ≤ 6 ∨ 0x300 ≤ idx.toNat) → t = s) ∧
      (∀ (ch' : BitVec 4) (idx' : BitVec 12) (w : Word), (ch', idx') ≠ (ch, idx) →
        exec (.cfgRd ch' idx') s = .next (s.present ⟨.ok, w⟩) →
        exec (.cfgRd ch' idx') t = .next (t.present ⟨.ok, w⟩)) ∧
      t.blk.grant = s.blk.grant ∧ t.blk.irqQ = s.blk.irqQ ∧ t.blk.irqPos = s.blk.irqPos ∧ t.Idle ∧
      (∀ c, (t.chan c).ring = (s.chan c).ring ∧ (t.chan c).hook = (s.chan c).hook ∧ (t.chan c).lf = (s.chan c).lf)

/-- Three rejections that change nothing and issue no operation, whatever the schedule: a CFG_WR to a cadence field of a
ringing channel and an INIT while any channel rings respond BUSY (R25, R303); a CAL with a seed length other than 4 responds
INVALID_CAL (R173, R323). -/
def Obligations.BusyAndInvalidCalChangeNothing : Prop :=
  (∀ (s : State) (ch : BitVec 4) (c : Chan) (idx : BitVec 12) (v : Word), s.Calm → chanOf ch = some c →
    (idx = 0x200 ∨ idx = 0x201 ∨ 0x210 ≤ idx.toNat ∧ idx.toNat ≤ 0x21F) → (s.chan c).ring.active = true →
      exec (.cfgWr ch idx v) s = .next (s.present ⟨.busy, 0⟩)) ∧
  (∀ (s : State) (c : Chan), s.Calm → (s.chan c).ring.active = true →
    exec .init s = .next (s.present ⟨.busy, 0⟩)) ∧
  (∀ (s : State) (len : Byte) (seeds : Word), s.Calm → len ≠ 4 →
    exec (.cal len seeds) s = .next (s.present ⟨.invalidCal, 0⟩))

/-- R306: a channel command whose CH is not an active channel, or a per-channel configuration command whose CH is not below
`MAX_CH`, responds BAD_CHANNEL with RDATA = 0, issues no operation and changes no state, whatever the schedule; a global
index with CH ≠ 0 is ILLEGAL_CMD. -/
def Obligations.BadChannelsChangeNothing : Prop :=
  (∀ (s : State) (i : Instr) (ch : BitVec 4), s.Calm → activeChannelField i = some ch → s.blk.n.val ≤ ch.toNat →
    exec i s = .next (s.present ⟨.badChannel, 0⟩)) ∧
  (∀ (s : State) (ch : BitVec 4) (idx : BitVec 12) (v : Word), s.Calm → isChannelIndex idx = true → 2 ≤ ch.toNat →
    ∀ i ∈ [Instr.cfgWr ch idx v, Instr.cfgRd ch idx], exec i s = .next (s.present ⟨.badChannel, 0⟩)) ∧
  (∀ (s : State) (ch : BitVec 4) (idx : BitVec 12) (v : Word), s.Calm → isGlobalIndex idx = true → ch ≠ 0 →
    ∀ i ∈ [Instr.cfgWr ch idx v, Instr.cfgRd ch idx], exec i s = .next (s.present ⟨.illegalCmd, 0⟩))

/-- INIT with one or two channels present: every identification read, then every hook read, in ascending order; N is the
number of channels before the first that reads 0xFF, and each probed channel's detector starts from the line's real level;
all other state is as before (R303, R304). That RDATA is N is R303's, where R114's list leaves INIT out (log entry 18). -/
def Obligations.InitProbesTheChannels : Prop :=
  ∀ (s : State) (id0 id1 h0 h1 : Byte) (rest : List Answer), s.Quiet →
    s.blk.ch0.ring.active = false → s.blk.ch1.ring.active = false → id0 ≠ 0xFF →
    let level : Byte → Level := fun r => if r.getLsbD 1 then .onhook else .offhook
    (id1 = 0xFF → s.env.answers = answering [id0, id1, h0] ++ rest →
      exec .init s = .next (((s.afterOps [.read .zero s.par.regId (.data id0), .read .one s.par.regId (.data id1),
          .read .zero s.par.regHookStatus (.data h0)] rest).setHook .zero ⟨level h0, s.env.now, 0, false⟩).setN 1
        |>.present ⟨.ok, 1⟩)) ∧
    (id1 ≠ 0xFF → s.env.answers = answering [id0, id1, h0, h1] ++ rest →
      exec .init s = .next ((((s.afterOps [.read .zero s.par.regId (.data id0), .read .one s.par.regId (.data id1),
          .read .zero s.par.regHookStatus (.data h0), .read .one s.par.regHookStatus (.data h1)] rest).setHook .zero
            ⟨level h0, s.env.now, 0, false⟩).setHook .one ⟨level h1, s.env.now, 0, false⟩).setN 2
        |>.present ⟨.ok, 2⟩))

/-- Every cause of a failed INIT responds INIT_ERROR with RDATA = 0 and leaves N = 0: a failing identification read of
channel 0 or channel 1, channel 0 reading 0xFF, a failing hook read of a probed channel; each ends it at once (R303, R322).
Whatever the schedule and the chip's answers, an INIT that responds INIT_ERROR has RDATA = 0, N = 0 and every command that
needs an active channel then responds BAD_CHANNEL; INIT never responds COMM_ERROR (R303, R307). -/
def Obligations.FailedInitLeavesNoActiveChannel : Prop :=
  (∀ (s : State) (id0 id1 h0 : Byte) (rest : List Answer), s.Quiet →
    s.blk.ch0.ring.active = false → s.blk.ch1.ring.active = false →
    let ended := fun (ops : List WireOp) => ((s.afterOps ops rest).setN 0).present ⟨.initError, 0⟩
    let level : Byte → Level := fun r => if r.getLsbD 1 then .onhook else .offhook
    let id := s.par.regId
    let hk := s.par.regHookStatus
    (s.env.answers = .fail :: rest → exec .init s = .next (ended [.read .zero id .failed])) ∧
    (s.env.answers = .data 0xFF :: rest → exec .init s = .next (ended [.read .zero id (.data 0xFF)])) ∧
    (id0 ≠ 0xFF → s.env.answers = answering [id0] ++ .fail :: rest →
      exec .init s = .next (ended [.read .zero id (.data id0), .read .one id .failed])) ∧
    (id0 ≠ 0xFF → s.env.answers = answering [id0, id1] ++ .fail :: rest →
      exec .init s = .next (ended [.read .zero id (.data id0), .read .one id (.data id1), .read .zero hk .failed])) ∧
    (id0 ≠ 0xFF → id1 ≠ 0xFF → s.env.answers = answering [id0, id1, h0] ++ .fail :: rest →
      exec .init s = .next ((((s.afterOps [.read .zero id (.data id0), .read .one id (.data id1),
        .read .zero hk (.data h0), .read .one hk .failed] rest).setN 0).setHook .zero ⟨level h0, s.env.now, 0, false⟩).present
          ⟨.initError, 0⟩))) ∧
  (∀ (s t : State), exec .init s = .next t →
    ((∃ info, t.out.resps.getLast? = some ⟨.initError, info⟩ ∧ t.out.resps.length = s.out.resps.length + 1) →
      t.out.resps = s.out.resps ++ [⟨.initError, 0⟩] ∧ t.blk.n = 0 ∧
      (t.env.resets = [] → ∀ i ch, activeChannelField i = some ch → exec i t = .next (t.present ⟨.badChannel, 0⟩))) ∧
    (∀ info, t.out.resps ≠ s.out.resps ++ [⟨.commError, info⟩]))

/-- GET_NCH returns N and changes nothing, whatever the schedule (R305). -/
def Obligations.GetNchReturnsTheChannelCount : Prop :=
  ∀ (s : State), s.Calm → exec .getNch s = .next (s.present ⟨.ok, BitVec.ofNat 32 s.blk.n.val⟩)

/-- SET_LOOPBACK and RING_SELFTEST are refused, each by its own name, on every operand and in every state (R110). -/
def Obligations.LoopbackAndSelftestAreRefused : Prop :=
  (∀ (s : State) (ch : BitVec 4) (mode : Byte), exec (.setLoopback ch mode) s = .refused .loopbackHasNoBehaviour) ∧
  (∀ (s : State), exec .ringSelftest s = .refused .ringSelftestHasNoBehaviour)

/-! ### The whole machine -/

/-- Every host command gives exactly one response, with a status its row of R326 allows, and leaves the agent idle and the
grant free; or a reset abandoned it, with no response and the block at its reset values. So it is whatever the schedule and
the chip's answers. -/
def Obligations.EveryCommandRespondsWithinTheStatusTable : Prop :=
  ∀ (s t : State) (i : Instr), answersOnHostPort i = true → s.blk.grant = .none → exec i s = .next t →
    (∃ st info, t.out.resps = s.out.resps ++ [⟨st, info⟩] ∧ st ∈ allowedStatuses i ∧ t.Idle ∧ t.blk.grant = .none) ∨
    (t.out.resps = s.out.resps ∧ t.blk = Block.reset s.par)

/-- While anyone holds the transport, no other agent's move issues a transport operation (R82). So, whatever the schedule,
the operations of a RAM_RD, a RAM_WR, a linefeed command or an INIT that responds OK stand on the wire as one contiguous
unit, the whole sequence of its rule; those of others in the same step stand before it or after it (R80, R84). -/
def Obligations.NobodyElseUsesAHeldTransport : Prop :=
  (∀ (s : State) (slot : Slot), s.blk.grant ≠ .none → (settle ((move slot).run s)).out.wire = s.out.wire) ∧
  (∀ (s t : State) (i : Instr) (rdata : Word), oneUnit i = true → s.blk.grant = .none → exec i s = .next t →
    t.out.resps = s.out.resps ++ [⟨.ok, rdata⟩] →
      ∃ before unit after, UnitRun s i rdata unit ∧ t.out.wire = s.out.wire ++ before ++ unit ++ after)

/-- A step never withdraws or reorders what was output: the wire, the responses and the events only grow at their ends
(R15, R103). The parameters stay as they are (R9: they are arguments of the model). -/
def Obligations.OutputsOnlyGrow : Prop :=
  ∀ s t : State, step s = .next t → OutputGrows s t ∧ t.par = s.par

/-- No step faults, and the only refusals are those of the two commands without a behaviour (R110, R329). -/
def Obligations.StepsOnlyRefuseTheTwoNamedCommands : Prop :=
  ∀ s : State, (∃ t, step s = .next t) ∨ step s = .refused .loopbackHasNoBehaviour ∨
    step s = .refused .ringSelftestHasNoBehaviour

/-- A host command other than CFG_WR, IRQ_ENABLE and INIT changes none of the fields only the command agent writes (R341),
whichever agents move meanwhile, unless a reset abandons it. -/
def Obligations.OtherCommandsKeepTheConfiguration : Prop :=
  ∀ (s t : State) (i : Instr), answersOnHostPort i = true →
    (∀ ch idx v, i ≠ .cfgWr ch idx v) → (∀ en, i ≠ .irqEnable en) → i ≠ .init →
    exec i s = .next t → t.out.resps ≠ s.out.resps → SameCommandFields s t

/-- Only a completed AUTO bracket changes a channel's stored linefeed state, a reset apart. In every step, whoever moves in
it, where the stored state of a channel has changed, the operations the step added to the wire contain, in order, the
completed AUTO clear, linefeed write of the new state and AUTO restore on that channel (R30, R228). Where nobody interferes
(log entry 3), one `SetLineFeed` either leaves the state, with a single read if it returned OK, or runs the five
operations of the full transition and sets it to the requested one (R220, R228). -/
def Obligations.LinefeedStateFollowsACompletedBracket : Prop :=
  (∀ (s t : State) (c : Chan), step s = .next t → t.blk ≠ Block.reset s.par → (t.chan c).lf ≠ (s.chan c).lf →
    ∃ added a, t.out.wire = s.out.wire ++ added ∧
      (bracketWrites s.par c (t.chan c).lf a).Sublist added) ∧
  (∀ (s t : State) (c : Chan) (req : LfState) (res : LfResult),
    s.env.sched = [] → (setLineFeed point c req).run s = .ok res t →
    (∀ d, d ≠ c → (t.chan d).lf = (s.chan d).lf) ∧
    (((t.chan c).lf = (s.chan c).lf ∧ ∃ w, t.out.wire = s.out.wire ++ w ∧ (res = .ok → w.length = 1)) ∨
     ((t.chan c).lf = req ∧ res = .ok ∧ ∃ v a, t.out.wire = s.out.wire ++ bracketOps s.par c req v a)))

/-- The reset input puts every field of the block at its reset value and revokes the grant; nothing is emitted, nothing is
issued and no response is given; the environment's side is as before (R350, R351; log entry 15). So it is between two steps;
before a host command has done anything, which is then abandoned without a response; before the response of a HOOK_SAMPLE
that has flashed, whose event stands; before the COMM_ERROR of a REG_RD whose read has failed; between two operations of a
ringer's SetLineFeed; and between two FLAG events of a dispatch, which drops the rest. -/
def Obligations.ResetInputRestoresTheBlock : Prop :=
  (∀ (s : State) (l : List Slot), s.env.sched = .reset :: l →
    step s = .next { s with blk := Block.reset s.par, env := { s.env with sched := l } }) ∧
  (∀ (s : State) (i : Instr) (l : List Bool), answersOnHostPort i = true → s.env.resets = true :: l →
    exec i s = .next { s with blk := Block.reset s.par, env := { s.env with resets := l } }) ∧
  (∀ (s : State) (ch : BitVec 4) (c : Chan) (lvl : Level) (t : Word) (l : List Bool), s.Idle →
    activeChan s.blk.n ch = some c → lvl ≠ (s.chan c).hook.level →
    (s.chan c).thr.minFlash ≤ t - (s.chan c).hook.lastT → t - (s.chan c).hook.lastT ≤ (s.chan c).thr.maxFlash →
    s.env.resets = false :: true :: l →
      exec (.hookSample ch lvl t) s = .next { s with
        blk := Block.reset s.par
        env := { s.env with resets := l }
        out := { s.out with events := s.out.events ++ [.hookflash c] } }) ∧
  (∀ (s : State) (ch : BitVec 4) (c : Chan) (a : Byte) (rest : List Answer) (l : List Bool), s.Idle →
    activeChan s.blk.n ch = some c → s.env.sched = [] → s.env.answers = .fail :: rest →
    s.env.resets = false :: true :: l →
      exec (.regRd ch a) s = .next { s with
        blk := Block.reset s.par
        env := { s.env with answers := rest, resets := l }
        out := { s.out with wire := s.out.wire ++ [.read c a .failed] } }) ∧
  (∀ (s : State) (c : Chan) (req : LfState) (d : Word) (v : Byte) (rest : List Answer) (l : List Slot) (l' : List Bool),
    (s.chan c).ring.active = true → (s.chan c).ring.pos = .wantPhase req d → s.blk.grant = .none →
    s.env.sched = .ringer c :: l → s.env.answers = .data v :: rest → ¬ lfGuards s.par req v →
    s.env.resets = false :: true :: l' →
      step s = .next { s with
        blk := Block.reset s.par
        env := { s.env with sched := l, answers := rest, resets := l' }
        out := { s.out with wire := s.out.wire ++ [.read c s.par.regLinefeed (.data v)] } }) ∧
  (∀ (s : State) (t : Word) (c : Chan) (h : Nat) (left flags : List Nat) (todo : List Pending) (l : List Slot),
    s.blk.irqPos = .dispatch t c (h :: left) flags todo → s.env.sched = .interrupt :: .reset :: l →
      steps 2 s = .next { s with
        blk := Block.reset s.par
        env := { s.env with sched := l }
        out := { s.out with events := s.out.events ++ [.flag c h] } })

/-- R352: the reset values of every field of the block, for both channels. -/
def Obligations.ResetValuesAreTheTables : Prop :=
  let b := State.reset.blk
  b.ramRetryBudget = 10 ∧ b.ramPollDelay = 5 ∧ b.calRetryBudget = 10 ∧ b.calPollDelay = 15 ∧ b.n = 0 ∧ b.irqEn = false ∧
  b.irqQ = [] ∧ b.irqQcount = 0 ∧ b.grant = .none ∧ b.ramTx = none ∧ b.cmd = none ∧ b.irqPos = .idle ∧
  ∀ c : Chan,
    let x := State.reset.chan c
    x.lf = .nop ∧ x.hook = ⟨.onhook, 0, 0, false⟩ ∧ x.thr = State.reset.par.hookReset c ∧
    x.cad.total = 0 ∧ x.cad.n = 0 ∧ (∀ k : Fin 16, x.cad.phase[k] = 0) ∧
    x.ring = ⟨false, 0, 0, false, 0, .ready⟩

/-- The invariant holds after reset. -/
def Obligations.ResetMeetsTheInvariant : Prop := State.reset.Inv

/-- The invariant is kept by every step, whatever the schedule and the chip's answers: the queue stays within its depth and
the count follows it, a ringing channel keeps a valid cadence and an index inside it, cancellation is pending only where a
channel rings, pulses only where a timeout is awaited, the collected flags are distinct flags of the enumeration, the
command agent is idle and the transport free at every step boundary (R38, R39, R41, R25, R193, R80). That a cancellation
is never left pending on a channel that does not ring rests on log entry 5. -/
def Obligations.EveryStepKeepsTheInvariant : Prop :=
  ∀ s t : State, s.Inv → step s = .next t → t.Inv

/-! ### Text forms -/

/-- An accepted cadence pattern has an even number of phases, 2 to 16, each at least 1 ms, and the table it loads into a
channel is one RING_BEGIN accepts (R250, R251). -/
def Obligations.AcceptedPatternsAreValidCadences : Prop :=
  ∀ (text : List Char) (p : Pattern), parsePattern text = some p →
    p.phases.length % 2 = 0 ∧ 2 ≤ p.phases.length ∧ p.phases.length ≤ 16 ∧ (∀ d ∈ p.phases, d ≠ 0) ∧
    ∀ cad : Cadence, cad.n = BitVec.ofNat 8 p.phases.length →
      (∀ k : Fin 16, ∀ d, p.phases[k.val]? = some d → cad.phase[k] = d) → cad.valid = true
end

