-- ==== Sys2Proof/Laws/Encoding.lean ====
section
/-! SUPPORT. The fields of an assembled command word, and how a mask acts on it. -/

namespace Sys2Proof

theorem opField_cmdWord (op : Byte) (ch : BitVec 4) (a : BitVec 12) (i : Byte) : opField (cmdWord op ch a i) = op := by
  unfold opField cmdWord
  ext k hk
  rw [BitVec.getElem_extractLsb']
  simp only [BitVec.getLsbD_append]
  interval_cases k <;> simp

theorem chField_cmdWord (op : Byte) (ch : BitVec 4) (a : BitVec 12) (i : Byte) : chField (cmdWord op ch a i) = ch := by
  unfold chField cmdWord
  ext k hk
  rw [BitVec.getElem_extractLsb']
  simp only [BitVec.getLsbD_append]
  interval_cases k <;> simp

theorem a12Field_cmdWord (op : Byte) (ch : BitVec 4) (a : BitVec 12) (i : Byte) : a12Field (cmdWord op ch a i) = a := by
  unfold a12Field cmdWord
  ext k hk
  rw [BitVec.getElem_extractLsb']
  simp only [BitVec.getLsbD_append]
  interval_cases k <;> simp

theorem a8Field_cmdWord (op : Byte) (ch : BitVec 4) (a i : Byte) : a8Field (cmdWord op ch (a8AsA12 a) i) = a := by
  unfold a8Field cmdWord a8AsA12
  ext k hk
  rw [BitVec.getElem_extractLsb']
  simp only [BitVec.getLsbD_append]
  interval_cases k <;> simp

theorem imm8Field_cmdWord (op : Byte) (ch : BitVec 4) (a : BitVec 12) (i : Byte) :
    imm8Field (cmdWord op ch a i) = i := by
  unfold imm8Field cmdWord
  ext k hk
  rw [BitVec.getElem_extractLsb']
  simp only [BitVec.getLsbD_append]
  interval_cases k <;> simp

theorem bit0_cmdWord (op : Byte) (ch : BitVec 4) (a : BitVec 12) (i : Byte) :
    (cmdWord op ch a i).getLsbD 0 = i.getLsbD 0 := by
  unfold cmdWord
  simp only [BitVec.getLsbD_append]
  simp

theorem bits2_cmdWord (op : Byte) (ch : BitVec 4) (a : BitVec 12) (i : Byte) :
    (cmdWord op ch a i).extractLsb' 0 2 = i.extractLsb' 0 2 := by
  unfold cmdWord
  ext k hk
  rw [BitVec.getElem_extractLsb']
  simp only [BitVec.getLsbD_append]
  interval_cases k <;> simp

/-- A mask acts on each field of a command word on its own. -/
theorem cmdWord_and (op op' : Byte) (ch ch' : BitVec 4) (a a' : BitVec 12) (i i' : Byte) :
    cmdWord op ch a i &&& cmdWord op' ch' a' i' = cmdWord (op &&& op') (ch &&& ch') (a &&& a') (i &&& i') := by
  unfold cmdWord
  simp only [← BitVec.and_append]

/-- A word is well formed where it matches some row of its port. -/
theorem wellFormedWord_of_row {p : Port} {cmd : Word} (fixed mask : Word) (hr : (⟨p, fixed, mask⟩ : TableRow) ∈ opcodeTable)
    (hm : cmd &&& mask = fixed) : wellFormedWord p cmd = true := by
  refine List.any_eq_true.2 ⟨_, hr, ?_⟩
  simp [TableRow.matchesWord, hm]

end Sys2Proof
end

