-- ==== Sys2Proof/Laws/State.lean ====
section
/-! SUPPORT. What each named update leaves in each part of the state: one lemma per part per update, true by rfl, and the
lemmas of the per-channel accessors. -/

namespace Sys2Proof.Machine

@[simp] theorem State.setGrant_par (s : State) (g : Grant) : (s.setGrant g).par = s.par := rfl
@[simp] theorem State.setGrant_blk (s : State) (g : Grant) : (s.setGrant g).blk = { s.blk with grant := g } := rfl
@[simp] theorem State.setGrant_env (s : State) (g : Grant) : (s.setGrant g).env = s.env := rfl
@[simp] theorem State.setGrant_out (s : State) (g : Grant) : (s.setGrant g).out = s.out := rfl
@[simp] theorem State.setGrant_chan (s : State) (g : Grant) (d : Chan) : (s.setGrant g).chan d = s.chan d := by cases d <;> rfl

@[simp] theorem State.setN_par (s : State) (n : Fin 3) : (s.setN n).par = s.par := rfl
@[simp] theorem State.setN_blk (s : State) (n : Fin 3) : (s.setN n).blk = { s.blk with n := n } := rfl
@[simp] theorem State.setN_env (s : State) (n : Fin 3) : (s.setN n).env = s.env := rfl
@[simp] theorem State.setN_out (s : State) (n : Fin 3) : (s.setN n).out = s.out := rfl
@[simp] theorem State.setN_chan (s : State) (n : Fin 3) (d : Chan) : (s.setN n).chan d = s.chan d := by cases d <;> rfl

@[simp] theorem State.setRamTx_par (s : State) (tx : Option RamTransaction) : (s.setRamTx tx).par = s.par := rfl
@[simp] theorem State.setRamTx_blk (s : State) (tx : Option RamTransaction) : (s.setRamTx tx).blk = { s.blk with ramTx := tx } := rfl
@[simp] theorem State.setRamTx_env (s : State) (tx : Option RamTransaction) : (s.setRamTx tx).env = s.env := rfl
@[simp] theorem State.setRamTx_out (s : State) (tx : Option RamTransaction) : (s.setRamTx tx).out = s.out := rfl
@[simp] theorem State.setRamTx_chan (s : State) (tx : Option RamTransaction) (d : Chan) : (s.setRamTx tx).chan d = s.chan d := by cases d <;> rfl

@[simp] theorem State.setCmd_par (s : State) (i : Option Instr) : (s.setCmd i).par = s.par := rfl
@[simp] theorem State.setCmd_blk (s : State) (i : Option Instr) : (s.setCmd i).blk = { s.blk with cmd := i } := rfl
@[simp] theorem State.setCmd_env (s : State) (i : Option Instr) : (s.setCmd i).env = s.env := rfl
@[simp] theorem State.setCmd_out (s : State) (i : Option Instr) : (s.setCmd i).out = s.out := rfl
@[simp] theorem State.setCmd_chan (s : State) (i : Option Instr) (d : Chan) : (s.setCmd i).chan d = s.chan d := by cases d <;> rfl

@[simp] theorem State.setIrqPos_par (s : State) (p : IrqPos) : (s.setIrqPos p).par = s.par := rfl
@[simp] theorem State.setIrqPos_blk (s : State) (p : IrqPos) : (s.setIrqPos p).blk = { s.blk with irqPos := p } := rfl
@[simp] theorem State.setIrqPos_env (s : State) (p : IrqPos) : (s.setIrqPos p).env = s.env := rfl
@[simp] theorem State.setIrqPos_out (s : State) (p : IrqPos) : (s.setIrqPos p).out = s.out := rfl
@[simp] theorem State.setIrqPos_chan (s : State) (p : IrqPos) (d : Chan) : (s.setIrqPos p).chan d = s.chan d := by cases d <;> rfl

@[simp] theorem State.setIrqQ_par (s : State) (q : List IrqEvent) : (s.setIrqQ q).par = s.par := rfl
@[simp] theorem State.setIrqQ_blk (s : State) (q : List IrqEvent) : (s.setIrqQ q).blk = { s.blk with irqQ := q, irqQcount := queueCount q.length } := rfl
@[simp] theorem State.setIrqQ_env (s : State) (q : List IrqEvent) : (s.setIrqQ q).env = s.env := rfl
@[simp] theorem State.setIrqQ_out (s : State) (q : List IrqEvent) : (s.setIrqQ q).out = s.out := rfl
@[simp] theorem State.setIrqQ_chan (s : State) (q : List IrqEvent) (d : Chan) : (s.setIrqQ q).chan d = s.chan d := by cases d <;> rfl

@[simp] theorem State.setSched_par (s : State) (l : List Slot) : (s.setSched l).par = s.par := rfl
@[simp] theorem State.setSched_blk (s : State) (l : List Slot) : (s.setSched l).blk = s.blk := rfl
@[simp] theorem State.setSched_env (s : State) (l : List Slot) : (s.setSched l).env = { s.env with sched := l } := rfl
@[simp] theorem State.setSched_out (s : State) (l : List Slot) : (s.setSched l).out = s.out := rfl
@[simp] theorem State.setSched_chan (s : State) (l : List Slot) (d : Chan) : (s.setSched l).chan d = s.chan d := by cases d <;> rfl

@[simp] theorem State.setResets_par (s : State) (l : List Bool) : (s.setResets l).par = s.par := rfl
@[simp] theorem State.setResets_blk (s : State) (l : List Bool) : (s.setResets l).blk = s.blk := rfl
@[simp] theorem State.setResets_env (s : State) (l : List Bool) : (s.setResets l).env = { s.env with resets := l } := rfl
@[simp] theorem State.setResets_out (s : State) (l : List Bool) : (s.setResets l).out = s.out := rfl
@[simp] theorem State.setResets_chan (s : State) (l : List Bool) (d : Chan) : (s.setResets l).chan d = s.chan d := by cases d <;> rfl

@[simp] theorem State.setTurn_par (s : State) (k : Fin 6) : (s.setTurn k).par = s.par := rfl
@[simp] theorem State.setTurn_blk (s : State) (k : Fin 6) : (s.setTurn k).blk = s.blk := rfl
@[simp] theorem State.setTurn_env (s : State) (k : Fin 6) : (s.setTurn k).env = { s.env with turn := k } := rfl
@[simp] theorem State.setTurn_out (s : State) (k : Fin 6) : (s.setTurn k).out = s.out := rfl
@[simp] theorem State.setTurn_chan (s : State) (k : Fin 6) (d : Chan) : (s.setTurn k).chan d = s.chan d := by cases d <;> rfl

@[simp] theorem State.passTurn_par (s : State) : (s.passTurn).par = s.par := rfl
@[simp] theorem State.passTurn_blk (s : State) : (s.passTurn).blk = s.blk := rfl
@[simp] theorem State.passTurn_env (s : State) : (s.passTurn).env = { s.env with turn := s.defaultPlace + 1 } := rfl
@[simp] theorem State.passTurn_out (s : State) : (s.passTurn).out = s.out := rfl
@[simp] theorem State.passTurn_chan (s : State) (d : Chan) : (s.passTurn).chan d = s.chan d := by cases d <;> rfl

@[simp] theorem State.takeRequest_par (s : State) : (s.takeRequest).par = s.par := rfl
@[simp] theorem State.takeRequest_blk (s : State) : (s.takeRequest).blk = s.blk := rfl
@[simp] theorem State.takeRequest_env (s : State) : (s.takeRequest).env = { s.env with hostQ := s.env.hostQ.tail } := rfl
@[simp] theorem State.takeRequest_out (s : State) : (s.takeRequest).out = s.out := rfl
@[simp] theorem State.takeRequest_chan (s : State) (d : Chan) : (s.takeRequest).chan d = s.chan d := by cases d <;> rfl

@[simp] theorem State.afterEvents_par (s : State) (es : List Event) : (s.afterEvents es).par = s.par := rfl
@[simp] theorem State.afterEvents_blk (s : State) (es : List Event) : (s.afterEvents es).blk = s.blk := rfl
@[simp] theorem State.afterEvents_env (s : State) (es : List Event) : (s.afterEvents es).env = s.env := rfl
@[simp] theorem State.afterEvents_out (s : State) (es : List Event) : (s.afterEvents es).out = { s.out with events := s.out.events ++ es } := rfl
@[simp] theorem State.afterEvents_chan (s : State) (es : List Event) (d : Chan) : (s.afterEvents es).chan d = s.chan d := by cases d <;> rfl

@[simp] theorem State.setNow_par (s : State) (t : Word) : (s.setNow t).par = s.par := rfl
@[simp] theorem State.setNow_blk (s : State) (t : Word) : (s.setNow t).blk = s.blk := rfl
@[simp] theorem State.setNow_env (s : State) (t : Word) : (s.setNow t).env = { s.env with now := t } := rfl
@[simp] theorem State.setNow_out (s : State) (t : Word) : (s.setNow t).out = s.out := rfl
@[simp] theorem State.setNow_chan (s : State) (t : Word) (d : Chan) : (s.setNow t).chan d = s.chan d := by cases d <;> rfl

@[simp] theorem State.advance_par (s : State) (ms : Word) : (s.advance ms).par = s.par := rfl
@[simp] theorem State.advance_blk (s : State) (ms : Word) : (s.advance ms).blk = s.blk := rfl
@[simp] theorem State.advance_env (s : State) (ms : Word) : (s.advance ms).env = { s.env with now := s.env.now + ms } := rfl
@[simp] theorem State.advance_out (s : State) (ms : Word) : (s.advance ms).out = s.out := rfl
@[simp] theorem State.advance_chan (s : State) (ms : Word) (d : Chan) : (s.advance ms).chan d = s.chan d := by cases d <;> rfl

@[simp] theorem State.consumeEvent_par (s : State) : (s.consumeEvent).par = s.par := rfl
@[simp] theorem State.consumeEvent_blk (s : State) : (s.consumeEvent).blk = s.blk := rfl
@[simp] theorem State.consumeEvent_env (s : State) : (s.consumeEvent).env = { s.env with eventQ := s.env.eventQ.tail } := rfl
@[simp] theorem State.consumeEvent_out (s : State) : (s.consumeEvent).out = s.out := rfl
@[simp] theorem State.consumeEvent_chan (s : State) (d : Chan) : (s.consumeEvent).chan d = s.chan d := by cases d <;> rfl

@[simp] theorem State.emit_par (s : State) (e : Event) : (s.emit e).par = s.par := rfl
@[simp] theorem State.emit_blk (s : State) (e : Event) : (s.emit e).blk = s.blk := rfl
@[simp] theorem State.emit_env (s : State) (e : Event) : (s.emit e).env = s.env := rfl
@[simp] theorem State.emit_out (s : State) (e : Event) : (s.emit e).out = { s.out with events := s.out.events ++ [e] } := rfl
@[simp] theorem State.emit_chan (s : State) (e : Event) (d : Chan) : (s.emit e).chan d = s.chan d := by cases d <;> rfl

@[simp] theorem State.logWire_par (s : State) (w : WireOp) : (s.logWire w).par = s.par := rfl
@[simp] theorem State.logWire_blk (s : State) (w : WireOp) : (s.logWire w).blk = s.blk := rfl
@[simp] theorem State.logWire_env (s : State) (w : WireOp) : (s.logWire w).env = s.env := rfl
@[simp] theorem State.logWire_out (s : State) (w : WireOp) : (s.logWire w).out = { s.out with wire := s.out.wire ++ [w] } := rfl
@[simp] theorem State.logWire_chan (s : State) (w : WireOp) (d : Chan) : (s.logWire w).chan d = s.chan d := by cases d <;> rfl

@[simp] theorem State.present_par (s : State) (r : Response) : (s.present r).par = s.par := rfl
@[simp] theorem State.present_blk (s : State) (r : Response) : (s.present r).blk = s.blk := rfl
@[simp] theorem State.present_env (s : State) (r : Response) : (s.present r).env = s.env := rfl
@[simp] theorem State.present_out (s : State) (r : Response) : (s.present r).out = { s.out with resps := s.out.resps ++ [r] } := rfl
@[simp] theorem State.present_chan (s : State) (r : Response) (d : Chan) : (s.present r).chan d = s.chan d := by cases d <;> rfl

@[simp] theorem State.blockReset_par (s : State) : (s.blockReset).par = s.par := rfl
@[simp] theorem State.blockReset_blk (s : State) : (s.blockReset).blk = Block.reset s.par := rfl
@[simp] theorem State.blockReset_env (s : State) : (s.blockReset).env = s.env := rfl
@[simp] theorem State.blockReset_out (s : State) : (s.blockReset).out = s.out := rfl

@[simp] theorem State.endCommand_par (s : State) : (s.endCommand).par = s.par := rfl
@[simp] theorem State.endCommand_blk (s : State) : (s.endCommand).blk = { s.blk with ramTx := none, cmd := none } := rfl
@[simp] theorem State.endCommand_env (s : State) : (s.endCommand).env = s.env := rfl
@[simp] theorem State.endCommand_out (s : State) : (s.endCommand).out = s.out := rfl
@[simp] theorem State.endCommand_chan (s : State) (d : Chan) : (s.endCommand).chan d = s.chan d := by cases d <;> rfl

@[simp] theorem State.setChan_par (s : State) (c : Chan) (x : ChanState) : (s.setChan c x).par = s.par := rfl
@[simp] theorem State.setChan_blk (s : State) (c : Chan) (x : ChanState) : (s.setChan c x).blk = s.blk.setChan c x := rfl
@[simp] theorem State.setChan_env (s : State) (c : Chan) (x : ChanState) : (s.setChan c x).env = s.env := rfl
@[simp] theorem State.setChan_out (s : State) (c : Chan) (x : ChanState) : (s.setChan c x).out = s.out := rfl

@[simp] theorem State.setHook_par (s : State) (c : Chan) (h : Hook) : (s.setHook c h).par = s.par := rfl
@[simp] theorem State.setHook_blk (s : State) (c : Chan) (h : Hook) : (s.setHook c h).blk = s.blk.setChan c { s.chan c with hook := h } := rfl
@[simp] theorem State.setHook_env (s : State) (c : Chan) (h : Hook) : (s.setHook c h).env = s.env := rfl
@[simp] theorem State.setHook_out (s : State) (c : Chan) (h : Hook) : (s.setHook c h).out = s.out := rfl

@[simp] theorem State.setRing_par (s : State) (c : Chan) (r : Ring) : (s.setRing c r).par = s.par := rfl
@[simp] theorem State.setRing_blk (s : State) (c : Chan) (r : Ring) : (s.setRing c r).blk = s.blk.setChan c { s.chan c with ring := r } := rfl
@[simp] theorem State.setRing_env (s : State) (c : Chan) (r : Ring) : (s.setRing c r).env = s.env := rfl
@[simp] theorem State.setRing_out (s : State) (c : Chan) (r : Ring) : (s.setRing c r).out = s.out := rfl

@[simp] theorem State.setLf_par (s : State) (c : Chan) (x : LfState) : (s.setLf c x).par = s.par := rfl
@[simp] theorem State.setLf_blk (s : State) (c : Chan) (x : LfState) : (s.setLf c x).blk = s.blk.setChan c { s.chan c with lf := x } := rfl
@[simp] theorem State.setLf_env (s : State) (c : Chan) (x : LfState) : (s.setLf c x).env = s.env := rfl
@[simp] theorem State.setLf_out (s : State) (c : Chan) (x : LfState) : (s.setLf c x).out = s.out := rfl

/-! ### Channels -/

@[simp] theorem Block.chan_setChan_same (b : Block) (c : Chan) (x : ChanState) : (b.setChan c x).chan c = x := by
  cases c <;> rfl

theorem Block.chan_setChan_other (b : Block) {c d : Chan} (x : ChanState) (h : d ≠ c) :
    (b.setChan c x).chan d = b.chan d := by
  cases c <;> cases d <;> first | rfl | exact absurd rfl h

@[simp] theorem State.chan_setChan_same (s : State) (c : Chan) (x : ChanState) : (s.setChan c x).chan c = x :=
  Block.chan_setChan_same s.blk c x

theorem State.chan_setChan_other (s : State) {c d : Chan} (x : ChanState) (h : d ≠ c) :
    (s.setChan c x).chan d = s.chan d :=
  Block.chan_setChan_other s.blk x h

@[simp] theorem State.chan_setHook_same (s : State) (c : Chan) (h : Hook) :
    (s.setHook c h).chan c = { s.chan c with hook := h } := State.chan_setChan_same s c _

@[simp] theorem State.chan_setRing_same (s : State) (c : Chan) (r : Ring) :
    (s.setRing c r).chan c = { s.chan c with ring := r } := State.chan_setChan_same s c _

@[simp] theorem State.chan_setLf_same (s : State) (c : Chan) (x : LfState) :
    (s.setLf c x).chan c = { s.chan c with lf := x } := State.chan_setChan_same s c _

theorem State.chan_setHook_other (s : State) {c d : Chan} (h : Hook) (hd : d ≠ c) :
    (s.setHook c h).chan d = s.chan d := State.chan_setChan_other s _ hd

theorem State.chan_setRing_other (s : State) {c d : Chan} (r : Ring) (hd : d ≠ c) :
    (s.setRing c r).chan d = s.chan d := State.chan_setChan_other s _ hd

theorem State.chan_setLf_other (s : State) {c d : Chan} (x : LfState) (hd : d ≠ c) :
    (s.setLf c x).chan d = s.chan d := State.chan_setChan_other s _ hd

/-! ### Replacing one part of a channel's fields leaves its other parts, and the other channel, alone -/

@[simp] theorem State.chan_setHook_cad (s : State) (c : Chan) (h : Hook) (d : Chan) :
    ((s.setHook c h).chan d).cad = (s.chan d).cad := by cases c <;> cases d <;> rfl

@[simp] theorem State.chan_setHook_thr (s : State) (c : Chan) (h : Hook) (d : Chan) :
    ((s.setHook c h).chan d).thr = (s.chan d).thr := by cases c <;> cases d <;> rfl

@[simp] theorem State.chan_setHook_lf (s : State) (c : Chan) (h : Hook) (d : Chan) :
    ((s.setHook c h).chan d).lf = (s.chan d).lf := by cases c <;> cases d <;> rfl

@[simp] theorem State.chan_setHook_ring (s : State) (c : Chan) (h : Hook) (d : Chan) :
    ((s.setHook c h).chan d).ring = (s.chan d).ring := by cases c <;> cases d <;> rfl

@[simp] theorem State.chan_setRing_cad (s : State) (c : Chan) (r : Ring) (d : Chan) :
    ((s.setRing c r).chan d).cad = (s.chan d).cad := by cases c <;> cases d <;> rfl

@[simp] theorem State.chan_setRing_thr (s : State) (c : Chan) (r : Ring) (d : Chan) :
    ((s.setRing c r).chan d).thr = (s.chan d).thr := by cases c <;> cases d <;> rfl

@[simp] theorem State.chan_setRing_lf (s : State) (c : Chan) (r : Ring) (d : Chan) :
    ((s.setRing c r).chan d).lf = (s.chan d).lf := by cases c <;> cases d <;> rfl

@[simp] theorem State.chan_setRing_hook (s : State) (c : Chan) (r : Ring) (d : Chan) :
    ((s.setRing c r).chan d).hook = (s.chan d).hook := by cases c <;> cases d <;> rfl

@[simp] theorem State.chan_setLf_cad (s : State) (c : Chan) (x : LfState) (d : Chan) :
    ((s.setLf c x).chan d).cad = (s.chan d).cad := by cases c <;> cases d <;> rfl

@[simp] theorem State.chan_setLf_thr (s : State) (c : Chan) (x : LfState) (d : Chan) :
    ((s.setLf c x).chan d).thr = (s.chan d).thr := by cases c <;> cases d <;> rfl

@[simp] theorem State.chan_setLf_hook (s : State) (c : Chan) (x : LfState) (d : Chan) :
    ((s.setLf c x).chan d).hook = (s.chan d).hook := by cases c <;> cases d <;> rfl

@[simp] theorem State.chan_setLf_ring (s : State) (c : Chan) (x : LfState) (d : Chan) :
    ((s.setLf c x).chan d).ring = (s.chan d).ring := by cases c <;> cases d <;> rfl

/-! ### Replacing a channel's fields leaves every other field of the block alone -/

@[simp] theorem Block.setChan_n (b : Block) (c : Chan) (x : ChanState) : (b.setChan c x).n = b.n := by cases c <;> rfl

@[simp] theorem Block.setChan_ramRetryBudget (b : Block) (c : Chan) (x : ChanState) : (b.setChan c x).ramRetryBudget = b.ramRetryBudget := by cases c <;> rfl

@[simp] theorem Block.setChan_ramPollDelay (b : Block) (c : Chan) (x : ChanState) : (b.setChan c x).ramPollDelay = b.ramPollDelay := by cases c <;> rfl

@[simp] theorem Block.setChan_calRetryBudget (b : Block) (c : Chan) (x : ChanState) : (b.setChan c x).calRetryBudget = b.calRetryBudget := by cases c <;> rfl

@[simp] theorem Block.setChan_calPollDelay (b : Block) (c : Chan) (x : ChanState) : (b.setChan c x).calPollDelay = b.calPollDelay := by cases c <;> rfl

@[simp] theorem Block.setChan_irqEn (b : Block) (c : Chan) (x : ChanState) : (b.setChan c x).irqEn = b.irqEn := by cases c <;> rfl

@[simp] theorem Block.setChan_irqQ (b : Block) (c : Chan) (x : ChanState) : (b.setChan c x).irqQ = b.irqQ := by cases c <;> rfl

@[simp] theorem Block.setChan_irqQcount (b : Block) (c : Chan) (x : ChanState) : (b.setChan c x).irqQcount = b.irqQcount := by cases c <;> rfl

@[simp] theorem Block.setChan_grant (b : Block) (c : Chan) (x : ChanState) : (b.setChan c x).grant = b.grant := by cases c <;> rfl

@[simp] theorem Block.setChan_ramTx (b : Block) (c : Chan) (x : ChanState) : (b.setChan c x).ramTx = b.ramTx := by cases c <;> rfl

@[simp] theorem Block.setChan_cmd (b : Block) (c : Chan) (x : ChanState) : (b.setChan c x).cmd = b.cmd := by cases c <;> rfl

@[simp] theorem Block.setChan_irqPos (b : Block) (c : Chan) (x : ChanState) : (b.setChan c x).irqPos = b.irqPos := by cases c <;> rfl

/-- The schedule of a state without one. -/
theorem State.setSched_nil_of_nil {s : State} (h : s.env.sched = []) : s.setSched [] = s := by
  rcases s with ⟨p, b, ⟨now, hq, eq, an, fc, sc, tn, rs⟩, o⟩
  cases h
  rfl

/-- The moments of a state without resets. -/
theorem State.setResets_nil_of_nil {s : State} (h : s.env.resets = []) : s.setResets [] = s := by
  rcases s with ⟨p, b, ⟨now, hq, eq, an, fc, sc, tn, rs⟩, o⟩
  cases h
  rfl

/-- No event. -/
@[simp] theorem State.afterEvents_nil (s : State) : s.afterEvents [] = s := by simp [State.afterEvents]

/-- Events after events. -/
@[simp] theorem State.afterEvents_afterEvents (s : State) (es es' : List Event) :
    (s.afterEvents es).afterEvents es' = s.afterEvents (es ++ es') := by simp [State.afterEvents]

/-- One event is an event sequence of one. -/
theorem State.emit_eq_afterEvents (s : State) (e : Event) : s.emit e = s.afterEvents [e] := rfl

/-- Freeing a free transport. -/
theorem State.setGrant_none_of_none {s : State} (h : s.blk.grant = .none) : s.setGrant .none = s := by
  rcases s with ⟨p, b, e, o⟩
  cases b
  cases h
  rfl

/-- Ending a command that is not in progress. -/
theorem State.endCommand_of_idle {s : State} (h : s.Idle) : s.endCommand = s := by
  rcases s with ⟨p, b, e, o⟩
  cases b
  obtain ⟨h1, h2⟩ := h
  cases h1
  cases h2
  rfl

end Sys2Proof.Machine
end

