-- ==== Sys2Proof/Laws/Run.lean ====
section
/-! SUPPORT. How sequences run: the equations of the sequencing and of the shared operations, the inversion lemmas of the
transport operations, what a scheduling point keeps, and the command agent's operations where nobody interferes. -/

namespace Sys2Proof.Machine

/-! ### Sequencing -/

@[simp] theorem run_pure {α : Type} (a : α) (s : State) : (pure a : Run α).run s = .ok a s := rfl

@[simp] theorem run_bind {α β : Type} (x : Run α) (f : α → Run β) (s : State) :
    (x >>= f).run s = match x.run s with
      | .ok a s' => (f a).run s'
      | .error e s' => .error e s' := by
  change EStateM.bind x f s = match x s with
    | .ok a s' => f a s'
    | .error e s' => .error e s'
  unfold EStateM.bind
  cases x s <;> rfl

@[simp] theorem run_readS {α : Type} (f : State → α) (s : State) : (readS f).run s = .ok (f s) s := rfl

@[simp] theorem run_changeS (f : State → State) (s : State) : (changeS f).run s = .ok () (f s) := rfl

@[simp] theorem run_raise {α : Type} (st : Status) (info : Word) (s : State) :
    (raise st info : Run α).run s = .error (.raised st info) s := rfl

@[simp] theorem run_require_true (st : Status) (s : State) : (require true st).run s = .ok () s := rfl

@[simp] theorem run_require_false (st : Status) (s : State) :
    (require false st).run s = .error (.raised st 0) s := rfl

theorem run_holding {α : Type} (g : Grant) (body : Run α) (s : State) :
    (holding g body).run s = match body.run (s.setGrant g) with
      | .ok a s' => .ok a (s'.setGrant .none)
      | .error e s' => .error e (s'.setGrant .none) := rfl

theorem run_whenGranted (g : Grant) (body : Run Unit) (s : State) :
    (whenGranted g body).run s = if s.blk.grant = .none then (holding g body).run s else .ok () s := rfl

@[simp] theorem run_goIrq (p : IrqPos) (s : State) : (goIrq p).run s = .ok () (s.setIrqPos p) := rfl

theorem run_moment (s : State) :
    moment.run s = match s.env.resets with
      | [] => .ok () s
      | false :: rest => .ok () (s.setResets rest)
      | true :: rest => .error .reset (s.setResets rest).blockReset := rfl

/-- No reset falls where the environment has none ready. -/
theorem moment_of_no_resets {s : State} (h : s.env.resets = []) : moment.run s = .ok () s := by
  rw [run_moment, h]

/-- All a moment can do: nothing but use up the environment's answer, or a reset. -/
theorem moment_cases (s : State) :
    (∃ l, moment.run s = .ok () (s.setResets l)) ∨ ∃ l, moment.run s = .error .reset (s.setResets l).blockReset := by
  rw [run_moment]
  rcases hr : s.env.resets with _ | ⟨_ | _, rest⟩
  · exact .inl ⟨[], congrArg _ (State.setResets_nil_of_nil hr).symm⟩
  · exact .inl ⟨rest, rfl⟩
  · exact .inr ⟨rest, rfl⟩

/-- A response that no reset prevents. -/
theorem respond_of_no_resets {s : State} (h : s.env.resets = []) (r : Response) : s.respond r = s.present r := by
  simp only [State.respond, run_bind, moment_of_no_resets h, run_changeS, settle]

/-- All a response can do: be presented, or be prevented by a reset. -/
theorem respond_cases (s : State) (r : Response) :
    (∃ l, s.respond r = (s.setResets l).present r) ∨ ∃ l, s.respond r = (s.setResets l).blockReset := by
  obtain ⟨l, h⟩ | ⟨l, h⟩ := moment_cases s
  · exact .inl ⟨l, by simp only [State.respond, run_bind, h, run_changeS, settle]⟩
  · exact .inr ⟨l, by simp only [State.respond, run_bind, h, settle]⟩

@[simp] theorem run_point (s : State) : point.run s = (movesUpToCommand s.env.sched).run s := rfl

/-! ### The chip's answers -/

/-- An answer the environment has ready is taken. -/
theorem takeAnswer_of_cons {s : State} {a : Answer} {rest : List Answer} (h : s.env.answers = a :: rest) :
    s.takeAnswer = (a, { s with env := { s.env with answers := rest } }) := by
  simp [State.takeAnswer, h]

/-- Taking an answer changes only the answers and the free counter. -/
theorem takeAnswer_keeps (s : State) :
    s.takeAnswer.2.par = s.par ∧ s.takeAnswer.2.blk = s.blk ∧ s.takeAnswer.2.out = s.out ∧
    s.takeAnswer.2.env.now = s.env.now ∧ s.takeAnswer.2.env.sched = s.env.sched ∧
    s.takeAnswer.2.env.hostQ = s.env.hostQ ∧ s.takeAnswer.2.env.eventQ = s.env.eventQ ∧
    s.takeAnswer.2.env.turn = s.env.turn ∧ s.takeAnswer.2.env.resets = s.env.resets := by
  unfold State.takeAnswer
  split <;> exact ⟨rfl, rfl, rfl, rfl, rfl, rfl, rfl, rfl, rfl⟩

theorem run_readOp (c : Chan) (a : Byte) (s : State) :
    (readOp c a).run s = match s.takeAnswer with
      | (.data v, s') => .ok (some v) (s'.logWire (.read c a (.data v)))
      | (.fail, s') => .ok none (s'.logWire (.read c a .failed))
      | (.resetDuring, s') => .error .reset (s'.logWire (.read c a .abandoned)).blockReset := rfl

theorem run_writeOp (c : Chan) (a v : Byte) (s : State) :
    (writeOp c a v).run s = match s.takeAnswer with
      | (.data _, s') => .ok true (s'.logWire (.write c a v .done))
      | (.fail, s') => .ok false (s'.logWire (.write c a v .failed))
      | (.resetDuring, s') => .error .reset (s'.logWire (.write c a v .abandoned)).blockReset := rfl

/-- All a transport read can do: a byte, a failure, or a reset; one operation on the wire in each case. -/
theorem readOp_cases (c : Chan) (a : Byte) (s : State) :
    (∃ v, (readOp c a).run s = .ok (some v) (s.takeAnswer.2.logWire (.read c a (.data v)))) ∨
    ((readOp c a).run s = .ok none (s.takeAnswer.2.logWire (.read c a .failed))) ∨
    ((readOp c a).run s = .error .reset (s.takeAnswer.2.logWire (.read c a .abandoned)).blockReset) := by
  rw [run_readOp]
  rcases s.takeAnswer with ⟨v | _ | _, s'⟩
  · exact .inl ⟨v, rfl⟩
  · exact .inr (.inl rfl)
  · exact .inr (.inr rfl)

/-- All a transport write can do: done, failed, or a reset; one operation on the wire in each case. -/
theorem writeOp_cases (c : Chan) (a v : Byte) (s : State) :
    ((writeOp c a v).run s = .ok true (s.takeAnswer.2.logWire (.write c a v .done))) ∨
    ((writeOp c a v).run s = .ok false (s.takeAnswer.2.logWire (.write c a v .failed))) ∨
    ((writeOp c a v).run s = .error .reset (s.takeAnswer.2.logWire (.write c a v .abandoned)).blockReset) := by
  rw [run_writeOp]
  rcases s.takeAnswer with ⟨b | _ | _, s'⟩
  · exact .inl rfl
  · exact .inr (.inl rfl)
  · exact .inr (.inr rfl)

/-! ### Sequences of operations -/

@[simp] theorem afterOps_par (s : State) (ops : List WireOp) (rest : List Answer) : (s.afterOps ops rest).par = s.par := rfl

@[simp] theorem afterOps_blk (s : State) (ops : List WireOp) (rest : List Answer) : (s.afterOps ops rest).blk = s.blk := rfl

@[simp] theorem afterOps_env (s : State) (ops : List WireOp) (rest : List Answer) :
    (s.afterOps ops rest).env = { s.env with answers := rest } := rfl

@[simp] theorem afterOps_out (s : State) (ops : List WireOp) (rest : List Answer) :
    (s.afterOps ops rest).out = { s.out with wire := s.out.wire ++ ops } := rfl

@[simp] theorem afterOps_chan (s : State) (ops : List WireOp) (rest : List Answer) (c : Chan) :
    (s.afterOps ops rest).chan c = s.chan c := by cases c <;> rfl

/-- Operations after operations. -/
@[simp] theorem afterOps_afterOps (s : State) (ops ops' : List WireOp) (rest rest' : List Answer) :
    (s.afterOps ops rest).afterOps ops' rest' = s.afterOps (ops ++ ops') rest' := by
  simp [State.afterOps, List.append_assoc]

/-- No operation. -/
theorem afterOps_nil {s : State} {rest : List Answer} (h : s.env.answers = rest) : s.afterOps [] rest = s := by
  subst h
  simp [State.afterOps]

@[simp] theorem readOp_afterOps_data (s : State) (c : Chan) (a v : Byte) (ops : List WireOp) (rest : List Answer) :
    (readOp c a).run (s.afterOps ops (.data v :: rest)) =
      .ok (some v) (s.afterOps (ops ++ [.read c a (.data v)]) rest) := by
  rw [run_readOp, takeAnswer_of_cons (a := .data v) (rest := rest) rfl, ← afterOps_afterOps]
  rfl

@[simp] theorem readOp_afterOps_fail (s : State) (c : Chan) (a : Byte) (ops : List WireOp) (rest : List Answer) :
    (readOp c a).run (s.afterOps ops (.fail :: rest)) =
      .ok none (s.afterOps (ops ++ [.read c a .failed]) rest) := by
  rw [run_readOp, takeAnswer_of_cons (a := .fail) (rest := rest) rfl, ← afterOps_afterOps]
  rfl

@[simp] theorem writeOp_afterOps_data (s : State) (c : Chan) (a v b : Byte) (ops : List WireOp) (rest : List Answer) :
    (writeOp c a v).run (s.afterOps ops (.data b :: rest)) =
      .ok true (s.afterOps (ops ++ [.write c a v .done]) rest) := by
  rw [run_writeOp, takeAnswer_of_cons (a := .data b) (rest := rest) rfl, ← afterOps_afterOps]
  rfl

@[simp] theorem writeOp_afterOps_fail (s : State) (c : Chan) (a v : Byte) (ops : List WireOp) (rest : List Answer) :
    (writeOp c a v).run (s.afterOps ops (.fail :: rest)) =
      .ok false (s.afterOps (ops ++ [.write c a v .failed]) rest) := by
  rw [run_writeOp, takeAnswer_of_cons (a := .fail) (rest := rest) rfl, ← afterOps_afterOps]
  rfl

/-! ### Scheduling points -/

@[simp] theorem movesUpToCommand_nil (s : State) : (movesUpToCommand []).run s = .ok () (s.setSched []) := rfl

theorem movesUpToCommand_cons (slot : Slot) (rest : List Slot) (s : State) :
    (movesUpToCommand (slot :: rest)).run s =
      if slot = .command then .ok () (s.setSched rest)
      else match (move slot).run (s.setSched rest) with
        | .ok _ s' => (movesUpToCommand rest).run s'
        | .error e s' => .error e s' := rfl

/-- Without a schedule nobody else moves. -/
theorem point_of_no_schedule {s : State} (h : s.env.sched = []) : point.run s = .ok () s := by
  rw [run_point, h, movesUpToCommand_nil, State.setSched_nil_of_nil h]

/-- What every other agent's move keeps, and a change of the schedule keeps, a scheduling point keeps. -/
theorem movesUpToCommand_keeps (P : State → Prop) (hsched : ∀ s l, P s → P (s.setSched l))
    (hmove : ∀ slot s, P s → P (settle ((move slot).run s))) (l : List Slot) :
    ∀ s, P s → P (settle ((movesUpToCommand l).run s)) := by
  induction l with
  | nil => exact fun s h => hsched s [] h
  | cons slot rest ih =>
    intro s h
    rw [movesUpToCommand_cons]
    split
    · exact hsched s rest h
    · have h' := hmove slot (s.setSched rest) (hsched s rest h)
      generalize (move slot).run (s.setSched rest) = r at h'
      cases r with
      | ok a s' => exact ih s' h'
      | error e s' => exact h'

/-- What every other agent's move keeps, a scheduling point keeps. -/
theorem point_keeps (P : State → Prop) (hsched : ∀ s l, P s → P (s.setSched l))
    (hmove : ∀ slot s, P s → P (settle ((move slot).run s))) (s : State) (h : P s) : P (settle (point.run s)) :=
  movesUpToCommand_keeps P hsched hmove s.env.sched s h

/-! ### The command agent's operations where nobody interferes -/

/-- An atomic unit nobody interferes with, ended normally. -/
theorem atomicUnit_ok {α : Type} {body : Run α} {s t : State} {a : α} (hs : s.env.sched = [])
    (hb : body.run (s.setGrant .command) = .ok a t) (ht : t.env.sched = []) :
    (atomicUnit body).run s = .ok a (t.setGrant .none) := by
  have ht' : (t.setGrant .none).env.sched = [] := ht
  simp only [atomicUnit, run_bind, point_of_no_schedule hs, run_holding, hb, point_of_no_schedule ht', run_pure]

/-- An atomic unit nobody interferes with, ended by an error. -/
theorem atomicUnit_error {α : Type} {body : Run α} {s t : State} {e : Stop} (hs : s.env.sched = [])
    (hb : body.run (s.setGrant .command) = .error e t) :
    (atomicUnit body).run s = .error e (t.setGrant .none) := by
  simp only [atomicUnit, run_bind, point_of_no_schedule hs, run_holding, hb]

/-- A command's read that the chip answers. -/
theorem cmdRead_data {s : State} (hs : s.env.sched = []) (c : Chan) (a v : Byte) (ops : List WireOp) (rest : List Answer) :
    (cmdRead c a).run (s.afterOps ops (.data v :: rest)) = .ok v (s.afterOps (ops ++ [.read c a (.data v)]) rest) := by
  have h : (s.afterOps ops (.data v :: rest)).env.sched = [] := hs
  simp only [cmdRead, run_bind, point_of_no_schedule h, readOp_afterOps_data, run_pure]

/-- A command's read that fails. -/
theorem cmdRead_fail {s : State} (hs : s.env.sched = []) (c : Chan) (a : Byte) (ops : List WireOp) (rest : List Answer) :
    (cmdRead c a).run (s.afterOps ops (.fail :: rest)) =
      .error (.raised .commError (failInfo c a)) (s.afterOps (ops ++ [.read c a .failed]) rest) := by
  have h : (s.afterOps ops (.fail :: rest)).env.sched = [] := hs
  simp only [cmdRead, run_bind, point_of_no_schedule h, readOp_afterOps_fail, run_raise]

/-- A command's write that completes. -/
theorem cmdWrite_data {s : State} (hs : s.env.sched = []) (c : Chan) (a v b : Byte) (ops : List WireOp)
    (rest : List Answer) :
    (cmdWrite c a v).run (s.afterOps ops (.data b :: rest)) = .ok () (s.afterOps (ops ++ [.write c a v .done]) rest) := by
  have h : (s.afterOps ops (.data b :: rest)).env.sched = [] := hs
  simp only [cmdWrite, run_bind, point_of_no_schedule h, writeOp_afterOps_data, if_true, run_pure]

/-- A command's write that fails. -/
theorem cmdWrite_fail {s : State} (hs : s.env.sched = []) (c : Chan) (a v : Byte) (ops : List WireOp)
    (rest : List Answer) :
    (cmdWrite c a v).run (s.afterOps ops (.fail :: rest)) =
      .error (.raised .commError (failInfo c a)) (s.afterOps (ops ++ [.write c a v .failed]) rest) := by
  have h : (s.afterOps ops (.fail :: rest)).env.sched = [] := hs
  simp only [cmdWrite, run_bind, point_of_no_schedule h, writeOp_afterOps_fail, Bool.false_eq_true, if_false, run_raise]

/-- A delay nobody interferes with lasts exactly as long as asked. -/
theorem delay_of_no_schedule {s : State} (ms : Half) (hs : s.env.sched = []) :
    (delay ms).run s = .ok () (s.advance (ms.setWidth 32)) := by
  simp only [delay, run_bind, run_readS, point_of_no_schedule hs, run_changeS, State.passUntil, State.advance]
  by_cases h : elapsedSince s.env.now s.env.now < ms.setWidth 32
  · rw [if_pos h]
  · have h0 : ms.setWidth 32 = 0#32 := by
      simp only [elapsedSince, BitVec.sub_self] at h
      bv_omega
    rw [if_neg h, h0, BitVec.add_zero]
    rfl

/-- A status read that shows the RAM window ready ends the wait. -/
theorem waitReady_ready {s : State} (hs : s.env.sched = []) (hb : s.blk.ramRetryBudget ≠ 0) (c : Chan)
    (ops : List WireOp) (r : Byte) (rest : List Answer) (hr : r.getLsbD 0 = false) :
    (waitReady c).run (s.afterOps ops (.data r :: rest)) =
      .ok () (s.afterOps (ops ++ [.read c s.par.regRamstat (.data r)]) rest) := by
  obtain ⟨k, hk⟩ : ∃ k, s.blk.ramRetryBudget.toNat = k + 1 :=
    ⟨s.blk.ramRetryBudget.toNat - 1, by
      have : s.blk.ramRetryBudget.toNat ≠ 0 := fun h0 => hb (by bv_omega)
      omega⟩
  simp only [waitReady, run_bind, run_readS, afterOps_blk, afterOps_par, hk, pollReady, cmdRead_data hs, ramBusy, hr,
    Bool.false_eq_true, if_false, run_pure]

/-- A status read that fails ends the wait and the command. -/
theorem waitReady_fail {s : State} (hs : s.env.sched = []) (hb : s.blk.ramRetryBudget ≠ 0) (c : Chan)
    (ops : List WireOp) (rest : List Answer) :
    (waitReady c).run (s.afterOps ops (.fail :: rest)) =
      .error (.raised .commError (failInfo c s.par.regRamstat))
        (s.afterOps (ops ++ [.read c s.par.regRamstat .failed]) rest) := by
  obtain ⟨k, hk⟩ : ∃ k, s.blk.ramRetryBudget.toNat = k + 1 :=
    ⟨s.blk.ramRetryBudget.toNat - 1, by
      have : s.blk.ramRetryBudget.toNat ≠ 0 := fun h0 => hb (by bv_omega)
      omega⟩
  simp only [waitReady, run_bind, run_readS, afterOps_blk, afterOps_par, hk, pollReady, cmdRead_fail hs]

/-! ### Commands -/

theorem run_activeChannel (ch : BitVec 4) (s : State) :
    (activeChannel ch).run s = match activeChan s.blk.n ch with
      | some c => .ok c s
      | none => .error (.raised .badChannel 0) s := rfl

/-- A command on an active channel. -/
theorem activeChannel_some {ch : BitVec 4} {c : Chan} {s : State} (h : activeChan s.blk.n ch = some c) :
    (activeChannel ch).run s = .ok c s := by
  rw [run_activeChannel, h]

/-- A command on a channel that is not active. -/
theorem activeChannel_none {ch : BitVec 4} {s : State} (h : activeChan s.blk.n ch = none) :
    (activeChannel ch).run s = .error (.raised .badChannel 0) s := by
  rw [run_activeChannel, h]

/-- How a command begins: where no reset falls before it, with its sequence. -/
theorem command_of_no_resets {i : Instr} {body : Run Word} {s : State} (hs : s.env.resets = []) :
    command i body s = .next (finish (body.run (s.setCmd (some i)))) := by
  have h : (s.setCmd (some i)).env.resets = [] := hs
  simp only [command, run_bind, moment_of_no_resets h]

/-- A command that a reset abandons before it has done anything. -/
theorem command_reset_at_once {i : Instr} {body : Run Word} {s : State} {l : List Bool} (hs : s.env.resets = true :: l) :
    command i body s = .next (s.setResets l).blockReset := by
  have h : moment.run (s.setCmd (some i)) = .error .reset ((s.setCmd (some i)).setResets l).blockReset := by
    rw [run_moment, State.setCmd_env, hs]
  simp only [command, run_bind, h, finish]
  rfl

/-- All a command can do: its sequence runs and ends it, or a reset abandons it before. -/
theorem command_cases (i : Instr) (body : Run Word) (s : State) :
    (∃ l, command i body s = .next (finish (body.run ((s.setCmd (some i)).setResets l)))) ∨
    ∃ l, command i body s = .next (s.setResets l).blockReset := by
  obtain ⟨l, h⟩ | ⟨l, h⟩ := moment_cases (s.setCmd (some i))
  · exact .inl ⟨l, by simp only [command, run_bind, h]⟩
  · exact .inr ⟨l, by simp only [command, run_bind, h, finish]; rfl⟩

/-- A command whose sequence ends normally. -/
theorem command_ok {i : Instr} {body : Run Word} {s t : State} {rdata : Word} (hs : s.env.resets = [])
    (h : body.run (s.setCmd (some i)) = .ok rdata t) (ht : t.env.resets = []) :
    command i body s = .next (t.endCommand.present ⟨.ok, rdata⟩) := by
  have ht' : t.endCommand.env.resets = [] := ht
  rw [command_of_no_resets hs, h, finish, respond_of_no_resets ht']

/-- A command whose sequence raises. -/
theorem command_raised {i : Instr} {body : Run Word} {s t : State} {st : Status} {info : Word} (hs : s.env.resets = [])
    (h : body.run (s.setCmd (some i)) = .error (.raised st info) t) (ht : t.env.resets = []) :
    command i body s = .next (t.endCommand.present ⟨st, info⟩) := by
  have ht' : t.endCommand.env.resets = [] := ht
  rw [command_of_no_resets hs, h, finish, respond_of_no_resets ht']

/-- A command that a reset abandons within its sequence. -/
theorem command_reset {i : Instr} {body : Run Word} {s t : State} (hs : s.env.resets = [])
    (h : body.run (s.setCmd (some i)) = .error .reset t) :
    command i body s = .next t := by
  rw [command_of_no_resets hs, h, finish]

/-- A command that changes nothing leaves an idle machine as it was. -/
theorem endCommand_setCmd {s : State} {i : Option Instr} (h : s.Idle) : (s.setCmd i).endCommand = s := by
  rcases s with ⟨p, b, e, o⟩
  cases b
  obtain ⟨h1, h2⟩ := h
  cases h1
  cases h2
  rfl

end Sys2Proof.Machine
end

