-- ==== Sys2Proof/Laws/Ends.lean ====
section
/-! SUPPORT. What every sequence of the machine does, whatever the schedule and the chip's answers: a relation closed under
the primitive changes holds between the state a sequence starts from and the one it ends in. One lemma per sequence, for
claims about the whole machine. -/

namespace Sys2Proof.Machine

/-- The result of a sequence started in s: an ordinary end, or an error of a status of `A`, leaves a state R-related to s; a
reset leaves a Z-related one. -/
def EndsIn (A : List Status) (R Z : State → State → Prop) {α : Type} (s : State) : EStateM.Result Stop State α → Prop
  | .ok _ t => R s t
  | .error (.raised st _) t => st ∈ A ∧ R s t
  | .error .reset t => Z s t

/-- However the sequence ends from any state: normally or by raising a status of `A`, with R between the two states, or by a
reset, with Z between them. -/
def Ends (A : List Status) (R Z : State → State → Prop) {α : Type} (x : Run α) : Prop :=
  ∀ s, EndsIn A R Z s (x.run s)

/-- R is closed under what a transport operation changes, under a completed AUTO bracket setting the stored linefeed state,
and under the passing of a moment at which no reset falls; Z follows a reset. -/
structure ClosedOps (R Z : State → State → Prop) : Prop where
  refl : ∀ s, R s s
  trans : ∀ {s t u}, R s t → R t u → R s u
  reset : ∀ {s t}, R s t → Z s t.blockReset
  transReset : ∀ {s t u}, R s t → Z t u → Z s u
  answer : ∀ s, R s s.takeAnswer.2
  wire : ∀ s w, R s (s.logWire w)
  resets : ∀ s l, R s (s.setResets l)
  lf : ∀ {s t} c req a, R s t →
    (∃ added, t.out.wire = s.out.wire ++ added ∧ (bracketWrites s.par c req a).Sublist added) → R s (t.setLf c req)

/-- R is closed under every change a sequence makes, each with what is known where it is made, other than those of CFG_WR,
IRQ_ENABLE, INIT, RING_BEGIN and HOOK_TICK. -/
structure Closed (R Z : State → State → Prop) : Prop extends ClosedOps R Z where
  resetFree : ∀ {s t}, Z s t → Z s (t.setGrant .none)
  grant : ∀ s g, R s (s.setGrant g)
  ramTx : ∀ s x, R s (s.setRamTx x)
  sched : ∀ s l, R s (s.setSched l)
  now : ∀ s t, R s (s.setNow t)
  consume : ∀ s, R s s.consumeEvent
  event : ∀ s e, (∀ d, e.detected d = false) → R s (s.emit e)
  queue : ∀ s payload t, s.hasRoom = true → R s (s.queueEvent payload t)
  take : ∀ s e rest, s.blk.irqQ = e :: rest → R s (s.takeEvent e rest)
  irqPos : ∀ s p, p.flags = [] ∨ p.flags = s.blk.irqPos.flags → R s (s.setIrqPos p)
  flagsRead : ∀ s t c i flags todo b, s.blk.irqPos = .haveFlag t c i flags todo (some b) →
    R s (s.setIrqPos (afterFlag t c i (addFlags s.par i b flags) todo))
  feed : ∀ s c lvl t, R s (s.feedHook c lvl t)
  cancel : ∀ s c, R s (s.requestCancel c)
  phase : ∀ s c, (s.chan c).ring.active = true → R s (s.startPhase c)
  ringPos : ∀ s c p, (s.chan c).ring.active = true → R s (s.setRingPos c p)
  wait : ∀ s c d, (s.chan c).ring.active = true →
    R s (s.setRing c { (s.chan c).ring with deadline := d, pos := .waiting })
  stop : ∀ s c, R s (s.stopRing c)

/-- The part of the closure that transport operations use. -/
theorem Closed.ops {R Z : State → State → Prop} (h : Closed R Z) : ClosedOps R Z := h.toClosedOps

section
variable {A : List Status} {R Z K Y : State → State → Prop} {α β : Type}

/-- A sequence's end, seen from an earlier state. -/
theorem EndsIn.after (h : ClosedOps R Z) {s t : State} {r : EStateM.Result Stop State α} (h1 : R s t)
    (h2 : EndsIn A R Z t r) : EndsIn A R Z s r := by
  cases r with
  | ok a u => exact h.trans h1 h2
  | error e u =>
    cases e with
    | raised st info => exact ⟨h2.1, h.trans h1 h2.2⟩
    | reset => exact h.transReset h1 h2

/-- What an ordinary end of a sequence leaves. -/
theorem Ends.ok {x : Run α} (hx : Ends A R Z x) {s t : State} {a : α} (e : x.run s = .ok a t) : R s t := by
  have h := hx s
  rwa [e] at h

/-- A sequence and what follows it, where what follows may use how the first part ended. -/
theorem bind_endsIn (h : ClosedOps R Z) {x : Run α} {f : α → Run β} {s : State} (hx : EndsIn A R Z s (x.run s))
    (hf : ∀ a t, x.run s = .ok a t → EndsIn A R Z t ((f a).run t)) : EndsIn A R Z s ((x >>= f).run s) := by
  rw [run_bind]
  cases hr : x.run s with
  | ok a t =>
    rw [hr] at hx
    exact EndsIn.after h hx (hf a t hr)
  | error e t =>
    rw [hr] at hx
    cases e <;> exact hx

theorem pure_ends (h : ClosedOps R Z) (a : α) : Ends A R Z (pure a : Run α) := fun s => h.refl s

theorem bind_ends (h : ClosedOps R Z) {x : Run α} {f : α → Run β} (hx : Ends A R Z x) (hf : ∀ a, Ends A R Z (f a)) :
    Ends A R Z (x >>= f) := fun s => bind_endsIn h (hx s) fun a t _ => hf a t

theorem readS_ends (h : ClosedOps R Z) (f : State → α) : Ends A R Z (readS f) := fun s => h.refl s

theorem changeS_ends {f : State → State} (hf : ∀ s, R s (f s)) : Ends A R Z (changeS f) := fun s => hf s

theorem raise_ends (h : ClosedOps R Z) {st : Status} (hst : st ∈ A) (info : Word) :
    Ends A R Z (raise st info : Run α) := fun s => ⟨hst, h.refl s⟩

theorem require_ends (h : ClosedOps R Z) {st : Status} (hst : st ∈ A) (b : Bool) : Ends A R Z (require b st) := by
  cases b
  · exact fun s => ⟨hst, h.refl s⟩
  · exact fun s => h.refl s

/-- A condition that has been passed holds. -/
theorem require_ok {b : Bool} {st : Status} {s t : State} {u : Unit} (e : (require b st).run s = .ok u t) :
    b = true ∧ t = s := by
  cases b
  · cases e
  · cases e
    exact ⟨rfl, rfl⟩

theorem ite_ends {p : Prop} [Decidable p] {x y : Run α} (hx : Ends A R Z x) (hy : Ends A R Z y) :
    Ends A R Z (if p then x else y) := by
  split
  · exact hx
  · exact hy

theorem moment_ends (h : ClosedOps R Z) : Ends A R Z moment := by
  intro s
  obtain ⟨l, e⟩ | ⟨l, e⟩ := moment_cases s <;> rw [e]
  · exact h.resets s l
  · exact h.reset (h.resets s l)

theorem readOp_ends (h : ClosedOps R Z) (c : Chan) (a : Byte) : Ends A R Z (readOp c a) := by
  intro s
  have h1 := h.answer s
  obtain ⟨v, e⟩ | e | e := readOp_cases c a s <;> rw [e]
  · exact h.trans h1 (h.wire _ _)
  · exact h.trans h1 (h.wire _ _)
  · exact h.reset (h.trans h1 (h.wire _ _))

theorem writeOp_ends (h : ClosedOps R Z) (c : Chan) (a v : Byte) : Ends A R Z (writeOp c a v) := by
  intro s
  have h1 := h.answer s
  obtain e | e | e := writeOp_cases c a v s <;> rw [e]
  · exact h.trans h1 (h.wire _ _)
  · exact h.trans h1 (h.wire _ _)
  · exact h.reset (h.trans h1 (h.wire _ _))

theorem holding_ends (h : Closed R Z) (g : Grant) {x : Run α} (hx : Ends A R Z x) :
    Ends A R Z (holding g x) := by
  intro s
  have h1 := hx (s.setGrant g)
  rw [run_holding]
  cases hr : x.run (s.setGrant g) with
  | ok a t =>
    rw [hr] at h1
    exact h.trans (h.grant s g) (h.trans h1 (h.grant t .none))
  | error e t =>
    rw [hr] at h1
    cases e with
    | raised st info => exact ⟨h1.1, h.trans (h.grant s g) (h.trans h1.2 (h.grant t .none))⟩
    | reset => exact h.resetFree (h.transReset (h.grant s g) h1)

theorem whenGranted_endsIn (h : Closed R Z) (g : Grant) {x : Run Unit} {s : State}
    (hx : EndsIn A R Z (s.setGrant g) (x.run (s.setGrant g))) : EndsIn A R Z s ((whenGranted g x).run s) := by
  rw [run_whenGranted]
  split
  · rw [run_holding]
    cases hr : x.run (s.setGrant g) with
    | ok a t =>
      rw [hr] at hx
      exact h.trans (h.grant s g) (h.trans hx (h.grant t .none))
    | error e t =>
      rw [hr] at hx
      cases e with
      | raised st info => exact ⟨hx.1, h.trans (h.grant s g) (h.trans hx.2 (h.grant t .none))⟩
      | reset => exact h.resetFree (h.transReset (h.grant s g) hx)
  · exact h.refl s

/-! ### Linefeed sequences -/

/-- The parameters stay and the wire grows: what every sequence does. -/
def WireGrows (s t : State) : Prop := t.par = s.par ∧ ∃ added, t.out.wire = s.out.wire ++ added

theorem WireGrows.of_same {s t : State} (hp : t.par = s.par) (hw : t.out.wire = s.out.wire) : WireGrows s t :=
  ⟨hp, [], by rw [hw, List.append_nil]⟩

theorem wireGrows_closedOps : ClosedOps WireGrows (fun _ _ => True) where
  refl _ := .of_same rfl rfl
  trans := fun ⟨h1, l1, e1⟩ ⟨h2, l2, e2⟩ => ⟨h2.trans h1, l1 ++ l2, by rw [e2, e1, List.append_assoc]⟩
  reset _ := trivial
  transReset _ _ := trivial
  answer s := .of_same (takeAnswer_keeps s).1 (congrArg Output.wire (takeAnswer_keeps s).2.2.1)
  wire _ w := ⟨rfl, [w], rfl⟩
  resets _ _ := .of_same rfl rfl
  lf _ _ _ h _ := h

/-- A sequence and what follows it, seen from an earlier state. -/
theorem bind_endsFrom (h : ClosedOps R Z) {x : Run α} {f : α → Run β} {s s0 : State} (h0 : R s0 s) (hx : Ends A R Z x)
    (hf : ∀ a t, x.run s = .ok a t → R s0 t → EndsIn A R Z s0 ((f a).run t)) : EndsIn A R Z s0 ((x >>= f).run s) := by
  rw [run_bind]
  have hx := EndsIn.after h h0 (hx s)
  cases hr : x.run s with
  | ok a t =>
    rw [hr] at hx
    exact hf a t hr hx
  | error e t =>
    rw [hr] at hx
    cases e <;> exact hx

/-- A write that completed is on the wire. -/
theorem writeOp_done {c : Chan} {a v : Byte} {s t : State} (e : (writeOp c a v).run s = .ok true t) :
    t.out.wire = s.out.wire ++ [.write c a v .done] := by
  have h := congrArg Output.wire (takeAnswer_keeps s).2.2.1
  obtain e' | e' | e' := writeOp_cases c a v s <;> rw [e'] at e <;> cases e
  rw [← h]
  rfl

/-- The AUTO bracket, where R makes the wire grow: R holds to its end, the stored state being set only after the three
writes. -/
theorem autoBracket_endsIn (h : ClosedOps R Z) (hR : ∀ {s t}, R s t → WireGrows s t) {pt : Run Unit} (hpt : Ends A R Z pt)
    (c : Chan) (req : LfState) (a : Byte) (s : State) : EndsIn A R Z s ((autoBracket pt s.par c req a).run s) := by
  unfold autoBracket
  refine bind_endsFrom h (h.refl s) hpt fun _ s1 e1 r1 => bind_endsFrom h r1 (writeOp_ends h _ _ _) fun b1 s2 e2 r2 =>
    ?_
  cases b1
  · exact r2
  refine bind_endsFrom h r2 hpt fun _ s3 e3 r3 => bind_endsFrom h r3 (writeOp_ends h _ _ _) fun b2 s4 e4 r4 => ?_
  cases b2
  · exact r4
  refine bind_endsFrom h r4 hpt fun _ s5 e5 r5 => bind_endsFrom h r5 (writeOp_ends h _ _ _) fun b3 s6 e6 r6 => ?_
  cases b3
  · exact r6
  obtain ⟨-, l1, w1⟩ := hR (hpt.ok e1)
  obtain ⟨-, l3, w3⟩ := hR (hpt.ok e3)
  obtain ⟨-, l5, w5⟩ := hR (hpt.ok e5)
  change R s (s6.setLf c req)
  refine h.lf c req a r6 ⟨(l1 ++ [.write c s.par.regAuto (autoCleared s.par a) .done]) ++
    (l3 ++ [.write c s.par.regLinefeed (lfWriteByte s.par req) .done]) ++
    (l5 ++ [.write c s.par.regAuto a .done]), ?_, ?_⟩
  · rw [writeOp_done e6, w5, writeOp_done e4, w3, writeOp_done e2, w1]
    simp only [List.append_assoc]
  · change ([WireOp.write c s.par.regAuto (autoCleared s.par a) .done] ++
      [WireOp.write c s.par.regLinefeed (lfWriteByte s.par req) .done] ++ [WireOp.write c s.par.regAuto a .done]).Sublist _
    exact ((List.sublist_append_right l1 _).append (List.sublist_append_right l3 _)).append
      (List.sublist_append_right l5 _)

/-- `SetLineFeed`, where R makes the wire grow. -/
theorem setLineFeed_ends_of_grows (h : ClosedOps R Z) (hR : ∀ {s t}, R s t → WireGrows s t) {pt : Run Unit}
    (hpt : Ends A R Z pt) (c : Chan) (req : LfState) : Ends A R Z (setLineFeed pt c req) := by
  intro s
  unfold setLineFeed
  refine bind_endsFrom h (h.refl s) (readS_ends h _) fun p t e rt => ?_
  cases e
  refine bind_endsFrom h rt hpt fun _ s1 _ r1 => bind_endsFrom h r1 (readOp_ends h _ _) fun v s2 _ r2 => ?_
  cases v with
  | none => exact r2
  | some v =>
    dsimp only
    split
    · exact r2
    · refine bind_endsFrom h r2 hpt fun _ s3 _ r3 => bind_endsFrom h r3 (readOp_ends h _ _) fun a s4 _ r4 => ?_
      cases a with
      | none => exact r4
      | some a =>
        rw [← (hR r4).1]
        exact EndsIn.after h r4 (autoBracket_endsIn h hR hpt c req a s4)

/-- Two relations at once. -/
theorem EndsIn.and {Y : State → State → Prop} {s : State} {r : EStateM.Result Stop State α} (h1 : EndsIn A R Z s r)
    (h2 : EndsIn A K Y s r) : EndsIn A (fun s t => R s t ∧ K s t) Z s r := by
  cases r with
  | ok a t => exact ⟨h1, h2⟩
  | error e t =>
    cases e with
    | raised st info => exact ⟨h1.1, h1.2, h2.2⟩
    | reset => exact h1

/-- The first of two relations. -/
theorem EndsIn.left {s : State} {r : EStateM.Result Stop State α} (h : EndsIn A (fun s t => R s t ∧ K s t) Z s r) :
    EndsIn A R Z s r := by
  cases r with
  | ok a t => exact h.1
  | error e t =>
    cases e with
    | raised st info => exact ⟨h.1, h.2.1⟩
    | reset => exact h

theorem ClosedOps.withGrowth (h : ClosedOps R Z) : ClosedOps (fun s t => R s t ∧ WireGrows s t) Z where
  refl s := ⟨h.refl s, wireGrows_closedOps.refl s⟩
  trans := fun ⟨h1, g1⟩ ⟨h2, g2⟩ => ⟨h.trans h1 h2, wireGrows_closedOps.trans g1 g2⟩
  reset := fun ⟨h1, _⟩ => h.reset h1
  transReset := fun ⟨h1, _⟩ h2 => h.transReset h1 h2
  answer s := ⟨h.answer s, wireGrows_closedOps.answer s⟩
  wire s w := ⟨h.wire s w, wireGrows_closedOps.wire s w⟩
  resets s l := ⟨h.resets s l, wireGrows_closedOps.resets s l⟩
  lf := fun c req a ⟨h1, g1⟩ hw => ⟨h.lf c req a h1 hw, g1⟩

/-- `SetLineFeed` with points between its operations that keep R and let the wire grow. -/
theorem setLineFeed_ends (h : ClosedOps R Z) {pt : Run Unit} (hpt : Ends A R Z pt)
    (hg : Ends A WireGrows (fun _ _ => True) pt) (c : Chan) (req : LfState) : Ends A R Z (setLineFeed pt c req) := fun s =>
  (setLineFeed_ends_of_grows h.withGrowth (fun h => h.2) (fun s => (hpt s).and (hg s)) c req s).left

/-- What `SetLineFeed` of a ringer keeps: between its operations only a reset can fall. -/
theorem ringerLineFeed_ends (h : ClosedOps R Z) (c : Chan) (req : LfState) : Ends A R Z (setLineFeed moment c req) :=
  setLineFeed_ends h (moment_ends h) (moment_ends wireGrows_closedOps) c req

/-- The ringer states stay. -/
def SameRings (s t : State) : Prop := ∀ d, (t.chan d).ring = (s.chan d).ring

theorem sameRings_closedOps : ClosedOps SameRings (fun _ _ => True) where
  refl _ _ := rfl
  trans h1 h2 d := (h2 d).trans (h1 d)
  reset _ := trivial
  transReset _ _ := trivial
  answer s d := by
    have h := (takeAnswer_keeps s).2.1
    cases d <;> simp [State.chan, h]
  wire s w d := by cases d <;> rfl
  resets s l d := by cases d <;> rfl
  lf {s t} c req a h _ d := by
    rw [← h d]
    by_cases hd : d = c
    · subst hd
      rw [State.chan_setLf_same]
    · rw [State.chan_setLf_other _ _ hd]

/-! ### The event port and the interrupt agent -/

/-- A transport read that ends normally leaves the block alone. -/
theorem readOp_keeps_blk {c : Chan} {a : Byte} {s t : State} {r : Option Byte} (e : (readOp c a).run s = .ok r t) :
    t.blk = s.blk := by
  have h := (takeAnswer_keeps s).2.1
  obtain ⟨v, e'⟩ | e' | e' := readOp_cases c a s <;> rw [e'] at e <;> cases e <;> exact h

theorem discardEvent_ends (h : Closed R Z) (code : LogCode) : Ends A R Z (discardEvent code) :=
  bind_ends h.ops (readS_ends h.ops _) fun _ => bind_ends h.ops (changeS_ends h.consume) fun _ =>
    bind_ends h.ops (moment_ends h.ops) fun _ => changeS_ends fun s => h.event s _ fun _ => rfl

theorem gateEvent_ends (h : Closed R Z) (payload : Option Byte) (t : Word) : Ends A R Z (gateEvent payload t) :=
  bind_ends h.ops (readS_ends h.ops _) fun _ => ite_ends
    (changeS_ends fun s => by
      split
      · exact h.queue s payload t ‹_›
      · exact h.refl s)
    (discardEvent_ends h _)

theorem eventMove_ends (h : Closed R Z) : Ends A R Z eventMove := by
  intro s
  change EndsIn A R Z s (eventMove s)
  unfold eventMove
  cases s.env.eventQ with
  | nil => exact h.refl s
  | cons r rest =>
    dsimp only
    split
    · exact gateEvent_ends h _ _ s
    · exact gateEvent_ends h _ _ s
    · exact discardEvent_ends h _ s

theorem Closed.preempt (h : Closed R Z) (s : State) (c : Chan) (flags : List Nat) : R s (s.preempt c flags) := by
  unfold State.preempt
  split
  · exact h.cancel s c
  · exact h.refl s

theorem irqMove_ends (h : Closed R Z) : Ends A R Z irqMove := by
  intro s
  have hr (c : Chan) (a : Byte) : Ends A R Z (readOp c a) := readOp_ends h.ops c a
  suffices key : ∀ r : EStateM.Result Stop State Unit, irqMove.run s = r → EndsIn A R Z s r from key _ rfl
  intro r e
  change irqMove s = r at e
  unfold irqMove at e
  cases hp : s.blk.irqPos with
  | idle =>
    rw [hp] at e
    dsimp only at e
    cases hq : s.blk.irqQ with
    | nil => rw [hq] at e; subst e; exact h.refl s
    | cons ev rest =>
      rw [hq] at e
      subst e
      exact h.take s ev rest hq
  | wantStatus t =>
    rw [hp] at e
    subst e
    exact whenGranted_endsIn h .interrupt
      (bind_ends h.ops (hr _ _) (fun _ => changeS_ends fun s => h.irqPos s _ (.inl rfl)) _)
  | haveStatus t x =>
    rw [hp] at e
    cases x <;> subst e
    · exact h.trans (h.event s _ fun _ => rfl) (h.irqPos _ _ (.inl rfl))
    · exact h.irqPos _ _ (.inl rfl)
  | pairs t todo =>
    rw [hp] at e
    cases todo with
    | nil => subst e; exact h.irqPos _ _ (.inl rfl)
    | cons x rest =>
      dsimp only at e
      split at e <;> subst e <;> exact h.irqPos _ _ (.inl rfl)
  | wantFlag t c i flags todo =>
    rw [hp] at e
    subst e
    refine whenGranted_endsIn h .interrupt (bind_endsIn h.ops (hr _ _ _) fun v u eu => ?_)
    have hu : u.blk.irqPos = .wantFlag t c i flags todo := by rw [readOp_keeps_blk eu]; exact hp
    exact h.irqPos u (.haveFlag t c i flags todo v) (.inr (by rw [hu]; rfl))
  | haveFlag t c i flags todo x =>
    rw [hp] at e
    cases x <;> subst e
    · exact h.trans (h.event s _ fun _ => rfl) (h.irqPos _ _ (.inr (by rw [State.emit_blk, hp]; rfl)))
    · exact h.flagsRead s t c i flags todo _ hp
  | dispatch t c left flags todo =>
    rw [hp] at e
    cases left with
    | nil =>
      subst e
      exact h.trans (h.preempt s c flags) (h.irqPos _ _ (.inl (by unfold afterDispatch; split <;> rfl)))
    | cons f rest =>
      subst e
      exact h.trans (h.event s _ fun _ => rfl) (h.irqPos _ _ (.inr (by rw [State.emit_blk, hp]; rfl)))
  | wantHook t c todo =>
    rw [hp] at e
    subst e
    exact whenGranted_endsIn h .interrupt
      (bind_ends h.ops (hr _ _) (fun _ => changeS_ends fun s => h.irqPos s _ (.inl rfl)) _)
  | haveHook t c todo x =>
    rw [hp] at e
    cases x <;> subst e
    · exact h.trans (h.event s _ fun _ => rfl) (h.irqPos _ _ (.inl rfl))
    · exact h.trans (h.feed s _ _ _) (h.irqPos _ _ (.inl rfl))

/-! ### The ringer agents -/

theorem Closed.logLfFail (h : Closed R Z) {s : State} {c : Chan} (ha : (s.chan c).ring.active = true) (a : Byte)
    (p : RingPos) : R s (s.logLfFail c a p) :=
  h.trans (h.event s _ fun _ => rfl) (h.ringPos _ c p (by simpa using ha))

/-- A linefeed unit of a ringer that is live. -/
theorem ringerUnit_endsIn (h : Closed R Z) {c : Chan} (req : LfState) (next : LfResult → RingPos) {s : State}
    (ha : (s.chan c).ring.active = true) :
    EndsIn A R Z s ((whenGranted (.ringer c) (do
      let res ← setLineFeed moment c req
      changeS (fun s' => s'.setRingPos c (next res)))).run s) := by
  refine whenGranted_endsIn h _ (bind_endsIn h.ops (ringerLineFeed_ends h.ops c req _) fun res u eu => ?_)
  have hu := (ringerLineFeed_ends (A := A) sameRings_closedOps c req).ok eu c
  exact h.ringPos u c (next res) (by rw [hu, State.setGrant_chan]; exact ha)

theorem ringerMove_ends (h : Closed R Z) (c : Chan) : Ends A R Z (ringerMove c) := by
  intro s
  suffices key : ∀ r : EStateM.Result Stop State Unit, (ringerMove c).run s = r → EndsIn A R Z s r from key _ rfl
  intro r e
  change ringerMove c s = r at e
  unfold ringerMove at e
  dsimp only at e
  split at e
  · next ha =>
    cases hp : (s.chan c).ring.pos with
    | ready => rw [hp] at e; subst e; exact h.phase s c ha
    | wantPhase req d => rw [hp] at e; subst e; exact ringerUnit_endsIn h req (.havePhase d) ha
    | havePhase d res =>
      rw [hp] at e
      cases res <;> subst e
      · exact h.wait s c _ ha
      · exact h.logLfFail ha _ _
    | waiting =>
      rw [hp] at e
      dsimp only at e
      split at e <;> subst e
      · exact h.phase s c ha
      · exact h.refl s
    | wantExit reason => rw [hp] at e; subst e; exact ringerUnit_endsIn h .idle (.haveExit reason) ha
    | haveExit reason res =>
      rw [hp] at e
      cases res <;> subst e
      · exact h.trans (h.event s _ fun _ => rfl) (h.ringPos _ c _ (by simpa using ha))
      · exact h.logLfFail ha _ _
    | ended => rw [hp] at e; subst e; exact h.stop s c
  · subst e
    exact h.refl s

/-! ### Moves and scheduling points -/

/-- Every move of another agent. -/
theorem move_ends (h : Closed R Z) (slot : Slot) : Ends A R Z (move slot) := by
  cases slot with
  | command => exact pure_ends h.ops ()
  | eventPort => exact eventMove_ends h
  | interrupt => exact irqMove_ends h
  | ringer c => exact ringerMove_ends h c
  | tick ms => exact changeS_ends fun s => h.now s _
  | reset => exact fun s => h.reset (h.refl s)

theorem movesUpToCommand_ends (h : Closed R Z) (l : List Slot) : Ends A R Z (movesUpToCommand l) := by
  induction l with
  | nil => exact fun s => h.sched s []
  | cons slot rest ih =>
    intro s
    rw [movesUpToCommand_cons]
    split
    · exact h.sched s rest
    · have h1 : EndsIn A R Z s ((move slot).run (s.setSched rest)) :=
        EndsIn.after h.ops (h.sched s rest) (move_ends h slot _)
      revert h1
      cases (move slot).run (s.setSched rest) with
      | ok a t => exact fun h1 => EndsIn.after h.ops h1 (ih t)
      | error e t => exact fun h1 => by cases e <;> exact h1

theorem point_ends (h : Closed R Z) : Ends A R Z point := fun s => movesUpToCommand_ends h s.env.sched s

theorem feedHook_keeps (s : State) (c : Chan) (lvl : Level) (t : Word) :
    (s.feedHook c lvl t).par = s.par ∧ (s.feedHook c lvl t).out.wire = s.out.wire ∧
    ∀ d, ((s.feedHook c lvl t).chan d).cad = (s.chan d).cad ∧ ((s.feedHook c lvl t).chan d).ring = (s.chan d).ring := by
  unfold State.feedHook
  split <;> simp

theorem tickHook_keeps (s : State) (c : Chan) (t : Word) :
    (s.tickHook c t).par = s.par ∧ (s.tickHook c t).out.wire = s.out.wire ∧
    ∀ d, ((s.tickHook c t).chan d).cad = (s.chan d).cad ∧ ((s.tickHook c t).chan d).ring = (s.chan d).ring := by
  unfold State.tickHook
  dsimp only
  split <;> simp

theorem takeEvent_keeps (s : State) (e : IrqEvent) (rest : List IrqEvent) :
    (s.takeEvent e rest).par = s.par ∧ (s.takeEvent e rest).out = s.out ∧ ∀ d, (s.takeEvent e rest).chan d = s.chan d := by
  unfold State.takeEvent
  split <;> simp

theorem startPhase_eq (s : State) (c : Chan) : ∃ idx pos,
    s.startPhase c = s.setRing c { (s.chan c).ring with idx := idx, pos := pos } := by
  unfold State.startPhase State.setRingPos
  dsimp only
  split
  · exact ⟨_, _, rfl⟩
  · split <;> exact ⟨_, _, rfl⟩

theorem requestCancel_eq (s : State) (c : Chan) : ∃ cancel,
    s.requestCancel c = s.setRing c { (s.chan c).ring with cancel := cancel } := by
  unfold State.requestCancel
  split
  · exact ⟨_, rfl⟩
  · exact ⟨(s.chan c).ring.cancel, by cases c <;> rfl⟩

theorem wireGrows_closed : Closed WireGrows (fun _ _ => True) where
  toClosedOps := wireGrows_closedOps
  resetFree _ := trivial
  grant _ _ := .of_same rfl rfl
  ramTx _ _ := .of_same rfl rfl
  sched _ _ := .of_same rfl rfl
  now _ _ := .of_same rfl rfl
  consume _ := .of_same rfl rfl
  event _ _ _ := .of_same rfl rfl
  queue _ _ _ _ := .of_same rfl rfl
  take s e rest _ := .of_same (takeEvent_keeps s e rest).1 (congrArg Output.wire (takeEvent_keeps s e rest).2.1)
  irqPos _ _ _ := .of_same rfl rfl
  flagsRead _ _ _ _ _ _ _ _ := .of_same rfl rfl
  feed s c lvl t := .of_same (feedHook_keeps s c lvl t).1 (feedHook_keeps s c lvl t).2.1
  cancel s c := by
    obtain ⟨x, e⟩ := requestCancel_eq s c
    rw [e]
    exact .of_same rfl rfl
  phase s c _ := by
    obtain ⟨x, y, e⟩ := startPhase_eq s c
    rw [e]
    exact .of_same rfl rfl
  ringPos _ _ _ _ := .of_same rfl rfl
  wait _ _ _ _ := .of_same rfl rfl
  stop _ _ := .of_same rfl rfl

/-- What others do at a scheduling point makes the wire grow. -/
theorem point_grows : Ends A WireGrows (fun _ _ => True) point := point_ends wireGrows_closed

/-- The cadences stay, and no ring begins. -/
def NoRingBegins (s t : State) : Prop :=
  ∀ d, (t.chan d).cad = (s.chan d).cad ∧ ((s.chan d).ring.active = false → (t.chan d).ring.active = false)

theorem NoRingBegins.of_same {s t : State} (h : ∀ d, (t.chan d).cad = (s.chan d).cad ∧ (t.chan d).ring = (s.chan d).ring) :
    NoRingBegins s t := fun d => ⟨(h d).1, fun ha => by rw [(h d).2]; exact ha⟩

theorem NoRingBegins.of_chan {s t : State} (h : ∀ d, t.chan d = s.chan d) : NoRingBegins s t :=
  .of_same fun d => by rw [h d]; exact ⟨rfl, rfl⟩

theorem NoRingBegins.of_ring {s : State} {c : Chan} {r : Ring} (h : (s.chan c).ring.active = false → r.active = false) :
    NoRingBegins s (s.setRing c r) := fun d => ⟨by simp, by
  by_cases hd : d = c
  · subst hd
    rw [State.chan_setRing_same]
    exact h
  · rw [State.chan_setRing_other _ _ hd]
    exact id⟩

theorem noRingBegins_closed : Closed NoRingBegins (fun _ _ => True) where
  refl _ := .of_chan fun _ => rfl
  trans h1 h2 d := ⟨(h2 d).1.trans (h1 d).1, fun ha => (h2 d).2 ((h1 d).2 ha)⟩
  reset _ := trivial
  transReset _ _ := trivial
  answer s := .of_chan fun d => by
    have h := (takeAnswer_keeps s).2.1
    cases d <;> simp [State.chan, h]
  wire s w := .of_chan fun d => by simp
  resets s l := .of_chan fun d => by simp
  lf {s t} c req a h _ d := ⟨by rw [State.chan_setLf_cad]; exact (h d).1, by rw [State.chan_setLf_ring]; exact (h d).2⟩
  resetFree _ := trivial
  grant s g := .of_chan fun d => by simp
  ramTx s x := .of_chan fun d => by simp
  sched s l := .of_chan fun d => by simp
  now s t := .of_chan fun d => by simp
  consume s := .of_chan fun d => by simp
  event s e _ := .of_chan fun d => by simp
  queue s payload t _ := .of_chan fun d => by simp [State.queueEvent]
  take s e rest _ := .of_chan (takeEvent_keeps s e rest).2.2
  irqPos s p _ := .of_chan fun d => by simp
  flagsRead s _ _ _ _ _ _ _ := .of_chan fun d => by simp
  feed s c lvl t := .of_same (feedHook_keeps s c lvl t).2.2
  cancel s c := by
    obtain ⟨x, e⟩ := requestCancel_eq s c
    rw [e]
    exact .of_ring id
  phase s c _ := by
    obtain ⟨x, y, e⟩ := startPhase_eq s c
    rw [e]
    exact .of_ring id
  ringPos s c p _ := .of_ring id
  wait s c d _ := .of_ring id
  stop s c := .of_ring fun _ => rfl

theorem atomicUnit_ends (h : Closed R Z) {x : Run α} (hx : Ends A R Z x) : Ends A R Z (atomicUnit x) :=
  bind_ends h.ops (point_ends h) fun _ => bind_ends h.ops (holding_ends h .command hx) fun a =>
    bind_ends h.ops (point_ends h) fun _ => pure_ends h.ops a

theorem cmdRead_ends (h : Closed R Z) (hA : .commError ∈ A) (c : Chan) (a : Byte) : Ends A R Z (cmdRead c a) :=
  bind_ends h.ops (point_ends h) fun _ => bind_ends h.ops (readOp_ends h.ops c a) fun r => by
    cases r
    · exact raise_ends h.ops hA _
    · exact pure_ends h.ops _

theorem cmdWrite_ends (h : Closed R Z) (hA : .commError ∈ A) (c : Chan) (a v : Byte) : Ends A R Z (cmdWrite c a v) :=
  bind_ends h.ops (point_ends h) fun _ => bind_ends h.ops (writeOp_ends h.ops c a v) fun _ =>
    ite_ends (pure_ends h.ops _) (raise_ends h.ops hA _)

theorem delay_ends (h : Closed R Z) (ms : Half) : Ends A R Z (delay ms) :=
  bind_ends h.ops (readS_ends h.ops _) fun _ => bind_ends h.ops (point_ends h) fun _ => changeS_ends fun s => by
    unfold State.passUntil
    split
    · exact h.now s _
    · exact h.refl s

theorem activeChannel_ends (h : Closed R Z) (hA : .badChannel ∈ A) (ch : BitVec 4) : Ends A R Z (activeChannel ch) := by
  intro s
  rw [run_activeChannel]
  cases activeChan s.blk.n ch with
  | none => exact ⟨hA, h.refl s⟩
  | some c => exact h.refl s

/-! ### The host commands -/

theorem waitReady_ends (h : Closed R Z) (hA : .commError ∈ A) (hT : .timeout ∈ A) (c : Chan) :
    Ends A R Z (waitReady c) := by
  have key : ∀ a pause k, Ends A R Z (pollReady c a pause k) := by
    intro a pause k
    induction k with
    | zero => exact raise_ends h.ops hT _
    | succ k ih =>
      refine bind_ends h.ops (cmdRead_ends h hA c a) fun s => ite_ends (ite_ends ih ?_) (pure_ends h.ops _)
      exact bind_ends h.ops (delay_ends h pause) fun _ => ih
  exact bind_ends h.ops (readS_ends h.ops _) fun _ => bind_ends h.ops (readS_ends h.ops _) fun _ =>
    bind_ends h.ops (readS_ends h.ops _) fun _ => key _ _ _

theorem regRead_ends (h : Closed R Z) (hA : .commError ∈ A) (hB : .badChannel ∈ A) (ch : BitVec 4) (a : Byte) :
    Ends A R Z (regRead ch a) :=
  bind_ends h.ops (activeChannel_ends h hB ch) fun c =>
    bind_ends h.ops (atomicUnit_ends h (cmdRead_ends h hA c a)) fun _ =>
    pure_ends h.ops _

theorem regWrite_ends (h : Closed R Z) (hA : .commError ∈ A) (hB : .badChannel ∈ A) (ch : BitVec 4) (a v : Byte) :
    Ends A R Z (regWrite ch a v) :=
  bind_ends h.ops (activeChannel_ends h hB ch) fun c =>
    bind_ends h.ops (atomicUnit_ends h (cmdWrite_ends h hA c a v)) fun _ =>
    pure_ends h.ops _

theorem ramWrite_ends (h : Closed R Z) (hA : .commError ∈ A) (hT : .timeout ∈ A) (hB : .badChannel ∈ A) (ch : BitVec 4)
    (addr : BitVec 12) (v : Word) : Ends A R Z (ramWrite ch addr v) :=
  bind_ends h.ops (activeChannel_ends h hB ch) fun c => bind_ends h.ops (readS_ends h.ops _) fun _ =>
    bind_ends h.ops (atomicUnit_ends h (bind_ends h.ops (changeS_ends fun s => h.ramTx s _) fun _ =>
      bind_ends h.ops (waitReady_ends h hA hT c) fun _ => bind_ends h.ops (cmdWrite_ends h hA c _ _) fun _ =>
      bind_ends h.ops (cmdWrite_ends h hA c _ _) fun _ => bind_ends h.ops (cmdWrite_ends h hA c _ _) fun _ =>
      bind_ends h.ops (cmdWrite_ends h hA c _ _) fun _ => bind_ends h.ops (cmdWrite_ends h hA c _ _) fun _ =>
      bind_ends h.ops (cmdWrite_ends h hA c _ _) fun _ => waitReady_ends h hA hT c)) fun _ => pure_ends h.ops _

theorem ramRead_ends (h : Closed R Z) (hA : .commError ∈ A) (hT : .timeout ∈ A) (hB : .badChannel ∈ A) (ch : BitVec 4)
    (addr : BitVec 12) : Ends A R Z (ramRead ch addr) :=
  bind_ends h.ops (activeChannel_ends h hB ch) fun c => bind_ends h.ops (readS_ends h.ops _) fun _ =>
    atomicUnit_ends h (bind_ends h.ops (changeS_ends fun s => h.ramTx s _) fun _ =>
      bind_ends h.ops (waitReady_ends h hA hT c) fun _ => bind_ends h.ops (cmdWrite_ends h hA c _ _) fun _ =>
      bind_ends h.ops (cmdWrite_ends h hA c _ _) fun _ => bind_ends h.ops (waitReady_ends h hA hT c) fun _ =>
      bind_ends h.ops (cmdRead_ends h hA c _) fun _ => bind_ends h.ops (cmdRead_ends h hA c _) fun _ =>
      bind_ends h.ops (cmdRead_ends h hA c _) fun _ => bind_ends h.ops (cmdRead_ends h hA c _) fun _ =>
      pure_ends h.ops _)

theorem calibrate_ends (h : Closed R Z) (hA : .commError ∈ A) (hT : .timeout ∈ A) (hI : .invalidCal ∈ A) (len : Byte)
    (seeds : Word) : Ends A R Z (calibrate len seeds) := by
  have hw : ∀ c base l, Ends A R Z (writeSeeds c base seeds l) := by
    intro c base l
    induction l with
    | nil => exact pure_ends h.ops _
    | cons i rest ih => exact bind_ends h.ops (atomicUnit_ends h (cmdWrite_ends h hA c _ _)) fun _ => ih
  have hws : ∀ base l, Ends A R Z (writeAllSeeds base seeds l) := by
    intro base l
    induction l with
    | nil => exact pure_ends h.ops _
    | cons c rest ih => exact bind_ends h.ops (hw c base _) fun _ => ih
  have hs : ∀ a l b, Ends A R Z (scanCal a l b) := by
    intro a l
    induction l with
    | nil => exact fun b => pure_ends h.ops _
    | cons c rest ih => exact fun b => bind_ends h.ops (atomicUnit_ends h (cmdRead_ends h hA c a)) fun _ => ih _
  have hp : ∀ a pause l k b, Ends A R Z (pollCal a pause l k b) := by
    intro a pause l k
    induction k with
    | zero => exact fun b => raise_ends h.ops hT _
    | succ k ih =>
      refine fun b => bind_ends h.ops (hs a l none) fun x => ?_
      cases x with
      | none => exact pure_ends h.ops _
      | some c => exact ite_ends (ih _) (bind_ends h.ops (delay_ends h pause) fun _ => ih _)
  exact bind_ends h.ops (require_ends h.ops hI _) fun _ => bind_ends h.ops (readS_ends h.ops _) fun _ =>
    bind_ends h.ops (readS_ends h.ops _) fun _ => bind_ends h.ops (hws _ _) fun _ =>
    bind_ends h.ops (readS_ends h.ops _) fun _ =>
    bind_ends h.ops (readS_ends h.ops _) fun _ => bind_ends h.ops (hp _ _ _ _ _) fun _ => pure_ends h.ops _

theorem irqChannels_ends (h : Closed R Z) (hA : .commError ∈ A) : Ends A R Z irqChannels :=
  bind_ends h.ops (readS_ends h.ops _) fun _ => bind_ends h.ops (atomicUnit_ends h (cmdRead_ends h hA _ _)) fun _ =>
    pure_ends h.ops _

theorem requestLf_ends (h : Closed R Z) (hA : .commError ∈ A) (hB : .badChannel ∈ A) (ch : BitVec 4) (req : LfState) :
    Ends A R Z (requestLf ch req) :=
  bind_ends h.ops (activeChannel_ends h hB ch) fun c =>
    bind_ends h.ops (atomicUnit_ends h (setLineFeed_ends h.ops (point_ends h) point_grows c req)) fun r => by
      cases r
      · exact pure_ends h.ops _
      · exact raise_ends h.ops hA _

theorem getHook_ends (h : Closed R Z) (hA : .commError ∈ A) (hB : .badChannel ∈ A) (ch : BitVec 4) :
    Ends A R Z (getHook ch) :=
  bind_ends h.ops (activeChannel_ends h hB ch) fun c => bind_ends h.ops (readS_ends h.ops _) fun _ =>
    bind_ends h.ops (atomicUnit_ends h (cmdRead_ends h hA c _)) fun _ => pure_ends h.ops _

/-- RING_BEGIN, where R is also closed under the beginning of a ring with a valid cadence on a channel that is not ringing. -/
theorem ringBegin_ends (h : Closed R Z)
    (hb : ∀ s c, (s.chan c).cad.valid = true → (s.chan c).ring.active = false → R s (s.beginRing c))
    (hA : .commError ∈ A) (hB : .badChannel ∈ A) (hP : .badPattern ∈ A) (hU : .ringUnhook ∈ A) (ch : BitVec 4) :
    Ends A R Z (ringBegin ch) := by
  refine bind_ends h.ops (activeChannel_ends h hB ch) fun c s => ?_
  refine bind_endsIn h.ops (h.refl s) fun active t e => ?_
  cases e
  cases ha : (s.chan c).ring.active
  · simp only [ha, Bool.false_eq_true, if_false]
    refine bind_endsIn h.ops (readS_ends h.ops _ s) fun valid t e => ?_
    cases e
    refine bind_endsIn h.ops (require_ends h.ops hP _ s) fun _ t e => ?_
    obtain ⟨hv, rfl⟩ := require_ok e
    refine bind_endsIn h.ops (readS_ends h.ops _ t) fun a u e => ?_
    cases e
    refine bind_endsIn h.ops (atomicUnit_ends h (cmdRead_ends h hA c _) t) fun r u e => ?_
    have hu := (atomicUnit_ends (A := A) noRingBegins_closed (cmdRead_ends noRingBegins_closed hA c _)).ok e c
    refine bind_endsIn h.ops (require_ends h.ops hU _ u) fun _ w e => ?_
    obtain ⟨-, rfl⟩ := require_ok e
    exact hb w c (by rw [hu.1]; exact hv) (hu.2 ha)
  · simp only [ha, if_true]
    exact h.refl s

theorem ringCancel_ends (h : Closed R Z) (hB : .badChannel ∈ A) (ch : BitVec 4) : Ends A R Z (ringCancel ch) :=
  bind_ends h.ops (activeChannel_ends h hB ch) fun c => bind_ends h.ops (changeS_ends fun s => h.cancel s c) fun _ =>
    pure_ends h.ops _

theorem ringCancelAll_ends (h : Closed R Z) : Ends A R Z ringCancelAll :=
  bind_ends h.ops (changeS_ends fun s => h.cancel s .zero) fun _ => bind_ends h.ops (point_ends h) fun _ =>
    bind_ends h.ops (changeS_ends fun s => h.cancel s .one) fun _ => pure_ends h.ops _

theorem hookSampleCmd_ends (h : Closed R Z) (hB : .badChannel ∈ A) (ch : BitVec 4) (lvl : Level) (t : Word) :
    Ends A R Z (hookSampleCmd ch lvl t) :=
  bind_ends h.ops (activeChannel_ends h hB ch) fun c => bind_ends h.ops (changeS_ends fun s =>
  h.feed s c lvl t) fun _ =>
    pure_ends h.ops _

/-- HOOK_TICK, where R is also closed under ticks of its channel. -/
theorem hookTickCmd_ends (h : Closed R Z) {ch : BitVec 4} {t : Word}
    (ht : ∀ s c, activeChan s.blk.n ch = some c → R s (s.tickHook c t)) (hB : .badChannel ∈ A) :
    Ends A R Z (hookTickCmd ch t) := by
  refine fun s => bind_endsIn h.ops (activeChannel_ends h hB ch s) fun c u e => ?_
  rw [run_activeChannel] at e
  cases hc : activeChan s.blk.n ch with
  | none => rw [hc] at e; cases e
  | some d =>
    rw [hc] at e
    cases e
    exact ht s c hc

theorem decodeField_ends (h : Closed R Z) (hI : .illegalCmd ∈ A) (hB : .badChannel ∈ A) (ch : BitVec 4)
    (idx : BitVec 12) : Ends A R Z (decodeField ch idx) := by
  unfold decodeField cfgDecode
  split
  · exact pure_ends h.ops _
  · next heq =>
    refine raise_ends h.ops ?_ _
    split at heq
    · split at heq <;> cases heq
      exact hI
    · split at heq
      · split at heq <;> cases heq
        exact hB
      · cases heq
        exact hI

/-- CFG_WR, where R is also closed under configuration writes that are not refused. -/
theorem cfgWrite_ends (h : Closed R Z) (hw : ∀ s v f, s.fieldBusy f = false → R s (s.writeField v f))
    (hI : .illegalCmd ∈ A) (hB : .badChannel ∈ A) (hY : .busy ∈ A) (ch : BitVec 4) (idx : BitVec 12) (v : Word) :
    Ends A R Z (cfgWrite ch idx v) := by
  refine bind_ends h.ops (decodeField_ends h hI hB ch idx) fun f s => ?_
  refine bind_endsIn h.ops (h.refl s) fun busy t e => ?_
  cases e
  refine bind_endsIn h.ops (require_ends h.ops hY _ s) fun _ t e => ?_
  obtain ⟨hf, rfl⟩ := require_ok e
  exact hw t v f (by simpa using hf)

theorem cfgRead_ends (h : Closed R Z) (hI : .illegalCmd ∈ A) (hB : .badChannel ∈ A) (ch : BitVec 4) (idx : BitVec 12) :
    Ends A R Z (cfgRead ch idx) :=
  bind_ends h.ops (decodeField_ends h hI hB ch idx) fun _ => readS_ends h.ops _

/-- INIT, where R is also closed under changes of N and the start of a detector. -/
theorem initCmd_ends (h : Closed R Z) (hn : ∀ s n, R s (s.setN n)) (hs : ∀ s c r, R s (s.initHook c r))
    (hI : .initError ∈ A) (hY : .busy ∈ A) :
    Ends A R Z initCmd := by
  have hr : ∀ c a, Ends A R Z (initRead c a) := fun c a =>
    bind_ends h.ops (point_ends h) fun _ => bind_ends h.ops (readOp_ends h.ops c a) fun r => by
      cases r
      · exact raise_ends h.ops hI _
      · exact pure_ends h.ops _
  have hp : ∀ a l k, Ends A R Z (probe a l k) := by
    intro a l
    induction l with
    | nil => exact fun k => pure_ends h.ops _
    | cons c rest ih => exact fun k => bind_ends h.ops (hr c a) fun _ => ite_ends (pure_ends h.ops _) (ih _)
  have hh : ∀ a l, Ends A R Z (initHooks a l) := by
    intro a l
    induction l with
    | nil => exact pure_ends h.ops _
    | cons c rest ih =>
      exact bind_ends h.ops (hr c a) fun _ => bind_ends h.ops (changeS_ends fun s => hs s c _) fun _ => ih
  exact bind_ends h.ops (readS_ends h.ops _) fun _ => bind_ends h.ops (require_ends h.ops hY _) fun _ =>
    bind_ends h.ops (atomicUnit_ends h (bind_ends h.ops (changeS_ends fun s => hn s 0) fun _ =>
      bind_ends h.ops (readS_ends h.ops _) fun _ => bind_ends h.ops (hp _ _ _) fun _ =>
      bind_ends h.ops (require_ends h.ops hI _) fun _ =>
      bind_ends h.ops (hh _ _) fun _ => bind_ends h.ops (point_ends h) fun _ =>
      bind_ends h.ops (changeS_ends fun s => hn s _) fun _ =>
      pure_ends h.ops _)) fun _ =>
    pure_ends h.ops _

theorem getNch_ends (h : Closed R Z) : Ends A R Z getNch := readS_ends h.ops _

/-! ### All host commands -/

/-- The sequence of a command that answers on the host port. -/
def hostBody : Instr → Run Word
  | .regRd ch a => regRead ch a
  | .regWr ch a v => regWrite ch a v
  | .ramRd ch addr => ramRead ch addr
  | .ramWr ch addr v => ramWrite ch addr v
  | .cal len seeds => calibrate len seeds
  | .irqEv _ => pure 0
  | .irqEvp _ _ => pure 0
  | .irqChannels => irqChannels
  | .irqEnable en => irqEnable en
  | .setLf ch req => requestLf ch req
  | .startRing ch => requestLf ch .ringing
  | .stopRing ch => requestLf ch .idle
  | .getHook ch => getHook ch
  | .setLoopback _ _ => pure 0
  | .ringBegin ch => ringBegin ch
  | .ringCancel ch => ringCancel ch
  | .ringCancelAll => ringCancelAll
  | .ringSelftest => pure 0
  | .hookSample ch lvl t => hookSampleCmd ch lvl t
  | .hookTick ch t => hookTickCmd ch t
  | .cfgWr ch idx v => cfgWrite ch idx v
  | .cfgRd ch idx => cfgRead ch idx
  | .init => initCmd
  | .getNch => getNch

/-- Every command that answers on the host port runs its sequence. -/
theorem exec_hostBody {i : Instr} (h : answersOnHostPort i = true) (s : State) : exec i s = command i (hostBody i) s := by
  cases i <;> first | rfl | cases h

/-- How every command that answers on the host port ends: normally, by raising a status of its row of the status table, or
by a reset. R need be closed under the changes of CFG_WR, IRQ_ENABLE, INIT, RING_BEGIN and HOOK_TICK for these commands only. -/
theorem hostBody_ends (h : Closed R Z) {i : Instr} (ha : answersOnHostPort i = true)
    (hw : ∀ ch idx v, i = .cfgWr ch idx v → ∀ s v f, s.fieldBusy f = false → R s (s.writeField v f))
    (he : ∀ en, i = .irqEnable en → ∀ s, R s { s with blk := { s.blk with irqEn := en } })
    (hn : i = .init → ∀ s n, R s (s.setN n)) (hs : i = .init → ∀ s c r, R s (s.initHook c r))
    (ht : ∀ ch t, i = .hookTick ch t → ∀ s c, activeChan s.blk.n ch = some c → R s (s.tickHook c t))
    (hb : ∀ ch, i = .ringBegin ch → ∀ s c, (s.chan c).cad.valid = true → (s.chan c).ring.active = false →
      R s (s.beginRing c)) :
    Ends (allowedStatuses i) R Z (hostBody i) := by
  cases i with
  | regRd ch a => exact regRead_ends h (by simp [allowedStatuses]) (by simp [allowedStatuses]) ch a
  | regWr ch a v => exact regWrite_ends h (by simp [allowedStatuses]) (by simp [allowedStatuses]) ch a v
  | ramRd ch addr =>
    exact ramRead_ends h (by simp [allowedStatuses]) (by simp [allowedStatuses]) (by simp [allowedStatuses]) ch addr
  | ramWr ch addr v =>
    exact ramWrite_ends h (by simp [allowedStatuses]) (by simp [allowedStatuses]) (by simp [allowedStatuses]) ch addr v
  | cal len seeds =>
    exact calibrate_ends h (by simp [allowedStatuses]) (by simp [allowedStatuses]) (by simp [allowedStatuses]) len seeds
  | irqEv t => cases ha
  | irqEvp status t => cases ha
  | irqChannels => exact irqChannels_ends h (by simp [allowedStatuses])
  | irqEnable en => exact bind_ends h.ops (changeS_ends (he en rfl)) fun _ => pure_ends h.ops _
  | setLf ch req => exact requestLf_ends h (by simp [allowedStatuses]) (by simp [allowedStatuses]) ch req
  | startRing ch => exact requestLf_ends h (by simp [allowedStatuses]) (by simp [allowedStatuses]) ch _
  | stopRing ch => exact requestLf_ends h (by simp [allowedStatuses]) (by simp [allowedStatuses]) ch _
  | getHook ch => exact getHook_ends h (by simp [allowedStatuses]) (by simp [allowedStatuses]) ch
  | setLoopback ch mode => cases ha
  | ringBegin ch =>
    exact ringBegin_ends h (hb ch rfl) (by simp [allowedStatuses]) (by simp [allowedStatuses]) (by simp [allowedStatuses])
      (by simp [allowedStatuses]) ch
  | ringCancel ch => exact ringCancel_ends h (by simp [allowedStatuses]) ch
  | ringCancelAll => exact ringCancelAll_ends h
  | ringSelftest => cases ha
  | hookSample ch lvl t => exact hookSampleCmd_ends h (by simp [allowedStatuses]) ch lvl t
  | hookTick ch t => exact hookTickCmd_ends h (ht ch t rfl) (by simp [allowedStatuses])
  | cfgWr ch idx v =>
    exact cfgWrite_ends h (hw ch idx v rfl) (by simp [allowedStatuses]) (by simp [allowedStatuses])
      (by simp [allowedStatuses]) ch idx v
  | cfgRd ch idx => exact cfgRead_ends h (by simp [allowedStatuses]) (by simp [allowedStatuses]) ch idx
  | init => exact initCmd_ends h (hn rfl) (hs rfl) (by simp [allowedStatuses]) (by simp [allowedStatuses])
  | getNch => exact getNch_ends h

/-! ### Whole steps -/

/-- R is closed under what the ports and the turns change as well. -/
structure ClosedPorts (R Z : State → State → Prop) : Prop extends Closed R Z where
  turn : ∀ s k, R s (s.setTurn k)
  request : ∀ s, R s s.takeRequest
  begin : ∀ s i, R s (s.setCmd i)
  finish : ∀ s, R s s.endCommand
  present : ∀ s r, R s (s.present r)

/-- R is closed under every change a step makes. -/
structure ClosedStep (R Z : State → State → Prop) : Prop extends ClosedPorts R Z where
  config : ∀ s v f, s.fieldBusy f = false → R s (s.writeField v f)
  enable : ∀ s en, R s { s with blk := { s.blk with irqEn := en } }
  channels : ∀ s n, R s (s.setN n)
  start : ∀ s c r, R s (s.initHook c r)
  tick : ∀ s c t, R s (s.tickHook c t)
  ring : ∀ s c, (s.chan c).cad.valid = true → (s.chan c).ring.active = false → R s (s.beginRing c)

/-- What a sequence leaves, however it ends. -/
theorem EndsIn.settle {s : State} {r : EStateM.Result Stop State α} (h : EndsIn A R Z s r) :
    R s (settle r) ∨ Z s (settle r) := by
  cases r with
  | ok a t => exact .inl h
  | error e t =>
    cases e with
    | raised st info => exact .inl h.2
    | reset => exact .inr h

/-- What follows a change. -/
theorem ClosedOps.then (h : ClosedOps R Z) {s t u : State} (h1 : R s t) (h2 : R t u ∨ Z t u) : R s u ∨ Z s u :=
  h2.imp (h.trans h1) (h.transReset h1)

theorem ClosedPorts.respond (h : ClosedPorts R Z) (s : State) (r : Response) :
    R s (s.respond r) ∨ Z s (s.respond r) := by
  obtain ⟨l, e⟩ | ⟨l, e⟩ := respond_cases s r <;> rw [e]
  · exact .inl (h.trans (h.resets s l) (h.present _ r))
  · exact .inr (h.reset (h.resets s l))

/-- What a command leaves. -/
theorem ClosedPorts.command (h : ClosedPorts R Z) {i : Instr} {body : Run Word} (hb : Ends A R Z body) {s t : State}
    (e : command i body s = .next t) : R s t ∨ Z s t := by
  obtain ⟨l, e'⟩ | ⟨l, e'⟩ := command_cases i body s <;> rw [e'] at e <;> cases e
  · refine h.ops.then (h.trans (h.begin s (some i)) (h.resets _ l)) ?_
    have hx := hb ((s.setCmd (some i)).setResets l)
    revert hx
    cases body.run ((s.setCmd (some i)).setResets l) with
    | ok v u => exact fun hx => h.ops.then hx (h.ops.then (h.finish u) (h.respond _ _))
    | error e u =>
      cases e with
      | raised st info => exact fun hx => h.ops.then hx.2 (h.ops.then (h.finish u) (h.respond _ _))
      | reset => exact .inr
  · exact .inr (h.reset (h.resets s l))

/-- What any instruction leaves. -/
theorem ClosedStep.exec (h : ClosedStep R Z) {i : Instr} {s t : State} (e : exec i s = .next t) : R s t ∨ Z s t := by
  cases ha : answersOnHostPort i
  · cases i <;> cases ha <;> cases e
    · exact (gateEvent_ends (A := []) h.toClosed none _ s).settle
    · exact (gateEvent_ends (A := []) h.toClosed (some _) _ s).settle
  · rw [exec_hostBody ha] at e
    exact h.command (hostBody_ends h.toClosed ha (fun _ _ _ _ => h.config) (fun en _ s => h.enable s en)
      (fun _ => h.channels) (fun _ => h.start) (fun _ t _ s c _ => h.tick s c t) (fun _ _ => h.ring)) e

/-- A relation closed under what the others, the ports and the turns change, and under the instruction that the step runs and
those of the event port, holds across the step, or a reset happened in it. -/
theorem ClosedPorts.step (h : ClosedPorts R Z) {s t : State}
    (hexec : ∀ {i u t}, s.runs i ∨ i.port = .interrupt → exec i u = .next t → R u t ∨ Z u t)
    (e : step s = .next t) : R s t ∨ Z s t := by
  have move (slot : Slot) (u : State) := (move_ends (A := []) h.toClosed slot u).settle
  have reject (u : State) := (discardEvent_ends (A := []) h.toClosed .irqPortIllegal u).settle
  have turn : ∀ u : State, u.blk.cmd = s.blk.cmd → u.env.hostQ = s.env.hostQ → slotTurn s.nextSlot u = .next t →
      R u t ∨ Z u t := by
    intro u hc hq e
    cases hs : s.nextSlot with
    | command =>
      simp only [hs, slotTurn, hostTurn] at e
      split at e
      · next hi =>
        split at e
        · cases e; exact .inl (h.refl _)
        · next r rest hr =>
          refine h.ops.then (h.request u) ?_
          unfold runRequest at e
          split at e
          · next i hd =>
            split at e
            · exact hexec (.inl ⟨hs, hc ▸ hi, r, rest, hq ▸ hr, hd⟩) e
            · cases e; exact h.respond _ _
          · cases e; exact h.respond _ _
      · cases e; exact .inl (h.refl _)
    | eventPort =>
      simp only [hs, slotTurn, eventTurn] at e
      split at e
      · cases e; exact .inl (h.refl _)
      · split at e
        · split at e
          · next hp => exact hexec (.inr hp) e
          · cases e; exact reject u
        · cases e; exact reject u
    | interrupt => rw [hs] at e; cases e; exact move .interrupt u
    | ringer c => rw [hs] at e; cases e; exact move (.ringer c) u
    | tick ms => rw [hs] at e; cases e; exact move (.tick ms) u
    | reset => rw [hs] at e; cases e; exact move .reset u
  unfold Machine.step at e
  unfold State.nextSlot at turn
  split at e
  · next hs =>
    rw [hs] at turn
    exact h.ops.then (h.turn s _) (turn s.passTurn rfl rfl e)
  · next slot rest hs =>
    rw [hs] at turn
    exact h.ops.then (h.sched s _) (turn (s.setSched rest) rfl rfl e)

/-- A relation closed under every change holds across every step, or a reset happened in it. -/
theorem ClosedStep.step (h : ClosedStep R Z) {s t : State} (e : step s = .next t) : R s t ∨ Z s t :=
  h.toClosedPorts.step (fun _ => h.exec) e

end

end Sys2Proof.Machine
end

