-- ==== Sys2Proof/Laws/PerInstr.lean ====
section
/-! SUPPORT. The family WordShape: the command word of every instruction matches a row of the opcode table for the port that
accepts the instruction (R107, R108). -/

namespace Sys2Proof.Laws.WordShape

/-- The encoded command word is a well-formed word of the instruction's port. -/
def Statement (i : Instr) : Prop := wellFormedWord i.port (encode i).1 = true

/-- A row whose mask is written field by field. -/
theorem of_fields {p : Port} {op : Byte} {ch : BitVec 4} {a : BitVec 12} {i : Byte} (mc : BitVec 4) (ma : BitVec 12)
    (mi : Byte) (hr : (⟨p, cmdWord op 0 0 0, cmdWord 0xFF mc ma mi⟩ : TableRow) ∈ opcodeTable)
    (hc : ch &&& mc = 0) (ha : a &&& ma = 0) (hi : i &&& mi = 0) : wellFormedWord p (cmdWord op ch a i) = true := by
  refine wellFormedWord_of_row _ _ hr ?_
  rw [cmdWord_and, hc, ha, hi]
  congr 1
  ext k hk
  interval_cases k <;> simp

theorem a8_high : ∀ a : Byte, a8AsA12 a &&& 0xF00#12 = 0 := by decide

theorem regRd (ch : BitVec 4) (a : Byte) : Statement (.regRd ch a) :=
  of_fields (p := .host) 0 0xF00 0xFF (by decide) (by simp) (a8_high a) (by simp)

theorem regWr (ch : BitVec 4) (a v : Byte) : Statement (.regWr ch a v) :=
  of_fields (p := .host) 0 0xF00 0 (by decide) (by simp) (a8_high a) (by simp)

theorem ramRd (ch : BitVec 4) (addr : BitVec 12) : Statement (.ramRd ch addr) :=
  of_fields (p := .host) 0 0 0xFF (by decide) (by simp) (by simp) (by simp)

theorem ramWr (ch : BitVec 4) (addr : BitVec 12) (v : Word) : Statement (.ramWr ch addr v) :=
  of_fields (p := .host) 0 0 0xFF (by decide) (by simp) (by simp) (by simp)

theorem cal (len : Byte) (seeds : Word) : Statement (.cal len seeds) :=
  of_fields (p := .host) 0xF 0xFFF 0 (by decide) (by simp) (by simp) (by simp)

theorem irqEv (t : Word) : Statement (.irqEv t) := by
  show wellFormedWord .interrupt (cmdWord 0x20 0 0 0) = true
  decide

theorem irqEvp (status : Byte) (t : Word) : Statement (.irqEvp status t) :=
  of_fields (p := .interrupt) 0xF 0xFFF 0 (by decide) (by simp) (by simp) (by simp)

theorem irqChannels : Statement .irqChannels := by unfold Statement; decide

theorem irqEnable (en : Bool) : Statement (.irqEnable en) := by cases en <;> unfold Statement <;> decide

theorem setLf (ch : BitVec 4) (req : LfState) : Statement (.setLf ch req) :=
  of_fields (p := .host) 0 0xFFF 0xFC (by decide) (by simp) (by simp) (by cases req <;> decide)

theorem startRing (ch : BitVec 4) : Statement (.startRing ch) :=
  of_fields (p := .host) 0 0xFFF 0xFF (by decide) (by simp) (by simp) (by simp)

theorem stopRing (ch : BitVec 4) : Statement (.stopRing ch) :=
  of_fields (p := .host) 0 0xFFF 0xFF (by decide) (by simp) (by simp) (by simp)

theorem getHook (ch : BitVec 4) : Statement (.getHook ch) :=
  of_fields (p := .host) 0 0xFFF 0xFF (by decide) (by simp) (by simp) (by simp)

theorem setLoopback (ch : BitVec 4) (mode : Byte) : Statement (.setLoopback ch mode) :=
  of_fields (p := .host) 0 0xFFF 0 (by decide) (by simp) (by simp) (by simp)

theorem ringBegin (ch : BitVec 4) : Statement (.ringBegin ch) :=
  of_fields (p := .host) 0 0xFFF 0xFF (by decide) (by simp) (by simp) (by simp)

theorem ringCancel (ch : BitVec 4) : Statement (.ringCancel ch) :=
  of_fields (p := .host) 0 0xFFF 0xFF (by decide) (by simp) (by simp) (by simp)

theorem ringCancelAll : Statement .ringCancelAll := by unfold Statement; decide

theorem ringSelftest : Statement .ringSelftest := by unfold Statement; decide

theorem hookSample (ch : BitVec 4) (lvl : Level) (t : Word) : Statement (.hookSample ch lvl t) :=
  of_fields (p := .host) 0 0xFFF 0xFE (by decide) (by simp) (by simp) (by cases lvl <;> decide)

theorem hookTick (ch : BitVec 4) (t : Word) : Statement (.hookTick ch t) :=
  of_fields (p := .host) 0 0xFFF 0xFF (by decide) (by simp) (by simp) (by simp)

theorem cfgWr (ch : BitVec 4) (idx : BitVec 12) (v : Word) : Statement (.cfgWr ch idx v) :=
  of_fields (p := .host) 0 0 0xFF (by decide) (by simp) (by simp) (by simp)

theorem cfgRd (ch : BitVec 4) (idx : BitVec 12) : Statement (.cfgRd ch idx) :=
  of_fields (p := .host) 0 0 0xFF (by decide) (by simp) (by simp) (by simp)

theorem init : Statement .init := by unfold Statement; decide

theorem getNch : Statement .getNch := by unfold Statement; decide

end Sys2Proof.Laws.WordShape
end

