-- ==== Sys2Proof/Tests/Slice0.lean ====
section
/-! SUPPORT. Tests: command words and results of spec/95_test_vectors.md under its example instantiation E, and for every
statement with hypotheses a concrete state and operands that meet them. -/

namespace Sys2Proof.Tests

open Sys2Proof.Machine

/-! ### Encoding: words written out from R105 to R107, one for every constructor -/

theorem test_word_regRd : decode 0x01101E00 0 = .ok (.regRd 1 0x1E) := by decide
theorem test_word_regWr : decode 0x02005004 0 = .ok (.regWr 0 0x50 0x04) := by decide
theorem test_word_ramRd : decode 0x03112300 0 = .ok (.ramRd 1 0x123) := by decide
theorem test_word_ramWr : decode 0x04192300 0xFFFFFFFF = .ok (.ramWr 1 0x923 0xFFFFFFFF) := by decide
theorem test_word_cal : decode 0x10000004 0x44332211 = .ok (.cal 4 0x44332211) := by decide
theorem test_word_irqEv : decode 0x20000000 5000 = .ok (.irqEv 5000) := by decide
theorem test_word_irqEvp : decode 0x21000001 0x29CC = .ok (.irqEvp 1 10700) := by decide
theorem test_word_irqChannels : decode 0x22000000 0 = .ok .irqChannels := by decide
theorem test_word_irqEnable : decode 0x23000001 0 = .ok (.irqEnable true) := by decide
theorem test_word_setLf : decode 0x30100001 0 = .ok (.setLf 1 .idle) := by decide
theorem test_word_startRing : decode 0x31000000 0 = .ok (.startRing 0) := by decide
theorem test_word_stopRing : decode 0x32100000 0 = .ok (.stopRing 1) := by decide
theorem test_word_getHook : decode 0x33000000 0 = .ok (.getHook 0) := by decide
theorem test_word_setLoopback : decode 0x34100003 0 = .ok (.setLoopback 1 3) := by decide
theorem test_word_ringBegin : decode 0x40000000 0 = .ok (.ringBegin 0) := by decide
theorem test_word_ringCancel : decode 0x41100000 0 = .ok (.ringCancel 1) := by decide
theorem test_word_ringCancelAll : decode 0x42000000 0 = .ok .ringCancelAll := by decide
theorem test_word_ringSelftest : decode 0x43000000 0 = .ok .ringSelftest := by decide
theorem test_word_hookSample : decode 0x50000001 0x1388 = .ok (.hookSample 0 .onhook 5000) := by decide
theorem test_word_hookTick : decode 0x51000000 0x2AF8 = .ok (.hookTick 0 11000) := by decide
theorem test_word_cfgWr : decode 0x60021100 0x1F4 = .ok (.cfgWr 0 0x211 500) := by decide
theorem test_word_cfgRd : decode 0x61130100 0 = .ok (.cfgRd 1 0x301) := by decide
theorem test_word_init : decode 0x70000000 0 = .ok .init := by decide
theorem test_word_getNch : decode 0x71000000 0 = .ok .getNch := by decide

theorem test_word_reserved_bit : decode 0x01010000 0 = .error (.mustBeZero 0x01) := by decide
theorem test_word_reserved_imm : decode 0x01000001 0 = .error (.mustBeZero 0x01) := by decide
theorem test_word_unknown : decode 0x72000000 0 = .error (.unknownOpcode 0x72) := by decide
theorem test_word_setLf_state4 : decode 0x30000004 0 = .error (.mustBeZero 0x30) := by decide

/-- Every row of the opcode table is decoded, none by two constructors' words. -/
theorem test_table_rows_decode : ∀ r ∈ opcodeTable, ∃ i, decode r.fixed 0 = .ok i ∧ i.port = r.port := by
  have key : (opcodeTable.all fun r => match decode r.fixed 0 with
      | .ok i => decide (i.port = r.port)
      | .error _ => false) = true := by decide
  intro r hr
  have h := List.all_eq_true.1 key r hr
  revert h
  cases hd : decode r.fixed 0 with
  | ok i => exact fun h => ⟨i, rfl, of_decide_eq_true h⟩
  | error e => exact fun h => absurd h Bool.false_ne_true

/-- No two rows of the opcode table overlap. -/
theorem test_table_rows_disjoint :
    opcodeTable.Pairwise (fun r r' => r.fixed &&& (r.mask &&& r'.mask) ≠ r'.fixed &&& (r.mask &&& r'.mask)) := by decide

theorem test_tableWord : decodeTableWord 64 0x1234567804012300 = some (.ramWr 0 0x123 0x12345678) := by decide

/-! ### Well-formedness: ill-formed terms are refused -/

theorem test_illformed_unknown_index : (Instr.cfgRd 0 0x007).wf = false := by decide
theorem test_illformed_global_with_channel : (Instr.cfgWr 1 0x000 3).wf = false := by decide
theorem test_illformed_hole : (Instr.cfgWr 0 0x106 0).wf = false := by decide
theorem test_wellformed_field : (Instr.cfgRd 2 0x100).wf = true := by decide
theorem test_illformed_word : wellFormedWord .host 0x01010000 = false := by decide
theorem test_illformed_word_for_port : wellFormedWord .host 0x20000000 = false := by decide
theorem test_wellformed_word_for_port : wellFormedWord .interrupt 0x20000000 = true := by decide

/-! ### A small machine under E -/

/-- The machine after reset under E, with n active channels, NOW = 500 and the chip's answers given. -/
def machine (n : Fin 3) (answers : List Answer) : State where
  par := Params.exampleE
  blk := { Block.reset Params.exampleE with n := n }
  env := { now := 500, hostQ := [], eventQ := [], answers := answers, freeCount := 0, sched := [], turn := 0, resets := [] }
  out := { wire := [], resps := [], events := [] }

/-- The thresholds T of 95_test_vectors.md section 0. -/
def thresholdsT : HookThresholds := ⟨20, 80, 200, 800, 300, 2000⟩

/-- The cadence "2(0.5/0.5)". -/
def cadence : Cadence := { total := 2000, n := 2, phase := ((Vector.replicate 16 0).set 0 500).set 1 500 }

/-- The machine with channel 0 at a hook state under the thresholds T. -/
def hooked (h : Hook) : State :=
  (machine 1 []).setChan .zero { (machine 1 []).chan .zero with thr := thresholdsT, hook := h }

/-- The machine with channel 0 in a ringer state and the cadence loaded. -/
def ringingAt (r : Ring) (answers : List Answer) (sched : List Slot) : State :=
  ((machine 2 answers).setSched sched).setChan .zero
    { (machine 2 answers).chan .zero with cad := cadence, ring := r }

/-- A live ringer before its first phase, started at 500. -/
def freshRing : Ring := { active := true, idx := 0, t0 := 500, cancel := false, deadline := 0, pos := .ready }

/-- The machine with the interrupt agent at a position. -/
def interruptAt (p : IrqPos) (answers : List Answer) (sched : List Slot) : State :=
  ((machine 2 answers).setSched sched).setIrqPos p

/-- The machine with an event presented, the gate set, and k events queued. -/
def presented (r : EventReq) (en : Bool) (k : Nat) : State :=
  { machine 2 [] with
    blk := { (machine 2 []).blk with irqEn := en, irqQ := List.replicate k ⟨none, 1, 2⟩, irqQcount := queueCount k }
    env := { (machine 2 []).env with eventQ := [r] } }

/-- What a step leaves, if it leaves a state. -/
def after (o : Host.Outcome State Fault Refusal) : Option State :=
  match o with
  | .next t => some t
  | .fault _ => none
  | .refused _ => none

/-- The responses a step leaves. -/
def resps (o : Host.Outcome State Fault Refusal) : Option (List Response) := (after o).map (fun t => t.out.resps)

/-- The transport operations a step leaves. -/
def wire (o : Host.Outcome State Fault Refusal) : Option (List WireOp) := (after o).map (fun t => t.out.wire)

/-- The events a step leaves. -/
def events (o : Host.Outcome State Fault Refusal) : Option (List Event) := (after o).map (fun t => t.out.events)

/-! ### Commands: results of 95_test_vectors.md sections 2.2 to 2.7 -/

theorem test_regRd : resps (exec (.regRd 0 0x00) (machine 1 [.data 0xCB])) = some [⟨.ok, 0xCB⟩] := by decide

theorem test_regRd_badChannel : resps (exec (.regRd 1 0x00) (machine 1 [])) = some [⟨.badChannel, 0⟩] := by decide

theorem test_regWr_fails : resps (exec (.regWr 0 0x50 0x04) (machine 1 [.fail])) = some [⟨.commError, 0x050⟩] := by decide

theorem test_ramWr_sequence :
    wire (exec (.ramWr 0 0x123 0x12345678) (machine 1 (answering [0, 0, 0, 0, 0, 0, 0, 0]))) =
      some [.read .zero 0x04 (.data 0), .write .zero 0x05 0x20 .done, .write .zero 0x06 0xC0 .done,
        .write .zero 0x07 0xB3 .done, .write .zero 0x08 0xA2 .done, .write .zero 0x09 0x91 .done,
        .write .zero 0x0A 0x23 .done, .read .zero 0x04 (.data 0)] := by decide

theorem test_ramRd_ignores_low_bits :
    resps (exec (.ramRd 0 0x123) (machine 1 (answering [0, 0, 0, 0, 0x91, 0xA2, 0xB3, 0xC7]))) =
      some [⟨.ok, 0x12345678⟩] := by decide +kernel

theorem test_ramRd_three_busy_polls_take_15_ms :
    (after (exec (.ramRd 0 0x123) (machine 1 (answering [1, 1, 1, 0, 0, 0, 0, 0, 0, 0, 0])))).map (fun t => t.env.now) =
      some 515 := by decide +kernel

theorem test_cal_writes_every_channel :
    wire (exec (.cal 4 0x44332211) (machine 2 (answering [0, 0, 0, 0, 0, 0, 0, 0, 0x7F, 0]))) =
      some [.write .zero 0x60 0x11 .done, .write .zero 0x61 0x22 .done, .write .zero 0x62 0x33 .done,
        .write .zero 0x63 0x44 .done, .write .one 0x60 0x11 .done, .write .one 0x61 0x22 .done,
        .write .one 0x62 0x33 .done, .write .one 0x63 0x44 .done, .read .zero 0x64 (.data 0x7F),
        .read .one 0x64 (.data 0)] := by decide +kernel

theorem test_cal_without_channels : resps (exec (.cal 4 0) (machine 0 [])) = some [⟨.ok, 0⟩] := by decide

theorem test_irqEv_discarded : events (exec (.irqEv 5000) (presented ⟨0x20000000, 5000, 7⟩ false 0)) =
    some [.log .zero .irqDiscarded 7] := by decide

theorem test_irqEvp_queued :
    (after (exec (.irqEvp 0x33 5000) (presented ⟨0x21000033, 5000, 7⟩ true 1))).map (fun t => t.blk.irqQ) =
      some [⟨none, 1, 2⟩, ⟨some 0x33, 5000, 7⟩] := by decide

theorem test_irqChannels : resps (exec .irqChannels (machine 2 [.data 0x81])) = some [⟨.ok, 0x00811811⟩] := by decide +kernel

theorem test_irqEnable : (after (exec (.irqEnable true) (machine 0 []))).map (fun t => t.blk.irqEn) = some true := by decide

theorem test_setLf_bracket :
    wire (exec (.setLf 0 .ringing) (machine 1 (answering [0x11, 0xFF, 0, 0, 0]))) =
      some [.read .zero 0x1E (.data 0x11), .read .zero 0x50 (.data 0xFF), .write .zero 0x50 0xFB .done,
        .write .zero 0x1E 0x04 .done, .write .zero 0x50 0xFF .done] := by decide

theorem test_setLf_settling : wire (exec (.setLf 0 .idle) (machine 1 (answering [0x42]))) =
    some [.read .zero 0x1E (.data 0x42)] := by decide

theorem test_startRing_already_ringing : wire (exec (.startRing 0) (machine 1 (answering [0x14]))) =
    some [.read .zero 0x1E (.data 0x14)] := by decide

theorem test_stopRing_write_fails :
    resps (exec (.stopRing 0) (machine 1 [.data 0x11, .data 0xFF, .data 0, .fail])) =
      some [⟨.commError, 0x01E⟩] := by decide

theorem test_getHook : resps (exec (.getHook 0) (machine 1 [.data 0xFD])) = some [⟨.ok, 0⟩] := by decide

theorem test_ringBegin_unhook :
    resps (exec (.ringBegin 0) (ringingAt { freshRing with active := false } [.data 0x02] [])) =
      some [⟨.ringUnhook, 0⟩] := by decide

theorem test_ringBegin_badPattern : resps (exec (.ringBegin 0) (machine 1 [])) = some [⟨.badPattern, 0⟩] := by decide

theorem test_ringCancel :
    (after (exec (.ringCancel 0) (ringingAt freshRing [] []))).map (fun t => t.blk.ch0.ring.cancel) = some true := by decide

theorem test_ringCancelAll :
    (after (exec .ringCancelAll (ringingAt freshRing [] []))).map (fun t => (t.blk.ch0.ring.cancel, t.blk.ch1.ring.cancel)) =
      some (true, false) := by decide

/-- A ring may end between the two cancellations (R14, R341). -/
theorem test_ringCancelAll_interleaved :
    let r := { freshRing with pos := RingPos.ended }
    (after (exec .ringCancelAll (ringingAt r [] [.ringer .zero]))).map (fun t => (t.blk.ch0.ring.active, t.blk.ch0.ring.cancel)) =
      some (false, false) := by decide

theorem test_hookSample_flash_across_wrap :
    events (exec (.hookSample 0 .offhook 0x10) (hooked ⟨.onhook, 0xFFFFFF00, 0, false⟩)) = some [.hookflash .zero] := by
  decide

theorem test_hookSample_saturates :
    (after (exec (.hookSample 0 .offhook 1060) (hooked ⟨.onhook, 1000, 255, true⟩))).map (fun t => t.blk.ch0.hook.count) =
      some 255 := by decide

theorem test_hookTick_digit : events (exec (.hookTick 0 1560) (hooked ⟨.offhook, 1260, 3, true⟩)) =
    some [.pulseDigit .zero 3] := by decide

theorem test_hookTick_timeout : events (exec (.hookTick 0 15011) (hooked ⟨.offhook, 13010, 0, true⟩)) =
    some [.offhookTimeout .zero] := by decide

theorem test_cfgWr_cuts_the_budget :
    (after (exec (.cfgWr 0 0x000 0x00010003) (machine 0 []))).map (fun t => t.blk.ramRetryBudget) = some 3 := by decide

theorem test_cfgRd_hook_level : resps (exec (.cfgRd 1 0x301) (machine 0 [])) = some [⟨.ok, 1⟩] := by decide

theorem test_cfgRd_badChannel : resps (exec (.cfgRd 2 0x100) (machine 0 [])) = some [⟨.badChannel, 0⟩] := by decide

theorem test_init_two_channels :
    (after (exec .init (machine 0 (answering [0xCB, 0xCB, 0x02, 0x00])))).map
      (fun t => (t.blk.n, t.blk.ch0.hook, t.blk.ch1.hook)) =
      some (2, ⟨.onhook, 500, 0, false⟩, ⟨.offhook, 500, 0, false⟩) := by decide

/-- Between the last HookInit and the write of N a pending sample is fed, and the next event is skipped since N is still 0
(R303, R200, R341). -/
theorem test_init_others_before_n :
    let s := interruptAt (.haveHook 700 .zero [] (some 0x00)) (answering [0xCB, 0xFF, 0x02])
      (List.replicate 4 .command ++ List.replicate 4 .interrupt)
    (after (exec .init (s.setIrqQ [⟨some 0x01, 710, 0⟩]))).map (fun t => (t.blk.n, t.blk.ch0.hook.level, t.blk.irqPos)) =
      some (1, .offhook, .pairs 710 []) := by decide

theorem test_init_absent : resps (exec .init (machine 2 [.data 0xFF])) = some [⟨.initError, 0⟩] := by decide

theorem test_getNch : resps (exec .getNch (machine 2 [])) = some [⟨.ok, 2⟩] := by decide

/-! ### The other agents: sections 2.4 and 2.5 -/

theorem test_flags_first_seen :
    addFlags Params.exampleE 2 0x20 (addFlags Params.exampleE 1 0x08 (addFlags Params.exampleE 0 0x00 [])) = [1, 0] := by
  decide

theorem test_flags_unmapped_ignored : addFlags Params.exampleE 1 0xFF (addFlags Params.exampleE 0 0xFF []) = [0, 1] := by
  decide

theorem test_hook_interrupt_preempts_the_ring :
    (after (steps 2 ((ringingAt freshRing [] [.interrupt, .interrupt]).setIrqPos (.dispatch 10700 .zero [0] [0] [])))).map
      (fun t => (t.blk.ch0.ring.cancel, t.out.events)) = some (true, [.flag .zero 0]) := by decide

/-- Another agent's event stands between two FLAG events of one dispatch (R14, R84). -/
theorem test_events_between_two_flags :
    let r := { freshRing with pos := RingPos.haveExit .cancelled .ok }
    events (steps 3 ((ringingAt r [] [.interrupt, .ringer .zero, .interrupt]).setIrqPos (.dispatch 5 .one [1, 0] [1, 0] []))) =
      some [.flag .one 1, .ringEnd .zero .cancelled, .flag .one 0] := by decide

theorem test_last_phase_is_cut :
    (after (step (ringingAt { freshRing with idx := 1, t0 := 0xFFFFFFF6, pos := .ready } [] [.tick 1020, .ringer .zero]))).map
      (fun t => (after (step t)).map (fun u => u.blk.ch0.ring.pos)) = some (some (.wantPhase .ringIdle 470)) := by decide

/-! ### Text forms -/

theorem test_pattern : parsePattern "2(0.5/0.5)".toList = some ⟨2000, [500, 500]⟩ := by decide

theorem test_pattern_odd : parsePattern "2(0.5)".toList = none := by decide

/-! ### Witnesses: the hypotheses of every statement that has some are met together -/

/-- The parameters after reset meet R9 and R10, whatever the open ones are. -/
theorem params_wf : Config.params.wf = true := by
  unfold Config.params
  split
  · assumption
  · decide +kernel

theorem witness_DecoderAcceptsExactlyTheTableWords : decode 0x04012300 5 = .ok (.ramWr 0 0x123 5) := by decide

/-- The machine with a request waiting and the command agent next. -/
def requested (r : HostReq) (sched : List Slot) : State :=
  { machine 2 [] with env := { (machine 2 []).env with hostQ := [r], sched := sched } }

theorem witness_StepRunsTheDecodedCommand_scheduled :
    (requested ⟨0x71000000, 0⟩ [.command]).blk.cmd = none ∧
    (requested ⟨0x71000000, 0⟩ [.command]).env.hostQ = ⟨0x71000000, 0⟩ :: [] ∧ decode 0x71000000 0 = .ok .getNch ∧
    Instr.getNch.port = .host ∧ (requested ⟨0x71000000, 0⟩ [.command]).env.sched = .command :: [] := by decide

theorem witness_StepRunsTheDecodedCommand_default :
    (requested ⟨0x71000000, 0⟩ []).blk.cmd = none ∧ (requested ⟨0x71000000, 0⟩ []).env.hostQ = ⟨0x71000000, 0⟩ :: [] ∧
    decode 0x71000000 0 = .ok .getNch ∧ Instr.getNch.port = .host ∧ (requested ⟨0x71000000, 0⟩ []).env.sched = [] ∧
    (requested ⟨0x71000000, 0⟩ []).env.turn = 0 := by decide

theorem witness_StepRunsTheDecodedCommand_event :
    ((presented ⟨0x20000000, 5, 7⟩ true 1).setSched [.eventPort]).env.eventQ = ⟨0x20000000, 5, 7⟩ :: [] ∧
    decode 0x20000000 5 = .ok (.irqEv 5) ∧ (Instr.irqEv 5).port = .interrupt ∧
    ((presented ⟨0x20000000, 5, 7⟩ true 1).setSched [.eventPort]).env.sched = .eventPort :: [] := by decide

/-- The machine with both channels' ringers waiting for a deadline that is always reached. -/
def bothWake : State :=
  let r : Ring := { freshRing with pos := .waiting, deadline := 500 }
  let s := ringingAt r (answering [0x14, 0x14, 0x14, 0x14]) []
  s.setChan .one { s.chan .one with cad := cadence, ring := r }

/-- Ringer 1 of `bothWake` stays ready until it moves, at the fifth step. -/
theorem witness_WhoeverWaitsIsServed :
    ((List.range 6).map fun j => match steps j bothWake with
      | .next u => (u.ready turnOrder[(4 : Fin 6)], decide (u.nextSlot = turnOrder[(4 : Fin 6)]))
      | _ => (false, false)).map Prod.fst = List.replicate 6 true := by decide +kernel

/-- Ringer 0 wakes first, and ringer 1 has its turn next: nobody is starved (R81). -/
theorem test_fair_rotation :
    bothWake.nextSlot = .ringer .zero ∧ (after (step bothWake)).map State.nextSlot = some (.ringer .one) := by decide +kernel

/-- The port takes an ill-formed event at once, even while the queue is full, and makes a well-formed one wait (R203). -/
theorem test_full_queue_takes_illformed_events :
    (presented ⟨0x21100001, 0, 7⟩ true 4).eventReady = true ∧ (presented ⟨0x21000001, 0, 7⟩ true 4).eventReady = false := by
  decide

theorem witness_IllegalRequestsRespondIllegalCmd_word :
    let s := requested ⟨0x20000000, 0⟩ [.command]
    s.blk.cmd = none ∧ s.env.hostQ = ⟨0x20000000, 0⟩ :: [] ∧ s.env.sched = .command :: [] ∧ s.env.resets = [] ∧
    wellFormedWord .host 0x20000000 = false := by decide

/-- The machine is quiet, whatever the chip's answers. -/
theorem machine_quiet (n : Fin 3) (answers : List Answer) : (machine n answers).Quiet := ⟨⟨rfl, rfl⟩, rfl, rfl, rfl⟩

/-- The machine is calm, whatever the chip's answers. -/
theorem machine_calm (n : Fin 3) (answers : List Answer) : (machine n answers).Calm := ⟨⟨rfl, rfl⟩, rfl⟩

theorem witness_IllegalRequestsRespondIllegalCmd_operand : (machine 2 []).Calm ∧ (Instr.cfgRd 0 0x007).wf = false :=
  ⟨machine_calm _ _, by decide⟩

theorem witness_IllegalEventsAreConsumedAndLogged :
    let s := (presented ⟨0x21100001, 0, 7⟩ true 1).setSched [.eventPort]
    s.env.eventQ = ⟨0x21100001, 0, 7⟩ :: [] ∧ s.env.sched = .eventPort :: [] ∧ s.env.resets = [] ∧
    wellFormedWord .interrupt 0x21100001 = false := by decide

theorem witness_RegRdReadsTheRegisterOnce : (machine 2 [.data 0xCB]).Quiet ∧ activeChan (machine 2 [.data 0xCB]).blk.n 1 = some .one :=
  ⟨machine_quiet _ _, by decide⟩

theorem witness_RegWrWritesTheRegisterOnce : (machine 1 [.fail]).Quiet ∧ activeChan (machine 1 [.fail]).blk.n 0 = some .zero :=
  ⟨machine_quiet _ _, by decide⟩

theorem witness_RamWrSendsLanesThenAddressLow :
    let s := machine 2 (answering [1, 0, 1, 2, 3, 4, 5, 6, 3, 1, 0xFE])
    s.Quiet ∧ activeChan s.blk.n 1 = some .one ∧ busyPolls s.blk.ramRetryBudget [1] ∧
    busyPolls s.blk.ramRetryBudget [3, 1] ∧ (0x00 : Byte).getLsbD 0 = false ∧ (0xFE : Byte).getLsbD 0 = false ∧
    List.Forall₂ WireOp.answeredBy (ramWriteOps s.par .one 0x123 0x12345678 [1] 0x00 [3, 1] 0xFE)
      (answering [1, 0, 1, 2, 3, 4, 5, 6, 3, 1, 0xFE]) ∧
    s.env.answers = answering [1, 0, 1, 2, 3, 4, 5, 6, 3, 1, 0xFE] ++ [] :=
  ⟨machine_quiet _ _, by decide, ⟨by decide, by simp⟩, ⟨by decide, by simp⟩, rfl, rfl,
    by simp [ramWriteOps, waitOps, readsOf, ramWriteWindow, answering, WireOp.answeredBy], rfl⟩

theorem witness_RamRdReadsLanesDescending :
    let s := machine 2 (answering [0, 1, 2, 1, 0xFE, 0x91, 0xA2, 0xB3, 0xC7])
    s.Quiet ∧ activeChan s.blk.n 1 = some .one ∧ busyPolls s.blk.ramRetryBudget [] ∧
    busyPolls s.blk.ramRetryBudget [1] ∧ (0x00 : Byte).getLsbD 0 = false ∧ (0xFE : Byte).getLsbD 0 = false ∧
    List.Forall₂ WireOp.answeredBy (ramReadOps s.par .one 0x123 [] 0x00 [1] 0xFE 0x91 0xA2 0xB3 0xC7)
      (answering [0, 1, 2, 1, 0xFE, 0x91, 0xA2, 0xB3, 0xC7]) ∧
    s.env.answers = answering [0, 1, 2, 1, 0xFE, 0x91, 0xA2, 0xB3, 0xC7] ++ [] :=
  ⟨machine_quiet _ _, by decide, ⟨by decide, by simp⟩, ⟨by decide, by simp⟩, rfl, rfl,
    by simp [ramReadOps, waitOps, readsOf, ramReadWindow, ramLaneReads, answering, WireOp.answeredBy], rfl⟩

/-- A RAM_WR whose second poll fails after a busy one. -/
theorem witness_RamAndCalCommandsStopAtTheFirstFailure_write :
    let s := machine 2 (answering [1] ++ [.fail])
    let ops := ramWriteOps s.par .one 0x123 7 [1] 0x00 [] 0x00
    s.Quiet ∧ activeChan s.blk.n 1 = some .one ∧ busyPolls s.blk.ramRetryBudget [1] ∧
    busyPolls s.blk.ramRetryBudget [] ∧ (0x00 : Byte).getLsbD 0 = false ∧ ops[1]? = some (.read .one 0x04 (.data 0)) ∧
    List.Forall₂ WireOp.answeredBy (ops.take 1) (answering [1]) ∧ s.env.answers = answering [1] ++ .fail :: [] :=
  ⟨machine_quiet _ _, by decide, ⟨by decide, by simp⟩, ⟨by decide, by simp⟩, rfl, by decide,
    by simp [ramWriteOps, waitOps, readsOf, ramWriteWindow, answering, WireOp.answeredBy], rfl⟩

/-- A RAM_RD whose last lane read fails. -/
theorem witness_RamAndCalCommandsStopAtTheFirstFailure_read :
    let s := machine 2 (answering [0, 1, 2, 1, 0, 9, 9, 9] ++ [.fail])
    let ops := ramReadOps s.par .one 0x123 [] 0x00 [1] 0x00 9 9 9 9
    s.Quiet ∧ activeChan s.blk.n 1 = some .one ∧ busyPolls s.blk.ramRetryBudget [] ∧
    busyPolls s.blk.ramRetryBudget [1] ∧ (0x00 : Byte).getLsbD 0 = false ∧ ops[8]? = some (.read .one 0x06 (.data 9)) ∧
    List.Forall₂ WireOp.answeredBy (ops.take 8) (answering [0, 1, 2, 1, 0, 9, 9, 9]) ∧
    s.env.answers = answering [0, 1, 2, 1, 0, 9, 9, 9] ++ .fail :: [] :=
  ⟨machine_quiet _ _, by decide, ⟨by decide, by simp⟩, ⟨by decide, by simp⟩, rfl, by decide,
    by simp [ramReadOps, waitOps, readsOf, ramReadWindow, ramLaneReads, answering, WireOp.answeredBy], rfl⟩

/-- A CAL whose second seed write fails, and one whose last status read of the second iteration does. -/
theorem witness_RamAndCalCommandsStopAtTheFirstFailure_cal :
    let s := machine 2 (answering [1] ++ [.fail])
    let t := machine 2 (answering [1, 2, 3, 4, 5, 6, 7, 8, 0x80, 0, 0x80] ++ [.fail])
    let ops := seedOps s.par 7 (channelsBelow 2) ++ [[0x80, 0], [0x80, 0]].flatMap (scanOps s.par (channelsBelow 2))
    s.Quiet ∧ t.Quiet ∧ (∀ b ∈ [[(0x80 : Byte), 0], [0x80, 0]], b.length = (2 : Fin 3).val ∧ ∃ v ∈ b, v.getLsbD 7 = true) ∧
    [[(0x80 : Byte), 0], [0x80, 0]].length ≤ 5 * s.blk.calRetryBudget.toNat ∧
    ops[1]? = some (.write .zero 0x61 0 .done) ∧ ops[11]? = some (.read .one 0x64 (.data 0)) ∧
    List.Forall₂ WireOp.answeredBy (ops.take 1) (answering [1]) ∧
    List.Forall₂ WireOp.answeredBy (ops.take 11) (answering [1, 2, 3, 4, 5, 6, 7, 8, 0x80, 0, 0x80]) ∧
    s.env.answers = answering [1] ++ .fail :: [] :=
  ⟨machine_quiet _ _, machine_quiet _ _, by simp, by decide, by decide, by decide,
    by simp [seedOps, channelsBelow, Chan.toNat, answering, WireOp.answeredBy],
    by simp [seedOps, scanOps, channelsBelow, Chan.toNat, answering, WireOp.answeredBy], rfl⟩

/-- The machine with both retry budgets set. -/
def budgeted (budget : Half) (answers : List Answer) : State :=
  { machine 2 answers with blk := { (machine 2 answers).blk with ramRetryBudget := budget, calRetryBudget := budget } }

theorem budgeted_quiet (budget : Half) (answers : List Answer) : (budgeted budget answers).Quiet :=
  ⟨⟨rfl, rfl⟩, rfl, rfl, rfl⟩

theorem witness_WaitReadyPollsExactlyTheBudget_ready :
    (budgeted 3 (answering [1, 3, 0])).env.sched = [] ∧ (∀ b ∈ [(1 : Byte), 3], b.getLsbD 0 = true) ∧
    (0 : Byte).getLsbD 0 = false ∧ [(1 : Byte), 3].length < (budgeted 3 (answering [1, 3, 0])).blk.ramRetryBudget.toNat ∧
    (budgeted 3 (answering [1, 3, 0])).env.answers = answering ([1, 3] ++ [0]) ++ [] := by
  refine ⟨rfl, ?_, rfl, ?_, rfl⟩
  · simp
  · decide

theorem witness_WaitReadyPollsExactlyTheBudget_timeout :
    (budgeted 2 (answering [1, 3])).env.sched = [] ∧ (∀ b ∈ [(1 : Byte), 3], b.getLsbD 0 = true) ∧
    [(1 : Byte), 3].length = (budgeted 2 (answering [1, 3])).blk.ramRetryBudget.toNat ∧
    (budgeted 2 (answering [1, 3])).env.answers = answering [1, 3] ++ [] := by
  refine ⟨rfl, ?_, rfl, rfl⟩
  simp

theorem witness_RamCommandsTimeOut_first :
    (budgeted 2 (answering [1, 3])).Quiet ∧ activeChan (budgeted 2 (answering [1, 3])).blk.n 1 = some .one ∧
    (∀ b ∈ [(1 : Byte), 3], b.getLsbD 0 = true) ∧
    [(1 : Byte), 3].length = (budgeted 2 (answering [1, 3])).blk.ramRetryBudget.toNat ∧
    (budgeted 2 (answering [1, 3])).env.answers = answering [1, 3] ++ [] := by
  refine ⟨budgeted_quiet _ _, by decide, ?_, rfl, rfl⟩
  simp

theorem witness_RamCommandsTimeOut_second :
    let s := budgeted 2 (answering [1, 0, 1, 2, 3, 4, 5, 6] ++ answering [1, 3] ++ [])
    let t := budgeted 2 (answering [1, 0, 1, 2] ++ answering [1, 3] ++ [])
    s.Quiet ∧ t.Quiet ∧ activeChan s.blk.n 1 = some .one ∧ busyPolls s.blk.ramRetryBudget [1] ∧
    (0 : Byte).getLsbD 0 = false ∧ (∀ b ∈ [(1 : Byte), 3], b.getLsbD 0 = true) ∧
    [(1 : Byte), 3].length = s.blk.ramRetryBudget.toNat ∧
    List.Forall₂ WireOp.answeredBy (waitOps s.par .one [1] 0 ++ ramWriteWindow s.par .one 0x123 7)
      (answering [1, 0, 1, 2, 3, 4, 5, 6]) ∧
    List.Forall₂ WireOp.answeredBy (waitOps t.par .one [1] 0 ++ ramReadWindow t.par .one 0x123) (answering [1, 0, 1, 2]) :=
  ⟨budgeted_quiet _ _, budgeted_quiet _ _, by decide, ⟨by decide, by simp⟩, rfl, by simp, rfl,
    by simp [waitOps, readsOf, ramWriteWindow, answering, WireOp.answeredBy],
    by simp [waitOps, readsOf, ramReadWindow, answering, WireOp.answeredBy]⟩

theorem witness_RamRoundTripReturnsTheValue :
    let s := machine 2 (answering [1, 0, 1, 2, 0, 0x91, 0xA2, 0xB3, 0xC0])
    (0x923 : BitVec 12).setWidth 11 = (0x123 : BitVec 12).setWidth 11 ∧ s.Quiet ∧ activeChan s.blk.n 1 = some .one ∧
    busyPolls s.blk.ramRetryBudget [1] ∧ busyPolls s.blk.ramRetryBudget [] ∧ (0 : Byte).getLsbD 0 = false ∧
    ramLanes 0xF2345678 = #v[0xC0, 0xB3, 0xA2, 0x91] ∧
    List.Forall₂ WireOp.answeredBy (ramReadOps s.par .one 0x123 [1] 0 [] 0 0x91 0xA2 0xB3 0xC0)
      (answering [1, 0, 1, 2, 0, 0x91, 0xA2, 0xB3, 0xC0]) :=
  ⟨by decide, machine_quiet _ _, by decide, ⟨by decide, by simp⟩, ⟨by decide, by simp⟩, rfl, by decide,
    by simp [ramReadOps, waitOps, readsOf, ramReadWindow, ramLaneReads, answering, WireOp.answeredBy]⟩

theorem witness_CalSucceedsAtTheFirstClearIteration :
    (budgeted 1 (answering [1, 2, 3, 4, 5, 6, 7, 8] ++ [[(0x80 : Byte), 0]].flatMap answering ++ answering [0x7F, 0] ++ [])).Quiet ∧
    [(1 : Byte), 2, 3, 4, 5, 6, 7, 8].length = 4 * (2 : Fin 3).val ∧
    (∀ b ∈ [[(0x80 : Byte), 0]], b.length = (2 : Fin 3).val ∧ ∃ v ∈ b, v.getLsbD 7 = true) ∧
    [(0x7F : Byte), 0].length = (2 : Fin 3).val ∧ (∀ v ∈ [(0x7F : Byte), 0], v.getLsbD 7 = false) ∧
    [[(0x80 : Byte), 0]].length < 5 * (1 : Half).toNat := by
  refine ⟨budgeted_quiet _ _, rfl, ?_, rfl, ?_, by decide⟩
  · simp
  · simp

theorem witness_CalTimesOutAfterItsLimit :
    (budgeted 1 (answering [1, 2, 3, 4, 5, 6, 7, 8] ++ (List.replicate 5 [(0x80 : Byte), 0]).flatMap answering ++ [])).Quiet ∧
    [(1 : Byte), 2, 3, 4, 5, 6, 7, 8].length = 4 * (2 : Fin 3).val ∧
    (∀ b ∈ List.replicate 5 [(0x80 : Byte), 0], b.length = (2 : Fin 3).val ∧ ∃ v ∈ b, v.getLsbD 7 = true) ∧
    (List.replicate 5 [(0x80 : Byte), 0]).length = 5 * (1 : Half).toNat := by
  refine ⟨budgeted_quiet _ _, rfl, ?_, rfl⟩
  intro b hb
  rw [List.eq_of_mem_replicate hb]
  simp

theorem witness_EventPortDiscardsQueuesOrHolds_closed :
    (presented ⟨0x20000000, 5, 7⟩ false 0).env.eventQ = ⟨0x20000000, 5, 7⟩ :: [] ∧
    (presented ⟨0x20000000, 5, 7⟩ false 0).blk.irqEn = false ∧
    (presented ⟨0x20000000, 5, 7⟩ false 0).env.resets = [] := by decide

theorem witness_EventPortDiscardsQueuesOrHolds_room :
    (presented ⟨0x21000033, 5, 7⟩ true 3).env.eventQ = ⟨0x21000033, 5, 7⟩ :: [] ∧
    (presented ⟨0x21000033, 5, 7⟩ true 3).blk.irqEn = true ∧
    (presented ⟨0x21000033, 5, 7⟩ true 3).blk.irqQ.length < (presented ⟨0x21000033, 5, 7⟩ true 3).par.irqQueueDepth := by
  decide

theorem witness_EventPortDiscardsQueuesOrHolds_full :
    (presented ⟨0x21000033, 5, 7⟩ true 4).env.eventQ = ⟨0x21000033, 5, 7⟩ :: [] ∧
    (presented ⟨0x21000033, 5, 7⟩ true 4).blk.irqEn = true ∧
    (presented ⟨0x21000033, 5, 7⟩ true 4).par.irqQueueDepth ≤ (presented ⟨0x21000033, 5, 7⟩ true 4).blk.irqQ.length := by
  decide

theorem witness_IrqChannelsPacksTheStatusByte : (machine 0 [.data 0x33]).Quiet := machine_quiet _ _

theorem witness_IrqEnableWritesTheGate : (machine 0 []).Calm := machine_calm _ _

theorem witness_StageTwoReadsTheThreeFlagRegisters :
    (interruptAt (.wantFlag 5 .zero 0 [] []) (answering [3, 8, 0x20]) (List.replicate 6 .interrupt)).blk.irqPos =
      .wantFlag 5 .zero 0 [] [] ∧
    (interruptAt (.wantFlag 5 .zero 0 [] []) (answering [3, 8, 0x20]) (List.replicate 6 .interrupt)).blk.grant = .none ∧
    (interruptAt (.wantFlag 5 .zero 0 [] []) (answering [3, 8, 0x20]) (List.replicate 6 .interrupt)).env.sched =
      List.replicate 6 .interrupt ++ [] ∧
    (interruptAt (.wantFlag 5 .zero 0 [] []) (answering [3, 8, 0x20]) (List.replicate 6 .interrupt)).env.answers =
      answering [3, 8, 0x20] ++ [] := ⟨rfl, rfl, rfl, rfl⟩

theorem witness_StageTwoKeepsFirstSeenOrder :
    ([] : List Nat).Nodup ∧ Params.exampleE.flagMap[(0 : Fin 3)][(0 : Fin 8)] = .flag 0 ∧
    ({ Params.exampleE with flagMap := Params.exampleE.flagMap.set 0 (Params.exampleE.flagMap[0].set 1 (.flag 1)) } :
      Params).flagMap[(0 : Fin 3)][(1 : Fin 8)] = .flag 1 ∧
    (0x03 : Byte).getLsbD 0 = true ∧ (0x03 : Byte).getLsbD 1 = true := by decide

/-- An unset lower bit that maps to a flag does not move it forward (R193). -/
theorem witness_StageTwoKeepsFirstSeenOrder_unset_bit :
    let row := (Params.exampleE.flagMap[0].set 1 (.flag 1)).set 2 (.flag 0)
    let p := { Params.exampleE with flagMap := Params.exampleE.flagMap.set 0 row }
    p.flagMap[(0 : Fin 3)][(0 : Fin 8)] = .flag 0 ∧ p.flagMap[(0 : Fin 3)][(1 : Fin 8)] = .flag 1 ∧
    p.flagMap[(0 : Fin 3)][(2 : Fin 8)] = .flag 0 ∧ (0x06 : Byte).getLsbD 0 = false ∧ (0x06 : Byte).getLsbD 1 = true ∧
    (0x06 : Byte).getLsbD 2 = true ∧ addFlags p 0 0x06 [] = [1, 0] := by decide

theorem witness_DispatchReportsFlagsAndPreemptsTheRing :
    let s := (ringingAt freshRing [] [.interrupt, .interrupt]).setIrqPos (.dispatch 5 .zero [0] [0] [])
    s.blk.irqPos = .dispatch 5 .zero (0 :: []) [0] [] ∧ s.env.sched = .interrupt :: [.interrupt] ∧
    s.env.sched = List.replicate ([0].length + 1) .interrupt ++ [] ∧ s.par.hookFlag ∈ [0] ∧
    (s.chan .zero).ring.active = true := by decide

theorem witness_DispatchReportsFlagsAndPreemptsTheRing_idle :
    (interruptAt (.dispatch 5 .zero [] [0] []) [] [.interrupt]).par.hookFlag ∈ [0] ∧
    ((interruptAt (.dispatch 5 .zero [] [0] []) [] [.interrupt]).chan .zero).ring.active = false ∧
    (interruptAt (.dispatch 5 .zero [] [1] []) [] [.interrupt]).par.hookFlag ∉ [1] := by decide

/-- The hook read's three cases: a repeated level, a change in the flash window, and one outside it. -/
theorem witness_DispatchReportsFlagsAndPreemptsTheRing_hook :
    let s := interruptAt (.wantHook 5 .zero []) [.data 0x02] [.interrupt, .interrupt]
    let flash := interruptAt (.wantHook 0 .zero []) [.data 0x00] [.interrupt, .interrupt]
    let other := interruptAt (.wantHook 5 .zero []) [.data 0x00] [.interrupt, .interrupt]
    s.blk.irqPos = .wantHook 5 .zero [] ∧ s.blk.grant = .none ∧ s.env.sched = .interrupt :: .interrupt :: [] ∧
    s.env.answers = .data 0x02 :: [] ∧ (s.chan .zero).hook.level = .onhook ∧
    events (steps 2 s) = some [] ∧ events (steps 2 flash) = some [.hookflash .zero] ∧
    (after (steps 2 other)).map (fun t => (t.chan .zero).hook) = some ⟨.offhook, 5, 0, true⟩ := by decide +kernel

theorem witness_InterruptFailuresAreLoggedAndIsolated_read :
    let s := fun p => interruptAt p [.fail] [.interrupt, .interrupt]
    (s .idle).blk.grant = .none ∧ (s .idle).env.sched = .interrupt :: .interrupt :: [] ∧
    (s .idle).env.answers = .fail :: [] ∧ (s (.wantStatus 5)).blk.irqPos = .wantStatus 5 ∧
    (s (.wantFlag 5 .one 2 [0] [])).blk.irqPos = .wantFlag 5 .one 2 [0] [] ∧
    (s (.wantHook 5 .one [])).blk.irqPos = .wantHook 5 .one [] := by decide

theorem witness_InterruptFailuresAreLoggedAndIsolated :
    (interruptAt (.haveStatus 5 none) [] [.interrupt]).env.sched = .interrupt :: [] ∧
    (interruptAt (.haveStatus 5 none) [] [.interrupt]).blk.irqPos = .haveStatus 5 none ∧
    (interruptAt (.haveFlag 5 .zero 2 [0] [] none) [] [.interrupt]).blk.irqPos = .haveFlag 5 .zero 2 [0] [] none ∧
    (interruptAt (.haveHook 5 .zero [] none) [] [.interrupt]).blk.irqPos = .haveHook 5 .zero [] none := by decide

theorem witness_InterruptAgentTakesTheHeadEventAndSkipsInactiveChannels :
    ((presented ⟨0, 0, 0⟩ true 2).setSched [.interrupt]).env.sched = .interrupt :: [] ∧
    ((presented ⟨0, 0, 0⟩ true 2).setSched [.interrupt]).blk.irqPos = .idle ∧
    ((presented ⟨0, 0, 0⟩ true 2).setSched [.interrupt]).blk.irqQ = ⟨none, 1, 2⟩ :: [⟨none, 1, 2⟩] ∧
    (interruptAt (.pairs 5 [(.one, 3)]) [] [.interrupt]).blk.irqPos = .pairs 5 ((.one, 3) :: []) ∧
    Chan.one.toNat < (interruptAt (.pairs 5 [(.one, 3)]) [] [.interrupt]).blk.n.val ∧
    ((interruptAt (.pairs 5 [(.one, 3)]) [] [.interrupt]).setN 1).blk.n.val ≤ Chan.one.toNat := by decide

theorem witness_InterruptAgentTakesTheHeadEventAndSkipsInactiveChannels_status :
    let s := interruptAt (.wantStatus 5) [.data 0x31] [.interrupt, .interrupt]
    s.blk.irqPos = .wantStatus 5 ∧ s.blk.grant = .none ∧ s.env.sched = .interrupt :: .interrupt :: [] ∧
    s.env.answers = .data 0x31 :: [] ∧
    (after (steps 2 s)).map (fun t => t.blk.irqPos) = some (.pairs 5 [(.zero, 1), (.one, 3)]) := by decide +kernel

/-- The two guards of E: 0x41 is settling, 0x14 is ringing, 0x44 and 0x11 are neither where idle is requested. -/
theorem lfGuards_settling : lfGuards Params.exampleE .ringing 0x41 := by unfold lfGuards; decide
theorem lfGuards_ringing : lfGuards Params.exampleE .ringing 0x14 := by unfold lfGuards; decide
theorem lfGuards_not (req : LfState) : ¬ lfGuards Params.exampleE req 0x11 := by unfold lfGuards; cases req <;> decide
theorem lfGuards_not_idle : ¬ lfGuards Params.exampleE .idle 0x44 := by unfold lfGuards; decide

/-- The answers of a full transition under E. -/
theorem bracket_answered (c : Chan) (req : LfState) (v a : Byte) :
    List.Forall₂ WireOp.answeredBy (bracketOps Params.exampleE c req v a) (answering [v, a, 0, 0, 0]) := by
  simp [bracketOps, bracketWrites, answering, WireOp.answeredBy]

theorem witness_LinefeedGuardsIssueNoWrite :
    (machine 1 [.data 0x41]).Quiet ∧ linefeedRequest (.startRing 0) = some (0, .ringing) ∧
    activeChan (machine 1 [.data 0x41]).blk.n 0 = some .zero ∧ (machine 1 [.data 0x41]).env.answers = .data 0x41 :: [] ∧
    lfGuards (machine 1 [.data 0x41]).par .ringing 0x41 ∧ lfGuards (machine 1 [.data 0x14]).par .ringing 0x14 :=
  ⟨machine_quiet _ _, by decide, by decide, rfl, lfGuards_settling, lfGuards_ringing⟩

theorem witness_LinefeedTransitionRunsTheAutoBracket :
    let s := machine 1 (answering [0x44, 0xFF, 0, 0, 0])
    s.Quiet ∧ linefeedRequest (.stopRing 0) = some (0, .idle) ∧ activeChan s.blk.n 0 = some .zero ∧
    ¬ lfGuards s.par .idle 0x44 ∧
    List.Forall₂ WireOp.answeredBy (bracketOps s.par .zero .idle 0x44 0xFF) (answering [0x44, 0xFF, 0, 0, 0]) ∧
    s.env.answers = answering [0x44, 0xFF, 0, 0, 0] ++ [] :=
  ⟨machine_quiet _ _, by decide, by decide, lfGuards_not_idle, bracket_answered _ _ _ _, rfl⟩

theorem witness_LinefeedFailureEndsTheBracket :
    let s := machine 1 (answering [0x11, 0xFF, 0] ++ [.fail])
    s.Quiet ∧ linefeedRequest (.setLf 0 .idle) = some (0, .idle) ∧ activeChan s.blk.n 0 = some .zero ∧
    ¬ lfGuards s.par .idle 0x11 ∧
    (bracketOps s.par .zero .idle 0x11 0xFF)[3]? = some (.write .zero 0x1E 0x01 .done) ∧
    List.Forall₂ WireOp.answeredBy ((bracketOps s.par .zero .idle 0x11 0xFF).take 3) (answering [0x11, 0xFF, 0]) ∧
    s.env.answers = answering [0x11, 0xFF, 0] ++ .fail :: [] :=
  ⟨machine_quiet _ _, by decide, by decide, lfGuards_not _, by decide,
    by simp [bracketOps, bracketWrites, answering, WireOp.answeredBy], rfl⟩

theorem witness_GetHookReturnsBitOne : (machine 1 [.data 0xFF]).Quiet ∧ activeChan (machine 1 [.data 0xFF]).blk.n 0 = some .zero :=
  ⟨machine_quiet _ _, by decide⟩

theorem witness_RingBeginStartsTheRinger :
    (ringingAt freshRing [] []).Quiet ∧ activeChan (ringingAt freshRing [] []).blk.n 0 = some .zero ∧
    ((ringingAt freshRing [] []).chan .zero).ring.active = true ∧
    ((ringingAt { freshRing with active := false } [.data 0] []).chan .zero).ring.active = false ∧
    cadence.n.toNat % 2 = 0 ∧ 2 ≤ cadence.n.toNat ∧ cadence.n.toNat ≤ 16 ∧
    (∀ k : Fin 16, k.val < cadence.n.toNat → cadence.phase[k] ≠ 0) ∧ ¬ 2 ≤ ((machine 1 []).chan .zero).cad.n.toNat :=
  ⟨⟨⟨rfl, rfl⟩, rfl, rfl, rfl⟩, by decide, rfl, rfl, rfl, by decide, by decide, by decide, by decide⟩

theorem witness_RingCancelRequestsCancellation :
    (ringingAt freshRing [] []).Calm ∧ activeChan (ringingAt freshRing [] []).blk.n 0 = some .zero ∧
    (ringingAt freshRing [] []).env.sched = [] ∧
    (after (exec .ringCancelAll (ringingAt freshRing [] [.tick 1]))).map (fun t => (t.chan .zero).ring.active) = some true :=
  ⟨⟨⟨rfl, rfl⟩, rfl⟩, by decide, rfl, by decide⟩

/-- The three ways a phase's `SetLineFeed` can go: full, guarded, failed at the AUTO clear. -/
theorem witness_RingerRunsOnePhase :
    let s := fun as => ringingAt freshRing as (List.replicate 3 (.ringer .zero))
    let fresh := s (answering [0x11, 0xFF, 0, 0, 0])
    let failing := ringingAt freshRing (answering [0x11, 0xFF] ++ [.fail]) (List.replicate 4 (.ringer .zero))
    ((fresh.chan .zero).ring.active = true ∧ (fresh.chan .zero).ring.pos = .ready ∧
      (fresh.chan .zero).ring.cancel = false ∧ fresh.blk.grant = .none ∧
      (fresh.chan .zero).ring.idx.toNat = (0 : Fin 16).val ∧ (0 : Fin 16).val < (fresh.chan .zero).cad.n.toNat ∧
      fresh.env.now - (fresh.chan .zero).ring.t0 < (fresh.chan .zero).cad.total ∧
      fresh.env.sched = List.replicate (3 + (lfFailLog .zero .ok).length) (.ringer .zero) ++ [] ∧ fresh.env.resets = [] ∧
      failing.env.sched = List.replicate (3 + (lfFailLog .zero (.commError 0x50)).length) (.ringer .zero) ++ []) ∧
    LinefeedRun fresh.par .zero .ringing (bracketOps fresh.par .zero .ringing 0x11 0xFF) fresh.env.answers .ok true ∧
    LinefeedRun fresh.par .zero .ringing [.read .zero 0x1E (.data 0x14)] (s [.data 0x14]).env.answers .ok false ∧
    LinefeedRun fresh.par .zero .ringing ((bracketOps fresh.par .zero .ringing 0x11 0xFF).take 2 ++
      [.write .zero 0x50 0xFB .failed]) failing.env.answers (.commError 0x50) false :=
  ⟨⟨rfl, rfl, rfl, rfl, rfl, by decide, by decide, rfl, rfl, rfl⟩,
    .full _ _ _ (lfGuards_not _) (bracket_answered _ _ _ _), .guarded _ lfGuards_ringing,
    .failed 0x11 0xFF 2 (.write .zero 0x50 0xFB .done) _ (lfGuards_not _) (by decide)
      (by simp [bracketOps, bracketWrites, answering, WireOp.answeredBy])⟩

theorem witness_RingerWaitsForDeadlineOrCancellation :
    let early := { freshRing with pos := RingPos.waiting, deadline := 501 }
    let due := { freshRing with pos := RingPos.waiting, deadline := 500, idx := 1, t0 := 0xFFFFFA25 }
    let late := { freshRing with pos := RingPos.waiting, deadline := 500, t0 := 0xFFFFFA24 }
    let s := ringingAt early [] [.ringer .zero]
    let d := ringingAt due [] [.ringer .zero]
    let u := ringingAt late [] [.ringer .zero]
    (s.chan .zero).ring.active = true ∧ (s.chan .zero).ring.pos = .waiting ∧ s.env.sched = .ringer .zero :: [] ∧
    (s.chan .zero).ring.cancel = false ∧ ¬ (s.env.now - (s.chan .zero).ring.deadline).toNat < 2 ^ 31 ∧
    (d.env.now - (d.chan .zero).ring.deadline).toNat < 2 ^ 31 ∧
    d.env.now - (d.chan .zero).ring.t0 < (d.chan .zero).cad.total ∧
    (d.chan .zero).ring.idx.toNat = (1 : Fin 16).val ∧ (1 : Fin 16).val < (d.chan .zero).cad.n.toNat ∧
    (after (step d)).map (fun t => ((t.chan .zero).ring.pos, (t.chan .zero).ring.idx)) =
      some (.wantPhase .ringIdle 1, 0) ∧
    (u.env.now - (u.chan .zero).ring.deadline).toNat < 2 ^ 31 ∧
    (u.chan .zero).cad.total ≤ u.env.now - (u.chan .zero).ring.t0 := by decide +kernel

/-- A ring that has not begun its first phase and is cancelled, and one whose total is 0: the vector "0(1/1)" of R251. -/
theorem witness_RingerWaitsForDeadlineOrCancellation_ready :
    let s := ringingAt { freshRing with cancel := true } [] [.ringer .zero]
    let u := (ringingAt freshRing [] [.ringer .zero]).setChan .zero
      { (ringingAt freshRing [] [.ringer .zero]).chan .zero with cad := { cadence with total := 0 } }
    (s.chan .zero).ring.active = true ∧ (s.chan .zero).ring.pos = .ready ∧ (s.chan .zero).ring.cancel = true ∧
    (u.chan .zero).ring.pos = .ready ∧ (u.chan .zero).ring.cancel = false ∧
    (u.chan .zero).cad.total ≤ u.env.now - (u.chan .zero).ring.t0 ∧ u.env.sched = .ringer .zero :: [] ∧
    (after (step s)).map (fun t => (t.chan .zero).ring.pos) = some (.wantExit .cancelled) ∧
    (after (step u)).map (fun t => (t.chan .zero).ring.pos) = some (.wantExit .exhausted) := by decide +kernel

/-- An exit whose `SetLineFeed(IDLE)` runs the bracket, one that is guarded, one that fails at once. -/
theorem witness_RingerExitReportsAndStops_want :
    let s := fun as => ringingAt { freshRing with pos := .wantExit .exhausted } as (List.replicate 3 (.ringer .zero))
    let full := s (answering [0x44, 0xFF, 0, 0, 0])
    ((full.chan .zero).ring.active = true ∧ (full.chan .zero).ring.pos = .wantExit .exhausted ∧ full.blk.grant = .none ∧
      full.env.sched = List.replicate (3 + (lfFailLog .zero .ok).length) (.ringer .zero) ++ [] ∧ full.env.resets = []) ∧
    LinefeedRun full.par .zero .idle (bracketOps full.par .zero .idle 0x44 0xFF) full.env.answers .ok true ∧
    LinefeedRun full.par .zero .idle [.read .zero 0x1E (.data 0x42)] (s [.data 0x42]).env.answers .ok false ∧
    LinefeedRun full.par .zero .idle [.read .zero 0x1E .failed] (s [.fail]).env.answers (.commError 0x1E) false :=
  ⟨⟨rfl, rfl, rfl, rfl, rfl⟩, .full _ _ _ lfGuards_not_idle (bracket_answered _ _ _ _),
    .guarded _ (by unfold lfGuards; decide),
    .failed 0x44 0xFF 0 (.read .zero 0x1E (.data 0x44)) [] lfGuards_not_idle (by decide) .nil⟩

theorem witness_RingerExitReportsAndStops :
    let s := ringingAt { freshRing with pos := .haveExit .cancelled (.commError 0x1E) } [] (List.replicate 3 (.ringer .zero))
    (s.chan .zero).ring.active = true ∧ (s.chan .zero).ring.pos = .haveExit .cancelled (.commError 0x1E) ∧
    s.env.sched = List.replicate (2 + (lfFailLog .zero (.commError 0x1E)).length) (.ringer .zero) ++ [] ∧
    events (steps 3 s) = some [.log .zero .ringLfFail 1, .ringEnd .zero .cancelled] := by decide +kernel

theorem witness_PhaseDurationFitsInTheTimeRemaining :
    let s := ringingAt { freshRing with t0 := 0xFFFFFF00 } [] [.ringer .zero]
    s.env.sched = .ringer .zero :: [] ∧ (s.chan .zero).ring.pos ≠ .wantPhase .ringing 500 ∧
    (after (step s)).map (fun u => (u.chan .zero).ring.pos) = some (.wantPhase .ringing 500) := by decide

theorem witness_HookSampleClassifiesOneLevelChange :
    (hooked ⟨.onhook, 1000, 0, false⟩).Calm ∧ activeChan (hooked ⟨.onhook, 1000, 0, false⟩).blk.n 0 = some .zero :=
  ⟨⟨⟨rfl, rfl⟩, rfl⟩, by decide⟩

theorem witness_HookTickReportsTimeoutOrDigit :
    (hooked ⟨.onhook, 1000, 3, true⟩).Calm ∧ activeChan (hooked ⟨.onhook, 1000, 3, true⟩).blk.n 0 = some .zero :=
  ⟨⟨⟨rfl, rfl⟩, rfl⟩, by decide⟩

theorem witness_HookTickReportsTimeoutOrDigit_boundaries :
    thresholdsT.minInterDigit ≤ (1300 : Word) - 1000 ∧ ¬ thresholdsT.minHookTimeout < (3000 : Word) - 1000 ∧
    thresholdsT.minHookTimeout < (3001 : Word) - 1000 ∧ ¬ thresholdsT.minInterDigit ≤ (1299 : Word) - 1000 := by decide

theorem witness_OneReportForEachLevelChange :
    (hooked ⟨.onhook, 1000, 3, true⟩).Calm ∧ activeChan (hooked ⟨.onhook, 1000, 3, true⟩).blk.n 0 = some .zero ∧
    ((hooked ⟨.onhook, 1000, 0, false⟩).chan .zero).hook.await = false ∧
    events (exec (.hookTick 0 1300) (hooked ⟨.onhook, 1000, 3, true⟩)) ≠ some (hooked ⟨.onhook, 1000, 3, true⟩).out.events :=
  ⟨⟨⟨rfl, rfl⟩, rfl⟩, by decide, rfl, by decide⟩

/-- A step that flashes: its detector operation and its event. -/
theorem witness_OneReportForEachLevelChange_step :
    let s := interruptAt (.haveHook 0 .zero [] (some 0x00)) [] [.interrupt]
    let thr := (s.chan .zero).thr
    (after (step s)).map (fun u => (decide (u.blk ≠ Block.reset s.par), (u.chan .zero).hook,
      u.out.events.filter (Event.detected .zero))) =
      some (true, detect thr .zero [.sample .offhook 0] (s.chan .zero).hook) := by decide +kernel

/-- A step that starts a detector runs INIT, and one that ticks runs HOOK_TICK. -/
theorem witness_OneReportForEachLevelChange_runs :
    (requested ⟨0x70000000, 0⟩ [.command]).runs .init ∧ (requested ⟨0x51000000, 9⟩ [.command]).runs (.hookTick 0 9) ∧
    chanOf 0 = some .zero :=
  ⟨⟨rfl, rfl, _, _, rfl, by decide⟩, ⟨rfl, rfl, _, _, rfl, by decide⟩, by decide⟩

theorem witness_OnlyTheDetectorChangesHookState :
    let s := interruptAt (.haveHook 5 .zero [] (some 0x00)) [] [.interrupt]
    s.env.sched = .interrupt :: [] ∧ Slot.interrupt ≠ .command ∧
    (after (step s)).map (fun u => decide (u.blk ≠ Block.reset s.par ∧ (u.chan .zero).hook ≠ (s.chan .zero).hook)) =
      some true := by decide

theorem witness_CfgRdReturnsTheField : (machine 0 []).Calm ∧ chanOf 1 = some .one := ⟨⟨⟨rfl, rfl⟩, rfl⟩, by decide⟩

theorem witness_CfgWrIsReadBackAndNothingElseMoves :
    (machine 0 []).Calm ∧ (Instr.cfgWr 1 0x21F 7).wf = true ∧ isGlobalIndex 0x21F = false ∧ (1 : BitVec 4).toNat < 2 ∧
    ((machine 0 []).chan .one).ring.active = false ∧ (Instr.cfgWr 0 0x000 7).wf = true ∧ (Instr.cfgWr 0 0x006 7).wf = true ∧
    (Instr.cfgWr 1 0x201 7).wf = true ∧ (Instr.cfgWr 1 0x308 7).wf = true ∧ (Instr.cfgWr 0 0x100 7).wf = true :=
  ⟨machine_calm _ _, by decide, by decide, by decide, rfl, by decide, by decide, by decide, by decide, by decide⟩

theorem witness_BusyAndInvalidCalChangeNothing :
    (ringingAt freshRing [] []).Calm ∧ chanOf 0 = some .zero ∧ ((ringingAt freshRing [] []).chan .zero).ring.active = true ∧
    (0x210 ≤ (0x21F : BitVec 12).toNat ∧ (0x21F : BitVec 12).toNat ≤ 0x21F) ∧ (3 : Byte) ≠ 4 :=
  ⟨⟨⟨rfl, rfl⟩, rfl⟩, by decide, rfl, by decide, by decide⟩

theorem witness_BadChannelsChangeNothing :
    (machine 1 []).Calm ∧ activeChannelField (.regRd 1 0) = some 1 ∧ (machine 1 []).blk.n.val ≤ (1 : BitVec 4).toNat ∧
    isChannelIndex 0x100 = true ∧ 2 ≤ (2 : BitVec 4).toNat ∧ isGlobalIndex 0x006 = true ∧ (1 : BitVec 4) ≠ 0 :=
  ⟨machine_calm _ _, by decide, by decide, by decide, by decide, by decide, by decide⟩

theorem witness_InitProbesTheChannels :
    (machine 0 (answering [0xCB, 0xFF, 2])).Quiet ∧ (machine 0 (answering [0xCB, 0xCB, 2, 0])).Quiet ∧
    (machine 0 (answering [0xCB, 0xFF, 2])).blk.ch0.ring.active = false ∧
    (machine 0 (answering [0xCB, 0xFF, 2])).blk.ch1.ring.active = false ∧ (0xCB : Byte) ≠ 0xFF :=
  ⟨machine_quiet _ _, machine_quiet _ _, rfl, rfl, by decide⟩

theorem witness_FailedInitLeavesNoActiveChannel :
    let s := machine 2 [.data 0xCB, .fail]
    s.Quiet ∧ s.blk.ch0.ring.active = false ∧ s.blk.ch1.ring.active = false ∧ (0xCB : Byte) ≠ 0xFF ∧
    s.env.answers = answering [0xCB] ++ .fail :: [] ∧
    (machine 2 [.data 0xFF]).env.answers = .data 0xFF :: [] ∧ (machine 2 [.fail]).env.answers = .fail :: [] ∧
    (machine 2 [.data 0xCB, .data 0xFF, .fail]).env.answers = answering [0xCB, 0xFF] ++ .fail :: [] ∧
    (machine 2 [.data 0xCB, .data 0xCB, .data 0x02, .fail]).env.answers = answering [0xCB, 0xCB, 0x02] ++ .fail :: [] :=
  ⟨machine_quiet _ _, rfl, rfl, by decide, rfl, rfl, rfl, rfl, rfl⟩

theorem witness_FailedInitLeavesNoActiveChannel_whatever_the_cause :
    (after (exec .init (machine 2 [.data 0xCB, .fail]))).map
      (fun t => (t.out.resps.getLast?, decide (t.out.resps.length = (machine 2 [.data 0xCB, .fail]).out.resps.length + 1),
        t.env.resets, activeChannelField (.getHook 0))) =
      some (some ⟨.initError, 0⟩, true, [], some 0) := by decide

theorem witness_GetNchReturnsTheChannelCount : (machine 2 []).Calm := machine_calm _ _

theorem witness_EveryCommandRespondsWithinTheStatusTable :
    answersOnHostPort .getNch = true ∧ (machine 2 []).blk.grant = .none ∧ (after (exec .getNch (machine 2 []))).isSome = true := by
  decide

theorem witness_NobodyElseUsesAHeldTransport :
    ((ringingAt { freshRing with pos := .wantExit .cancelled } [] []).setGrant .command).blk.grant ≠ .none := by decide

/-- A SET_LF whose unit a ringer may not enter: the ringer's exit, due at the point before it and again within it, stands before
the unit as a unit of its own, and the command's five operations are contiguous. -/
theorem witness_NobodyElseUsesAHeldTransport_contiguous :
    let s := ringingAt { freshRing with pos := .wantExit .cancelled }
      (answering [0x42] ++ answering [0x11, 0xFF, 0, 0, 0]) [.ringer .zero, .command, .ringer .zero, .interrupt]
    oneUnit (.setLf 1 .ringing) = true ∧ s.blk.grant = .none ∧ resps (exec (.setLf 1 .ringing) s) = some [⟨.ok, 0⟩] ∧
    wire (exec (.setLf 1 .ringing) s) =
      some ([.read .zero 0x1E (.data 0x42)] ++ bracketOps s.par .one .ringing 0x11 0xFF ++ []) := by decide +kernel

theorem witness_OutputsOnlyGrow : (after (step (requested ⟨0x71000000, 0⟩ [.command]))).isSome = true := by decide

theorem witness_OtherCommandsKeepTheConfiguration :
    answersOnHostPort .getNch = true ∧ (∀ ch idx v, Instr.getNch ≠ .cfgWr ch idx v) ∧ (∀ en, Instr.getNch ≠ .irqEnable en) ∧
    Instr.getNch ≠ .init ∧ resps (exec .getNch (machine 2 [])) ≠ some (machine 2 []).out.resps :=
  by
  refine ⟨rfl, ?_, ?_, ?_, by decide⟩ <;> intros <;> exact Instr.noConfusion

theorem witness_LinefeedStateFollowsACompletedBracket :
    (machine 1 (answering [0x11, 0xFF, 0, 0, 0])).env.sched = [] ∧
    (match (setLineFeed point .zero .ringing).run (machine 1 (answering [0x11, 0xFF, 0, 0, 0])) with
      | .ok r _ => decide (r = .ok)
      | .error _ _ => false) = true := by decide

/-- A step that changes the stored linefeed state, with the bracket on the wire. -/
theorem witness_LinefeedStateFollowsACompletedBracket_step :
    let s := { requested ⟨0x30000003, 0⟩ [.command] with
      env := { (requested ⟨0x30000003, 0⟩ [.command]).env with answers := answering [0x11, 0xFF, 0, 0, 0] } }
    (after (step s)).map (fun t => (decide (t.blk ≠ Block.reset s.par), (t.chan .zero).lf, t.out.wire)) =
      some (true, .ringing, bracketOps s.par .zero .ringing 0x11 0xFF) := by decide +kernel

theorem witness_ResetInputRestoresTheBlock :
    ((ringingAt freshRing [] [.reset]).setGrant .command).env.sched = .reset :: [] ∧ answersOnHostPort .getNch = true ∧
    ((machine 2 []).setResets [true]).env.resets = true :: [] := by decide

/-- The moments of a HOOK_SAMPLE that has flashed and of a REG_RD whose read has failed. -/
theorem witness_ResetInputRestoresTheBlock_response :
    let s := (hooked ⟨.onhook, 1000, 0, false⟩).setResets [false, true]
    let r := (machine 1 [.fail]).setResets [false, true]
    s.Idle ∧ activeChan s.blk.n 0 = some .zero ∧ Level.offhook ≠ (s.chan .zero).hook.level ∧
    (s.chan .zero).thr.minFlash ≤ 1200 - (s.chan .zero).hook.lastT ∧
    1200 - (s.chan .zero).hook.lastT ≤ (s.chan .zero).thr.maxFlash ∧ s.env.resets = false :: true :: [] ∧
    r.Idle ∧ activeChan r.blk.n 0 = some .zero ∧ r.env.sched = [] ∧ r.env.answers = .fail :: [] ∧
    r.env.resets = false :: true :: [] :=
  ⟨⟨rfl, rfl⟩, by decide, by decide, by decide, by decide, rfl, ⟨rfl, rfl⟩, by decide, rfl, rfl, rfl⟩

theorem witness_ResetInputRestoresTheBlock_flags :
    let s := interruptAt (.dispatch 5 .zero [1, 0] [1, 0] []) [] [.interrupt, .reset]
    s.blk.irqPos = .dispatch 5 .zero (1 :: [0]) [1, 0] [] ∧ s.env.sched = .interrupt :: .reset :: [] ∧
    events (steps 2 s) = some [.flag .zero 1] := by decide

theorem witness_ResetInputRestoresTheBlock_ringer :
    let s := (ringingAt { freshRing with pos := .wantPhase .ringing 500 } (answering [0x11]) [.ringer .zero]).setResets
      [false, true]
    ((s.chan .zero).ring.active = true ∧ (s.chan .zero).ring.pos = .wantPhase .ringing 500 ∧ s.blk.grant = .none ∧
      s.env.sched = .ringer .zero :: [] ∧ s.env.answers = .data 0x11 :: [] ∧ s.env.resets = false :: true :: []) ∧
    ¬ lfGuards s.par .ringing 0x11 :=
  ⟨⟨rfl, rfl, rfl, rfl, rfl, rfl⟩, lfGuards_not _⟩

/-- A reset between two operations of a ringer's linefeed unit: the first operation stands, nothing is logged (R350). -/
theorem test_reset_within_a_ringer_unit :
    let s := (ringingAt { freshRing with pos := .wantPhase .ringing 500 } (answering [0x11, 0xFF]) [.ringer .zero]).setResets
      [false, true]
    (wire (step s), events (step s), (after (step s)).map (fun t => (t.chan .zero).ring.active)) =
      (some [.read .zero 0x1E (.data 0x11)], some [], some false) := by decide +kernel

theorem witness_EveryStepKeepsTheInvariant : (requested ⟨0x71000000, 0⟩ [.command]).Inv := by
  refine ⟨⟨by decide +kernel, by decide, by decide, ⟨by decide, ?_⟩, ?_, ?_⟩, ⟨rfl, rfl⟩, rfl⟩
  · intro h hh
    cases hh
  · exact ⟨fun h => absurd h (by decide), fun h => absurd h (by decide), fun _ => rfl, fun _ => rfl⟩
  · exact ⟨fun h => absurd h (by decide), fun h => absurd h (by decide), fun _ => rfl, fun _ => rfl⟩

theorem witness_AcceptedPatternsAreValidCadences :
    parsePattern "2(0.5/0.5)".toList = some ⟨2000, [500, 500]⟩ ∧ cadence.n = BitVec.ofNat 8 [(500 : Word), 500].length := by
  decide

end Sys2Proof.Tests
end

