-- ==== Sys2Proof/Proofs/OutputGrowth.lean ====
section
/-! The outputs only grow and the parameters stay: a relation closed under every change a step makes, a reset
included. -/

namespace Sys2Proof.Machine

/-- What O52 says of a step, as the relation that is to be closed under each of its changes (R15, R103, R9). -/
def GrowsFrom (s t : State) : Prop := OutputGrows s t ∧ t.par = s.par

theorem GrowsFrom.trans {s t u : State} (h1 : GrowsFrom s t) (h2 : GrowsFrom t u) : GrowsFrom s u := by
  obtain ⟨⟨w1, r1, e1⟩, p1⟩ := h1
  obtain ⟨⟨w2, r2, e2⟩, p2⟩ := h2
  exact ⟨⟨w1.trans w2, r1.trans r2, e1.trans e2⟩, p2.trans p1⟩

/-- A change that touches neither the outputs nor the parameters. -/
theorem GrowsFrom.of_same {s t : State} (hp : t.par = s.par) (ho : t.out = s.out) : GrowsFrom s t := by
  refine ⟨?_, hp⟩
  unfold OutputGrows
  rw [ho]
  exact ⟨List.prefix_rfl, List.prefix_rfl, List.prefix_rfl⟩

/-- Growth, and then such a change: a reset is one, since it overwrites the block only. -/
theorem GrowsFrom.then_same {s t u : State} (h : GrowsFrom s t) (hp : u.par = t.par) (ho : u.out = t.out) :
    GrowsFrom s u := h.trans (.of_same hp ho)

theorem logWire_growsFrom (s : State) (w : WireOp) : GrowsFrom s (s.logWire w) :=
  ⟨⟨List.prefix_append _ _, List.prefix_rfl, List.prefix_rfl⟩, rfl⟩

theorem present_growsFrom (s : State) (r : Response) : GrowsFrom s (s.present r) :=
  ⟨⟨List.prefix_rfl, List.prefix_append _ _, List.prefix_rfl⟩, rfl⟩

theorem emit_growsFrom (s : State) (e : Event) : GrowsFrom s (s.emit e) :=
  ⟨⟨List.prefix_rfl, List.prefix_rfl, List.prefix_append _ _⟩, rfl⟩

/-- A hook change, and the event it may report (R280, R282). -/
theorem setHook_emit_growsFrom (s : State) (c : Chan) (h : Hook) (e : Event) : GrowsFrom s ((s.setHook c h).emit e) :=
  (GrowsFrom.of_same rfl rfl).trans (emit_growsFrom (s.setHook c h) e)

theorem feedHook_growsFrom (s : State) (c : Chan) (lvl : Level) (t : Word) : GrowsFrom s (s.feedHook c lvl t) := by
  unfold State.feedHook
  split
  · exact setHook_emit_growsFrom s c _ _
  · exact .of_same rfl rfl

theorem tickHook_growsFrom (s : State) (c : Chan) (t : Word) : GrowsFrom s (s.tickHook c t) := by
  unfold State.tickHook
  dsimp only
  split
  · exact setHook_emit_growsFrom s c _ _
  · exact .of_same rfl rfl

theorem writeField_growsFrom (s : State) (v : Word) (f : CfgField) : GrowsFrom s (s.writeField v f) := by
  cases f with
  | global f => exact .of_same rfl rfl
  | chan c f => exact .of_same rfl rfl

theorem growsFrom_closedOps : ClosedOps GrowsFrom GrowsFrom where
  refl _ := .of_same rfl rfl
  trans := GrowsFrom.trans
  reset h := h.then_same rfl rfl
  transReset := GrowsFrom.trans
  answer s := by
    obtain ⟨hp, -, ho, -⟩ := takeAnswer_keeps s
    exact .of_same hp ho
  wire := logWire_growsFrom
  resets _ _ := .of_same rfl rfl
  lf _ _ _ h _ := h.then_same rfl rfl

theorem growsFrom_closed : Closed GrowsFrom GrowsFrom where
  toClosedOps := growsFrom_closedOps
  resetFree h := h.then_same rfl rfl
  grant _ _ := .of_same rfl rfl
  ramTx _ _ := .of_same rfl rfl
  sched _ _ := .of_same rfl rfl
  now _ _ := .of_same rfl rfl
  consume _ := .of_same rfl rfl
  event s e _ := emit_growsFrom s e
  queue _ _ _ _ := .of_same rfl rfl
  take s e rest _ := by
    obtain ⟨hp, ho, -⟩ := takeEvent_keeps s e rest
    exact .of_same hp ho
  irqPos _ _ _ := .of_same rfl rfl
  flagsRead _ _ _ _ _ _ _ _ := .of_same rfl rfl
  feed := feedHook_growsFrom
  cancel s c := by
    obtain ⟨cancel, e⟩ := requestCancel_eq s c
    rw [e]
    exact .of_same rfl rfl
  phase s c _ := by
    obtain ⟨idx, pos, e⟩ := startPhase_eq s c
    rw [e]
    exact .of_same rfl rfl
  ringPos _ _ _ _ := .of_same rfl rfl
  wait _ _ _ _ := .of_same rfl rfl
  stop _ _ := .of_same rfl rfl

theorem growsFrom_closedStep : ClosedStep GrowsFrom GrowsFrom where
  toClosed := growsFrom_closed
  turn _ _ := .of_same rfl rfl
  request _ := .of_same rfl rfl
  begin _ _ := .of_same rfl rfl
  finish _ := .of_same rfl rfl
  present := present_growsFrom
  config s v f _ := writeField_growsFrom s v f
  enable _ _ := .of_same rfl rfl
  channels _ _ := .of_same rfl rfl
  start _ _ _ := .of_same rfl rfl
  tick := tickHook_growsFrom
  ring _ _ _ _ := .of_same rfl rfl

/-- Settles O52: growth is closed under every change of a step, and a reset clears no output (log entry 15). -/
theorem outputsOnlyGrow : Obligations.OutputsOnlyGrow := by
  intro s t e
  obtain noReset | reset := growsFrom_closedStep.step e
  · exact noReset
  · exact reset

end Sys2Proof.Machine
end

