-- ==== Sys2Proof/Proofs/Resets.lean ====
section
/-! Resets: how a step that a reset cut short leaves the block. -/

namespace Sys2Proof.Machine

/-- A reset happened, and nothing after it changed the block (R350, R351). -/
def WasReset (s t : State) : Prop := t.par = s.par ∧ t.blk = Block.reset s.par

theorem WasReset.of_blockReset {s t : State} (h : t.par = s.par) : WasReset s t.blockReset := ⟨h, congrArg Block.reset h⟩

/-- What happened before the reset does not show in the block. -/
theorem WasReset.after {s t u : State} (h : t.par = s.par) (hr : WasReset t u) : WasReset s u := by
  obtain ⟨hp, hb⟩ := hr
  exact ⟨hp.trans h, by rw [hb, h]⟩

/-- Nobody holds the transport after a reset, so freeing it changes nothing. -/
theorem WasReset.free {s t : State} (h : WasReset s t) : WasReset s (t.setGrant .none) := by
  obtain ⟨hp, hb⟩ := h
  exact ⟨hp, by rw [State.setGrant_blk, hb]; rfl⟩

end Sys2Proof.Machine
end

