-- ==== Sys2Proof/Proofs/Soundness.lean ====
section
/-! The invariant's `Sound` part, as a relation closed under every change of a step. -/

namespace Sys2Proof.Machine

/-! ### A channel's fields -/

theorem ChanState.Ok.setHook {x : ChanState} (hx : x.Ok) {h : Hook} (hh : h.await = false → h.count = 0#8) :
    { x with hook := h }.Ok := by
  obtain ⟨hcad, hcancel, hpos, -⟩ := hx
  exact ⟨hcad, hcancel, hpos, hh⟩

/-- A live ringer may move on as long as its index stays inside the cadence. -/
theorem ChanState.Ok.setLiveRing {x : ChanState} (hx : x.Ok) {r : Ring} (hv : x.cad.valid = true)
    (hi : r.idx.toNat < x.cad.n.toNat) (ha : r.active = true) : { x with ring := r }.Ok := by
  obtain ⟨-, -, -, hhook⟩ := hx
  exact ⟨fun _ => ⟨hv, hi⟩, fun _ => ha, fun h => absurd (ha.symm.trans h) (by decide), hhook⟩

theorem ChanState.Ok.stop {x : ChanState} (hx : x.Ok) :
    { x with ring := { x.ring with active := false, cancel := false, pos := .ready } }.Ok := by
  obtain ⟨-, -, -, hhook⟩ := hx
  exact ⟨(nomatch ·), (nomatch ·), fun _ => rfl, hhook⟩

theorem ChanState.reset_ok (thr : HookThresholds) : (ChanState.reset thr).Ok :=
  ⟨(nomatch ·), (nomatch ·), fun _ => rfl, fun _ => rfl⟩

/-- A sample that changes the level either resets the pulses or awaits a timeout (R280). -/
theorem hookSample_pulses {thr : HookThresholds} {lvl : Level} {t : Word} {h : Hook} (hh : h.await = false → h.count = 0#8) :
    (hookSample thr lvl t h).1.await = false → (hookSample thr lvl t h).1.count = 0#8 := by
  unfold hookSample
  split
  · exact hh
  · dsimp only
    split
    · exact fun _ => rfl
    · exact fun h' => nomatch h'

/-- A tick leaves the state or resets it (R282). -/
theorem hookTick_pulses {thr : HookThresholds} {t : Word} {h : Hook} (hh : h.await = false → h.count = 0#8) :
    (hookTick thr t h).await = false → (hookTick thr t h).count = 0#8 := by
  unfold hookTick
  split
  · exact hh
  · exact fun _ => rfl
  · exact fun _ => rfl

/-- The next phase index is one of the cadence (R253). -/
theorem nextIdx_lt {cad : Cadence} {idx : Byte} (h : idx.toNat < cad.n.toNat) : (nextIdx cad idx).toNat < cad.n.toNat := by
  have hlt : (idx.toNat + 1) % cad.n.toNat < cad.n.toNat := Nat.mod_lt _ (by omega)
  have hn := cad.n.isLt
  unfold nextIdx
  rw [BitVec.toNat_ofNat, Nat.mod_eq_of_lt (by omega)]
  exact hlt

theorem two_le_of_valid {cad : Cadence} (h : cad.valid = true) : 2 ≤ cad.n.toNat := by
  simp only [Cadence.valid, Bool.and_eq_true, decide_eq_true_eq] at h
  obtain ⟨⟨⟨-, htwo⟩, -⟩, -⟩ := h
  exact htwo

/-- A field that is no cadence field leaves the cadence; none changes the ringer or the detector (R25). -/
theorem writeField_cad {x : ChanState} {v : Word} {f : ChanField} (h : f.isCadence = false) : (x.writeField v f).cad = x.cad := by
  cases f <;> first | rfl | cases h

theorem writeField_keeps (x : ChanState) (v : Word) (f : ChanField) :
    (x.writeField v f).ring = x.ring ∧ (x.writeField v f).hook = x.hook ∧ (x.writeField v f).lf = x.lf := by
  cases f <;> exact ⟨rfl, rfl, rfl⟩

/-- A write to a channel's configuration that is not refused: the cadence of a ringing channel stays (R25). -/
theorem ChanState.Ok.writeField {x : ChanState} (hx : x.Ok) {v : Word} {f : ChanField}
    (hf : (f.isCadence && x.ring.active) = false) : (x.writeField v f).Ok := by
  obtain ⟨hcad, hrest⟩ := hx
  obtain ⟨er, eh, -⟩ := writeField_keeps x v f
  refine ⟨fun ha => ?_, ?_⟩
  · rw [er] at ha ⊢
    rw [ha, Bool.and_true] at hf
    rw [writeField_cad hf]
    exact hcad ha
  · rw [er, eh]
    exact hrest

/-! ### The flags -/

theorem flagsOk_nil (p : Params) : flagsOk p [] := ⟨List.nodup_nil, fun _ h => nomatch h⟩

/-- A flag is added at its first sight only (R193). -/
theorem flagsOk_addFlag {p : Params} {flags : List Nat} {e : FlagEntry} (h : flagsOk p flags)
    (he : e.within p.flagCount = true) : flagsOk p (addFlag flags e) := by
  cases e with
  | unmapped => exact h
  | noflag => exact h
  | flag k =>
    change flagsOk p (if k ∈ flags then flags else flags ++ [k])
    split
    · exact h
    · next hk =>
      obtain ⟨hnd, hlt⟩ := h
      have hk' : k < p.flagCount := of_decide_eq_true he
      refine ⟨by simpa using hnd.concat hk, ?_⟩
      intro x hx
      rcases List.mem_append.mp hx with hx | hx
      · exact hlt x hx
      · rwa [List.mem_singleton.mp hx]

/-- Every mapped flag is of the enumeration (R9). -/
theorem flagMap_within {p : Params} (h : p.wf = true) (i : Fin 3) (b : Fin 8) :
    (p.flagMap[i][b]).within p.flagCount = true := by
  simp only [Params.wf, Bool.and_eq_true, List.all_eq_true] at h
  obtain ⟨⟨⟨-, hmap⟩, -⟩, -⟩ := h
  exact hmap i (List.mem_finRange i) b (List.mem_finRange b)

theorem flagsOk_addFlags {p : Params} (hp : p.wf = true) (i : Fin 3) (r : Byte) {flags : List Nat} (h : flagsOk p flags) :
    flagsOk p (addFlags p i r flags) := by
  unfold addFlags
  generalize List.finRange 8 = bits
  induction bits generalizing flags with
  | nil => exact h
  | cons b bits ih =>
    rw [List.foldl_cons]
    refine ih ?_
    split
    · exact flagsOk_addFlag h (flagMap_within hp i b)
    · exact h

/-! ### The state -/

theorem State.Sound.chanOk {s : State} (h : s.Sound) (c : Chan) : (s.chan c).Ok := by
  obtain ⟨-, -, -, -, h0, h1⟩ := h
  cases c
  · exact h0
  · exact h1

theorem State.Sound.setChan {s : State} (h : s.Sound) (c : Chan) {x : ChanState} (hx : x.Ok) : (s.setChan c x).Sound := by
  obtain ⟨hp, hq, hn, hf, h0, h1⟩ := h
  cases c
  · exact ⟨hp, hq, hn, hf, hx, h1⟩
  · exact ⟨hp, hq, hn, hf, h0, hx⟩

theorem State.Sound.setHook {s : State} (h : s.Sound) (c : Chan) {k : Hook} (hk : k.await = false → k.count = 0#8) :
    (s.setHook c k).Sound := h.setChan c ((h.chanOk c).setHook hk)

theorem State.Sound.pulses {s : State} (h : s.Sound) (c : Chan) :
    (s.chan c).hook.await = false → (s.chan c).hook.count = 0#8 := by
  obtain ⟨-, -, -, hk⟩ := h.chanOk c
  exact hk

/-- A live ringer of a sound machine may take any index inside its cadence. -/
theorem State.Sound.setLiveRing {s : State} (h : s.Sound) {c : Chan} (hl : (s.chan c).ring.active = true) {r : Ring}
    (ha : r.active = true) (hi : (s.chan c).ring.idx.toNat < (s.chan c).cad.n.toNat → r.idx.toNat < (s.chan c).cad.n.toNat) :
    (s.setRing c r).Sound := by
  obtain ⟨hcad, -⟩ := h.chanOk c
  obtain ⟨hv, hidx⟩ := hcad hl
  exact h.setChan c ((h.chanOk c).setLiveRing hv (hi hidx) ha)

theorem State.Sound.setIrqPos {s : State} (h : s.Sound) {p : IrqPos} (hf : flagsOk s.par p.flags) :
    (s.setIrqPos p).Sound := by
  obtain ⟨hp, hq, hn, -, hc⟩ := h
  exact ⟨hp, hq, hn, hf, hc⟩

theorem State.Sound.setIrqQ {s : State} (h : s.Sound) {q : List IrqEvent} (hl : q.length ≤ s.par.irqQueueDepth) :
    (s.setIrqQ q).Sound := by
  obtain ⟨hp, -, -, hf, hc⟩ := h
  exact ⟨hp, hl, rfl, hf, hc⟩

theorem State.Sound.flags {s : State} (h : s.Sound) : flagsOk s.par s.blk.irqPos.flags := by
  obtain ⟨-, -, -, hf, -⟩ := h
  exact hf

/-- A reset leaves a sound machine. -/
theorem State.Sound.of_wasReset {s t : State} (h : s.Sound) (hr : WasReset s t) : t.Sound := by
  obtain ⟨hp, hb⟩ := hr
  unfold State.Sound
  rw [hp, hb]
  exact ⟨h.1, Nat.zero_le _, rfl, flagsOk_nil _, ChanState.reset_ok _, ChanState.reset_ok _⟩

theorem feedHook_sound {s : State} (h : s.Sound) (c : Chan) (lvl : Level) (t : Word) : (s.feedHook c lvl t).Sound := by
  have hk := hookSample_pulses (thr := (s.chan c).thr) (lvl := lvl) (t := t) (h.pulses c)
  unfold State.feedHook
  split
  all_goals
    next e =>
    rw [e] at hk
    exact h.setHook c hk

theorem tickHook_sound {s : State} (h : s.Sound) (c : Chan) (t : Word) : (s.tickHook c t).Sound := by
  have hk := h.setHook c (hookTick_pulses (thr := (s.chan c).thr) (t := t) (h.pulses c))
  unfold State.tickHook
  dsimp only
  split
  · exact hk
  · exact hk

theorem takeEvent_sound {s : State} (h : s.Sound) {e : IrqEvent} {rest : List IrqEvent} (hq : s.blk.irqQ = e :: rest) :
    (s.takeEvent e rest).Sound := by
  have hlen : s.blk.irqQ.length ≤ s.par.irqQueueDepth := h.2.1
  rw [hq, List.length_cons] at hlen
  have hs := h.setIrqQ (q := rest) (by omega)
  unfold State.takeEvent
  split
  · exact hs.setIrqPos (flagsOk_nil _)
  · exact hs.setIrqPos (flagsOk_nil _)

theorem queueEvent_sound {s : State} (h : s.Sound) (hr : s.hasRoom = true) (payload : Option Byte) (t : Word) :
    (s.queueEvent payload t).Sound := by
  have hr : s.blk.irqQ.length < s.par.irqQueueDepth := of_decide_eq_true hr
  exact State.Sound.setIrqQ (s := s.consumeEvent) h (by simpa using hr)

theorem requestCancel_sound {s : State} (h : s.Sound) (c : Chan) : (s.requestCancel c).Sound := by
  unfold State.requestCancel
  split
  · next ha => exact h.setLiveRing ha ha id
  · exact h

theorem startPhase_sound {s : State} (h : s.Sound) {c : Chan} (ha : (s.chan c).ring.active = true) :
    (s.startPhase c).Sound := by
  unfold State.startPhase State.setRingPos
  dsimp only
  split
  · exact h.setLiveRing ha ha id
  · split
    · exact h.setLiveRing ha ha id
    · exact h.setLiveRing ha ha nextIdx_lt

theorem beginRing_sound {s : State} (h : s.Sound) {c : Chan} (hv : (s.chan c).cad.valid = true) : (s.beginRing c).Sound :=
  h.setChan c ((h.chanOk c).setLiveRing hv (Nat.lt_of_lt_of_le Nat.two_pos (two_le_of_valid hv)) rfl)

theorem setLf_sound {s : State} (h : s.Sound) (c : Chan) (x : LfState) : (s.setLf c x).Sound := h.setChan c (h.chanOk c)

theorem writeField_sound {s : State} (h : s.Sound) (v : Word) {f : CfgField} (hf : s.fieldBusy f = false) :
    (s.writeField v f).Sound := by
  cases f with
  | global f => cases f <;> exact h
  | chan c f => exact h.setChan c ((h.chanOk c).writeField hf)

/-- The parameters stay, and a sound machine stays sound: what is closed under every change of a step. -/
def SoundKept (s t : State) : Prop := t.par = s.par ∧ (s.Sound → t.Sound)

theorem SoundKept.trans {s t u : State} (h1 : SoundKept s t) (h2 : SoundKept t u) : SoundKept s u :=
  ⟨h2.1.trans h1.1, h2.2 ∘ h1.2⟩

theorem soundKept_closedOps : ClosedOps SoundKept WasReset where
  refl _ := ⟨rfl, id⟩
  trans := SoundKept.trans
  reset h := .of_blockReset h.1
  transReset h := .after h.1
  answer s := by
    obtain ⟨hp, hb, -⟩ := takeAnswer_keeps s
    refine ⟨hp, fun h => ?_⟩
    unfold State.Sound
    rw [hp, hb]
    exact h
  wire _ _ := ⟨rfl, id⟩
  resets _ _ := ⟨rfl, id⟩
  lf c req _ h _ := h.trans ⟨rfl, fun ht => setLf_sound ht c req⟩

theorem soundKept_closed : Closed SoundKept WasReset where
  toClosedOps := soundKept_closedOps
  resetFree := .free
  grant _ _ := ⟨rfl, id⟩
  ramTx _ _ := ⟨rfl, id⟩
  sched _ _ := ⟨rfl, id⟩
  now _ _ := ⟨rfl, id⟩
  consume _ := ⟨rfl, id⟩
  event _ _ _ := ⟨rfl, id⟩
  queue _ payload t hr := ⟨rfl, fun h => queueEvent_sound h hr payload t⟩
  take s e rest hq := ⟨(takeEvent_keeps s e rest).1, fun h => takeEvent_sound h hq⟩
  irqPos s p hp := ⟨rfl, fun h => h.setIrqPos (by
    rcases hp with hp | hp <;> rw [hp]
    · exact flagsOk_nil _
    · exact h.flags)⟩
  flagsRead s t c i flags todo b hp := ⟨rfl, fun h => h.setIrqPos (by
    have hf := h.flags
    rw [hp] at hf
    have hf := flagsOk_addFlags h.1 i b hf
    unfold afterFlag
    split
    · exact hf
    · exact hf)⟩
  feed s c lvl t := ⟨(feedHook_keeps s c lvl t).1, fun h => feedHook_sound h c lvl t⟩
  cancel s c := ⟨by obtain ⟨_, e⟩ := requestCancel_eq s c; rw [e]; rfl, fun h => requestCancel_sound h c⟩
  phase s c ha := ⟨by obtain ⟨_, _, e⟩ := startPhase_eq s c; rw [e]; rfl, fun h => startPhase_sound h ha⟩
  ringPos _ _ _ ha := ⟨rfl, fun h => h.setLiveRing ha ha id⟩
  wait _ _ _ ha := ⟨rfl, fun h => h.setLiveRing ha ha id⟩
  stop _ c := ⟨rfl, fun h => h.setChan c (h.chanOk c).stop⟩

theorem soundKept_closedStep : ClosedStep SoundKept WasReset where
  toClosed := soundKept_closed
  turn _ _ := ⟨rfl, id⟩
  request _ := ⟨rfl, id⟩
  begin _ _ := ⟨rfl, id⟩
  finish _ := ⟨rfl, id⟩
  present _ _ := ⟨rfl, id⟩
  config s v f hf := ⟨(writeField_growsFrom s v f).2, fun h => writeField_sound h v hf⟩
  enable _ _ := ⟨rfl, id⟩
  channels _ _ := ⟨rfl, id⟩
  start _ c _ := ⟨rfl, fun h => h.setHook c fun _ => rfl⟩
  tick s c t := ⟨(tickHook_keeps s c t).1, fun h => tickHook_sound h c t⟩
  ring _ _ hv _ := ⟨rfl, fun h => beginRing_sound h hv⟩

/-- A sound machine stays sound across every step, a reset within it included. -/
theorem step_sound {s t : State} (h : s.Sound) (e : step s = .next t) : t.Sound := by
  obtain kept | reset := soundKept_closedStep.step e
  · exact kept.2 h
  · exact h.of_wasReset reset

end Sys2Proof.Machine
end

