-- ==== Sys2Proof/Proofs/StepInvariant.lean ====
section
/-! Who holds the transport and what the command agent is doing: what the others' moves, the host commands and a step leave of
both (R24, R43, R80). -/

namespace Sys2Proof.Machine

/-- The command agent is idle and the transport free, as at every step boundary (R80, R101). -/
def State.AtRest (s : State) : Prop := s.Idle ∧ s.blk.grant = .none

theorem WasReset.atRest {s t : State} (h : WasReset s t) : t.AtRest := by
  unfold State.AtRest State.Idle
  rw [h.2]
  exact ⟨⟨rfl, rfl⟩, rfl⟩

/-! ### The moves of the others -/

/-- The command agent's position stays, and a free transport is free again. -/
def AgentKept (s t : State) : Prop :=
  t.blk.cmd = s.blk.cmd ∧ t.blk.ramTx = s.blk.ramTx ∧ (s.blk.grant = .none → t.blk.grant = .none)

theorem AgentKept.of_same {s t : State} (hc : t.blk.cmd = s.blk.cmd) (hx : t.blk.ramTx = s.blk.ramTx)
    (hg : t.blk.grant = s.blk.grant) : AgentKept s t := ⟨hc, hx, fun h => hg.trans h⟩

theorem AgentKept.trans {s t u : State} (h1 : AgentKept s t) (h2 : AgentKept t u) : AgentKept s u := by
  obtain ⟨c1, x1, g1⟩ := h1
  obtain ⟨c2, x2, g2⟩ := h2
  exact ⟨c2.trans c1, x2.trans x1, g2 ∘ g1⟩

theorem AgentKept.atRest {s t : State} (h : AgentKept s t) (hs : s.AtRest) : t.AtRest := by
  obtain ⟨hc, hx, hg⟩ := h
  obtain ⟨⟨c, x⟩, g⟩ := hs
  exact ⟨⟨hc.trans c, hx.trans x⟩, hg g⟩

theorem setChan_agentKept (s : State) (c : Chan) (x : ChanState) : AgentKept s (s.setChan c x) :=
  .of_same (Block.setChan_cmd _ _ _) (Block.setChan_ramTx _ _ _) (Block.setChan_grant _ _ _)

theorem requestCancel_agentKept (s : State) (c : Chan) : AgentKept s (s.requestCancel c) := by
  obtain ⟨_, e⟩ := requestCancel_eq s c
  rw [e]
  exact setChan_agentKept s c _

theorem feedHook_agentKept (s : State) (c : Chan) (lvl : Level) (t : Word) : AgentKept s (s.feedHook c lvl t) := by
  unfold State.feedHook
  split
  · exact setChan_agentKept s c _
  · exact setChan_agentKept s c _

theorem tickHook_agentKept (s : State) (c : Chan) (t : Word) : AgentKept s (s.tickHook c t) := by
  unfold State.tickHook
  dsimp only
  split
  · exact setChan_agentKept s c _
  · exact setChan_agentKept s c _

theorem writeField_agentKept (s : State) (v : Word) (f : CfgField) : AgentKept s (s.writeField v f) := by
  cases f with
  | global f => cases f <;> exact .of_same rfl rfl rfl
  | chan c f => exact setChan_agentKept s c _

theorem takeEvent_agentKept (s : State) (e : IrqEvent) (rest : List IrqEvent) : AgentKept s (s.takeEvent e rest) := by
  unfold State.takeEvent
  split
  · exact .of_same rfl rfl rfl
  · exact .of_same rfl rfl rfl

theorem preempt_agentKept (s : State) (c : Chan) (flags : List Nat) : AgentKept s (s.preempt c flags) := by
  unfold State.preempt
  split
  · exact requestCancel_agentKept s c
  · exact .of_same rfl rfl rfl

theorem startPhase_agentKept (s : State) (c : Chan) : AgentKept s (s.startPhase c) := by
  obtain ⟨_, _, e⟩ := startPhase_eq s c
  rw [e]
  exact setChan_agentKept s c _

theorem agentKept_closedOps : ClosedOps AgentKept (fun _ t => t.AtRest) where
  refl _ := .of_same rfl rfl rfl
  trans := AgentKept.trans
  reset _ := ⟨⟨rfl, rfl⟩, rfl⟩
  transReset _ h := h
  answer s := by
    obtain ⟨-, hb, -⟩ := takeAnswer_keeps s
    exact .of_same (by rw [hb]) (by rw [hb]) (by rw [hb])
  wire _ _ := .of_same rfl rfl rfl
  resets _ _ := .of_same rfl rfl rfl
  lf c _ _ h _ := h.trans (setChan_agentKept _ c _)

/-- How every move of another agent ends. -/
abbrev KeepsAgent (x : Run Unit) : Prop := Ends [] AgentKept (fun _ t => t.AtRest) x

theorem whenGranted_keepsAgent (g : Grant) {body : Run Unit} (hb : KeepsAgent body) : KeepsAgent (whenGranted g body) := by
  intro s
  rw [run_whenGranted]
  split
  · have h := hb (s.setGrant g)
    rw [run_holding]
    cases hr : body.run (s.setGrant g) with
    | ok a t =>
      rw [hr] at h
      obtain ⟨hc, hx, -⟩ := h
      exact ⟨hc, hx, fun _ => rfl⟩
    | error e t =>
      rw [hr] at h
      cases e with
      | raised st info => exact absurd h.1 List.not_mem_nil
      | reset => exact ⟨h.1, rfl⟩
  · exact .of_same rfl rfl rfl

theorem discardEvent_keepsAgent (code : LogCode) : KeepsAgent (discardEvent code) :=
  bind_ends agentKept_closedOps (readS_ends agentKept_closedOps _) fun _ =>
    bind_ends agentKept_closedOps (changeS_ends fun _ => .of_same rfl rfl rfl) fun _ =>
    bind_ends agentKept_closedOps (moment_ends agentKept_closedOps) fun _ => changeS_ends fun _ => .of_same rfl rfl rfl

theorem gateEvent_keepsAgent (payload : Option Byte) (t : Word) : KeepsAgent (gateEvent payload t) :=
  bind_ends agentKept_closedOps (readS_ends agentKept_closedOps _) fun _ => ite_ends
    (changeS_ends fun s => by
      split
      · exact .of_same rfl rfl rfl
      · exact .of_same rfl rfl rfl)
    (discardEvent_keepsAgent _)

theorem eventMove_keepsAgent : KeepsAgent eventMove := by
  intro s
  change EndsIn _ _ _ s (eventMove s)
  unfold eventMove
  split
  · exact .of_same rfl rfl rfl
  · split
    · exact gateEvent_keepsAgent _ _ s
    · exact gateEvent_keepsAgent _ _ s
    · exact discardEvent_keepsAgent _ s

/-- A register read of the interrupt agent, and its next position. -/
theorem irqRead_keepsAgent (c : Chan) (a : Byte) (p : Option Byte → IrqPos) :
    KeepsAgent (whenGranted .interrupt (do let r ← readOp c a; goIrq (p r))) :=
  whenGranted_keepsAgent .interrupt (bind_ends agentKept_closedOps (readOp_ends agentKept_closedOps c a) fun _ =>
    changeS_ends fun _ => .of_same rfl rfl rfl)

theorem irqMove_keepsAgent : KeepsAgent irqMove := by
  intro s
  change EndsIn _ _ _ s (irqMove s)
  unfold irqMove
  cases s.blk.irqPos with
  | idle =>
    dsimp only
    split
    · exact .of_same rfl rfl rfl
    · exact takeEvent_agentKept s _ _
  | wantStatus t => exact irqRead_keepsAgent _ _ (.haveStatus t) s
  | haveStatus t r => cases r <;> exact .of_same rfl rfl rfl
  | pairs t todo =>
    cases todo with
    | nil => exact .of_same rfl rfl rfl
    | cons x rest =>
      dsimp only
      split
      · exact .of_same rfl rfl rfl
      · exact .of_same rfl rfl rfl
  | wantFlag t c i flags todo => exact irqRead_keepsAgent c _ (.haveFlag t c i flags todo) s
  | haveFlag t c i flags todo r => cases r <;> exact .of_same rfl rfl rfl
  | dispatch t c left flags todo =>
    cases left with
    | nil => exact (preempt_agentKept s c flags).trans (.of_same rfl rfl rfl)
    | cons h rest => exact .of_same rfl rfl rfl
  | wantHook t c todo => exact irqRead_keepsAgent c _ (.haveHook t c todo) s
  | haveHook t c todo r =>
    cases r with
    | none => exact .of_same rfl rfl rfl
    | some b => exact (feedHook_agentKept s c _ _).trans (.of_same rfl rfl rfl)

/-- A linefeed unit of a ringer, and its next position. -/
theorem ringerUnit_keepsAgent (c : Chan) (req : LfState) (p : LfResult → RingPos) :
    KeepsAgent (whenGranted (.ringer c) (do
      let res ← setLineFeed moment c req
      changeS (fun s' => s'.setRingPos c (p res)))) :=
  whenGranted_keepsAgent (.ringer c) (bind_ends agentKept_closedOps (ringerLineFeed_ends agentKept_closedOps c req) fun _ =>
    changeS_ends fun s => setChan_agentKept s c _)

theorem ringerMove_keepsAgent (c : Chan) : KeepsAgent (ringerMove c) := by
  intro s
  change EndsIn _ _ _ s (ringerMove c s)
  unfold ringerMove
  dsimp only
  split
  · cases (s.chan c).ring.pos with
    | ready => exact startPhase_agentKept s c
    | wantPhase req d => exact ringerUnit_keepsAgent c req (.havePhase d) s
    | havePhase d res => cases res <;> exact setChan_agentKept _ c _
    | waiting =>
      dsimp only
      split
      · exact startPhase_agentKept s c
      · exact .of_same rfl rfl rfl
    | wantExit reason => exact ringerUnit_keepsAgent c .idle (.haveExit reason) s
    | haveExit reason res => cases res <;> exact setChan_agentKept _ c _
    | ended => exact setChan_agentKept s c _
  · exact .of_same rfl rfl rfl

/-- Every move of another agent leaves the command agent and a free transport alone, or resets both. -/
theorem move_keepsAgent (slot : Slot) : KeepsAgent (move slot) := by
  cases slot with
  | command => exact pure_ends agentKept_closedOps ()
  | eventPort => exact eventMove_keepsAgent
  | interrupt => exact irqMove_keepsAgent
  | ringer c => exact ringerMove_keepsAgent c
  | tick ms => exact changeS_ends fun _ => .of_same rfl rfl rfl
  | reset => exact fun _ => ⟨⟨rfl, rfl⟩, rfl⟩

theorem move_atRest {s : State} (hs : s.AtRest) (slot : Slot) : (settle ((move slot).run s)).AtRest := by
  obtain kept | reset := (move_keepsAgent slot s).settle
  · exact kept.atRest hs
  · exact reset

theorem move_free (slot : Slot) {s : State} (hs : s.blk.grant = .none) : (settle ((move slot).run s)).blk.grant = .none := by
  obtain ⟨-, -, hg⟩ | ⟨-, hg⟩ := (move_keepsAgent slot s).settle
  · exact hg hs
  · exact hg

/-! ### The host commands -/

/-- Begun with the transport free, the sequence leaves it free, however it ends (R80). -/
def LeavesFree {α : Type} (x : Run α) : Prop := ∀ s, s.blk.grant = .none → (settle (x.run s)).blk.grant = .none

section
variable {α β : Type}

theorem bind_leavesFree {x : Run α} {f : α → Run β} (hx : LeavesFree x) (hf : ∀ a, LeavesFree (f a)) :
    LeavesFree (x >>= f) := by
  intro s hs
  have h := hx s hs
  rw [run_bind]
  cases hr : x.run s with
  | ok a t =>
    rw [hr] at h
    exact hf a t h
  | error e t =>
    rw [hr] at h
    exact h

theorem pure_leavesFree (a : α) : LeavesFree (pure a : Run α) := fun _ hs => hs

theorem readS_leavesFree (f : State → α) : LeavesFree (readS f) := fun _ hs => hs

theorem raise_leavesFree (st : Status) (info : Word) : LeavesFree (raise st info : Run α) := fun _ hs => hs

theorem changeS_leavesFree {f : State → State} (hf : ∀ s, AgentKept s (f s)) : LeavesFree (changeS f) := by
  intro s hs
  obtain ⟨-, -, hg⟩ := hf s
  exact hg hs

theorem require_leavesFree (b : Bool) (st : Status) : LeavesFree (require b st) := by
  cases b
  · exact raise_leavesFree st 0
  · exact pure_leavesFree ()

theorem activeChannel_leavesFree (ch : BitVec 4) : LeavesFree (activeChannel ch) := by
  intro s hs
  rw [run_activeChannel]
  split <;> exact hs

theorem decodeField_leavesFree (ch : BitVec 4) (idx : BitVec 12) : LeavesFree (decodeField ch idx) := by
  unfold decodeField
  split
  · exact pure_leavesFree _
  · exact raise_leavesFree _ 0

theorem point_leavesFree : LeavesFree point :=
  point_keeps (fun s => s.blk.grant = .none) (fun _ _ => id) fun slot _ => move_free slot

/-- Whatever a unit does, the transport is free when it has ended. -/
theorem holding_leavesFree (g : Grant) (body : Run α) : LeavesFree (holding g body) := by
  intro s _
  rw [run_holding]
  split <;> rfl

theorem atomicUnit_leavesFree (body : Run α) : LeavesFree (atomicUnit body) :=
  bind_leavesFree point_leavesFree fun _ => bind_leavesFree (holding_leavesFree .command body) fun a =>
    bind_leavesFree point_leavesFree fun _ => pure_leavesFree a

/-- A command that is one atomic unit on an active channel. -/
theorem channelUnit_leavesFree (ch : BitVec 4) {body : Chan → Run α} {f : α → Run β} (hf : ∀ a, LeavesFree (f a)) :
    LeavesFree (do let c ← activeChannel ch; let a ← atomicUnit (body c); f a) :=
  bind_leavesFree (activeChannel_leavesFree ch) fun _ => bind_leavesFree (atomicUnit_leavesFree _) hf

/-- A command that is one change on an active channel. -/
theorem channelChange_leavesFree (ch : BitVec 4) {f : State → Chan → State}
    (hf : ∀ s c, AgentKept s (f s c)) (rdata : Word) :
    LeavesFree (do let c ← activeChannel ch; changeS (fun s => f s c); pure rdata : Run Word) :=
  bind_leavesFree (activeChannel_leavesFree ch) fun c => bind_leavesFree (changeS_leavesFree fun s => hf s c) fun _ =>
    pure_leavesFree rdata

end

theorem delay_leavesFree (ms : Half) : LeavesFree (delay ms) :=
  bind_leavesFree (readS_leavesFree _) fun _ => bind_leavesFree point_leavesFree fun _ => changeS_leavesFree fun s => by
    unfold State.passUntil
    split <;> exact .of_same rfl rfl rfl

theorem writeSeeds_leavesFree (c : Chan) (base : Byte) (seeds : Word) (l : List Nat) :
    LeavesFree (writeSeeds c base seeds l) := by
  induction l with
  | nil => exact pure_leavesFree ()
  | cons i rest ih => exact bind_leavesFree (atomicUnit_leavesFree _) fun _ => ih

theorem writeAllSeeds_leavesFree (base : Byte) (seeds : Word) (l : List Chan) :
    LeavesFree (writeAllSeeds base seeds l) := by
  induction l with
  | nil => exact pure_leavesFree ()
  | cons c rest ih => exact bind_leavesFree (writeSeeds_leavesFree c base seeds _) fun _ => ih

theorem scanCal_leavesFree (calStatus : Byte) (l : List Chan) (b : Option Chan) : LeavesFree (scanCal calStatus l b) := by
  induction l generalizing b with
  | nil => exact pure_leavesFree b
  | cons c rest ih => exact bind_leavesFree (atomicUnit_leavesFree _) fun _ => ih _

theorem pollCal_leavesFree (calStatus : Byte) (pause : Half) (l : List Chan) (k : Nat) (b : Option Chan) :
    LeavesFree (pollCal calStatus pause l k b) := by
  induction k generalizing b with
  | zero => exact raise_leavesFree _ _
  | succ k ih =>
    refine bind_leavesFree (scanCal_leavesFree calStatus l none) fun x => ?_
    cases x with
    | none => exact pure_leavesFree ()
    | some c =>
      dsimp only
      split
      · exact ih _
      · exact bind_leavesFree (delay_leavesFree pause) fun _ => ih _

theorem calibrate_leavesFree (len : Byte) (seeds : Word) : LeavesFree (calibrate len seeds) :=
  bind_leavesFree (require_leavesFree _ _) fun _ => bind_leavesFree (readS_leavesFree _) fun _ =>
    bind_leavesFree (readS_leavesFree _) fun _ => bind_leavesFree (writeAllSeeds_leavesFree _ _ _) fun _ =>
    bind_leavesFree (readS_leavesFree _) fun _ => bind_leavesFree (readS_leavesFree _) fun _ =>
    bind_leavesFree (pollCal_leavesFree _ _ _ _ _) fun _ => pure_leavesFree _

theorem requestLf_leavesFree (ch : BitVec 4) (req : LfState) : LeavesFree (requestLf ch req) :=
  bind_leavesFree (activeChannel_leavesFree ch) fun _ => bind_leavesFree (atomicUnit_leavesFree _) fun r => by
    cases r
    · exact pure_leavesFree _
    · exact raise_leavesFree _ _

theorem ringBegin_leavesFree (ch : BitVec 4) : LeavesFree (ringBegin ch) := by
  refine bind_leavesFree (activeChannel_leavesFree ch) fun c => bind_leavesFree (readS_leavesFree _) fun active => ?_
  split
  · exact pure_leavesFree _
  · exact bind_leavesFree (readS_leavesFree _) fun _ => bind_leavesFree (require_leavesFree _ _) fun _ =>
      bind_leavesFree (readS_leavesFree _) fun _ => bind_leavesFree (atomicUnit_leavesFree _) fun _ =>
      bind_leavesFree (require_leavesFree _ _) fun _ =>
      bind_leavesFree (changeS_leavesFree fun s => setChan_agentKept s c _) fun _ => pure_leavesFree _

/-- Every host command that begins with the transport free leaves it free, whatever the schedule (R80). -/
theorem hostBody_leavesFree (i : Instr) : LeavesFree (hostBody i) := by
  cases i with
  | regRd ch a => exact channelUnit_leavesFree ch fun _ => pure_leavesFree _
  | regWr ch a v => exact channelUnit_leavesFree ch fun _ => pure_leavesFree _
  | ramRd ch addr =>
    exact bind_leavesFree (activeChannel_leavesFree ch) fun _ => bind_leavesFree (readS_leavesFree _) fun _ =>
      atomicUnit_leavesFree _
  | ramWr ch addr v =>
    exact bind_leavesFree (activeChannel_leavesFree ch) fun _ => bind_leavesFree (readS_leavesFree _) fun _ =>
      bind_leavesFree (atomicUnit_leavesFree _) fun _ => pure_leavesFree _
  | cal len seeds => exact calibrate_leavesFree len seeds
  | irqEv t => exact pure_leavesFree _
  | irqEvp status t => exact pure_leavesFree _
  | irqChannels =>
    exact bind_leavesFree (readS_leavesFree _) fun _ => bind_leavesFree (atomicUnit_leavesFree _) fun _ =>
      pure_leavesFree _
  | irqEnable en => exact bind_leavesFree (changeS_leavesFree fun _ => .of_same rfl rfl rfl) fun _ => pure_leavesFree _
  | setLf ch req => exact requestLf_leavesFree ch req
  | startRing ch => exact requestLf_leavesFree ch .ringing
  | stopRing ch => exact requestLf_leavesFree ch .idle
  | getHook ch =>
    exact bind_leavesFree (activeChannel_leavesFree ch) fun _ => bind_leavesFree (readS_leavesFree _) fun _ =>
      bind_leavesFree (atomicUnit_leavesFree _) fun _ => pure_leavesFree _
  | setLoopback ch mode => exact pure_leavesFree _
  | ringBegin ch => exact ringBegin_leavesFree ch
  | ringCancel ch => exact channelChange_leavesFree ch requestCancel_agentKept 0
  | ringCancelAll =>
    exact bind_leavesFree (changeS_leavesFree fun s => requestCancel_agentKept s .zero) fun _ =>
      bind_leavesFree point_leavesFree fun _ =>
      bind_leavesFree (changeS_leavesFree fun s => requestCancel_agentKept s .one) fun _ => pure_leavesFree _
  | ringSelftest => exact pure_leavesFree _
  | hookSample ch lvl t => exact channelChange_leavesFree ch (fun s c => feedHook_agentKept s c lvl t) 0
  | hookTick ch t => exact channelChange_leavesFree ch (fun s c => tickHook_agentKept s c t) 0
  | cfgWr ch idx v =>
    exact bind_leavesFree (decodeField_leavesFree ch idx) fun f => bind_leavesFree (readS_leavesFree _) fun _ =>
      bind_leavesFree (require_leavesFree _ _) fun _ =>
      bind_leavesFree (changeS_leavesFree fun s => writeField_agentKept s v f) fun _ => pure_leavesFree _
  | cfgRd ch idx => exact bind_leavesFree (decodeField_leavesFree ch idx) fun _ => readS_leavesFree _
  | init =>
    exact bind_leavesFree (readS_leavesFree _) fun _ => bind_leavesFree (require_leavesFree _ _) fun _ =>
      bind_leavesFree (atomicUnit_leavesFree _) fun _ => pure_leavesFree _
  | getNch => exact readS_leavesFree _

/-- A response leaves a machine at rest, and so does a reset before it. -/
theorem respond_atRest {s : State} (hs : s.AtRest) (r : Response) : (s.respond r).AtRest := by
  obtain ⟨l, e⟩ | ⟨l, e⟩ := respond_cases s r <;> rw [e]
  · exact hs
  · exact ⟨⟨rfl, rfl⟩, rfl⟩

/-- However its sequence ends, a command ends at rest, if the sequence leaves the transport free and the machine as a reset
leaves it where one falls. -/
theorem finish_atRest {s : State} {r : EStateM.Result Stop State Word} {A : List Status} {R : State → State → Prop}
    (hfree : (settle r).blk.grant = .none) (hr : EndsIn A R WasReset s r) : (finish r).AtRest := by
  cases r with
  | ok rdata t => exact respond_atRest (s := t.endCommand) ⟨⟨rfl, rfl⟩, hfree⟩ _
  | error e t =>
    cases e with
    | raised st info => exact respond_atRest (s := t.endCommand) ⟨⟨rfl, rfl⟩, hfree⟩ _
    | reset => exact WasReset.atRest hr

/-- Every host command that begins with the transport free ends at rest (R80, R101). -/
theorem exec_atRest {i : Instr} (ha : answersOnHostPort i = true) {s t : State} (hs : s.blk.grant = .none)
    (e : exec i s = .next t) : t.AtRest := by
  rw [exec_hostBody ha] at e
  obtain ⟨l, e'⟩ | ⟨l, e'⟩ := command_cases i (hostBody i) s <;> rw [e'] at e <;> cases e
  · have h := soundKept_closedStep
    exact finish_atRest (hostBody_leavesFree i _ hs) (hostBody_ends h.toClosed ha (fun _ _ _ _ => h.config)
      (fun en _ s => h.enable s en) (fun _ => h.channels) (fun _ => h.start) (fun _ t _ s c _ => h.tick s c t)
      (fun _ _ => h.ring) _)
  · exact ⟨⟨rfl, rfl⟩, rfl⟩

/-! ### Steps -/

/-- The event port's turn is its move: a well-formed event runs its meaning there too (R203). -/
theorem eventTurn_eq_move (s : State) : eventTurn s = .next (settle ((move .eventPort).run s)) := by
  change _ = Host.Outcome.next (settle (eventMove s))
  unfold eventTurn eventMove
  cases s.env.eventQ with
  | nil => rfl
  | cons r rest =>
    dsimp only
    cases decode r.cmd r.data with
    | error e => rfl
    | ok i => cases i <;> rfl

/-- What a turn other than the command agent's does is the move of its slot. -/
theorem slotTurn_of_ne_command {slot : Slot} (h : slot ≠ .command) (s : State) :
    slotTurn slot s = .next (settle ((move slot).run s)) := by
  cases slot with
  | command => exact absurd rfl h
  | eventPort => exact eventTurn_eq_move s
  | interrupt => rfl
  | ringer c => rfl
  | tick ms => rfl
  | reset => rfl

/-- A host command that is not refused answers on the host port (R110). -/
theorem answersOnHostPort_of_exec {i : Instr} {s t : State} (hp : i.port = .host) (e : exec i s = .next t) :
    answersOnHostPort i = true := by
  cases i with
  | irqEv t => cases hp
  | irqEvp status t => cases hp
  | setLoopback ch mode => cases e
  | ringSelftest => cases e
  | _ => rfl

/-- All the command agent's turn can do: nothing, reject an ill-formed request, or run a host command (R101, R108). -/
theorem hostTurn_cases {s t : State} (e : hostTurn s = .next t) :
    t = s ∨ t = s.takeRequest.illegal ∨ ∃ i, answersOnHostPort i = true ∧ exec i s.takeRequest = .next t := by
  unfold hostTurn at e
  split at e
  · split at e
    · cases e; exact .inl rfl
    · unfold runRequest at e
      split at e
      · next i _ =>
        cases hp : i.port <;> rw [hp] at e
        · exact .inr (.inr ⟨i, answersOnHostPort_of_exec hp e, e⟩)
        · cases e; exact .inr (.inl rfl)
      · cases e; exact .inr (.inl rfl)
  · cases e; exact .inl rfl

theorem slotTurn_atRest {slot : Slot} {s t : State} (hs : s.AtRest) (e : slotTurn slot s = .next t) : t.AtRest := by
  by_cases hc : slot = .command
  · subst hc
    obtain rfl | rfl | ⟨i, ha, e⟩ := hostTurn_cases e
    · exact hs
    · exact respond_atRest (s := s.takeRequest) hs _
    · exact exec_atRest (s := s.takeRequest) ha hs.2 e
  · rw [slotTurn_of_ne_command hc] at e
    cases e
    exact move_atRest hs slot

/-- A step that begins at rest ends at rest (R80, R101). -/
theorem step_atRest {s t : State} (hs : s.AtRest) (e : step s = .next t) : t.AtRest := by
  unfold step at e
  split at e
  · exact slotTurn_atRest (s := s.passTurn) hs e
  · next slot rest _ => exact slotTurn_atRest (s := s.setSched rest) hs e

/-- Settles O59: soundness is closed under every change of a step, and a step begun at rest ends at rest. -/
theorem everyStepKeepsTheInvariant : Obligations.EveryStepKeepsTheInvariant := by
  intro s t hs e
  obtain ⟨hsound, hrest⟩ := hs
  exact ⟨step_sound hsound e, step_atRest hrest e⟩

end Sys2Proof.Machine
end

