-- ==== Sys2Proof/Proofs/LinefeedBracket.lean ====
section
/-! The stored linefeed state: in every step it follows a completed AUTO bracket, and what one `SetLineFeed` does where nobody
interferes (R30, R220, R228). -/

namespace Sys2Proof.Machine

/-! ### Every step -/

/-- The operations from s to t contain the completed bracket that sets what t stores for channel c. -/
def Bracketed (s t : State) (c : Chan) : Prop :=
  ∃ added a, t.out.wire = s.out.wire ++ added ∧ (bracketWrites s.par c (t.chan c).lf a).Sublist added

/-- The wire grows, and where a stored linefeed state has changed, its bracket is among the operations added. -/
def LfFollows (s t : State) : Prop :=
  WireGrows s t ∧ ∀ c, (t.chan c).lf ≠ (s.chan c).lf → Bracketed s t c

/-- A change that leaves every stored state. -/
theorem LfFollows.of_kept {s t : State} (hg : WireGrows s t) (h : ∀ c, (t.chan c).lf = (s.chan c).lf) : LfFollows s t :=
  ⟨hg, fun c hc => absurd (h c) hc⟩

/-- A change of the block only that leaves every stored state. -/
theorem LfFollows.of_same {s t : State} (hp : t.par = s.par) (hw : t.out.wire = s.out.wire)
    (h : ∀ c, (t.chan c).lf = (s.chan c).lf) : LfFollows s t := .of_kept (.of_same hp hw) h

theorem setRing_lfFollows (s : State) (c : Chan) (r : Ring) : LfFollows s (s.setRing c r) :=
  .of_same rfl rfl fun d => State.chan_setRing_lf s c r d

/-- What a bracket was seen from the middle, it is from the start: the wire only grows. -/
theorem LfFollows.trans {s t u : State} (h1 : LfFollows s t) (h2 : LfFollows t u) : LfFollows s u := by
  obtain ⟨g1, f1⟩ := h1
  obtain ⟨g2, f2⟩ := h2
  refine ⟨wireGrows_closedOps.trans g1 g2, fun c hc => ?_⟩
  by_cases hu : (u.chan c).lf = (t.chan c).lf
  · obtain ⟨added, a, hw, hs⟩ := f1 c (hu ▸ hc)
    obtain ⟨-, more, hw'⟩ := g2
    exact ⟨added ++ more, a, by rw [hw', hw, List.append_assoc],
      hu ▸ hs.trans (List.sublist_append_left added more)⟩
  · obtain ⟨added, a, hw, hs⟩ := f2 c hu
    obtain ⟨hp, more, hw'⟩ := g1
    exact ⟨more ++ added, a, by rw [hw, hw', List.append_assoc],
      hp ▸ hs.trans (List.sublist_append_right more added)⟩

/-- The stored state is set after its bracket has completed. -/
theorem LfFollows.setLf {s t : State} (h : LfFollows s t) {c : Chan} {req : LfState} {a : Byte}
    (hb : ∃ added, t.out.wire = s.out.wire ++ added ∧ (bracketWrites s.par c req a).Sublist added) :
    LfFollows s (t.setLf c req) := by
  obtain ⟨hg, hf⟩ := h
  refine ⟨hg, fun d hd => ?_⟩
  by_cases hdc : d = c
  · subst hdc
    obtain ⟨added, hw, hs⟩ := hb
    exact ⟨added, a, hw, by rw [State.chan_setLf_same]; exact hs⟩
  · have hlf : ((t.setLf c req).chan d).lf = (t.chan d).lf := by rw [State.chan_setLf_other _ _ hdc]
    obtain ⟨added, a', hw, hs⟩ := hf d (hlf ▸ hd)
    exact ⟨added, a', hw, hlf ▸ hs⟩

theorem feedHook_lf (s : State) (c : Chan) (lvl : Level) (t : Word) (d : Chan) :
    ((s.feedHook c lvl t).chan d).lf = (s.chan d).lf := by
  unfold State.feedHook
  split <;> simp

theorem tickHook_lf (s : State) (c : Chan) (t : Word) (d : Chan) : ((s.tickHook c t).chan d).lf = (s.chan d).lf := by
  unfold State.tickHook
  dsimp only
  split <;> simp

/-- A configuration write leaves the ringers, the detectors and the stored linefeed states alone (R23, R25). -/
theorem State.writeField_chan_keeps (s : State) (v : Word) (f : CfgField) (d : Chan) :
    ((s.writeField v f).chan d).ring = (s.chan d).ring ∧ ((s.writeField v f).chan d).hook = (s.chan d).hook ∧
    ((s.writeField v f).chan d).lf = (s.chan d).lf := by
  cases f with
  | global f => cases f <;> cases d <;> exact ⟨rfl, rfl, rfl⟩
  | chan c f =>
    by_cases hd : d = c
    · subst hd
      simpa only [State.writeField, State.chan_setChan_same] using writeField_keeps (s.chan d) v f
    · simp only [State.writeField, State.chan_setChan_other _ _ hd, and_self]

theorem lfFollows_closedOps : ClosedOps LfFollows WasReset where
  refl _ := .of_same rfl rfl fun _ => rfl
  trans := LfFollows.trans
  reset h := .of_blockReset h.1.1
  transReset h := .after h.1.1
  answer s := by
    obtain ⟨-, hb, -⟩ := takeAnswer_keeps s
    exact .of_kept (wireGrows_closedOps.answer s) fun c => by simp only [State.chan, hb]
  wire s w := .of_kept (wireGrows_closedOps.wire s w) fun c => by simp
  resets s l := .of_same rfl rfl fun c => by simp
  lf _ _ _ h hb := h.setLf hb

theorem lfFollows_closed : Closed LfFollows WasReset where
  toClosedOps := lfFollows_closedOps
  resetFree := .free
  grant s g := .of_same rfl rfl fun c => by simp
  ramTx s x := .of_same rfl rfl fun c => by simp
  sched s l := .of_same rfl rfl fun c => by simp
  now s t := .of_same rfl rfl fun c => by simp
  consume s := .of_same rfl rfl fun c => by simp
  event s e _ := .of_same rfl rfl fun c => by simp
  queue s payload t _ := .of_same rfl rfl fun c => by simp [State.queueEvent]
  take s e rest _ := by
    obtain ⟨hp, ho, hc⟩ := takeEvent_keeps s e rest
    exact .of_same hp (congrArg Output.wire ho) fun c => by rw [hc]
  irqPos s p _ := .of_same rfl rfl fun c => by simp
  flagsRead s _ _ _ _ _ _ _ := .of_same rfl rfl fun c => by simp
  feed s c lvl t := by
    obtain ⟨hp, hw, -⟩ := feedHook_keeps s c lvl t
    exact .of_same hp hw (feedHook_lf s c lvl t)
  cancel s c := by
    obtain ⟨_, e⟩ := requestCancel_eq s c
    rw [e]
    exact setRing_lfFollows s c _
  phase s c _ := by
    obtain ⟨_, _, e⟩ := startPhase_eq s c
    rw [e]
    exact setRing_lfFollows s c _
  ringPos s c _ _ := setRing_lfFollows s c _
  wait s c _ _ := setRing_lfFollows s c _
  stop s c := setRing_lfFollows s c _

theorem lfFollows_closedStep : ClosedStep LfFollows WasReset where
  toClosed := lfFollows_closed
  turn s k := .of_same rfl rfl fun c => by simp
  request s := .of_same rfl rfl fun c => by simp
  begin s i := .of_same rfl rfl fun c => by simp
  finish s := .of_same rfl rfl fun c => by simp
  present s r := .of_same rfl rfl fun c => by simp
  config s v f _ := by
    obtain ⟨⟨hw, -⟩, hp⟩ := writeField_growsFrom s v f
    exact .of_kept ⟨hp, hw.imp fun _ => Eq.symm⟩ fun c => (s.writeField_chan_keeps v f c).2.2
  enable s en := .of_same rfl rfl fun c => by cases c <;> rfl
  channels s n := .of_same rfl rfl fun c => by simp
  start s c r := .of_same rfl rfl fun d => State.chan_setHook_lf s c _ d
  tick s c t := by
    obtain ⟨hp, hw, -⟩ := tickHook_keeps s c t
    exact .of_same hp hw (tickHook_lf s c t)
  ring s c _ _ := setRing_lfFollows s c _

/-- In every step that no reset cut short, a changed linefeed state has its bracket among the operations added. -/
theorem step_bracketed {s t : State} {c : Chan} (e : step s = .next t) (hr : t.blk ≠ Block.reset s.par)
    (hc : (t.chan c).lf ≠ (s.chan c).lf) : Bracketed s t c := by
  obtain ⟨-, follows⟩ | ⟨-, reset⟩ := lfFollows_closedStep.step e
  · exact follows c hc
  · exact absurd reset hr

/-! ### One `SetLineFeed` where nobody interferes -/

/-- t is s after these transport operations: the block, the parameters and the schedule are as they were. -/
def Issued (s t : State) (ops : List WireOp) : Prop :=
  t.par = s.par ∧ t.blk = s.blk ∧ t.env.sched = s.env.sched ∧ t.out.wire = s.out.wire ++ ops

theorem Issued.refl (s : State) : Issued s s [] := ⟨rfl, rfl, rfl, (List.append_nil _).symm⟩

theorem Issued.trans {s t u : State} {ops ops' : List WireOp} (h1 : Issued s t ops) (h2 : Issued t u ops') :
    Issued s u (ops ++ ops') := by
  obtain ⟨p1, b1, s1, w1⟩ := h1
  obtain ⟨p2, b2, s2, w2⟩ := h2
  exact ⟨p2.trans p1, b2.trans b1, s2.trans s1, by rw [w2, w1, List.append_assoc]⟩

theorem Issued.chan {s t : State} {ops : List WireOp} (h : Issued s t ops) (c : Chan) : t.chan c = s.chan c := by
  obtain ⟨-, hb, -⟩ := h
  simp only [State.chan, hb]

theorem Issued.sched_nil {s t : State} {ops : List WireOp} (h : Issued s t ops) (hs : s.env.sched = []) :
    t.env.sched = [] := by
  obtain ⟨-, -, he, -⟩ := h
  exact he.trans hs

theorem Issued.wire {s t : State} {ops : List WireOp} (h : Issued s t ops) : t.out.wire = s.out.wire ++ ops := by
  obtain ⟨-, -, -, hw⟩ := h
  exact hw

theorem takeAnswer_logWire_issued (s : State) (w : WireOp) : Issued s (s.takeAnswer.2.logWire w) [w] := by
  obtain ⟨hp, hb, ho, -, hs, -⟩ := takeAnswer_keeps s
  exact ⟨hp, hb, hs, by rw [State.logWire_out, ho]⟩

/-- A read that ended is on the wire as it ended, and nothing else has changed. -/
theorem readOp_issued {c : Chan} {a : Byte} {r : Option Byte} {s t : State} (e : (readOp c a).run s = .ok r t) :
    Issued s t [.read c a (r.elim .failed .data)] := by
  obtain ⟨v, e'⟩ | e' | e' := readOp_cases c a s <;> rw [e'] at e <;> cases e <;> exact takeAnswer_logWire_issued s _

/-- A write that ended is on the wire as it ended, and nothing else has changed. -/
theorem writeOp_issued {c : Chan} {a v : Byte} {b : Bool} {s t : State} (e : (writeOp c a v).run s = .ok b t) :
    Issued s t [.write c a v (if b then .done else .failed)] := by
  obtain e' | e' | e' := writeOp_cases c a v s <;> rw [e'] at e <;> cases e <;> exact takeAnswer_logWire_issued s _

/-- The parts of a sequence that ended normally. -/
theorem bind_ok {α β : Type} {x : Run α} {f : α → Run β} {s t : State} {b : β} (e : (x >>= f).run s = .ok b t) :
    ∃ a u, x.run s = .ok a u ∧ (f a).run u = .ok b t := by
  rw [run_bind] at e
  cases hx : x.run s with
  | ok a u => rw [hx] at e; exact ⟨a, u, rfl, e⟩
  | error e' u => rw [hx] at e; cases e

/-- A scheduling point and then an operation, where nobody else moves. -/
theorem point_then_ok {α β : Type} {x : Run α} {f : α → Run β} {s t : State} {b : β} (hs : s.env.sched = [])
    (e : (do point; let a ← x; f a : Run β).run s = .ok b t) : ∃ a u, x.run s = .ok a u ∧ (f a).run u = .ok b t := by
  obtain ⟨_, _, e1, e⟩ := bind_ok e
  rw [point_of_no_schedule hs] at e1
  cases e1
  exact bind_ok e

/-- How an undisturbed `SetLineFeed`, or the rest of it, that ended with `res` went: it failed at one of its operations, or it
issued `ops` and set the stored state (R220, R228, R229). -/
def LfEnded (c : Chan) (req : LfState) (ops : List WireOp) (s t : State) (res : LfResult) : Prop :=
  (res ≠ .ok ∧ ∃ w, Issued s t w) ∨ (res = .ok ∧ ∃ u, Issued s u ops ∧ t = u.setLf c req)

/-- An operation before. -/
theorem LfEnded.after {c : Chan} {req : LfState} {ops ops' : List WireOp} {s u t : State} {res : LfResult}
    (h1 : Issued s u ops) (h2 : LfEnded c req ops' u t res) : LfEnded c req (ops ++ ops') s t res := by
  obtain ⟨hres, w, hw⟩ | ⟨hres, u', hu, ht⟩ := h2
  · exact .inl ⟨hres, _, h1.trans hw⟩
  · exact .inr ⟨hres, u', h1.trans hu, ht⟩

/-- A write of the bracket, and then its rest where the write has completed. -/
theorem bracketWrite_ended {c : Chan} {req : LfState} {a v : Byte} {k : Run LfResult} {ops : List WireOp} {s t : State}
    {res : LfResult} (hs : s.env.sched = [])
    (e : (do point; let done ← writeOp c a v; if done then k else pure (.commError a) : Run LfResult).run s = .ok res t)
    (hk : ∀ u, u.env.sched = [] → k.run u = .ok res t → LfEnded c req ops u t res) :
    LfEnded c req ([.write c a v .done] ++ ops) s t res := by
  obtain ⟨b, u, ew, e⟩ := point_then_ok hs e
  have hu := writeOp_issued ew
  cases b with
  | true => exact .after hu (hk u (hu.sched_nil hs) e)
  | false => cases e; exact .inl ⟨nofun, _, hu⟩

theorem autoBracket_ended {p : Params} {c : Chan} {req : LfState} {a : Byte} {s t : State} {res : LfResult}
    (hs : s.env.sched = []) (e : (autoBracket point p c req a).run s = .ok res t) :
    LfEnded c req (bracketWrites p c req a) s t res := by
  refine bracketWrite_ended hs e fun u hu e => bracketWrite_ended hu e fun u hu e =>
    bracketWrite_ended (ops := []) hu e fun u hu e => ?_
  cases e
  exact .inr ⟨rfl, u, .refl u, rfl⟩

/-- An undisturbed `SetLineFeed` is guarded after its single read, or it fails, or it is the full transition (R220). -/
theorem setLineFeed_of_no_schedule {c : Chan} {req : LfState} {s t : State} {res : LfResult} (hs : s.env.sched = [])
    (e : (setLineFeed point c req).run s = .ok res t) :
    (∃ op, Issued s t [op]) ∨ ∃ v a, LfEnded c req (bracketOps s.par c req v a) s t res := by
  obtain ⟨v, u, er, e⟩ := point_then_ok hs e
  have hu := readOp_issued er
  cases v with
  | none => cases e; exact .inl ⟨_, hu⟩
  | some v =>
    dsimp only at e
    split at e
    · cases e; exact .inl ⟨_, hu⟩
    · have hsu : u.env.sched = [] := hu.sched_nil hs
      obtain ⟨a, u', er', e⟩ := point_then_ok hsu e
      have hu' := readOp_issued er'
      cases a with
      | none => cases e; exact .inr ⟨v, 0, .inl ⟨nofun, _, hu.trans hu'⟩⟩
      | some a => exact .inr ⟨v, a, .after (hu.trans hu') (autoBracket_ended (hu'.sched_nil hsu) e)⟩

/-- Settles O55: the bracket is on the wire before the state is set, and an undisturbed `SetLineFeed` is a single read, a
failure, or the full transition. -/
theorem linefeedStateFollowsACompletedBracket : Obligations.LinefeedStateFollowsACompletedBracket := by
  refine ⟨fun s t c e hr hc => step_bracketed e hr hc, fun s t c req res hs e => ?_⟩
  obtain ⟨op, h⟩ | ⟨v, a, ⟨hres, w, h⟩ | ⟨hres, u, h, rfl⟩⟩ := setLineFeed_of_no_schedule hs e
  · exact ⟨fun d _ => by rw [h.chan], .inl ⟨by rw [h.chan], [op], h.wire, fun _ => rfl⟩⟩
  · exact ⟨fun d _ => by rw [h.chan], .inl ⟨by rw [h.chan], w, h.wire, fun hok => absurd hok hres⟩⟩
  · refine ⟨fun d hd => by rw [State.chan_setLf_other _ _ hd, h.chan], .inr ⟨?_, hres, v, a, h.wire⟩⟩
    rw [State.chan_setLf_same]

end Sys2Proof.Machine
end

