-- ==== Sys2Proof/Proofs/ConfigMap.lean ====
section
/-! The configuration map: each field has one index, CFG_RD reads it, CFG_WR writes it and nothing else (R21, R22, R23, R25,
R300 to R302). -/

namespace Sys2Proof.Machine

/-! ### Indices and fields -/

/-- The index of a global field (R21). -/
def GlobalField.index : GlobalField → BitVec 12
  | .ramRetryBudget => 0x000#12
  | .ramPollDelay => 0x001#12
  | .calRetryBudget => 0x002#12
  | .calPollDelay => 0x003#12
  | .n => 0x004#12
  | .irqEn => 0x005#12
  | .irqQcount => 0x006#12

/-- The index of a per-channel field (R23). -/
def ChanField.index : ChanField → BitVec 12
  | .minDigit => 0x100#12
  | .maxDigit => 0x101#12
  | .minFlash => 0x102#12
  | .maxFlash => 0x103#12
  | .minInterDigit => 0x104#12
  | .minHookTimeout => 0x105#12
  | .cadTotal => 0x200#12
  | .cadN => 0x201#12
  | .cadPhase k => 0x210#12 + BitVec.ofNat 12 k.val
  | .lfState => 0x300#12
  | .hkLevel => 0x301#12
  | .hkLastT => 0x302#12
  | .hkCount => 0x303#12
  | .hkAwait => 0x304#12
  | .ringActive => 0x305#12
  | .ringIdx => 0x306#12
  | .ringT0 => 0x307#12
  | .ringCancel => 0x308#12

/-- The CH field that names a channel. -/
def chanBits : Chan → BitVec 4
  | .zero => 0#4
  | .one => 1#4

/-- The operands that name a field (R300): CH = 0 for a global one. -/
def CfgField.operands : CfgField → BitVec 4 × BitVec 12
  | .global f => (0#4, f.index)
  | .chan c f => (chanBits c, f.index)

theorem cadPhase_index_toNat (k : Fin 16) : (ChanField.cadPhase k).index.toNat = 0x210 + k.val := by
  have hk := k.isLt
  simp only [ChanField.index, BitVec.toNat_add, BitVec.toNat_ofNat]
  omega

theorem ChanField.le_index (f : ChanField) : 0x100 ≤ f.index.toNat := by
  cases f with
  | cadPhase k => rw [cadPhase_index_toNat]; omega
  | _ => decide

theorem GlobalField.index_le (f : GlobalField) : f.index.toNat ≤ 6 := by cases f <;> decide

/-- The cadence fields are those of the indices 0x200 to 0x2FF (R23, R25). -/
theorem ChanField.index_of_isCadence {f : ChanField} (h : f.isCadence = true) :
    0x200 ≤ f.index.toNat ∧ f.index.toNat < 0x300 := by
  cases f with
  | cadTotal => decide
  | cadN => decide
  | cadPhase k => rw [cadPhase_index_toNat]; omega
  | _ => cases h

/-- The indices 0x210 to 0x21F are those whose upper eight bits are 0x21. -/
theorem upper_eq_iff (idx : BitVec 12) : idx.extractLsb' 4 8 = 0x21#8 ↔ 0x210 ≤ idx.toNat ∧ idx.toNat ≤ 0x21F := by
  have hi := idx.isLt
  rw [← BitVec.toNat_inj, BitVec.extractLsb'_toNat, Nat.shiftRight_eq_div_pow, BitVec.toNat_ofNat]
  omega

theorem eq_cadPhase_index {idx : BitVec 12} (h : 0x210 ≤ idx.toNat ∧ idx.toNat ≤ 0x21F) :
    idx = (ChanField.cadPhase (idx.extractLsb' 0 4).toFin).index := by
  apply BitVec.eq_of_toNat_eq
  rw [cadPhase_index_toNat, BitVec.val_toFin, BitVec.extractLsb'_toNat, Nat.shiftRight_zero]
  omega

theorem globalFieldAt_eq_some {idx : BitVec 12} {f : GlobalField} (h : globalFieldAt idx = some f) : idx = f.index := by
  unfold globalFieldAt at h
  split at h <;> cases h <;> exact BitVec.eq_of_toNat_eq ‹_›

theorem chanFieldAt_eq_some {idx : BitVec 12} {f : ChanField} (h : chanFieldAt idx = some f) : idx = f.index := by
  unfold chanFieldAt at h
  split at h
  · next hp =>
    cases h
    exact eq_cadPhase_index ((upper_eq_iff idx).mp hp)
  · split at h <;> cases h <;> exact BitVec.eq_of_toNat_eq ‹_›

theorem chanOf_eq_some {ch : BitVec 4} {c : Chan} (h : chanOf ch = some c) : ch = chanBits c := by
  unfold chanOf at h
  split at h <;> cases h <;> exact BitVec.eq_of_toNat_eq ‹_›

theorem chanOf_chanBits (c : Chan) : chanOf (chanBits c) = some c := by cases c <;> rfl

/-- A field has one index and one CH: decoded operands are those of the field (R300). -/
theorem cfgDecode_eq_ok {ch : BitVec 4} {idx : BitVec 12} {f : CfgField} (h : cfgDecode idx ch = .ok f) :
    (ch, idx) = f.operands := by
  unfold cfgDecode at h
  split at h
  · next g hg =>
    split at h <;> cases h
    next h0 => rw [h0, globalFieldAt_eq_some hg]; rfl
  · split at h
    · next g hg =>
      split at h <;> cases h
      next c hc => rw [chanOf_eq_some hc, chanFieldAt_eq_some hg]; rfl
    · cases h

/-- Decoding never raises OK (R300). -/
theorem cfgDecode_error_ne_ok {ch : BitVec 4} {idx : BitVec 12} {st : Status} (h : cfgDecode idx ch = .error st) :
    st ≠ .ok := by
  unfold cfgDecode at h
  split at h
  · split at h <;> cases h
    exact nofun
  · split at h
    · split at h <;> cases h
      exact nofun
    · cases h
      exact nofun

theorem globalFieldAt_index (f : GlobalField) : globalFieldAt f.index = some f := by cases f <;> rfl

theorem globalFieldAt_chanField_index (f : ChanField) : globalFieldAt f.index = none := by
  cases hg : globalFieldAt f.index with
  | none => rfl
  | some g =>
    have hle := g.index_le
    have hge := f.le_index
    rw [globalFieldAt_eq_some hg] at hge
    omega

theorem chanFieldAt_index (f : ChanField) : chanFieldAt f.index = some f := by
  cases f with
  | cadPhase k =>
    have hk := k.isLt
    have hn := cadPhase_index_toNat k
    have hu := (upper_eq_iff (ChanField.cadPhase k).index).mpr (by omega)
    have hl : ((ChanField.cadPhase k).index.extractLsb' 0 4).toFin = k := by
      apply Fin.ext
      rw [BitVec.val_toFin, BitVec.extractLsb'_toNat, Nat.shiftRight_zero, hn]
      omega
    rw [chanFieldAt, if_pos hu, hl]
  | _ => rfl

/-- The operands of a field decode to it (R300). -/
theorem cfgDecode_operands (f : CfgField) : cfgDecode f.operands.2 f.operands.1 = .ok f := by
  cases f with
  | global f => simp [cfgDecode, CfgField.operands, globalFieldAt_index]
  | chan c f =>
    simp [cfgDecode, CfgField.operands, globalFieldAt_chanField_index, chanFieldAt_index, chanOf_chanBits]

theorem cfgDecode_chan {ch : BitVec 4} {c : Chan} (h : chanOf ch = some c) (f : ChanField) :
    cfgDecode f.index ch = .ok (.chan c f) := by
  rw [chanOf_eq_some h]
  exact cfgDecode_operands (.chan c f)

theorem exists_globalField {idx : BitVec 12} (h : isGlobalIndex idx = true) : ∃ f, globalFieldAt idx = some f := by
  have h : idx.toNat ≤ 6 := of_decide_eq_true h
  unfold globalFieldAt
  split
  case h_8 => simp only [imp_false] at *; omega
  all_goals exact ⟨_, rfl⟩

theorem exists_chanField {idx : BitVec 12} (h : isChannelIndex idx = true) : ∃ f, chanFieldAt idx = some f := by
  simp only [isChannelIndex, Bool.or_eq_true, decide_eq_true_eq] at h
  unfold chanFieldAt
  split
  · exact ⟨_, rfl⟩
  · next hu =>
    rw [upper_eq_iff] at hu
    split
    case h_18 => simp only [imp_false] at *; omega
    all_goals exact ⟨_, rfl⟩

theorem exists_chan {ch : BitVec 4} (h : ch.toNat < 2) : ∃ c, chanOf ch = some c := by
  unfold chanOf
  split
  case h_3 => simp only [imp_false] at *; omega
  all_goals exact ⟨_, rfl⟩

/-- Legal operands name a field, where a per-channel index comes with a channel below `MAX_CH` (R300, R306). -/
theorem exists_field_of_legal {ch : BitVec 4} {idx : BitVec 12} (h : cfgOperandsLegal ch idx = true)
    (hch : isGlobalIndex idx = false → ch.toNat < 2) : ∃ f, cfgDecode idx ch = .ok f := by
  unfold cfgOperandsLegal at h
  split at h
  · next hg =>
    obtain ⟨f, hf⟩ := exists_globalField hg
    exact ⟨.global f, by simp only [cfgDecode, hf, of_decide_eq_true h, if_true]⟩
  · next hg =>
    obtain ⟨f, hf⟩ := exists_chanField h
    obtain ⟨c, hc⟩ := exists_chan (hch (by simpa using hg))
    rw [chanFieldAt_eq_some hf]
    exact ⟨.chan c f, cfgDecode_chan hc f⟩

/-! ### Commands that change nothing -/

/-- A command whose sequence changes nothing and ends normally, whatever the schedule. -/
theorem command_unchanged {i : Instr} {body : Run Word} {s : State} {rdata : Word} (hs : s.Calm)
    (h : body.run (s.setCmd (some i)) = .ok rdata (s.setCmd (some i))) :
    command i body s = .next (s.present ⟨.ok, rdata⟩) := by
  rw [command_ok hs.2 h hs.2, endCommand_setCmd hs.1]

/-- A command whose sequence changes nothing and raises, whatever the schedule. -/
theorem command_rejected {i : Instr} {body : Run Word} {s : State} {st : Status} {info : Word} (hs : s.Calm)
    (h : body.run (s.setCmd (some i)) = .error (.raised st info) (s.setCmd (some i))) :
    command i body s = .next (s.present ⟨st, info⟩) := by
  rw [command_raised hs.2 h hs.2, endCommand_setCmd hs.1]

theorem decodeField_ok {ch : BitVec 4} {idx : BitVec 12} {f : CfgField} (h : cfgDecode idx ch = .ok f) :
    decodeField ch idx = pure f := by
  unfold decodeField
  rw [h]

theorem decodeField_error {ch : BitVec 4} {idx : BitVec 12} {st : Status} (h : cfgDecode idx ch = .error st) :
    decodeField ch idx = raise st 0 := by
  unfold decodeField
  rw [h]

/-! ### CFG_RD -/

@[simp] theorem State.setCmd_field (s : State) (i : Option Instr) (f : CfgField) : (s.setCmd i).field f = s.field f := by
  cases f with
  | global f => cases f <;> rfl
  | chan c f => simp only [State.field, State.setCmd_chan]

/-- CFG_RD of a field returns it and changes nothing (R302). -/
theorem cfgRd_of_decode {s : State} (hs : s.Calm) {ch : BitVec 4} {idx : BitVec 12} {f : CfgField}
    (h : cfgDecode idx ch = .ok f) : exec (.cfgRd ch idx) s = .next (s.present ⟨.ok, s.field f⟩) := by
  refine command_unchanged hs ?_
  simp only [cfgRead, decodeField_ok h, run_bind, run_pure, run_readS, State.setCmd_field]

/-- CFG_RD of operands that name no field raises what decoding raises (R300, R302). -/
theorem cfgRd_of_decode_error {s : State} (hs : s.Calm) {ch : BitVec 4} {idx : BitVec 12} {st : Status}
    (h : cfgDecode idx ch = .error st) : exec (.cfgRd ch idx) s = .next (s.present ⟨st, 0⟩) := by
  refine command_rejected hs ?_
  simp only [cfgRead, decodeField_error h, run_bind, run_raise]

theorem State.present_inj {s : State} {r r' : Response} (h : s.present r = s.present r') : r = r' := by
  have h := congrArg (fun u => u.out.resps) h
  simpa using h

/-- A CFG_RD that responds OK has read a field. -/
theorem field_of_cfgRd_ok {s : State} (hs : s.Calm) {ch : BitVec 4} {idx : BitVec 12} {w : Word}
    (h : exec (.cfgRd ch idx) s = .next (s.present ⟨.ok, w⟩)) : ∃ f, cfgDecode idx ch = .ok f ∧ s.field f = w := by
  cases hd : cfgDecode idx ch with
  | ok f =>
    rw [cfgRd_of_decode hs hd] at h
    injection h with h
    injection State.present_inj h with _ hw
    exact ⟨f, rfl, hw⟩
  | error st =>
    rw [cfgRd_of_decode_error hs hd] at h
    injection h with h
    injection State.present_inj h with hst _
    exact absurd hst (cfgDecode_error_ne_ok hd)

/-- A one-bit field as the rule writes it (R33, R35). -/
theorem bitWord_eq_ite (b : Bool) : bitWord b = if b then 1 else 0 := by cases b <;> rfl

/-- Settles O42: each index listed is the index of its field, and CFG_RD of a field's index returns the field. -/
theorem cfgRdReturnsTheField : Obligations.CfgRdReturnsTheField := by
  refine ⟨fun s ch c hs hc => ?_, fun s hs => ?_⟩
  · intro x bit lf
    have hrd (g : ChanField) : exec (.cfgRd ch g.index) s = .next (s.present ⟨.ok, x.field g⟩) :=
      cfgRd_of_decode hs (cfgDecode_chan hc g)
    have hbit : bit = bitWord := funext fun b => (bitWord_eq_ite b).symm
    have hlf : lf = x.field .lfState := by
      change (match x.lf with | .nop => 0 | .idle => 1 | .ringIdle => 2 | .ringing => 3) = x.lf.toBits.setWidth 32
      cases x.lf <;> rfl
    have hlvl : decide (x.hook.level = .onhook) = x.hook.level.toBit := by cases x.hook.level <;> rfl
    refine ⟨?_, fun k => hrd (.cadPhase k)⟩
    rw [hbit, hlf, hlvl]
    change ∀ f ∈ ([.minDigit, .maxDigit, .minFlash, .maxFlash, .minInterDigit, .minHookTimeout, .cadTotal, .cadN, .lfState,
      .hkLevel, .hkLastT, .hkCount, .hkAwait, .ringActive, .ringIdx, .ringT0, .ringCancel] : List ChanField).map
        (fun g => (g.index, x.field g)), _
    exact List.forall_mem_map.mpr fun g _ => hrd g
  · rw [← bitWord_eq_ite]
    change ∀ f ∈ ([.ramRetryBudget, .ramPollDelay, .calRetryBudget, .calPollDelay, .n, .irqEn, .irqQcount] :
      List GlobalField).map (fun g => (g.index, s.blk.globalField g)), _
    exact List.forall_mem_map.mpr fun g _ => cfgRd_of_decode hs (cfgDecode_operands (.global g))

/-! ### Rejections -/

/-- A cadence index is the index of a cadence field (R23, R25). -/
theorem exists_cadenceField {idx : BitVec 12} (h : idx = 0x200 ∨ idx = 0x201 ∨ 0x210 ≤ idx.toNat ∧ idx.toNat ≤ 0x21F) :
    ∃ f : ChanField, f.isCadence = true ∧ idx = f.index := by
  obtain h | h | h := h
  · exact ⟨.cadTotal, rfl, h⟩
  · exact ⟨.cadN, rfl, h⟩
  · exact ⟨.cadPhase _, rfl, eq_cadPhase_index h⟩

/-- CFG_WR of a busy field (R25, R301). -/
theorem cfgWr_of_busy {s : State} (hs : s.Calm) {ch : BitVec 4} {idx : BitVec 12} {f : CfgField} {v : Word}
    (hd : cfgDecode idx ch = .ok f) (hb : s.fieldBusy f = true) :
    exec (.cfgWr ch idx v) s = .next (s.present ⟨.busy, 0⟩) := by
  have hb' : (s.setCmd (some (.cfgWr ch idx v))).fieldBusy f = true := by
    cases f with
    | global f => exact hb
    | chan c f => simpa only [State.fieldBusy, State.setCmd_chan] using hb
  refine command_rejected hs ?_
  simp only [cfgWrite, decodeField_ok hd, run_bind, run_pure, run_readS, hb', Bool.not_true, run_require_false]

/-- Settles O44: each of the three commands raises at its first check, before it has changed anything. -/
theorem busyAndInvalidCalChangeNothing : Obligations.BusyAndInvalidCalChangeNothing := by
  refine ⟨fun s ch c idx v hs hc hidx ha => ?_, fun s c hs ha => ?_, fun s len seeds hs hl => ?_⟩
  · obtain ⟨f, hf, rfl⟩ := exists_cadenceField hidx
    exact cfgWr_of_busy hs (cfgDecode_chan hc f) (by rw [State.fieldBusy, hf, ha]; rfl)
  · have hr : ((s.chan .zero).ring.active || (s.chan .one).ring.active) = true := by
      cases c <;> simp [ha]
    refine command_rejected hs ?_
    simp only [initCmd, run_bind, run_readS, State.setCmd_chan, hr, Bool.not_true, run_require_false]
  · refine command_rejected hs ?_
    simp only [calibrate, run_bind, decide_eq_false (show ¬ len = 4#8 from hl), run_require_false]

/-! ### CFG_WR -/

/-- The four writable global fields keep DATA[15:0] (R22). -/
theorem globalField_writeGlobal (b : Block) (v : Word) {f : GlobalField} (h : f.index.toNat ≤ 3) :
    (b.writeGlobal v f).globalField f = (v.setWidth 16).setWidth 32 := by
  cases f with
  | ramRetryBudget => rfl
  | ramPollDelay => rfl
  | calRetryBudget => rfl
  | calPollDelay => rfl
  | _ => exact absurd h (by decide)

theorem writeGlobal_readOnly (b : Block) (v : Word) {f : GlobalField} (h : 4 ≤ f.index.toNat) : b.writeGlobal v f = b := by
  cases f with
  | n => rfl
  | irqEn => rfl
  | irqQcount => rfl
  | _ => exact absurd h (by decide)

theorem globalField_writeGlobal_other (b : Block) (v : Word) {f g : GlobalField} (h : g ≠ f) :
    (b.writeGlobal v f).globalField g = b.globalField g := by
  cases f <;> cases g <;> first | rfl | exact absurd rfl h

/-- A writable per-channel field other than `cad_n` keeps DATA (R23). -/
theorem field_writeField (x : ChanState) (v : Word) {f : ChanField} (h : f.index.toNat < 0x300) (hn : f ≠ .cadN) :
    (x.writeField v f).field f = v := by
  cases f with
  | cadN => exact absurd rfl hn
  | cadPhase k => exact Vector.getElem_set_self k.isLt
  | minDigit | maxDigit | minFlash | maxFlash | minInterDigit | minHookTimeout | cadTotal => rfl
  | _ => exact absurd h (by decide)

theorem writeField_readOnly (x : ChanState) (v : Word) {f : ChanField} (h : 0x300 ≤ f.index.toNat) :
    x.writeField v f = x := by
  cases f with
  | cadPhase k => rw [cadPhase_index_toNat] at h; omega
  | lfState | hkLevel | hkLastT | hkCount | hkAwait | ringActive | ringIdx | ringT0 | ringCancel => rfl
  | _ => exact absurd h (by decide)

theorem field_writeField_other (x : ChanState) (v : Word) {f g : ChanField} (h : g ≠ f) :
    (x.writeField v f).field g = x.field g := by
  cases f with
  | cadPhase k =>
    cases g with
    | cadPhase j =>
      exact Vector.getElem_set_ne k.isLt j.isLt fun e => h (congrArg ChanField.cadPhase (Fin.ext e.symm))
    | _ => rfl
  | lfState | hkLevel | hkLastT | hkCount | hkAwait | ringActive | ringIdx | ringT0 | ringCancel => rfl
  | _ => cases g <;> first | rfl | exact absurd rfl h

theorem State.chan_writeField_chan (s : State) (v : Word) (c : Chan) (f : ChanField) :
    (s.writeField v (.chan c f)).chan c = (s.chan c).writeField v f := State.chan_setChan_same s c _

theorem State.chan_writeField_global (s : State) (v : Word) (f : GlobalField) (d : Chan) :
    (s.writeField v (.global f)).chan d = s.chan d := by
  cases f <;> cases d <;> rfl

theorem globalField_setChan (b : Block) (c : Chan) (x : ChanState) (g : GlobalField) :
    (b.setChan c x).globalField g = b.globalField g := by
  cases c <;> cases g <;> rfl

/-- A write leaves every other field as it reads (R301). -/
theorem State.field_writeField_other (s : State) (v : Word) {f g : CfgField} (h : g ≠ f) :
    (s.writeField v f).field g = s.field g := by
  cases f with
  | global f =>
    cases g with
    | global g => exact globalField_writeGlobal_other s.blk v fun e => h (congrArg CfgField.global e)
    | chan d g => simp only [State.field, State.chan_writeField_global]
  | chan c f =>
    cases g with
    | global g => exact globalField_setChan s.blk c _ g
    | chan d g =>
      by_cases hd : d = c
      · subst hd
        simp only [State.field, State.chan_writeField_chan]
        exact Machine.field_writeField_other _ v fun e => h (congrArg (CfgField.chan d) e)
      · simp only [State.field, State.writeField, State.chan_setChan_other _ _ hd]

/-- A write changes the configuration only (R301). -/
theorem State.writeField_keeps_blk (s : State) (v : Word) (f : CfgField) :
    (s.writeField v f).blk.cmd = s.blk.cmd ∧ (s.writeField v f).blk.ramTx = s.blk.ramTx ∧
    (s.writeField v f).blk.grant = s.blk.grant ∧ (s.writeField v f).blk.irqQ = s.blk.irqQ ∧
    (s.writeField v f).blk.irqPos = s.blk.irqPos := by
  cases f with
  | global f => cases f <;> exact ⟨rfl, rfl, rfl, rfl, rfl⟩
  | chan c f => simp [State.writeField]

theorem State.writeField_env (s : State) (v : Word) (f : CfgField) : (s.writeField v f).env = s.env := by cases f <;> rfl

theorem State.writeField_out (s : State) (v : Word) (f : CfgField) : (s.writeField v f).out = s.out := by cases f <;> rfl

theorem State.setCmd_writeField (s : State) (i : Option Instr) (v : Word) (f : CfgField) :
    (s.setCmd i).writeField v f = (s.writeField v f).setCmd i := by
  cases f with
  | global f => cases f <;> rfl
  | chan c f => cases c <;> rfl

theorem State.setChan_chan (s : State) (c : Chan) : s.setChan c (s.chan c) = s := by cases c <;> rfl

theorem State.writeField_readOnly (s : State) (v : Word) {f : CfgField}
    (h : 4 ≤ f.operands.2.toNat ∧ f.operands.2.toNat ≤ 6 ∨ 0x300 ≤ f.operands.2.toNat) : s.writeField v f = s := by
  cases f with
  | global f =>
    have hle : f.index.toNat ≤ 6 := f.index_le
    change 4 ≤ f.index.toNat ∧ f.index.toNat ≤ 6 ∨ 0x300 ≤ f.index.toNat at h
    simp only [State.writeField, writeGlobal_readOnly s.blk v (f := f) (by omega)]
  | chan c f =>
    have hge : 0x100 ≤ f.index.toNat := f.le_index
    change 4 ≤ f.index.toNat ∧ f.index.toNat ≤ 6 ∨ 0x300 ≤ f.index.toNat at h
    rw [State.writeField, Machine.writeField_readOnly _ v (by omega), State.setChan_chan]

/-- CFG_WR of a field that is not busy (R301). -/
theorem cfgWr_of_decode {s : State} (hs : s.Calm) {ch : BitVec 4} {idx : BitVec 12} {f : CfgField} {v : Word}
    (hd : cfgDecode idx ch = .ok f) (hb : s.fieldBusy f = false) :
    exec (.cfgWr ch idx v) s = .next ((s.writeField v f).present ⟨.ok, 0⟩) := by
  have hb' : (s.setCmd (some (.cfgWr ch idx v))).fieldBusy f = false := by
    cases f with
    | global f => rfl
    | chan c f => simpa only [State.fieldBusy, State.setCmd_chan] using hb
  have ht : ((s.writeField v f).setCmd (some (.cfgWr ch idx v))).endCommand = s.writeField v f := by
    obtain ⟨hc, hx, -⟩ := s.writeField_keeps_blk v f
    exact endCommand_setCmd ⟨hc.trans hs.1.1, hx.trans hs.1.2⟩
  have hrun : (cfgWrite ch idx v).run (s.setCmd (some (.cfgWr ch idx v))) =
      .ok 0 ((s.writeField v f).setCmd (some (.cfgWr ch idx v))) := by
    simp only [cfgWrite, decodeField_ok hd, run_bind, run_pure, run_readS, hb', Bool.not_false, run_require_true,
      run_changeS, State.setCmd_writeField]
  have hr : (s.writeField v f).env.resets = [] := by
    rw [State.writeField_env]
    exact hs.2
  change command _ _ _ = _
  rw [command_ok hs.2 hrun hr, ht]

/-- A cadence field of a channel that does not ring is not busy, and no other field ever is (R25). -/
theorem fieldBusy_eq_false {s : State} {ch : BitVec 4} {idx : BitVec 12} {f : CfgField} (hd : cfgDecode idx ch = .ok f)
    (h : ∀ c, chanOf ch = some c → 0x200 ≤ idx.toNat → idx.toNat < 0x300 → (s.chan c).ring.active = false) :
    s.fieldBusy f = false := by
  obtain ⟨rfl, rfl⟩ := Prod.mk.inj (cfgDecode_eq_ok hd)
  cases f with
  | global f => rfl
  | chan c f =>
    cases hf : f.isCadence
    · rw [State.fieldBusy, hf, Bool.false_and]
    · obtain ⟨hlo, hhi⟩ := ChanField.index_of_isCadence hf
      rw [State.fieldBusy, h c (chanOf_chanBits c) hlo hhi, Bool.and_false]

/-- What is read back after a write: DATA cut to the width of the field (R22, R23). -/
theorem State.field_writeField_same (s : State) (v : Word) (f : CfgField) :
    (f.operands.2.toNat ≤ 3 → (s.writeField v f).field f = (v.setWidth 16).setWidth 32) ∧
    (f.operands.2 = 0x201 → (s.writeField v f).field f = (v.setWidth 8).setWidth 32) ∧
    (0x100 ≤ f.operands.2.toNat → f.operands.2.toNat < 0x300 → f.operands.2 ≠ 0x201 → (s.writeField v f).field f = v) := by
  cases f with
  | global f =>
    have hle : f.index.toNat ≤ 6 := f.index_le
    refine ⟨fun h => globalField_writeGlobal s.blk v h, fun h => ?_, fun h => ?_⟩
    · have h : f.index = 0x201#12 := h
      rw [h] at hle
      exact absurd hle (by decide)
    · have h : 0x100 ≤ f.index.toNat := h
      omega
  | chan c f =>
    simp only [State.field, State.chan_writeField_chan]
    refine ⟨fun h => ?_, fun h => ?_, fun _ h hn => Machine.field_writeField _ v h fun e => hn (by rw [e]; rfl)⟩
    · have h : f.index.toNat ≤ 3 := h
      have hge := f.le_index
      omega
    · have hf : f = .cadN := Option.some.inj ((chanFieldAt_index f).symm.trans (congrArg chanFieldAt h))
      rw [hf]
      rfl

/-- Settles O43: the state after the write is `writeField` of the one field that the operands name. -/
theorem cfgWrIsReadBackAndNothingElseMoves : Obligations.CfgWrIsReadBackAndNothingElseMoves := by
  intro s ch idx v hs hwf hch hring
  obtain ⟨f, hd⟩ := exists_field_of_legal hwf hch
  obtain ⟨hcmd, hx, hgrant, hq, hpos⟩ := s.writeField_keeps_blk v f
  have ht : (s.writeField v f).Calm :=
    ⟨⟨hcmd.trans hs.1.1, hx.trans hs.1.2⟩, by rw [State.writeField_env]; exact hs.2⟩
  have hread := cfgRd_of_decode ht hd
  obtain ⟨hword, hbyte, hfull⟩ := s.field_writeField_same v f
  have hops : idx = f.operands.2 := congrArg Prod.snd (cfgDecode_eq_ok hd)
  rw [← hops] at hword hbyte hfull
  refine ⟨s.writeField v f, cfgWr_of_decode hs hd (fieldBusy_eq_false hd hring), (writeField_growsFrom s v f).2,
    s.writeField_env v f, s.writeField_out v f, fun h => ?_, fun h => ?_, fun h1 h2 h3 => ?_, fun h => ?_,
    fun ch' idx' w hne hw => ?_, hgrant, hq, hpos, ht.1, fun c => s.writeField_chan_keeps v f c⟩
  · rw [hread, hword h]
  · rw [hread, hbyte h]
  · rw [hread, hfull h1 h2 h3]
  · exact s.writeField_readOnly v (hops ▸ h)
  · obtain ⟨g, hg, rfl⟩ := field_of_cfgRd_ok hs hw
    have hgf : g ≠ f := fun e => hne (by rw [cfgDecode_eq_ok hg, cfgDecode_eq_ok hd, e])
    rw [cfgRd_of_decode ht hg, State.field_writeField_other s v hgf]

end Sys2Proof.Machine
end

