-- ==== Sys2Proof/Proofs/OthersMoves.lean ====
section
/-! The moves of the other agents, said once: a move changes only what is the others' own and issues nothing, or a reset falls
in it, or it is one atomic unit that waits for the grant (R14, R80, R82). -/

namespace Sys2Proof.Machine

/-! ### The forms of a move -/

/-- What a move that issues no transport operation leaves as it is. -/
structure Aside (s t : State) : Prop where
  par : t.par = s.par
  budget : t.blk.ramRetryBudget = s.blk.ramRetryBudget
  grant : t.blk.grant = s.blk.grant
  sched : t.env.sched = s.env.sched
  turn : t.env.turn = s.env.turn
  wire : t.out.wire = s.out.wire
  resps : t.out.resps = s.out.resps

theorem Aside.refl (s : State) : Aside s s := by constructor <;> rfl

theorem Aside.trans {s t u : State} (h1 : Aside s t) (h2 : Aside t u) : Aside s u where
  par := h2.par.trans h1.par
  budget := h2.budget.trans h1.budget
  grant := h2.grant.trans h1.grant
  sched := h2.sched.trans h1.sched
  turn := h2.turn.trans h1.turn
  wire := h2.wire.trans h1.wire
  resps := h2.resps.trans h1.resps

theorem setIrqPos_aside (s : State) (p : IrqPos) : Aside s (s.setIrqPos p) := by constructor <;> rfl

theorem setIrqQ_aside (s : State) (q : List IrqEvent) : Aside s (s.setIrqQ q) := by constructor <;> rfl

theorem emit_aside (s : State) (e : Event) : Aside s (s.emit e) := by constructor <;> rfl

theorem consumeEvent_aside (s : State) : Aside s s.consumeEvent := by constructor <;> rfl

theorem setResets_aside (s : State) (l : List Bool) : Aside s (s.setResets l) := by constructor <;> rfl

theorem advance_aside (s : State) (ms : Word) : Aside s (s.advance ms) := by constructor <;> rfl

theorem setChan_aside (s : State) (c : Chan) (x : ChanState) : Aside s (s.setChan c x) := by cases c <;> constructor <;> rfl

theorem takeEvent_aside (s : State) (e : IrqEvent) (rest : List IrqEvent) : Aside s (s.takeEvent e rest) := by
  unfold State.takeEvent
  split
  · exact (setIrqQ_aside s rest).trans (setIrqPos_aside _ _)
  · exact (setIrqQ_aside s rest).trans (setIrqPos_aside _ _)

theorem queueEvent_aside (s : State) (payload : Option Byte) (t : Word) : Aside s (s.queueEvent payload t) :=
  (consumeEvent_aside s).trans (setIrqQ_aside _ _)

theorem feedHook_aside (s : State) (c : Chan) (lvl : Level) (t : Word) : Aside s (s.feedHook c lvl t) := by
  unfold State.feedHook
  split
  · exact (setChan_aside s c _).trans (emit_aside _ _)
  · exact setChan_aside s c _

theorem tickHook_aside (s : State) (c : Chan) (t : Word) : Aside s (s.tickHook c t) := by
  unfold State.tickHook
  dsimp only
  split
  · exact (setChan_aside s c _).trans (emit_aside _ _)
  · exact setChan_aside s c _

theorem requestCancel_aside (s : State) (c : Chan) : Aside s (s.requestCancel c) := by
  obtain ⟨_, e⟩ := requestCancel_eq s c
  rw [e]
  exact setChan_aside s c _

theorem preempt_aside (s : State) (c : Chan) (flags : List Nat) : Aside s (s.preempt c flags) := by
  unfold State.preempt
  split
  · exact requestCancel_aside s c
  · exact .refl s

theorem startPhase_aside (s : State) (c : Chan) : Aside s (s.startPhase c) := by
  obtain ⟨_, _, e⟩ := startPhase_eq s c
  rw [e]
  exact setChan_aside s c _

/-- The atomic units of the other agents (R80): a register read of the interrupt agent, a `SetLineFeed` of a ringer. -/
inductive OthersUnit : Grant → Run Unit → Prop
  | read (c : Chan) (a : Byte) (next : Option Byte → IrqPos) :
    OthersUnit .interrupt (do let r ← readOp c a; goIrq (next r))
  | linefeed (c : Chan) (req : LfState) (next : LfResult → RingPos) :
    OthersUnit (.ringer c) (do let res ← setLineFeed moment c req; changeS (fun s => s.setRingPos c (next res)))

/-- All a move begun in s can end in. -/
inductive MoveForm (s : State) : EStateM.Result Stop State Unit → Prop
  | aside {t : State} (h : Aside s t) : MoveForm s (.ok () t)
  | reset {t : State} (h : Aside s t) : MoveForm s (.error .reset t.blockReset)
  | unit {g : Grant} {body : Run Unit} (h : OthersUnit g body) : MoveForm s ((whenGranted g body).run s)

theorem discardEvent_form (code : LogCode) (s : State) : MoveForm s ((discardEvent code).run s) := by
  have hs := consumeEvent_aside s
  obtain ⟨l, e⟩ | ⟨l, e⟩ := moment_cases s.consumeEvent
  · simp only [discardEvent, run_bind, run_readS, run_changeS, e]
    exact .aside (hs.trans ((setResets_aside _ l).trans (emit_aside _ _)))
  · simp only [discardEvent, run_bind, run_readS, run_changeS, e]
    exact .reset (hs.trans (setResets_aside _ l))

theorem gateEvent_form (payload : Option Byte) (t : Word) (s : State) : MoveForm s ((gateEvent payload t).run s) := by
  simp only [gateEvent, run_bind, run_readS]
  split
  · rw [run_changeS]
    split
    · exact .aside (queueEvent_aside s payload t)
    · exact .aside (.refl s)
  · exact discardEvent_form _ s

theorem eventMove_form (s : State) : MoveForm s (eventMove.run s) := by
  change MoveForm s (eventMove s)
  unfold eventMove
  split
  · exact .aside (.refl s)
  · split
    · exact gateEvent_form _ _ s
    · exact gateEvent_form _ _ s
    · exact discardEvent_form _ s

theorem irqMove_form (s : State) : MoveForm s (irqMove.run s) := by
  have goes (p : IrqPos) : MoveForm s (.ok () (s.setIrqPos p)) := .aside (setIrqPos_aside s p)
  have emits (e : Event) (p : IrqPos) : MoveForm s (.ok () ((s.emit e).setIrqPos p)) :=
    .aside ((emit_aside s e).trans (setIrqPos_aside _ p))
  change MoveForm s (irqMove s)
  unfold irqMove
  cases s.blk.irqPos with
  | idle =>
    dsimp only
    split
    · exact .aside (.refl s)
    · exact .aside (takeEvent_aside s _ _)
  | wantStatus t => exact .unit (.read .zero _ (.haveStatus t))
  | haveStatus t r =>
    cases r with
    | none => exact emits _ _
    | some b => exact goes _
  | pairs t todo =>
    cases todo with
    | nil => exact goes _
    | cons x rest =>
      dsimp only
      split
      · exact goes _
      · exact goes _
  | wantFlag t c i flags todo => exact .unit (.read c _ (.haveFlag t c i flags todo))
  | haveFlag t c i flags todo r =>
    cases r with
    | none => exact emits _ _
    | some b => exact goes _
  | dispatch t c left flags todo =>
    cases left with
    | nil => exact .aside ((preempt_aside s c flags).trans (setIrqPos_aside _ _))
    | cons h rest => exact emits _ _
  | wantHook t c todo => exact .unit (.read c _ (.haveHook t c todo))
  | haveHook t c todo r =>
    cases r with
    | none => exact emits _ _
    | some b => exact .aside ((feedHook_aside s c _ t).trans (setIrqPos_aside _ _))

theorem ringerMove_form (c : Chan) (s : State) : MoveForm s ((ringerMove c).run s) := by
  have emits (e : Event) (r : Ring) : MoveForm s (.ok () ((s.emit e).setRing c r)) :=
    .aside ((emit_aside s e).trans (setChan_aside _ c _))
  change MoveForm s (ringerMove c s)
  unfold ringerMove
  dsimp only
  split
  · cases (s.chan c).ring.pos with
    | ready => exact .aside (startPhase_aside s c)
    | wantPhase req d => exact .unit (.linefeed c req (.havePhase d))
    | havePhase d res =>
      cases res with
      | ok => exact .aside (setChan_aside s c _)
      | commError a => exact emits _ _
    | waiting =>
      dsimp only
      split
      · exact .aside (startPhase_aside s c)
      · exact .aside (.refl s)
    | wantExit reason => exact .unit (.linefeed c .idle (.haveExit reason))
    | haveExit reason res =>
      cases res with
      | ok => exact emits _ _
      | commError a => exact emits _ _
    | ended => exact .aside (setChan_aside s c _)
  · exact .aside (.refl s)

theorem move_form (slot : Slot) (s : State) : MoveForm s ((move slot).run s) := by
  cases slot with
  | command => exact .aside (.refl s)
  | eventPort => exact eventMove_form s
  | interrupt => exact irqMove_form s
  | ringer c => exact ringerMove_form c s
  | tick ms => exact .aside (advance_aside s ms)
  | reset => exact .reset (.refl s)

/-! ### A held transport -/

/-- A unit of another agent waits while anyone holds the transport (R80, R82). -/
theorem whenGranted_of_held {s : State} (hs : s.blk.grant ≠ .none) (g : Grant) (body : Run Unit) :
    (whenGranted g body).run s = .ok () s := by
  rw [run_whenGranted, if_neg hs]

/-- While anyone holds the transport, a move issues nothing and leaves the holder, or a reset falls in it (R82). -/
theorem move_of_held {s : State} (hs : s.blk.grant ≠ .none) (slot : Slot) :
    (∃ t, (move slot).run s = .ok () t ∧ Aside s t) ∨ ∃ t, (move slot).run s = .error .reset t.blockReset ∧ Aside s t := by
  have h := move_form slot s
  generalize (move slot).run s = r at h ⊢
  cases h with
  | aside h => exact .inl ⟨_, rfl, h⟩
  | reset h => exact .inr ⟨_, rfl, h⟩
  | unit _ => exact .inl ⟨s, whenGranted_of_held hs _ _, .refl s⟩

/-! ### Moves and relations -/

section
variable {A : List Status} {R Z : State → State → Prop}

/-- A relation closed under transport operations, under what a move sets aside and under changes of the grant holds of every
move. -/
theorem move_ends_of_aside (h : ClosedOps R Z) (haside : ∀ {s t}, Aside s t → R s t)
    (hgrant : ∀ s g, R s (s.setGrant g)) (hfree : ∀ {s t}, Z s t → Z s (t.setGrant .none)) (slot : Slot) :
    Ends A R Z (move slot) := by
  intro s
  have hm := move_form slot s
  generalize (move slot).run s = r at hm
  cases hm with
  | aside hs => exact haside hs
  | reset hs => exact h.reset (haside hs)
  | @unit g body hu =>
    have hbody : Ends A R Z body := by
      cases hu with
      | read c a next => exact bind_ends h (readOp_ends h c a) fun r => changeS_ends fun s => haside (setIrqPos_aside s _)
      | linefeed c req next =>
        exact bind_ends h (ringerLineFeed_ends h c req) fun res => changeS_ends fun s => haside (setChan_aside s c _)
    rw [run_whenGranted]
    split
    · have hb := EndsIn.after h (hgrant s g) (hbody (s.setGrant g))
      rw [run_holding]
      cases hr : body.run (s.setGrant g) with
      | ok a t =>
        rw [hr] at hb
        exact h.trans hb (hgrant t .none)
      | error e t =>
        rw [hr] at hb
        cases e with
        | raised st info => exact ⟨hb.1, h.trans hb.2 (hgrant t .none)⟩
        | reset => exact hfree hb
    · exact h.refl s

end

end Sys2Proof.Machine
end

