-- ==== Sys2Proof/Proofs/HeldTransport.lean ====
section
/-! What the command agent's sequences put on the wire while it holds the transport: nothing of the others comes between
(R80, R82, R84). -/

namespace Sys2Proof.Machine

/-! ### The rules -/

/-- The command agent holds the transport, with these parameters and this RAM retry budget, and w is on the wire. -/
structure Held (p : Params) (budget : Half) (w : List WireOp) (s : State) : Prop where
  par : s.par = p
  budget : s.blk.ramRetryBudget = budget
  grant : s.blk.grant = .command
  wire : s.out.wire = w

/-- Begun while the command agent holds the transport, x ends normally only with Q of its value and of the operations that
have come on the wire since. -/
def Sends (p : Params) (budget : Half) {α : Type} (x : Run α) (Q : α → List WireOp → Prop) : Prop :=
  ∀ w s a t, Held p budget w s → x.run s = .ok a t → ∃ ops, Held p budget (w ++ ops) t ∧ Q a ops

section
variable {p : Params} {b : Half} {w : List WireOp} {α β : Type}

theorem Held.granted {s : State} (h : Held p b w s) : s.blk.grant ≠ .none := by
  rw [h.grant]
  exact nofun

theorem Held.aside {s t : State} (h : Held p b w s) (ha : Aside s t) : Held p b w t where
  par := ha.par.trans h.par
  budget := ha.budget.trans h.budget
  grant := ha.grant.trans h.grant
  wire := ha.wire.trans h.wire

theorem Held.issued {s t : State} {ops : List WireOp} (h : Held p b w s) (hi : Issued s t ops) : Held p b (w ++ ops) t := by
  obtain ⟨hp, hb, -, hw⟩ := hi
  exact ⟨hp.trans h.par, by rw [hb]; exact h.budget, by rw [hb]; exact h.grant, by rw [hw, h.wire]⟩

/-- Nothing has come on the wire. -/
theorem Held.nothing {s : State} (h : Held p b w s) : Held p b (w ++ []) s := by
  rw [List.append_nil]
  exact h

theorem pure_sends {Q : α → List WireOp → Prop} {a : α} (h : Q a []) : Sends p b (pure a) Q := by
  intro w s a' t hs e
  cases e
  exact ⟨[], hs.nothing, h⟩

theorem raise_sends {Q : α → List WireOp → Prop} (st : Status) (info : Word) : Sends p b (raise st info) Q :=
  fun _ _ _ _ _ e => nomatch e

theorem Sends.bind {x : Run α} {f : α → Run β} {Q : α → List WireOp → Prop} {Q' : β → List WireOp → Prop}
    (hx : Sends p b x Q) (hf : ∀ a ops, Q a ops → Sends p b (f a) fun c ops' => Q' c (ops ++ ops')) :
    Sends p b (x >>= f) Q' := by
  intro w s c t hs e
  obtain ⟨a, u, ex, ef⟩ := bind_ok e
  obtain ⟨ops, hu, hq⟩ := hx w s a u hs ex
  obtain ⟨ops', ht, hq'⟩ := hf a ops hq _ u c t hu ef
  exact ⟨ops ++ ops', by rwa [← List.append_assoc], hq'⟩

/-- A part that always sends the same. -/
theorem Sends.then {x : Run α} {f : α → Run β} {ops : List WireOp} {Q' : β → List WireOp → Prop}
    (hx : Sends p b x fun _ ops' => ops' = ops) (hf : ∀ a, Sends p b (f a) fun c ops' => Q' c (ops ++ ops')) :
    Sends p b (x >>= f) Q' :=
  hx.bind fun a _ hops => hops ▸ hf a

/-- A part that sends nothing. -/
theorem Sends.thenQuiet {x : Run α} {f : α → Run β} {Q' : β → List WireOp → Prop}
    (hx : Sends p b x fun _ ops => ops = []) (hf : ∀ a, Sends p b (f a) Q') : Sends p b (x >>= f) Q' :=
  hx.then hf

theorem Sends.mono {x : Run α} {Q Q' : α → List WireOp → Prop} (hx : Sends p b x Q) (h : ∀ a ops, Q a ops → Q' a ops) :
    Sends p b x Q' := by
  intro w s a t hs e
  obtain ⟨ops, ht, hq⟩ := hx w s a t hs e
  exact ⟨ops, ht, h a ops hq⟩

/-- A value read that holding the transport fixes. -/
theorem readS_then {f : State → α} {g : α → Run β} {v : α} {Q : β → List WireOp → Prop}
    (hf : ∀ w s, Held p b w s → f s = v) (hg : Sends p b (g v) Q) : Sends p b (readS f >>= g) Q := by
  intro w s a t hs e
  obtain ⟨_, _, er, e⟩ := bind_ok e
  cases er
  rw [hf w s hs] at e
  exact hg w s a t hs e

/-- A value read. -/
theorem readS_quiet (f : State → α) : Sends p b (readS f) fun _ ops => ops = [] := by
  intro w s a t hs e
  cases e
  exact ⟨[], hs.nothing, rfl⟩

/-- A change of the state that is none of what is held. -/
theorem changeS_quiet {f : State → State} (hf : ∀ w s, Held p b w s → Held p b w (f s)) :
    Sends p b (changeS f) fun _ ops => ops = [] := by
  intro w s a t hs e
  cases e
  exact ⟨[], (hf w s hs).nothing, rfl⟩

theorem require_sends (c : Bool) (st : Status) : Sends p b (require c st) fun _ ops => c = true ∧ ops = [] := by
  cases c
  · exact raise_sends st 0
  · exact pure_sends ⟨rfl, rfl⟩

/-! ### The command agent's operations -/

theorem movesUpToCommand_held (l : List Slot) {s t : State} (hs : Held p b w s)
    (e : (movesUpToCommand l).run s = .ok () t) : Held p b w t := by
  induction l generalizing s with
  | nil => cases e; exact ⟨hs.par, hs.budget, hs.grant, hs.wire⟩
  | cons slot rest ih =>
    have hr : Held p b w (s.setSched rest) := ⟨hs.par, hs.budget, hs.grant, hs.wire⟩
    rw [movesUpToCommand_cons] at e
    split at e
    · cases e; exact hr
    · obtain ⟨u, em, ha⟩ | ⟨u, em, -⟩ := move_of_held hr.granted slot <;> rw [em] at e
      · exact ih (hr.aside ha) e
      · cases e

/-- At a scheduling point within a unit the others issue nothing (R82). -/
theorem point_quiet : Sends p b point fun _ ops => ops = [] := fun _ s _ _ hs e =>
  ⟨[], (movesUpToCommand_held s.env.sched hs e).nothing, rfl⟩

theorem readOp_sends (c : Chan) (a : Byte) :
    Sends p b (readOp c a) fun r ops => ops = [.read c a (r.elim .failed .data)] := fun _ _ _ _ hs e =>
  ⟨_, hs.issued (readOp_issued e), rfl⟩

theorem writeOp_sends (c : Chan) (a v : Byte) :
    Sends p b (writeOp c a v) fun done ops => ops = [.write c a v (if done then .done else .failed)] := fun _ _ _ _ hs e =>
  ⟨_, hs.issued (writeOp_issued e), rfl⟩

/-- A read whose failure raises. -/
theorem raisingRead_sends {c : Chan} {a : Byte} {f : Option Byte → Run Byte} (hsome : ∀ v, f (some v) = pure v)
    (hnone : ∃ st info, f none = raise st info) :
    Sends p b (do point; let r ← readOp c a; f r) fun v ops => ops = [.read c a (.data v)] :=
  point_quiet.thenQuiet fun _ => (readOp_sends c a).bind fun r ops hops => by
    cases r with
    | none =>
      obtain ⟨st, info, e⟩ := hnone
      rw [e]
      exact raise_sends st info
    | some v =>
      rw [hsome]
      exact pure_sends ((List.append_nil ops).trans hops)

theorem cmdRead_sends (c : Chan) (a : Byte) : Sends p b (cmdRead c a) fun v ops => ops = [.read c a (.data v)] :=
  raisingRead_sends (fun _ => rfl) ⟨_, _, rfl⟩

theorem cmdWrite_sends (c : Chan) (a v : Byte) : Sends p b (cmdWrite c a v) fun _ ops => ops = [.write c a v .done] :=
  point_quiet.thenQuiet fun _ => (writeOp_sends c a v).bind fun done ops hops => by
    cases done with
    | false => exact raise_sends _ _
    | true => exact pure_sends ((List.append_nil ops).trans hops)

theorem delay_quiet (ms : Half) : Sends p b (delay ms) fun _ ops => ops = [] :=
  (readS_quiet _).thenQuiet fun _ => point_quiet.thenQuiet fun _ => changeS_quiet fun _ s hs => by
    unfold State.passUntil
    split
    · exact ⟨hs.par, hs.budget, hs.grant, hs.wire⟩
    · exact hs

/-! ### The RAM units -/

/-- The polls of a wait of at most k polls that has seen the chip ready (R140). -/
def WaitSent (p : Params) (c : Chan) (k : Nat) (ops : List WireOp) : Prop :=
  ∃ busy r, busy.length < k ∧ (∀ x ∈ busy, x.getLsbD 0 = true) ∧ r.getLsbD 0 = false ∧ ops = waitOps p c busy r

/-- A busy poll before. -/
theorem WaitSent.busy {c : Chan} {k : Nat} {v : Byte} {ops : List WireOp} (hv : v.getLsbD 0 = true)
    (h : WaitSent p c k ops) : WaitSent p c (k + 1) ([.read c p.regRamstat (.data v)] ++ ops) := by
  obtain ⟨busy, r, hlen, hbusy, hr, rfl⟩ := h
  exact ⟨v :: busy, r, Nat.succ_lt_succ hlen, List.forall_mem_cons.2 ⟨hv, hbusy⟩, hr, rfl⟩

theorem pollReady_sends (c : Chan) (pause : Half) (k : Nat) :
    Sends p b (pollReady c p.regRamstat pause k) fun _ ops => WaitSent p c k ops := by
  induction k with
  | zero => exact raise_sends _ _
  | succ k ih =>
    refine (cmdRead_sends c p.regRamstat).bind fun v ops hops => ?_
    subst hops
    by_cases hv : v.getLsbD 0 = true
    · simp only [ramBusy, hv, if_true]
      have again : Sends p b (pollReady c p.regRamstat pause k) fun _ ops =>
          WaitSent p c (k + 1) ([.read c p.regRamstat (.data v)] ++ ops) := ih.mono fun _ _ => .busy hv
      split
      · exact again
      · exact (delay_quiet pause).thenQuiet fun _ => again
    · simp only [ramBusy, hv]
      exact pure_sends ⟨[], v, Nat.succ_pos k, nofun, by simpa using hv, rfl⟩

theorem waitReady_sends (c : Chan) : Sends p b (waitReady c) fun _ ops => WaitSent p c b.toNat ops :=
  readS_then (fun _ _ hs => hs.budget) <| (readS_quiet _).thenQuiet fun pause =>
    readS_then (fun _ _ hs => congrArg Params.regRamstat hs.par) <| pollReady_sends c pause _

/-- The command's RamTransaction is none of what is held. -/
theorem setRamTx_quiet (tx : Option RamTransaction) : Sends p b (changeS (·.setRamTx tx)) fun _ ops => ops = [] :=
  changeS_quiet fun _ _ hs => ⟨hs.par, hs.budget, hs.grant, hs.wire⟩

theorem ramWriteUnit_sends (c : Chan) (addr : BitVec 12) (v : Word) :
    Sends p b (ramWriteUnit p c addr v) fun _ ops => ∃ o1 o2, WaitSent p c b.toNat o1 ∧ WaitSent p c b.toNat o2 ∧
      ops = o1 ++ ramWriteWindow p c addr v ++ o2 := by
  refine (setRamTx_quiet _).thenQuiet fun _ => (waitReady_sends c).bind fun _ o1 h1 => ?_
  refine (cmdWrite_sends c _ _).then fun _ => (cmdWrite_sends c _ _).then fun _ => (cmdWrite_sends c _ _).then fun _ =>
    (cmdWrite_sends c _ _).then fun _ => (cmdWrite_sends c _ _).then fun _ => (cmdWrite_sends c _ _).then fun _ => ?_
  exact (waitReady_sends c).mono fun _ o2 h2 => ⟨o1, o2, h1, h2, by simp [ramWriteWindow]⟩

theorem ramReadUnit_sends (c : Chan) (addr : BitVec 12) :
    Sends p b (ramReadUnit p c addr) fun rdata ops => ∃ o1 o2 d3 d2 d1 d0, WaitSent p c b.toNat o1 ∧
      WaitSent p c b.toNat o2 ∧ rdata = ramReassemble d3 d2 d1 d0 ∧
      ops = o1 ++ ramReadWindow p c addr ++ o2 ++ ramLaneReads p c d3 d2 d1 d0 := by
  refine (setRamTx_quiet _).thenQuiet fun _ => (waitReady_sends c).bind fun _ o1 h1 => ?_
  refine (cmdWrite_sends c _ _).then fun _ => (cmdWrite_sends c _ _).then fun _ => ?_
  refine (waitReady_sends c).bind fun _ o2 h2 => ?_
  refine (cmdRead_sends c _).bind fun d3 _ e3 => (cmdRead_sends c _).bind fun d2 _ e2 =>
    (cmdRead_sends c _).bind fun d1 _ e1 => (cmdRead_sends c _).bind fun d0 _ e0 => ?_
  subst e3 e2 e1 e0
  exact pure_sends ⟨o1, o2, d3, d2, d1, d0, h1, h2, rfl, by simp [ramReadWindow, ramLaneReads]⟩

/-! ### The linefeed unit -/

/-- The model's guard is the rule's (R220). -/
theorem lfGuarded_iff (req : LfState) (v : Byte) : lfGuarded p req v = true ↔ lfGuards p req v := by
  simp only [lfGuarded, Bool.or_eq_true, Bool.and_eq_true, decide_eq_true_eq]
  rfl

/-- A write of the bracket, and then its rest where the write has completed. -/
theorem bracketWrite_sends {c : Chan} {a v : Byte} {k : Run LfResult} {ops : List WireOp}
    (hk : Sends p b k fun res ops' => res = .ok → ops' = ops) :
    Sends p b (do point; let done ← writeOp c a v; if done then k else pure (.commError a)) fun res ops' =>
      res = .ok → ops' = [.write c a v .done] ++ ops := by
  refine point_quiet.thenQuiet fun _ => (writeOp_sends c a v).bind fun done ops' hops => ?_
  subst hops
  cases done with
  | false => exact pure_sends nofun
  | true => exact hk.mono fun _ _ h hok => congrArg _ (h hok)

theorem autoBracket_sends (c : Chan) (req : LfState) (a : Byte) :
    Sends p b (autoBracket point p c req a) fun res ops => res = .ok → ops = bracketWrites p c req a := by
  refine bracketWrite_sends (bracketWrite_sends (bracketWrite_sends (ops := []) ?_))
  refine Sends.thenQuiet (changeS_quiet fun _ s hs => ?_) fun _ => pure_sends fun _ => rfl
  exact hs.aside (setChan_aside s c _)

/-- Answers under which the full transition completes. -/
theorem bracketOps_answered (c : Chan) (req : LfState) (v a : Byte) :
    List.Forall₂ WireOp.answeredBy (bracketOps p c req v a) (answering [v, a, 0, 0, 0]) :=
  .cons rfl (.cons rfl (.cons ⟨0, rfl⟩ (.cons ⟨0, rfl⟩ (.cons ⟨0, rfl⟩ .nil))))

theorem setLineFeed_sends (c : Chan) (req : LfState) :
    Sends p b (setLineFeed point c req) fun res ops => res = .ok → ∃ as moved, LinefeedRun p c req ops as .ok moved := by
  refine readS_then (fun _ _ hs => hs.par) <| point_quiet.thenQuiet fun _ => (readOp_sends c _).bind fun v _ hv => ?_
  subst hv
  cases v with
  | none => exact pure_sends nofun
  | some v =>
    dsimp only
    split
    · next hg => exact pure_sends fun _ => ⟨_, _, .guarded v ((lfGuarded_iff req v).1 hg)⟩
    · next hg =>
      refine point_quiet.thenQuiet fun _ => (readOp_sends c _).bind fun a _ ha => ?_
      subst ha
      cases a with
      | none => exact pure_sends nofun
      | some a =>
        refine (autoBracket_sends c req a).mono fun _ _ h hok => ?_
        rw [h hok]
        exact ⟨_, _, .full v a _ (hg ∘ (lfGuarded_iff req v).2) (bracketOps_answered c req v a)⟩

/-! ### The INIT unit -/

theorem initRead_sends (c : Chan) (a : Byte) : Sends p b (initRead c a) fun v ops => ops = [.read c a (.data v)] :=
  raisingRead_sends (fun _ => rfl) ⟨_, _, rfl⟩

/-- The probe of both channels: none answers, the first only, or both (R303). -/
theorem probe_sends (a : Byte) : Sends p b (probe a [.zero, .one] 0) fun n ops =>
    n = 0 ∨
    (n = 1 ∧ ∃ id0, id0 ≠ 0xFF#8 ∧ ops = [.read .zero a (.data id0), .read .one a (.data 0xFF#8)]) ∨
    (n = 2 ∧ ∃ id0 id1, id0 ≠ 0xFF#8 ∧ id1 ≠ 0xFF#8 ∧ ops = [.read .zero a (.data id0), .read .one a (.data id1)]) := by
  refine (initRead_sends .zero a).bind fun id0 _ e0 => ?_
  subst e0
  by_cases h0 : id0 = 0xFF#8
  · rw [if_pos h0]
    exact pure_sends (.inl rfl)
  rw [if_neg h0]
  refine (initRead_sends .one a).bind fun id1 _ e1 => ?_
  subst e1
  by_cases h1 : id1 = 0xFF#8
  · rw [if_pos h1, h1]
    exact pure_sends (.inr (.inl ⟨rfl, id0, h0, rfl⟩))
  · rw [if_neg h1]
    exact pure_sends (.inr (.inr ⟨rfl, id0, id1, h0, h1, rfl⟩))

/-- The hook status reads, one of each channel listed. -/
theorem initHooks_sends (a : Byte) (l : List Chan) : Sends p b (initHooks a l) fun _ ops =>
    List.Forall₂ (fun c op => ∃ v, op = WireOp.read c a (.data v)) l ops := by
  induction l with
  | nil => exact pure_sends .nil
  | cons c rest ih =>
    refine (initRead_sends c a).bind fun v _ hv => ?_
    subst hv
    refine Sends.thenQuiet (changeS_quiet fun _ s hs => hs.aside (setChan_aside s c _)) fun _ => ?_
    exact ih.mono fun _ _ h => .cons ⟨v, rfl⟩ h

/-- N is none of what is held. -/
theorem setN_quiet (n : Fin 3) : Sends p b (changeS (·.setN n)) fun _ ops => ops = [] :=
  changeS_quiet fun _ _ hs => ⟨hs.par, hs.budget, hs.grant, hs.wire⟩

theorem initSequence_sends (s : State) :
    Sends s.par b initSequence fun n ops => UnitRun s .init (BitVec.ofNat 32 n.val) ops := by
  refine (setN_quiet 0).thenQuiet fun _ => readS_then (fun _ _ hs => hs.par) <| (probe_sends _).bind fun count o1 h1 => ?_
  refine (require_sends _ _).bind fun _ _ ⟨hc, ho⟩ => ?_
  subst ho
  refine (initHooks_sends _ _).bind fun _ o2 h2 => point_quiet.thenQuiet fun _ => (setN_quiet _).thenQuiet fun _ =>
    pure_sends ?_
  obtain rfl | ⟨rfl, id0, h0, rfl⟩ | ⟨rfl, id0, id1, h0, h0', rfl⟩ := h1
  · exact absurd hc (by decide)
  · obtain _ | ⟨⟨v, rfl⟩, _ | _⟩ := h2
    exact .initOne h0
  · obtain _ | ⟨⟨v, rfl⟩, _ | ⟨⟨v', rfl⟩, _ | _⟩⟩ := h2
    exact .initTwo h0 h0'

end

end Sys2Proof.Machine
end

