-- ==== Sys2Proof/Proofs/MoveOrder.lean ====
section
/-! The order of moves and the responses: every sequence of a move or a command only uses the schedule up, leaves the turn alone
and responds nothing, and no command raises OK (R81, R101, R329). -/

namespace Sys2Proof.Machine

/-! ### Relations -/

/-- The schedule is used up from its front, the turn stays, and nothing is responded. -/
structure OrderKept (s t : State) : Prop where
  sched : t.env.sched <:+ s.env.sched
  turn : t.env.turn = s.env.turn
  resps : t.out.resps = s.out.resps

theorem OrderKept.of_same {s t : State} (hs : t.env.sched = s.env.sched) (ht : t.env.turn = s.env.turn)
    (hr : t.out.resps = s.out.resps) : OrderKept s t := ⟨hs ▸ List.suffix_rfl, ht, hr⟩

theorem OrderKept.trans {s t u : State} (h1 : OrderKept s t) (h2 : OrderKept t u) : OrderKept s u where
  sched := h2.sched.trans h1.sched
  turn := h2.turn.trans h1.turn
  resps := h2.resps.trans h1.resps

theorem Aside.orderKept {s t : State} (h : Aside s t) : OrderKept s t := .of_same h.sched h.turn h.resps

/-- A reset leaves the environment's side and the outputs (log entry 15). -/
theorem OrderKept.blockReset {s t : State} (h : OrderKept s t) : OrderKept s t.blockReset := ⟨h.sched, h.turn, h.resps⟩

theorem OrderKept.setGrant {s t : State} (h : OrderKept s t) (g : Grant) : OrderKept s (t.setGrant g) :=
  ⟨h.sched, h.turn, h.resps⟩

theorem takeAnswer_orderKept (s : State) : OrderKept s s.takeAnswer.2 := by
  obtain ⟨-, -, ho, -, hs, -, -, ht, -⟩ := takeAnswer_keeps s
  exact .of_same hs ht (congrArg Output.resps ho)

theorem orderKept_closedOps : ClosedOps OrderKept OrderKept where
  refl _ := .of_same rfl rfl rfl
  trans := OrderKept.trans
  reset := OrderKept.blockReset
  transReset := OrderKept.trans
  answer := takeAnswer_orderKept
  wire _ _ := .of_same rfl rfl rfl
  resets _ _ := .of_same rfl rfl rfl
  lf c _ _ h _ := h.trans (setChan_aside _ c _).orderKept

/-- What the others leave of what a command relies on: the parameters, the RAM retry budget, and the order. -/
structure OthersKept (s t : State) : Prop where
  par : t.par = s.par
  budget : t.blk.ramRetryBudget = s.blk.ramRetryBudget
  order : OrderKept s t

theorem OthersKept.trans {s t u : State} (h1 : OthersKept s t) (h2 : OthersKept t u) : OthersKept s u where
  par := h2.par.trans h1.par
  budget := h2.budget.trans h1.budget
  order := h1.order.trans h2.order

theorem Aside.othersKept {s t : State} (h : Aside s t) : OthersKept s t := ⟨h.par, h.budget, h.orderKept⟩

theorem othersKept_closedOps : ClosedOps OthersKept OrderKept where
  refl s := (Aside.refl s).othersKept
  trans := OthersKept.trans
  reset h := h.order.blockReset
  transReset h := h.order.trans
  answer s := by
    obtain ⟨hp, hb, -⟩ := takeAnswer_keeps s
    exact ⟨hp, by rw [hb], takeAnswer_orderKept s⟩
  wire _ _ := ⟨rfl, rfl, .of_same rfl rfl rfl⟩
  resets s l := (setResets_aside s l).othersKept
  lf c _ _ h _ := h.trans (setChan_aside _ c _).othersKept

/-! ### The others -/

section
variable {A : List Status}

theorem move_othersKept (slot : Slot) : Ends A OthersKept OrderKept (move slot) :=
  move_ends_of_aside othersKept_closedOps Aside.othersKept (fun _ _ => ⟨rfl, rfl, .of_same rfl rfl rfl⟩)
    (OrderKept.setGrant · .none) slot

/-- The schedule that is left is a rest of the one before. -/
theorem OthersKept.setSched {s t : State} (h : OthersKept s t) {l : List Slot} (hl : l <:+ s.env.sched) :
    OthersKept s (t.setSched l) := ⟨h.par, h.budget, hl, h.order.turn, h.order.resps⟩

theorem movesUpToCommand_othersKept {s t : State} (h : OthersKept s t) {l : List Slot} (hl : l <:+ s.env.sched) :
    EndsIn A OthersKept OrderKept s ((movesUpToCommand l).run t) := by
  induction l generalizing t with
  | nil => exact h.setSched hl
  | cons slot rest ih =>
    have hrest : rest <:+ s.env.sched := (List.suffix_cons slot rest).trans hl
    have h := h.setSched hrest
    rw [movesUpToCommand_cons]
    split
    · exact h
    · have hm := EndsIn.after othersKept_closedOps h (move_othersKept (A := A) slot (t.setSched rest))
      cases hr : (move slot).run (t.setSched rest) with
      | ok a u =>
        rw [hr] at hm
        exact ih hm hrest
      | error e u =>
        rw [hr] at hm
        cases e <;> exact hm

theorem point_othersKept : Ends A OthersKept OrderKept point := fun s =>
  movesUpToCommand_othersKept (Aside.refl s).othersKept List.suffix_rfl

theorem point_orderKept : Ends A OrderKept OrderKept point := by
  intro s
  have h := point_othersKept (A := A) s
  cases hr : point.run s with
  | ok a t => rw [hr] at h; exact h.order
  | error e t =>
    rw [hr] at h
    cases e with
    | raised st info => exact ⟨h.1, h.2.order⟩
    | reset => exact h

end

/-! ### The command agent's operations -/

/-- The statuses a command may raise: all but OK (R113). -/
def errorStatuses : List Status :=
  [.commError, .timeout, .initError, .blobInvalid, .blobUpload, .blobVerify, .invalidCal, .ringUnhook, .illegalCmd,
    .badChannel, .badPattern, .busy]

theorem mem_errorStatuses_iff {st : Status} : st ∈ errorStatuses ↔ st ≠ .ok := by cases st <;> decide

/-- However the sequence ends, the order is kept, and it raises no OK. -/
abbrev KeepsOrder {α : Type} (x : Run α) : Prop := Ends errorStatuses OrderKept OrderKept x

section
variable {α β : Type}

theorem pure_keepsOrder (a : α) : KeepsOrder (pure a) := pure_ends orderKept_closedOps a

theorem bind_keepsOrder {x : Run α} {f : α → Run β} (hx : KeepsOrder x) (hf : ∀ a, KeepsOrder (f a)) :
    KeepsOrder (x >>= f) := bind_ends orderKept_closedOps hx hf

theorem readS_keepsOrder (f : State → α) : KeepsOrder (readS f) := readS_ends orderKept_closedOps f

theorem raise_keepsOrder {st : Status} (h : st ∈ errorStatuses) (info : Word) : KeepsOrder (raise st info : Run α) :=
  raise_ends orderKept_closedOps h info

theorem require_keepsOrder {st : Status} (h : st ∈ errorStatuses) (b : Bool) : KeepsOrder (require b st) :=
  require_ends orderKept_closedOps h b

/-- A change that is none of the order. -/
theorem changeS_keepsOrder {f : State → State} (hf : ∀ s, Aside s (f s)) : KeepsOrder (changeS f) :=
  changeS_ends fun s => (hf s).orderKept

theorem holding_keepsOrder (g : Grant) {x : Run α} (hx : KeepsOrder x) : KeepsOrder (holding g x) := by
  intro s
  have hg : OrderKept s (s.setGrant g) := .of_same rfl rfl rfl
  have h := EndsIn.after orderKept_closedOps hg (hx (s.setGrant g))
  rw [run_holding]
  cases hr : x.run (s.setGrant g) with
  | ok a t => rw [hr] at h; exact OrderKept.setGrant h .none
  | error e t =>
    rw [hr] at h
    cases e with
    | raised st info => exact ⟨h.1, h.2.setGrant .none⟩
    | reset => exact OrderKept.setGrant h .none

theorem atomicUnit_keepsOrder {x : Run α} (hx : KeepsOrder x) : KeepsOrder (atomicUnit x) :=
  bind_keepsOrder point_orderKept fun _ => bind_keepsOrder (holding_keepsOrder .command hx) fun a =>
    bind_keepsOrder point_orderKept fun _ => pure_keepsOrder a

end

theorem activeChannel_keepsOrder (ch : BitVec 4) : KeepsOrder (activeChannel ch) := by
  intro s
  rw [run_activeChannel]
  split
  · exact .of_same rfl rfl rfl
  · exact ⟨by decide, .of_same rfl rfl rfl⟩

theorem cmdRead_keepsOrder (c : Chan) (a : Byte) : KeepsOrder (cmdRead c a) :=
  bind_keepsOrder point_orderKept fun _ => bind_keepsOrder (readOp_ends orderKept_closedOps c a) fun r => by
    cases r with
    | none => exact raise_keepsOrder (by decide) _
    | some v => exact pure_keepsOrder v

theorem initRead_keepsOrder (c : Chan) (a : Byte) : KeepsOrder (initRead c a) :=
  bind_keepsOrder point_orderKept fun _ => bind_keepsOrder (readOp_ends orderKept_closedOps c a) fun r => by
    cases r with
    | none => exact raise_keepsOrder (by decide) _
    | some v => exact pure_keepsOrder v

theorem cmdWrite_keepsOrder (c : Chan) (a v : Byte) : KeepsOrder (cmdWrite c a v) :=
  bind_keepsOrder point_orderKept fun _ => bind_keepsOrder (writeOp_ends orderKept_closedOps c a v) fun _ =>
    ite_ends (pure_keepsOrder ()) (raise_keepsOrder (by decide) _)

theorem delay_keepsOrder (ms : Half) : KeepsOrder (delay ms) :=
  bind_keepsOrder (readS_keepsOrder _) fun _ => bind_keepsOrder point_orderKept fun _ => changeS_keepsOrder fun s => by
    unfold State.passUntil
    split
    · constructor <;> rfl
    · exact .refl s

/-! ### The host commands -/

theorem waitReady_keepsOrder (c : Chan) : KeepsOrder (waitReady c) := by
  have polls (a : Byte) (pause : Half) (k : Nat) : KeepsOrder (pollReady c a pause k) := by
    induction k with
    | zero => exact raise_keepsOrder (by decide) _
    | succ k ih =>
      exact bind_keepsOrder (cmdRead_keepsOrder c a) fun _ =>
        ite_ends (ite_ends ih (bind_keepsOrder (delay_keepsOrder pause) fun _ => ih)) (pure_keepsOrder ())
  exact bind_keepsOrder (readS_keepsOrder _) fun _ => bind_keepsOrder (readS_keepsOrder _) fun _ =>
    bind_keepsOrder (readS_keepsOrder _) fun _ => polls _ _ _

theorem ramRead_keepsOrder (ch : BitVec 4) (addr : BitVec 12) : KeepsOrder (ramRead ch addr) :=
  bind_keepsOrder (activeChannel_keepsOrder ch) fun c => bind_keepsOrder (readS_keepsOrder _) fun _ =>
    atomicUnit_keepsOrder <| bind_keepsOrder (changeS_keepsOrder fun _ => by constructor <;> rfl) fun _ =>
    bind_keepsOrder (waitReady_keepsOrder c) fun _ => bind_keepsOrder (cmdWrite_keepsOrder c _ _) fun _ =>
    bind_keepsOrder (cmdWrite_keepsOrder c _ _) fun _ => bind_keepsOrder (waitReady_keepsOrder c) fun _ =>
    bind_keepsOrder (cmdRead_keepsOrder c _) fun _ => bind_keepsOrder (cmdRead_keepsOrder c _) fun _ =>
    bind_keepsOrder (cmdRead_keepsOrder c _) fun _ => bind_keepsOrder (cmdRead_keepsOrder c _) fun _ => pure_keepsOrder _

theorem ramWrite_keepsOrder (ch : BitVec 4) (addr : BitVec 12) (v : Word) : KeepsOrder (ramWrite ch addr v) :=
  bind_keepsOrder (activeChannel_keepsOrder ch) fun c => bind_keepsOrder (readS_keepsOrder _) fun _ =>
    bind_keepsOrder (atomicUnit_keepsOrder <| bind_keepsOrder (changeS_keepsOrder fun _ => by constructor <;> rfl) fun _ =>
      bind_keepsOrder (waitReady_keepsOrder c) fun _ => bind_keepsOrder (cmdWrite_keepsOrder c _ _) fun _ =>
      bind_keepsOrder (cmdWrite_keepsOrder c _ _) fun _ => bind_keepsOrder (cmdWrite_keepsOrder c _ _) fun _ =>
      bind_keepsOrder (cmdWrite_keepsOrder c _ _) fun _ => bind_keepsOrder (cmdWrite_keepsOrder c _ _) fun _ =>
      bind_keepsOrder (cmdWrite_keepsOrder c _ _) fun _ => waitReady_keepsOrder c) fun _ => pure_keepsOrder _

theorem requestLf_keepsOrder (ch : BitVec 4) (req : LfState) : KeepsOrder (requestLf ch req) :=
  bind_keepsOrder (activeChannel_keepsOrder ch) fun c =>
    bind_keepsOrder (atomicUnit_keepsOrder (setLineFeed_ends orderKept_closedOps point_orderKept point_grows c req))
      fun r => by
        cases r with
        | ok => exact pure_keepsOrder 0
        | commError a => exact raise_keepsOrder (by decide) _

/-- The seed writes of every channel listed. -/
theorem writeAllSeeds_keepsOrder (base : Byte) (seeds : Word) (l : List Chan) :
    KeepsOrder (writeAllSeeds base seeds l) := by
  have writes (c : Chan) (l : List Nat) : KeepsOrder (writeSeeds c base seeds l) := by
    induction l with
    | nil => exact pure_keepsOrder ()
    | cons i rest ih => exact bind_keepsOrder (atomicUnit_keepsOrder (cmdWrite_keepsOrder c _ _)) fun _ => ih
  induction l with
  | nil => exact pure_keepsOrder ()
  | cons c rest ih => exact bind_keepsOrder (writes c _) fun _ => ih

/-- The iterations of CAL. -/
theorem pollCal_keepsOrder (calStatus : Byte) (pause : Half) (l : List Chan) (k : Nat) (b : Option Chan) :
    KeepsOrder (pollCal calStatus pause l k b) := by
  have scans (l : List Chan) (b : Option Chan) : KeepsOrder (scanCal calStatus l b) := by
    induction l generalizing b with
    | nil => exact pure_keepsOrder b
    | cons c rest ih => exact bind_keepsOrder (atomicUnit_keepsOrder (cmdRead_keepsOrder c calStatus)) fun _ => ih _
  induction k generalizing b with
  | zero => exact raise_keepsOrder (by decide) _
  | succ k ih =>
    refine bind_keepsOrder (scans l none) fun busy => ?_
    cases busy with
    | none => exact pure_keepsOrder ()
    | some c => exact ite_ends (ih _) (bind_keepsOrder (delay_keepsOrder pause) fun _ => ih _)

theorem calibrate_keepsOrder (len : Byte) (seeds : Word) : KeepsOrder (calibrate len seeds) :=
  bind_keepsOrder (require_keepsOrder (by decide) _) fun _ => bind_keepsOrder (readS_keepsOrder _) fun _ =>
    bind_keepsOrder (readS_keepsOrder _) fun _ => bind_keepsOrder (writeAllSeeds_keepsOrder _ _ _) fun _ =>
    bind_keepsOrder (readS_keepsOrder _) fun _ => bind_keepsOrder (readS_keepsOrder _) fun _ =>
    bind_keepsOrder (pollCal_keepsOrder _ _ _ _ _) fun _ => pure_keepsOrder _

theorem ringBegin_keepsOrder (ch : BitVec 4) : KeepsOrder (ringBegin ch) :=
  bind_keepsOrder (activeChannel_keepsOrder ch) fun c => bind_keepsOrder (readS_keepsOrder _) fun _ =>
    ite_ends (pure_keepsOrder 0) <| bind_keepsOrder (readS_keepsOrder _) fun _ =>
    bind_keepsOrder (require_keepsOrder (by decide) _) fun _ => bind_keepsOrder (readS_keepsOrder _) fun _ =>
    bind_keepsOrder (atomicUnit_keepsOrder (cmdRead_keepsOrder c _)) fun _ =>
    bind_keepsOrder (require_keepsOrder (by decide) _) fun _ =>
    bind_keepsOrder (changeS_keepsOrder fun s => setChan_aside s c _) fun _ => pure_keepsOrder 0

theorem decodeField_keepsOrder (ch : BitVec 4) (idx : BitVec 12) : KeepsOrder (decodeField ch idx) := by
  unfold decodeField
  split
  · exact pure_keepsOrder _
  · next h => exact raise_keepsOrder (mem_errorStatuses_iff.2 (cfgDecode_error_ne_ok h)) 0

/-- The INIT unit. -/
theorem initSequence_keepsOrder : KeepsOrder initSequence := by
  have setsN (n : Fin 3) : KeepsOrder (changeS (·.setN n)) := changeS_keepsOrder fun _ => by constructor <;> rfl
  have probes (a : Byte) (l : List Chan) (k : Nat) : KeepsOrder (probe a l k) := by
    induction l generalizing k with
    | nil => exact pure_keepsOrder k
    | cons c rest ih => exact bind_keepsOrder (initRead_keepsOrder c a) fun _ => ite_ends (pure_keepsOrder k) (ih _)
  have hooks (a : Byte) (l : List Chan) : KeepsOrder (initHooks a l) := by
    induction l with
    | nil => exact pure_keepsOrder ()
    | cons c rest ih =>
      exact bind_keepsOrder (initRead_keepsOrder c a) fun _ =>
        bind_keepsOrder (changeS_keepsOrder fun s => setChan_aside s c _) fun _ => ih
  exact bind_keepsOrder (setsN 0) fun _ => bind_keepsOrder (readS_keepsOrder _) fun _ =>
    bind_keepsOrder (probes _ _ _) fun _ => bind_keepsOrder (require_keepsOrder (by decide) _) fun _ =>
    bind_keepsOrder (hooks _ _) fun _ => bind_keepsOrder point_orderKept fun _ => bind_keepsOrder (setsN _) fun _ =>
    pure_keepsOrder _

/-- A command that is one change on an active channel. -/
theorem channelChange_keepsOrder (ch : BitVec 4) {f : State → Chan → State} (hf : ∀ s c, Aside s (f s c)) (rdata : Word) :
    KeepsOrder (do let c ← activeChannel ch; changeS (fun s => f s c); pure rdata : Run Word) :=
  bind_keepsOrder (activeChannel_keepsOrder ch) fun c => bind_keepsOrder (changeS_keepsOrder fun s => hf s c) fun _ =>
    pure_keepsOrder rdata

theorem writeField_orderKept (s : State) (v : Word) (f : CfgField) : OrderKept s (s.writeField v f) :=
  .of_same (by rw [State.writeField_env]) (by rw [State.writeField_env]) (by rw [State.writeField_out])

/-- Every host command keeps the order, whatever the schedule, and raises no OK. -/
theorem hostBody_keepsOrder (i : Instr) : KeepsOrder (hostBody i) := by
  cases i with
  | regRd ch a =>
    exact bind_keepsOrder (activeChannel_keepsOrder ch) fun c =>
      bind_keepsOrder (atomicUnit_keepsOrder (cmdRead_keepsOrder c a)) fun _ => pure_keepsOrder _
  | regWr ch a v =>
    exact bind_keepsOrder (activeChannel_keepsOrder ch) fun c =>
      bind_keepsOrder (atomicUnit_keepsOrder (cmdWrite_keepsOrder c a v)) fun _ => pure_keepsOrder _
  | ramRd ch addr => exact ramRead_keepsOrder ch addr
  | ramWr ch addr v => exact ramWrite_keepsOrder ch addr v
  | cal len seeds => exact calibrate_keepsOrder len seeds
  | irqEv t => exact pure_keepsOrder _
  | irqEvp status t => exact pure_keepsOrder _
  | irqChannels =>
    exact bind_keepsOrder (readS_keepsOrder _) fun _ =>
      bind_keepsOrder (atomicUnit_keepsOrder (cmdRead_keepsOrder _ _)) fun _ => pure_keepsOrder _
  | irqEnable en =>
    exact bind_keepsOrder (changeS_keepsOrder fun _ => by constructor <;> rfl) fun _ => pure_keepsOrder _
  | setLf ch req => exact requestLf_keepsOrder ch req
  | startRing ch => exact requestLf_keepsOrder ch .ringing
  | stopRing ch => exact requestLf_keepsOrder ch .idle
  | getHook ch =>
    exact bind_keepsOrder (activeChannel_keepsOrder ch) fun c => bind_keepsOrder (readS_keepsOrder _) fun _ =>
      bind_keepsOrder (atomicUnit_keepsOrder (cmdRead_keepsOrder c _)) fun _ => pure_keepsOrder _
  | setLoopback ch mode => exact pure_keepsOrder _
  | ringBegin ch => exact ringBegin_keepsOrder ch
  | ringCancel ch => exact channelChange_keepsOrder ch requestCancel_aside 0
  | ringCancelAll =>
    exact bind_keepsOrder (changeS_keepsOrder fun s => requestCancel_aside s .zero) fun _ =>
      bind_keepsOrder point_orderKept fun _ =>
      bind_keepsOrder (changeS_keepsOrder fun s => requestCancel_aside s .one) fun _ => pure_keepsOrder _
  | ringSelftest => exact pure_keepsOrder _
  | hookSample ch lvl t => exact channelChange_keepsOrder ch (fun s c => feedHook_aside s c lvl t) 0
  | hookTick ch t => exact channelChange_keepsOrder ch (fun s c => tickHook_aside s c t) 0
  | cfgWr ch idx v =>
    exact bind_keepsOrder (decodeField_keepsOrder ch idx) fun f => bind_keepsOrder (readS_keepsOrder _) fun _ =>
      bind_keepsOrder (require_keepsOrder (by decide) _) fun _ =>
      bind_keepsOrder (changeS_ends fun s => writeField_orderKept s v f) fun _ => pure_keepsOrder _
  | cfgRd ch idx => exact bind_keepsOrder (decodeField_keepsOrder ch idx) fun _ => readS_keepsOrder _
  | init =>
    exact bind_keepsOrder (readS_keepsOrder _) fun _ => bind_keepsOrder (require_keepsOrder (by decide) _) fun _ =>
      bind_keepsOrder (atomicUnit_keepsOrder initSequence_keepsOrder) fun _ => pure_keepsOrder _
  | getNch => exact readS_keepsOrder _

end Sys2Proof.Machine
end

