-- ==== Sys2Proof/Proofs/ContiguousUnits.lean ====
section
/-! A command that responds OK has put its atomic unit on the wire in one piece (R80, R82, R84). -/

namespace Sys2Proof.Machine

/-! ### How a command that responds OK went -/

/-- Where one response has come since s, it is the one presented, and no reset has prevented it. -/
theorem respond_presented {s u : State} {r r' : Response} (hu : u.out.resps = s.out.resps)
    (hr : (u.respond r).out.resps = s.out.resps ++ [r']) : r = r' ∧ (u.respond r).out.wire = u.out.wire := by
  obtain ⟨l, e⟩ | ⟨l, e⟩ := respond_cases u r <;> rw [e] at hr ⊢
  · have hresp : u.out.resps ++ [r] = s.out.resps ++ [r'] := hr
    rw [hu] at hresp
    cases List.append_cancel_left hresp
    exact ⟨rfl, rfl⟩
  · have hresp : u.out.resps = s.out.resps ++ [r'] := hr
    simp [hu] at hresp

/-- Where a command's end is an OK response, its sequence has ended normally with that value. -/
theorem finish_ok {s : State} {r : EStateM.Result Stop State Word} {rdata : Word}
    (h : EndsIn errorStatuses OrderKept OrderKept s r) (hr : (finish r).out.resps = s.out.resps ++ [⟨.ok, rdata⟩]) :
    ∃ u, r = .ok rdata u ∧ (finish r).out.wire = u.out.wire := by
  cases r with
  | ok v u =>
    have h : OrderKept s u := h
    obtain ⟨hv, hw⟩ := respond_presented (u := u.endCommand) h.resps hr
    cases hv
    exact ⟨u, rfl, hw⟩
  | error stop u =>
    cases stop with
    | raised st info =>
      obtain ⟨hst, h⟩ := h
      obtain ⟨he, -⟩ := respond_presented (u := u.endCommand) h.resps hr
      exact absurd (congrArg Response.status he) (mem_errorStatuses_iff.1 hst)
    | reset =>
      have h : OrderKept s u := h
      have hresp : u.out.resps = s.out.resps ++ [⟨.ok, rdata⟩] := hr
      simp [h.resps] at hresp

/-- A command that responds OK has run its sequence to its end. -/
theorem exec_ok {i : Instr} (ha : answersOnHostPort i = true) {s t : State} {rdata : Word} (e : exec i s = .next t)
    (hr : t.out.resps = s.out.resps ++ [⟨.ok, rdata⟩]) :
    ∃ l u, (hostBody i).run ((s.setCmd (some i)).setResets l) = .ok rdata u ∧ t.out.wire = u.out.wire := by
  rw [exec_hostBody ha] at e
  obtain ⟨l, e'⟩ | ⟨l, e'⟩ := command_cases i (hostBody i) s <;> rw [e'] at e <;> cases e
  · obtain ⟨u, hu, hw⟩ := finish_ok (hostBody_keepsOrder i _) hr
    exact ⟨l, u, hu, hw⟩
  · have hresp : s.out.resps = s.out.resps ++ [⟨.ok, rdata⟩] := hr
    simp at hresp

/-! ### Units on the wire -/

/-- From s to t, operations with P have come on the wire in one piece, those of others before and after them. -/
def Contiguous (P : List WireOp → Prop) (s t : State) : Prop :=
  ∃ before unit after, P unit ∧ t.out.wire = s.out.wire ++ before ++ unit ++ after

theorem Contiguous.mono {P Q : List WireOp → Prop} {s t : State} (h : Contiguous P s t) (hpq : ∀ ops, P ops → Q ops) :
    Contiguous Q s t := by
  obtain ⟨before, unit, after, hp, hw⟩ := h
  exact ⟨before, unit, after, hpq unit hp, hw⟩

/-- What the unit itself sends stands in one piece: the others move before it and after it only (R80, R84). -/
theorem atomicUnit_contiguous {α : Type} {x : Run α} {Q : α → List WireOp → Prop} {s t : State} {a : α}
    (hx : Sends s.par s.blk.ramRetryBudget x Q) (e : (atomicUnit x).run s = .ok a t) : Contiguous (Q a) s t := by
  obtain ⟨_, s1, e1, e⟩ := bind_ok e
  obtain ⟨b, s3, e2, e⟩ := bind_ok e
  obtain ⟨_, s4, e3, e⟩ := bind_ok e
  cases e
  have before := (point_othersKept (A := [])).ok e1
  obtain ⟨-, ops1, hw1⟩ := (point_grows (A := [])).ok e1
  obtain ⟨-, ops3, hw3⟩ := (point_grows (A := [])).ok e3
  rw [run_holding] at e2
  cases hr : x.run (s1.setGrant .command) with
  | error stop u => rw [hr] at e2; cases e2
  | ok b s2 =>
    rw [hr] at e2
    cases e2
    obtain ⟨ops2, hs2, hq⟩ := hx _ (s1.setGrant .command) _ _ ⟨before.par, before.budget, rfl, rfl⟩ hr
    have hw2 : s2.out.wire = s1.out.wire ++ ops2 := hs2.wire
    refine ⟨ops1, ops2, ops3, hq, ?_⟩
    rw [hw3, State.setGrant_out, hw2, hw1]

/-- A command on a channel has checked that the channel is active, and has then gone on from the state it began in. -/
theorem activeChannel_then_ok {α : Type} {ch : BitVec 4} {f : Chan → Run α} {s t : State} {a : α}
    (e : (activeChannel ch >>= f).run s = .ok a t) : ∃ c, activeChan s.blk.n ch = some c ∧ (f c).run s = .ok a t := by
  rw [run_bind, run_activeChannel] at e
  cases hc : activeChan s.blk.n ch with
  | none => rw [hc] at e; cases e
  | some c => rw [hc] at e; exact ⟨c, rfl, e⟩

/-- A sequence that begins by reading a value has gone on from the state it began in. -/
theorem readS_then_ok {α β : Type} {f : State → α} {g : α → Run β} {s t : State} {b : β}
    (e : (readS f >>= g).run s = .ok b t) : (g (f s)).run s = .ok b t := e

theorem ramRead_contiguous {ch : BitVec 4} {addr : BitVec 12} {s t : State} {rdata : Word}
    (e : (ramRead ch addr).run s = .ok rdata t) : Contiguous (UnitRun s (.ramRd ch addr) rdata) s t := by
  obtain ⟨c, hc, e⟩ := activeChannel_then_ok e
  refine (atomicUnit_contiguous (ramReadUnit_sends c addr) (readS_then_ok e)).mono fun ops h => ?_
  obtain ⟨_, _, d3, d2, d1, d0, ⟨b1, r1, l1, h1, e1, rfl⟩, ⟨b2, r2, l2, h2, e2, rfl⟩, rfl, rfl⟩ := h
  exact .ramRead hc ⟨l1, h1⟩ e1 ⟨l2, h2⟩ e2

theorem ramWrite_contiguous {ch : BitVec 4} {addr : BitVec 12} {v : Word} {s t : State} {rdata : Word}
    (e : (ramWrite ch addr v).run s = .ok rdata t) : Contiguous (UnitRun s (.ramWr ch addr v) rdata) s t := by
  obtain ⟨c, hc, e⟩ := activeChannel_then_ok e
  have e1 := readS_then_ok e
  obtain ⟨_, _, eu, e2⟩ := bind_ok e1
  cases e2
  refine (atomicUnit_contiguous (ramWriteUnit_sends c addr v) eu).mono fun ops h => ?_
  obtain ⟨_, _, ⟨b1, r1, l1, h1, e1, rfl⟩, ⟨b2, r2, l2, h2, e2, rfl⟩, rfl⟩ := h
  exact .ramWrite hc ⟨l1, h1⟩ e1 ⟨l2, h2⟩ e2

theorem requestLf_contiguous {i : Instr} {ch : BitVec 4} {req : LfState} {s t : State} {rdata : Word}
    (hi : linefeedRequest i = some (ch, req)) (e : (requestLf ch req).run s = .ok rdata t) :
    Contiguous (UnitRun s i rdata) s t := by
  obtain ⟨c, hc, e⟩ := activeChannel_then_ok e
  obtain ⟨res, _, eu, e⟩ := bind_ok e
  cases res with
  | commError a => cases e
  | ok =>
    cases e
    refine (atomicUnit_contiguous (setLineFeed_sends c req) eu).mono fun ops h => ?_
    obtain ⟨as, moved, hrun⟩ := h rfl
    exact .linefeed hi hc hrun

theorem initCmd_contiguous {s t : State} {rdata : Word} (e : initCmd.run s = .ok rdata t) :
    Contiguous (UnitRun s .init rdata) s t := by
  obtain ⟨_, _, eb, e1⟩ := bind_ok (readS_then_ok e)
  obtain ⟨-, rfl⟩ := require_ok eb
  obtain ⟨n, _, eu, en⟩ := bind_ok e1
  cases en
  exact (atomicUnit_contiguous (initSequence_sends _) eu).mono fun _ h => h

/-- Every command whose rule is one atomic unit, where its sequence has ended normally. -/
theorem hostBody_contiguous {i : Instr} (hi : oneUnit i = true) {s t : State} {rdata : Word}
    (e : (hostBody i).run s = .ok rdata t) : Contiguous (UnitRun s i rdata) s t := by
  cases i with
  | ramRd ch addr => exact ramRead_contiguous e
  | ramWr ch addr v => exact ramWrite_contiguous e
  | setLf ch req => exact requestLf_contiguous rfl e
  | startRing ch => exact requestLf_contiguous rfl e
  | stopRing ch => exact requestLf_contiguous rfl e
  | init => exact initCmd_contiguous e
  | _ => cases hi

theorem answersOnHostPort_of_oneUnit {i : Instr} (h : oneUnit i = true) : answersOnHostPort i = true := by
  cases i with
  | irqEv t => cases h
  | irqEvp status t => cases h
  | setLoopback ch mode => cases h
  | ringSelftest => cases h
  | _ => rfl

/-- A unit depends on the parameters, the channels and the budget, not on the command in progress or the moments to come. -/
theorem UnitRun.of_begun {s : State} {i : Instr} {l : List Bool} {rdata : Word} {ops : List WireOp}
    (h : UnitRun ((s.setCmd (some i)).setResets l) i rdata ops) : UnitRun s i rdata ops := by
  cases h with
  | ramWrite hc h1 e1 h2 e2 => exact .ramWrite hc h1 e1 h2 e2
  | ramRead hc h1 e1 h2 e2 => exact .ramRead hc h1 e1 h2 e2
  | linefeed hi hc h => exact .linefeed hi hc h
  | initOne h => exact .initOne h
  | initTwo h h' => exact .initTwo h h'

/-- Settles O51: a held transport makes every unit of another agent wait, so nothing comes between the operations of a
command's unit. -/
theorem nobodyElseUsesAHeldTransport : Obligations.NobodyElseUsesAHeldTransport := by
  refine ⟨fun s slot hs => ?_, fun s t i rdata hi _ e hr => ?_⟩
  · obtain ⟨t, em, ha⟩ | ⟨t, em, ha⟩ := move_of_held hs slot <;> rw [em]
    · exact ha.wire
    · exact ha.wire
  · obtain ⟨l, u, eb, hw⟩ := exec_ok (answersOnHostPort_of_oneUnit hi) e hr
    obtain ⟨before, unit, after, hunit, hwire⟩ := (hostBody_contiguous hi eb).mono fun _ => UnitRun.of_begun
    exact ⟨before, unit, after, hunit, hw.trans hwire⟩

end Sys2Proof.Machine
end

