-- ==== Sys2Proof/Proofs/Fairness.lean ====
section
/-! Weak fairness (R81): a step uses the schedule up, and where it has ended the rotation comes round to whoever waits (log
entry 3). -/

namespace Sys2Proof.Machine

/-! ### What a step leaves of the order of moves -/

/-- The schedule is used up from its front, and the turn stays. -/
def UsesUp (s t : State) : Prop := t.env.sched <:+ s.env.sched ∧ t.env.turn = s.env.turn

theorem UsesUp.refl (s : State) : UsesUp s s := ⟨List.suffix_rfl, rfl⟩

theorem OrderKept.usesUp {s t : State} (h : OrderKept s t) : UsesUp s t := ⟨h.sched, h.turn⟩

theorem respond_usesUp (s : State) (r : Response) : UsesUp s (s.respond r) := by
  obtain ⟨l, e⟩ | ⟨l, e⟩ := respond_cases s r <;> rw [e] <;> exact .refl s

theorem finish_usesUp {A : List Status} {s : State} {r : EStateM.Result Stop State Word}
    (h : EndsIn A OrderKept OrderKept s r) : UsesUp s (finish r) := by
  have ended {u : State} (hu : OrderKept s u) (r : Response) : UsesUp s (u.endCommand.respond r) := by
    obtain ⟨hs, ht⟩ := respond_usesUp u.endCommand r
    exact ⟨hs.trans hu.sched, ht.trans hu.turn⟩
  cases r with
  | ok v u => exact ended h _
  | error e u =>
    cases e with
    | raised st info => exact ended h.2 _
    | reset => exact OrderKept.usesUp h

theorem exec_usesUp {i : Instr} (ha : answersOnHostPort i = true) {s t : State} (e : exec i s = .next t) : UsesUp s t := by
  rw [exec_hostBody ha] at e
  obtain ⟨l, e'⟩ | ⟨l, e'⟩ := command_cases i (hostBody i) s <;> rw [e'] at e <;> cases e
  · exact finish_usesUp (s := (s.setCmd (some i)).setResets l) (hostBody_keepsOrder i _)
  · exact .refl s

theorem slotTurn_usesUp {slot : Slot} {s t : State} (e : slotTurn slot s = .next t) : UsesUp s t := by
  by_cases hc : slot = .command
  · subst hc
    obtain rfl | rfl | ⟨i, ha, e⟩ := hostTurn_cases e
    · exact .refl t
    · exact respond_usesUp s.takeRequest _
    · exact exec_usesUp (s := s.takeRequest) ha e
  · rw [slotTurn_of_ne_command hc] at e
    cases e
    obtain h | h := (move_othersKept (A := []) slot s).settle
    · exact h.order.usesUp
    · exact h.usesUp

/-- A step that the schedule names takes at least its own slot. -/
theorem step_of_scheduled {s t : State} {slot : Slot} {rest : List Slot} (hs : s.env.sched = slot :: rest)
    (e : step s = .next t) : t.env.sched.length ≤ rest.length := by
  simp only [step, hs] at e
  obtain ⟨h, -⟩ := slotTurn_usesUp e
  exact h.length_le

/-- Where the schedule has ended it stays so, and the turn passes to the place after the one that moved. -/
theorem step_of_no_schedule {s t : State} (hs : s.env.sched = []) (e : step s = .next t) :
    t.env.sched = [] ∧ t.env.turn = s.defaultPlace + 1 := by
  simp only [step, hs] at e
  obtain ⟨h, ht⟩ := slotTurn_usesUp e
  rw [State.passTurn_env] at h ht
  exact ⟨List.suffix_nil.1 (hs ▸ h), ht⟩

/-! ### The rotation -/

theorem placesFrom_getElem (t i : Fin 6) : (placesFrom t)[i.val]'i.isLt = t + i := by revert t i; decide

/-- The first place with p, from t on, is not beyond any other. -/
theorem exists_le_find?_placesFrom {p : Fin 6 → Bool} {t i : Fin 6} (hp : p (t + i) = true) :
    ∃ j ≤ i, ((placesFrom t).find? p).getD 5 = t + j := by
  have hmem : t + i ∈ placesFrom t := placesFrom_getElem t i ▸ List.getElem_mem _
  obtain ⟨x, hx⟩ := Option.isSome_iff_exists.1 (List.find?_isSome.2 ⟨t + i, hmem, hp⟩)
  obtain ⟨-, j, hj, hxj, hbefore⟩ := List.find?_eq_some_iff_getElem.1 hx
  refine ⟨⟨j, hj⟩, ?_, by rw [hx, Option.getD_some, ← hxj]; exact placesFrom_getElem t ⟨j, hj⟩⟩
  by_contra hlt
  have hnot : (!p ((placesFrom t)[i.val]'i.isLt)) = true := hbefore i.val (Nat.lt_of_not_le hlt)
  rw [placesFrom_getElem, hp] at hnot
  exact absurd hnot (by decide)

/-- How many places of the rotation lie before k, from the present turn on. -/
def State.ahead (s : State) (k : Fin 6) : Nat := (k - s.env.turn).val

/-- Where the schedule names nobody, a party that has something to do moves, or the turn passes to a place nearer to it. -/
theorem moves_or_nearer {s : State} {k : Fin 6} (hs : s.env.sched = []) (hk : s.ready turnOrder[k] = true) :
    s.nextSlot = turnOrder[k] ∨ (k - (s.defaultPlace + 1)).val < s.ahead k := by
  have passes : ∀ t k i : Fin 6, i ≤ k - t → t + i = k ∨ (k - (t + i + 1)).val < (k - t).val := by decide
  have hself : s.env.turn + (k - s.env.turn) = k := add_sub_cancel _ _
  obtain ⟨i, hi, he⟩ := exists_le_find?_placesFrom (p := fun k => s.ready turnOrder[k]) (t := s.env.turn)
    (i := k - s.env.turn) (by rw [hself]; exact hk)
  have he : s.defaultPlace = s.env.turn + i := he
  rw [he]
  refine (passes s.env.turn k i hi).imp_left fun hmoves => ?_
  simp only [State.nextSlot, hs, State.defaultSlot, he, hmoves]

/-! ### Runs -/

/-- The party of place k has something to do at every step of the first n. -/
def ReadyWithin (k : Fin 6) (n : Nat) (s : State) : Prop :=
  ∀ j u, j ≤ n → steps j s = .next u → u.ready turnOrder[k] = true

/-- The party of place k moves within n steps, or a refused command ends the run. -/
def ServedWithin (k : Fin 6) (n : Nat) (s : State) : Prop :=
  (∃ j u, j ≤ n ∧ steps j s = .next u ∧ u.nextSlot = turnOrder[k]) ∨ ∃ j r, j ≤ n ∧ steps j s = .refused r

section
variable {k : Fin 6} {n : Nat} {s t : State}

theorem steps_succ_of_next (e : step s = .next t) (j : Nat) : steps (j + 1) s = steps j t := by simp only [steps, e]

theorem ReadyWithin.now (h : ReadyWithin k n s) : s.ready turnOrder[k] = true := h 0 s (Nat.zero_le n) rfl

theorem ReadyWithin.after (h : ReadyWithin k (n + 1) s) (e : step s = .next t) : ReadyWithin k n t :=
  fun j u hj hu => h (j + 1) u (Nat.succ_le_succ hj) ((steps_succ_of_next e j).trans hu)

theorem ServedWithin.now (h : s.nextSlot = turnOrder[k]) : ServedWithin k n s := .inl ⟨0, s, Nat.zero_le n, rfl, h⟩

/-- Served from the next state on, if a step has one. -/
theorem ServedWithin.of_next (h : ∀ t, step s = .next t → ServedWithin k n t) : ServedWithin k (n + 1) s := by
  cases e : step s with
  | next t =>
    obtain ⟨j, u, hj, hu, hmoves⟩ | ⟨j, r, hj, hr⟩ := h t e
    · exact .inl ⟨j + 1, u, Nat.succ_le_succ hj, (steps_succ_of_next e j).trans hu, hmoves⟩
    · exact .inr ⟨j + 1, r, Nat.succ_le_succ hj, (steps_succ_of_next e j).trans hr⟩
  | fault r => exact nomatch r
  | refused r => exact .inr ⟨1, r, Nat.succ_le_succ (Nat.zero_le n), by simp only [steps, e]⟩

/-- Where the schedule has ended, whoever stays ready is served when the places before have had their turn. -/
theorem served_in_rotation (hs : s.env.sched = []) (hn : s.ahead k ≤ n) (hr : ReadyWithin k n s) :
    ServedWithin k n s := by
  induction n generalizing s with
  | zero =>
    obtain hmoves | hnearer := moves_or_nearer hs hr.now
    · exact .now hmoves
    · omega
  | succ n ih =>
    obtain hmoves | hnearer := moves_or_nearer hs hr.now
    · exact .now hmoves
    · refine .of_next fun t e => ?_
      obtain ⟨ht, hturn⟩ := step_of_no_schedule hs e
      have hahead : t.ahead k < s.ahead k := by rw [State.ahead, hturn]; exact hnearer
      exact ih ht (by omega) (hr.after e)

/-- A schedule of at most n slots ends within n steps, and then the rotation serves within one round. -/
theorem served_after_schedule (hn : s.env.sched.length ≤ n) (hr : ReadyWithin k (n + 5) s) :
    ServedWithin k (n + 5) s := by
  have hround (s : State) : s.ahead k ≤ 5 := Nat.le_of_lt_succ (k - s.env.turn).isLt
  induction n generalizing s with
  | zero => exact served_in_rotation (List.length_eq_zero_iff.1 (Nat.le_zero.1 hn)) (hround s) hr
  | succ n ih =>
    cases hs : s.env.sched with
    | nil => exact served_in_rotation hs ((hround s).trans (Nat.le_add_left 5 (n + 1))) hr
    | cons slot rest =>
      rw [Nat.add_right_comm] at hr ⊢
      refine .of_next fun t e => ih ?_ (hr.after e)
      rw [hs, List.length_cons] at hn
      exact (step_of_scheduled hs e).trans (Nat.le_of_succ_le_succ hn)

end

/-- Settles O5: every scheduled step takes its slot from the schedule, and after it the rotation serves within one round. -/
theorem whoeverWaitsIsServed : Obligations.WhoeverWaitsIsServed := fun _ _ hready =>
  served_after_schedule le_rfl hready

end Sys2Proof.Machine
end

