-- ==== Sys2Proof/Proofs/CommandWords.lean ====
section
/-! The decoder and the encoder (R104 to R108): a word as its fields, what a row of the table fixes and leaves of them, and the
two round trips. -/

namespace Sys2Proof

/-! ### The fields of any word -/

/-- A word is put together from its four fields (R105). -/
theorem cmdWord_fields (cmd : Word) : cmdWord (opField cmd) (chField cmd) (a12Field cmd) (imm8Field cmd) = cmd := by
  unfold cmdWord opField chField a12Field imm8Field
  rw [BitVec.extractLsb'_append_extractLsb'_eq_extractLsb' (by rfl),
    BitVec.extractLsb'_append_extractLsb'_eq_extractLsb' (by rfl),
    BitVec.extractLsb'_append_extractLsb'_eq_extractLsb' (by rfl)]
  exact BitVec.extractLsb'_eq_self

theorem cmdWord_inj {op op' : Byte} {ch ch' : BitVec 4} {a a' : BitVec 12} {i i' : Byte} :
    cmdWord op ch a i = cmdWord op' ch' a' i' ↔ op = op' ∧ ch = ch' ∧ a = a' ∧ i = i' := by
  refine ⟨fun h => ⟨?_, ?_, ?_, ?_⟩, by rintro ⟨rfl, rfl, rfl, rfl⟩; rfl⟩
  · simpa only [opField_cmdWord] using congrArg opField h
  · simpa only [chField_cmdWord] using congrArg chField h
  · simpa only [a12Field_cmdWord] using congrArg a12Field h
  · simpa only [imm8Field_cmdWord] using congrArg imm8Field h

/-- A mask selects each field of a word on its own (R108). -/
theorem and_eq_iff_fields (cmd mask fixed : Word) :
    cmd &&& mask = fixed ↔
      opField cmd &&& opField mask = opField fixed ∧ chField cmd &&& chField mask = chField fixed ∧
      a12Field cmd &&& a12Field mask = a12Field fixed ∧ imm8Field cmd &&& imm8Field mask = imm8Field fixed := by
  rw [← cmdWord_inj, ← cmdWord_and, cmdWord_fields, cmdWord_fields, cmdWord_fields]

/-- The mask must be clear, and then the command is the one given (R108). -/
theorem requireZero_eq_ok_iff {cmd mask : Word} {i j : Instr} :
    requireZero cmd mask i = .ok j ↔ cmd &&& mask = 0#32 ∧ i = j := by
  unfold requireZero
  split
  · next h => simp [h]
  · next h => simp [h]

/-! ### The rows of the table -/

/-- A word of a row has the row's OP, and zeros in the row's other bits (R107, R108). -/
theorem TableRow.fields_of_matchesWord (r : TableRow) {cmd : Word} (h : r.matchesWord cmd = true)
    (hop : opField r.mask = 0xFF#8) (hf : r.fixed &&& 0x00FFFFFF#32 = 0#32) :
    opField cmd = opField r.fixed ∧ cmd &&& (r.mask &&& 0x00FFFFFF#32) = 0#32 := by
  have h : cmd &&& r.mask = r.fixed := of_decide_eq_true h
  obtain ⟨hand, -⟩ := (and_eq_iff_fields ..).1 h
  rw [hop] at hand
  refine ⟨hand ▸ BitVec.and_allOnes.symm, ?_⟩
  rw [← BitVec.and_assoc, h, hf]

/-- Every row fixes OP whole and asks for zeros elsewhere (R107). -/
theorem opcodeTable_fixes_op : ∀ r ∈ opcodeTable, opField r.mask = 0xFF#8 ∧ r.fixed &&& 0x00FFFFFF#32 = 0#32 := by decide

/-- The decoder accepts every word of the table, for the port of its row (R107). -/
theorem exists_decode_of_row (cmd data : Word) {r : TableRow} (hr : r ∈ opcodeTable) (h : r.matchesWord cmd = true) :
    ∃ i, decode cmd data = .ok i ∧ i.port = r.port := by
  obtain ⟨hmask, hfixed⟩ := opcodeTable_fixes_op r hr
  obtain ⟨hop, hz⟩ := r.fields_of_matchesWord h hmask hfixed
  clear h hmask hfixed
  unfold decode
  rw [hop]
  fin_cases hr
  all_goals exact ⟨_, requireZero_eq_ok_iff.2 ⟨hz, rfl⟩, rfl⟩

/-! ### What the bits that must be zero leave of each field -/

/-- A word is put together again from what a row reads of it, each field as far as the row's zeros allow (R106, R108). -/
theorem cmdWord_eq_of_clear {cmd mask : Word} {op : Byte} {ch : BitVec 4} {a : BitVec 12} {i : Byte}
    (hz : cmd &&& mask = 0#32) (hop : opField cmd = op)
    (hch : chField cmd &&& chField mask = 0#4 → ch = chField cmd)
    (ha : a12Field cmd &&& a12Field mask = 0#12 → a = a12Field cmd)
    (hi : imm8Field cmd &&& imm8Field mask = 0#8 → i = imm8Field cmd) : cmdWord op ch a i = cmd := by
  obtain ⟨-, hch0, ha0, hi0⟩ := (and_eq_iff_fields ..).1 hz
  rw [hch hch0, ha ha0, hi hi0, ← hop, cmdWord_fields]

/-- A field that a row does not use is zero. -/
theorem zero_of_clear {w : Nat} {x : BitVec w} (h : x &&& BitVec.allOnes w = 0#w) : 0#w = x := by
  rw [← h, BitVec.and_allOnes]

/-- A8 fills the place of A12 whose upper four bits are zero (R105). -/
theorem a8AsA12_a8Field {cmd : Word} (h : a12Field cmd &&& 0xF00#12 = 0#12) : a8AsA12 (a8Field cmd) = a12Field cmd := by
  have hsplit : a12Field cmd = cmd.extractLsb' 16 4 ++ a8Field cmd := by
    unfold a12Field a8Field
    rw [BitVec.extractLsb'_append_extractLsb'_eq_extractLsb' (by rfl)]
  have hmask : 0xF00#12 = BitVec.allOnes 4 ++ 0#8 := by decide
  rw [hsplit, hmask, BitVec.and_append, BitVec.and_allOnes] at h
  have h := congrArg (BitVec.extractLsb' 8 4) h
  rw [BitVec.extractLsb'_append_eq_left] at h
  rw [hsplit, h]
  rfl

/-- A one-bit operand fills IMM8 whose other bits are zero. -/
theorem bitAsImm8_bit0 {cmd : Word} (h : imm8Field cmd &&& 0xFE#8 = 0#8) : bitAsImm8 (cmd.getLsbD 0) = imm8Field cmd := by
  have clear : ∀ i : Byte, i &&& 0xFE#8 = 0#8 → bitAsImm8 (i.getLsbD 0) = i := by decide
  conv_lhs => rw [← cmdWord_fields cmd, bit0_cmdWord]
  exact clear _ h

/-- A linefeed state fills IMM8 whose upper six bits are zero (R33). -/
theorem lfBits_bits2 {cmd : Word} (h : imm8Field cmd &&& 0xFC#8 = 0#8) :
    0#6 ++ (LfState.ofBits (cmd.extractLsb' 0 2)).toBits = imm8Field cmd := by
  have clear : ∀ i : Byte, i &&& 0xFC#8 = 0#8 → 0#6 ++ (LfState.ofBits (i.extractLsb' 0 2)).toBits = i := by decide
  conv_lhs => rw [← cmdWord_fields cmd, bits2_cmdWord]
  exact clear _ h

theorem toBit_ofBit (b : Bool) : (Level.ofBit b).toBit = b := by cases b <;> rfl

/-! ### Words and commands -/

/-- The encoding of an accepted word's command is the word, and DATA is its operand or ignored: one line for each way the rows
use the fields (R106, R107). -/
theorem encode_of_decode {cmd data : Word} {i : Instr} (h : decode cmd data = .ok i) :
    (encode i).1 = cmd ∧ ((encode i).2 = data ∨ ∀ data', decode cmd data' = .ok i) := by
  unfold decode at h ⊢
  split at h
  case h_25 => cases h
  all_goals
    rename_i hop
    obtain ⟨hz, rfl⟩ := requireZero_eq_ok_iff.1 h
  -- REG_RD, REG_WR
  case h_1 => exact ⟨cmdWord_eq_of_clear hz hop (fun _ => rfl) a8AsA12_a8Field zero_of_clear, .inr fun _ => h⟩
  case h_2 => exact ⟨cmdWord_eq_of_clear hz hop (fun _ => rfl) a8AsA12_a8Field (fun _ => rfl), .inr fun _ => h⟩
  -- RAM_RD, RAM_WR, CFG_RD, CFG_WR
  case h_3 | h_22 => exact ⟨cmdWord_eq_of_clear hz hop (fun _ => rfl) (fun _ => rfl) zero_of_clear, .inr fun _ => h⟩
  case h_4 | h_21 => exact ⟨cmdWord_eq_of_clear hz hop (fun _ => rfl) (fun _ => rfl) zero_of_clear, .inl rfl⟩
  -- CAL, IRQ_EVP, IRQ_EV
  case h_5 | h_7 => exact ⟨cmdWord_eq_of_clear hz hop zero_of_clear zero_of_clear (fun _ => rfl), .inl rfl⟩
  case h_6 => exact ⟨cmdWord_eq_of_clear hz hop zero_of_clear zero_of_clear zero_of_clear, .inl rfl⟩
  -- IRQ_CHANNELS, RING_CANCEL_ALL, RING_SELFTEST, INIT, GET_NCH
  case h_8 | h_17 | h_18 | h_23 | h_24 =>
    exact ⟨cmdWord_eq_of_clear hz hop zero_of_clear zero_of_clear zero_of_clear, .inr fun _ => h⟩
  -- IRQ_ENABLE, SET_LF
  case h_9 => exact ⟨cmdWord_eq_of_clear hz hop zero_of_clear zero_of_clear bitAsImm8_bit0, .inr fun _ => h⟩
  case h_10 => exact ⟨cmdWord_eq_of_clear hz hop (fun _ => rfl) zero_of_clear lfBits_bits2, .inr fun _ => h⟩
  -- START_RING, STOP_RING, GET_HOOK, RING_BEGIN, RING_CANCEL
  case h_11 | h_12 | h_13 | h_15 | h_16 =>
    exact ⟨cmdWord_eq_of_clear hz hop (fun _ => rfl) zero_of_clear zero_of_clear, .inr fun _ => h⟩
  -- SET_LOOPBACK, HOOK_SAMPLE, HOOK_TICK
  case h_14 => exact ⟨cmdWord_eq_of_clear hz hop (fun _ => rfl) zero_of_clear (fun _ => rfl), .inr fun _ => h⟩
  case h_19 =>
    exact ⟨cmdWord_eq_of_clear hz hop (fun _ => rfl) zero_of_clear (toBit_ofBit _ ▸ bitAsImm8_bit0), .inl rfl⟩
  case h_20 => exact ⟨cmdWord_eq_of_clear hz hop (fun _ => rfl) zero_of_clear zero_of_clear, .inl rfl⟩

open Laws in
/-- Every command's word is a word of its port's rows: the family WordShape as one statement. -/
theorem encode_wellFormed : ∀ i : Instr, wellFormedWord i.port (encode i).1 = true
  | .regRd ch a => WordShape.regRd ch a
  | .regWr ch a v => WordShape.regWr ch a v
  | .ramRd ch addr => WordShape.ramRd ch addr
  | .ramWr ch addr v => WordShape.ramWr ch addr v
  | .cal len seeds => WordShape.cal len seeds
  | .irqEv t => WordShape.irqEv t
  | .irqEvp status t => WordShape.irqEvp status t
  | .irqChannels => WordShape.irqChannels
  | .irqEnable en => WordShape.irqEnable en
  | .setLf ch req => WordShape.setLf ch req
  | .startRing ch => WordShape.startRing ch
  | .stopRing ch => WordShape.stopRing ch
  | .getHook ch => WordShape.getHook ch
  | .setLoopback ch mode => WordShape.setLoopback ch mode
  | .ringBegin ch => WordShape.ringBegin ch
  | .ringCancel ch => WordShape.ringCancel ch
  | .ringCancelAll => WordShape.ringCancelAll
  | .ringSelftest => WordShape.ringSelftest
  | .hookSample ch lvl t => WordShape.hookSample ch lvl t
  | .hookTick ch t => WordShape.hookTick ch t
  | .cfgWr ch idx v => WordShape.cfgWr ch idx v
  | .cfgRd ch idx => WordShape.cfgRd ch idx
  | .init => WordShape.init
  | .getNch => WordShape.getNch

theorem wellFormedWord_of_decode {cmd data : Word} {i : Instr} (h : decode cmd data = .ok i) :
    wellFormedWord i.port cmd = true := by
  have hw := encode_wellFormed i
  rwa [(encode_of_decode h).1] at hw

theorem exists_decode_of_wellFormed {p : Port} {cmd : Word} (data : Word) (h : wellFormedWord p cmd = true) :
    ∃ i, decode cmd data = .ok i ∧ i.port = p := by
  obtain ⟨r, hr, hrow⟩ := List.any_eq_true.1 h
  obtain ⟨hp, hword⟩ := Bool.and_eq_true_iff.1 hrow
  obtain rfl : r.port = p := of_decide_eq_true hp
  exact exists_decode_of_row cmd data hr hword

/-- Settles O2: an accepted word is its command's encoding, which is a word of the table, and every row of
the table is accepted. -/
theorem decoderAcceptsExactlyTheTableWords : Obligations.DecoderAcceptsExactlyTheTableWords := by
  refine ⟨fun p cmd data => ⟨?_, exists_decode_of_wellFormed data⟩, fun _ _ _ => encode_of_decode⟩
  rintro ⟨i, hd, rfl⟩
  exact wellFormedWord_of_decode hd

/-- Settles O1: the decoder accepts the word, since it is one of the table, and reads each operand from the field that the
encoder put it in. -/
theorem decodeOfEncodeGivesTheCommandBack : Obligations.DecodeOfEncodeGivesTheCommandBack := by
  intro i
  obtain ⟨j, hj, -⟩ := exists_decode_of_wellFormed (encode i).2 (encode_wellFormed i)
  rw [hj]
  unfold decode at hj
  cases i
  all_goals
    dsimp only [encode] at hj
    rw [opField_cmdWord] at hj
    obtain ⟨-, rfl⟩ := requireZero_eq_ok_iff.1 hj
    simp only [chField_cmdWord, a8Field_cmdWord, a12Field_cmdWord, imm8Field_cmdWord, bit0_cmdWord, bits2_cmdWord]
  case irqEnable en => cases en <;> rfl
  case setLf ch req => cases req <;> rfl
  case hookSample ch lvl t => cases lvl <;> rfl

end Sys2Proof
end

