-- ==== Sys2Proof/Proofs/PortWords.lean ====
section
/-! What the two ports do with the word at their head: run what it stands for, reject it, or refuse it (R101, R108 to R110, R203). -/

namespace Sys2Proof.Machine

/-! ### Whose turn a step is -/

theorem step_eq_slotTurn {s : State} {slot : Slot} {l : List Slot} (hs : s.env.sched = slot :: l) :
    step s = slotTurn slot (s.setSched l) := by
  simp only [step, hs]

/-- Where the schedule names nobody, the party whose turn it is moves if it has something to do (R81; log entry 3). -/
theorem step_eq_turn {s : State} {k : Fin 6} (hs : s.env.sched = []) (ht : s.env.turn = k)
    (hk : s.ready turnOrder[k] = true) : step s = slotTurn turnOrder[k] (s.setTurn (k + 1)) := by
  have hplace : s.defaultPlace = k := by
    subst ht
    rw [State.defaultPlace, placesFrom, List.find?_cons_of_pos (p := fun k => s.ready turnOrder[k]) hk, Option.getD_some]
  simp only [step, hs, State.defaultSlot, State.passTurn, hplace]

/-! ### The ports -/

theorem hostTurn_of_request {s : State} {r : HostReq} {rest : List HostReq} (hc : s.blk.cmd = none)
    (hq : s.env.hostQ = r :: rest) : hostTurn s = runRequest r s.takeRequest := by
  simp only [hostTurn, hc, hq, if_true]

theorem runRequest_of_decode {r : HostReq} {i : Instr} (hd : decode r.cmd r.data = .ok i) (hp : i.port = .host) (s : State) :
    runRequest r s = exec i s := by
  simp only [runRequest, hd, hp]

/-- An ill-formed word, or an event's word, on the host port (R108, R338). -/
theorem runRequest_of_illFormed {r : HostReq} (h : wellFormedWord .host r.cmd = false) (s : State) :
    runRequest r s = .next s.illegal := by
  unfold runRequest
  split
  · next i hd =>
    have hw := wellFormedWord_of_decode hd
    split
    · next hp => rw [hp, h] at hw; cases hw
    · rfl
  · rfl

theorem eventTurn_of_decode {s : State} {r : EventReq} {rest : List EventReq} {i : Instr} (hq : s.env.eventQ = r :: rest)
    (hd : decode r.cmd r.data = .ok i) (hp : i.port = .interrupt) : eventTurn s = exec i s := by
  simp only [eventTurn, hq, hd, hp]

/-- An ill-formed word, or a host command's word, on the event port (R109). -/
theorem eventTurn_of_illFormed {s : State} {r : EventReq} {rest : List EventReq} (hq : s.env.eventQ = r :: rest)
    (h : wellFormedWord .interrupt r.cmd = false) : eventTurn s = .next (settle (rejectEvent.run s)) := by
  simp only [eventTurn, hq]
  split
  · next i hd =>
    have hw := wellFormedWord_of_decode hd
    split
    · next hp => rw [hp, h] at hw; cases hw
    · rfl
  · rfl

/-- Settles O4: the turn is the port's, and the port runs what the decoder reads. -/
theorem stepRunsTheDecodedCommand : Obligations.StepRunsTheDecodedCommand := by
  refine ⟨fun s r rest i hc hq hd hp => ⟨fun l hs => ?_, fun hs ht => ?_⟩, fun s r rest i l hq hd hp hs => ?_⟩
  · rw [step_eq_slotTurn hs, ← runRequest_of_decode hd hp]
    exact hostTurn_of_request (s := s.setSched l) hc hq
  · have hready : s.ready .command = true := by simp [State.ready, hc, hq]
    rw [step_eq_turn hs ht hready, ← runRequest_of_decode hd hp]
    exact hostTurn_of_request (s := s.setTurn 1) hc hq
  · rw [step_eq_slotTurn hs]
    exact eventTurn_of_decode (s := s.setSched l) hq hd hp

/-! ### Ill-formed words -/

theorem takeRequest_of_cons {s : State} {r : HostReq} {rest : List HostReq} (hq : s.env.hostQ = r :: rest) :
    s.takeRequest = { s with env := { s.env with hostQ := rest } } := by
  rw [State.takeRequest, hq, List.tail_cons]

/-- The index of a per-channel field is one of the legal set (R23, R300). -/
theorem isChannelIndex_index (f : ChanField) : isChannelIndex f.index = true := by
  cases f with
  | cadPhase k =>
    have hk := k.isLt
    simp only [isChannelIndex, cadPhase_index_toNat, Bool.or_eq_true, decide_eq_true_eq]
    omega
  | _ => rfl

/-- Illegal operands name no field (R108, R300). -/
theorem cfgDecode_of_illegal {ch : BitVec 4} {idx : BitVec 12} (h : cfgOperandsLegal ch idx = false) :
    cfgDecode idx ch = .error .illegalCmd := by
  unfold cfgOperandsLegal at h
  unfold cfgDecode
  cases hg : globalFieldAt idx with
  | some f =>
    have hglobal : isGlobalIndex idx = true := by
      rw [globalFieldAt_eq_some hg]
      exact decide_eq_true f.index_le
    rw [if_pos hglobal] at h
    exact if_neg (of_decide_eq_false h)
  | none =>
    cases hf : chanFieldAt idx with
    | none => rfl
    | some f =>
      have hchan := isChannelIndex_index f
      have hle := f.le_index
      rw [← chanFieldAt_eq_some hf] at hchan hle
      have hglobal : isGlobalIndex idx = false := decide_eq_false (by omega)
      rw [hglobal, hchan] at h
      cases h

/-- CFG_WR of operands that name no field raises what decoding raises (R300, R301). -/
theorem cfgWr_of_decode_error {s : State} (hs : s.Calm) {ch : BitVec 4} {idx : BitVec 12} {v : Word} {st : Status}
    (h : cfgDecode idx ch = .error st) : exec (.cfgWr ch idx v) s = .next (s.present ⟨st, 0⟩) := by
  refine command_rejected hs ?_
  simp only [cfgWrite, decodeField_error h, run_bind, run_raise]

/-- The configuration index is the one operand that an instruction term leaves to check (R108). -/
theorem exec_of_not_wf {s : State} (hs : s.Calm) {i : Instr} (h : i.wf = false) :
    exec i s = .next (s.present ⟨.illegalCmd, 0⟩) := by
  cases i with
  | cfgWr ch idx v => exact cfgWr_of_decode_error hs (cfgDecode_of_illegal h)
  | cfgRd ch idx => exact cfgRd_of_decode_error hs (cfgDecode_of_illegal h)
  | _ => cases h

/-- Settles O6: the decoder reads no host command from the word, and no field from the operands. -/
theorem illegalRequestsRespondIllegalCmd : Obligations.IllegalRequestsRespondIllegalCmd := by
  refine ⟨fun s r rest l hc hq hs hr hw => ?_, fun _ _ hs => exec_of_not_wf hs⟩
  rw [step_eq_slotTurn hs]
  have hturn := hostTurn_of_request (s := s.setSched l) hc hq
  have hr' : (s.setSched l).takeRequest.env.resets = [] := hr
  rw [runRequest_of_illFormed hw, State.illegal, respond_of_no_resets hr', takeRequest_of_cons (s := s.setSched l) hq] at hturn
  exact hturn

/-- An event that no reset keeps from its LOG (R203). -/
theorem discardEvent_of_no_resets {s : State} {r : EventReq} {rest : List EventReq} (hr : s.env.resets = [])
    (hq : s.env.eventQ = r :: rest) (code : LogCode) :
    (discardEvent code).run s =
      .ok () ({ s with env := { s.env with eventQ := rest } }.emit (.log .zero code (srcInfo r.src))) := by
  have hcons : s.consumeEvent = { s with env := { s.env with eventQ := rest } } := by
    rw [State.consumeEvent, hq, List.tail_cons]
  have hr' : s.consumeEvent.env.resets = [] := hr
  simp only [discardEvent, run_bind, run_readS, run_changeS, moment_of_no_resets hr', State.eventSrc, hq]
  rw [hcons]

/-- Settles O7: the decoder reads no event from the word, and the port rejects it without looking at the queue. -/
theorem illegalEventsAreConsumedAndLogged : Obligations.IllegalEventsAreConsumedAndLogged := by
  intro s r rest l hq hs hr hw
  rw [step_eq_slotTurn hs]
  have hturn := eventTurn_of_illFormed (s := s.setSched l) hq hw
  rw [rejectEvent, discardEvent_of_no_resets (s := s.setSched l) hr hq] at hturn
  exact hturn

/-! ### Refusals -/

/-- Settles O49: each of the two is refused by name, before anything is looked at. -/
theorem loopbackAndSelftestAreRefused : Obligations.LoopbackAndSelftestAreRefused :=
  ⟨fun _ _ _ => rfl, fun _ => rfl⟩

/-- A next state, or one of the two refusals: neither a fault nor a third refusal (R110, R329). -/
def OnlyNamedRefusals (o : Host.Outcome State Fault Refusal) : Prop :=
  (∃ t, o = .next t) ∨ o = .refused .loopbackHasNoBehaviour ∨ o = .refused .ringSelftestHasNoBehaviour

theorem OnlyNamedRefusals.next (t : State) : OnlyNamedRefusals (.next t) := .inl ⟨t, rfl⟩

theorem exec_onlyNamedRefusals (i : Instr) (s : State) : OnlyNamedRefusals (exec i s) := by
  cases i with
  | setLoopback ch mode => exact .inr (.inl rfl)
  | ringSelftest => exact .inr (.inr rfl)
  | _ => exact .next _

theorem hostTurn_onlyNamedRefusals (s : State) : OnlyNamedRefusals (hostTurn s) := by
  unfold hostTurn runRequest
  split
  · split
    · exact .next s
    · split
      · next i _ =>
        split
        · exact exec_onlyNamedRefusals i _
        · exact .next _
      · exact .next _
  · exact .next s

theorem slotTurn_onlyNamedRefusals (slot : Slot) (s : State) : OnlyNamedRefusals (slotTurn slot s) := by
  by_cases hc : slot = .command
  · subst hc
    exact hostTurn_onlyNamedRefusals s
  · rw [slotTurn_of_ne_command hc]
    exact .next _

/-- Settles O53: only the command agent's turn can refuse, and there only the two commands without a behaviour. -/
theorem stepsOnlyRefuseTheTwoNamedCommands : Obligations.StepsOnlyRefuseTheTwoNamedCommands := by
  intro s
  unfold step
  split
  · exact slotTurn_onlyNamedRefusals _ _
  · exact slotTurn_onlyNamedRefusals _ _

end Sys2Proof.Machine
end

