-- ==== Sys2Proof/Proofs/ChannelsWord.lean ====
section
/-! The bits of the IRQ_CHANNELS word (R115). -/

namespace Sys2Proof.Machine

theorem and_0F_eq_zero_iff : ∀ v : Byte, v &&& 0x0F#8 = 0#8 ↔ v.extractLsb' 0 4 = 0#4 := by decide

theorem and_F0_eq_zero_iff : ∀ v : Byte, v &&& 0xF0#8 = 0#8 ↔ v.extractLsb' 4 4 = 0#4 := by decide

/-- The bits a nibble of the status byte sets in the word: none where its channel is not pending (R115, R190). -/
def channelBits (c : Chan) (m : BitVec 4) : Word := if m = 0#4 then 0#32 else pendingBits (c, m)

/-- The word is the status byte with each channel's bits (R206). -/
theorem irqChannelsWord_eq_or (v : Byte) :
    irqChannelsWord v =
      v.setWidth 32 <<< 16 ||| channelBits .zero (v.extractLsb' 0 4) ||| channelBits .one (v.extractLsb' 4 4) := by
  simp only [irqChannelsWord, stage1, channelBits, ne_eq, and_0F_eq_zero_iff, and_F0_eq_zero_iff, ite_not]
  split <;> split <;> simp only [List.nil_append, List.cons_append, List.foldl_cons, List.foldl_nil, BitVec.or_zero]

/-- The word's layout: the status byte, and each channel's flag and mask (R115). -/
def channelsWord (status : Byte) (f1 : BitVec 1) (m1 : BitVec 4) (f0 : BitVec 1) (m0 : BitVec 4) : Word :=
  0#8 ++ status ++ 0#3 ++ f1 ++ m1 ++ 0#3 ++ f0 ++ m0

theorem channelsWord_or (v v' : Byte) (f1 f1' f0 f0' : BitVec 1) (m1 m1' m0 m0' : BitVec 4) :
    channelsWord v f1 m1 f0 m0 ||| channelsWord v' f1' m1' f0' m0' =
      channelsWord (v ||| v') (f1 ||| f1') (m1 ||| m1') (f0 ||| f0') (m0 ||| m0') := by
  unfold channelsWord
  change _ = (0#8 ||| 0#8) ++ (v ||| v') ++ (0#3 ||| 0#3) ++ (f1 ||| f1') ++ (m1 ||| m1') ++ (0#3 ||| 0#3) ++ (f0 ||| f0') ++
    (m0 ||| m0')
  simp only [← BitVec.or_append]

theorem status_shift (v : Byte) : v.setWidth 32 <<< 16 = channelsWord v 0 0 0 0 := by
  revert v; decide

theorem channelBits_zero (m : BitVec 4) :
    channelBits .zero m = channelsWord 0 0 0 (BitVec.ofBool (decide (m ≠ 0))) m := by
  revert m; decide

theorem channelBits_one (m : BitVec 4) :
    channelBits .one m = channelsWord 0 (BitVec.ofBool (decide (m ≠ 0))) m 0 0 := by
  revert m; decide

/-- Settles O20: the word is an or of parts that lie side by side. -/
theorem irqChannelsWordHasTheStatedBits : Obligations.IrqChannelsWordHasTheStatedBits := by
  intro v
  rw [irqChannelsWord_eq_or, status_shift, channelBits_zero, channelBits_one, channelsWord_or, channelsWord_or]
  simp only [BitVec.ofNat_eq_ofNat, BitVec.or_zero, BitVec.zero_or]
  rfl

end Sys2Proof.Machine
end

