-- ==== Sys2Proof/Proofs/CommandScripts.lean ====
section
/-! Scripts: what an undisturbed command does as a list of operations and delays, and how such a list goes when the chip
answers all of it or fails one of its operations (R12, R76, R320). -/

namespace Sys2Proof.Machine

/-! ### Scripts -/

/-- A part of a script: a transport operation with how it ends, or a delay. -/
inductive Beat where
  | op (w : WireOp)
  | pause

/-- The operations of a script. -/
def opsOf : List Beat → List WireOp
  | [] => []
  | .op w :: sc => w :: opsOf sc
  | .pause :: sc => opsOf sc

/-- How many delays stand before the k-th operation of a script: all of them where it has no such operation. -/
def pausesBefore : List Beat → Nat → Nat
  | [], _ => 0
  | .pause :: sc, k => pausesBefore sc k + 1
  | .op _ :: _, 0 => 0
  | .op _ :: sc, k + 1 => pausesBefore sc k

/-- A script without a delay. -/
def straight (ops : List WireOp) : List Beat := ops.map .op

theorem straight_append (ops ops' : List WireOp) : straight (ops ++ ops') = straight ops ++ straight ops' :=
  List.map_append

/-- Groups of operations with a delay between two groups and none after the last. -/
def spaced : List (List WireOp) → List Beat
  | [] => []
  | [g] => straight g
  | g :: g' :: gs => straight g ++ .pause :: spaced (g' :: gs)

theorem spaced_cons (g : List WireOp) {gs : List (List WireOp)} (h : gs ≠ []) :
    spaced (g :: gs) = straight g ++ .pause :: spaced gs := by
  cases gs with
  | nil => exact absurd rfl h
  | cons g' gs => rfl

@[simp] theorem opsOf_append (sc sc' : List Beat) : opsOf (sc ++ sc') = opsOf sc ++ opsOf sc' := by
  induction sc with
  | nil => rfl
  | cons b sc ih => cases b <;> simp [opsOf, ih]

@[simp] theorem opsOf_straight (ops : List WireOp) : opsOf (straight ops) = ops := by
  induction ops with
  | nil => rfl
  | cons w ops ih => exact congrArg (w :: ·) ih

@[simp] theorem opsOf_spaced (gs : List (List WireOp)) : opsOf (spaced gs) = gs.flatten := by
  induction gs with
  | nil => rfl
  | cons g gs ih =>
    cases gs with
    | nil => simp [spaced]
    | cons g' gs => simp [spaced, opsOf, ih]

/-- Where no delay stands at the seam, the delays of two scripts add up. -/
theorem pausesBefore_append (sc : List Beat) {sc' : List Beat} (h : pausesBefore sc' 0 = 0) (k : Nat) :
    pausesBefore (sc ++ sc') k = pausesBefore sc k + pausesBefore sc' (k - (opsOf sc).length) := by
  induction sc generalizing k with
  | nil => simp [pausesBefore, opsOf]
  | cons b sc ih =>
    cases b with
    | pause => simp only [List.cons_append, pausesBefore, opsOf, ih]; omega
    | op w =>
      cases k with
      | zero => simp [pausesBefore, h]
      | succ k => simp [pausesBefore, opsOf, ih]

@[simp] theorem pausesBefore_straight (ops : List WireOp) (k : Nat) : pausesBefore (straight ops) k = 0 := by
  induction ops generalizing k with
  | nil => rfl
  | cons w ops ih =>
    cases k with
    | zero => rfl
    | succ k => exact ih k

/-- After a group without a delay comes the delay, and then the rest of the script. -/
theorem pausesBefore_straight_pause (g : List WireOp) (sc : List Beat) (k : Nat) :
    pausesBefore (straight g ++ .pause :: sc) k =
      if k < g.length then 0 else pausesBefore sc (k - g.length) + 1 := by
  induction g generalizing k with
  | nil => rfl
  | cons w g ih =>
    cases k with
    | zero => rfl
    | succ k =>
      have h : pausesBefore (straight (w :: g) ++ .pause :: sc) (k + 1) = pausesBefore (straight g ++ .pause :: sc) k := rfl
      rw [h, ih]
      simp

/-- Among groups of m operations there is a delay after every m operations. -/
theorem pausesBefore_spaced {m : Nat} (hm : 0 < m) {gs : List (List WireOp)} (h : ∀ g ∈ gs, g.length = m) (k : Nat) :
    pausesBefore (spaced gs) k = min (k / m) (gs.length - 1) := by
  induction gs generalizing k with
  | nil => simp [spaced, pausesBefore]
  | cons g gs ih =>
    obtain ⟨hg, hgs⟩ := List.forall_mem_cons.1 h
    cases gs with
    | nil => simp [spaced]
    | cons g' gs =>
      rw [spaced_cons g (List.cons_ne_nil g' gs), pausesBefore_straight_pause, hg, ih hgs]
      split
      · next hk => simp [Nat.div_eq_of_lt hk]
      · next hk =>
        rw [Nat.div_eq_sub_div hm (Nat.le_of_not_lt hk)]
        simp only [List.length_cons]
        omega

/-! ### How a script goes -/

/-- How a script can go with these answers: the operations it issues, how many delays it makes, and the response of the
operation that failed, if one did. -/
inductive Played : List Beat → List Answer → List WireOp → Nat → Option Response → Prop
  | done : Played [] [] [] 0 none
  | pause {sc : List Beat} {as : List Answer} {ops : List WireOp} {n : Nat} {f : Option Response}
    (h : Played sc as ops n f) : Played (.pause :: sc) as ops (n + 1) f
  | op {w : WireOp} {a : Answer} {sc : List Beat} {as : List Answer} {ops : List WireOp} {n : Nat} {f : Option Response}
    (hw : w.answeredBy a) (h : Played sc as ops n f) : Played (.op w :: sc) (a :: as) (w :: ops) n f
  | fails (w : WireOp) (sc : List Beat) :
    Played (.op w :: sc) [.fail] [w.fails] 0 (some ⟨.commError, failInfo w.chan w.reg⟩)

/-- Every operation is answered. -/
theorem Played.through {sc : List Beat} {as : List Answer} (h : List.Forall₂ WireOp.answeredBy (opsOf sc) as) :
    Played sc as (opsOf sc) (pausesBefore sc (opsOf sc).length) none := by
  induction sc generalizing as with
  | nil => cases h; exact .done
  | cons b sc ih =>
    cases b with
    | pause => exact .pause (ih h)
    | op w =>
      cases h with
      | cons hw h => exact .op hw (ih h)

/-- The k-th operation fails. -/
theorem Played.failing {sc : List Beat} {k : Nat} {w : WireOp} {as : List Answer} (hk : (opsOf sc)[k]? = some w)
    (h : List.Forall₂ WireOp.answeredBy ((opsOf sc).take k) as) :
    Played sc (as ++ [.fail]) ((opsOf sc).take k ++ [w.fails]) (pausesBefore sc k)
      (some ⟨.commError, failInfo w.chan w.reg⟩) := by
  induction sc generalizing k as with
  | nil => cases hk
  | cons b sc ih =>
    cases b with
    | pause => exact .pause (ih hk h)
    | op v =>
      cases k with
      | zero => cases hk; cases h; exact .fails w sc
      | succ k =>
        cases h with
        | cons hv h => exact .op hv (ih hk h)

/-- A script in two parts fails in the first, or it goes through the first and on with the second. -/
theorem Played.append_cases {sc sc' : List Beat} {as : List Answer} {ops : List WireOp} {n : Nat} {f : Option Response}
    (h : Played (sc ++ sc') as ops n f) :
    (∃ r, f = some r ∧ Played sc as ops n (some r)) ∨
    ∃ as1 as2 ops1 ops2 n1 n2, Played sc as1 ops1 n1 none ∧ Played sc' as2 ops2 n2 f ∧
      as = as1 ++ as2 ∧ ops = ops1 ++ ops2 ∧ n = n1 + n2 := by
  induction sc generalizing as ops n with
  | nil => exact .inr ⟨[], as, [], ops, 0, n, .done, h, rfl, rfl, (Nat.zero_add n).symm⟩
  | cons b sc ih =>
    cases h with
    | pause h =>
      obtain ⟨r, hf, h1⟩ | ⟨as1, as2, ops1, ops2, n1, n2, h1, h2, ha, ho, hn⟩ := ih h
      · exact .inl ⟨r, hf, .pause h1⟩
      · exact .inr ⟨as1, as2, ops1, ops2, n1 + 1, n2, .pause h1, h2, ha, ho, by omega⟩
    | op hw h =>
      obtain ⟨r, hf, h1⟩ | ⟨as1, as2, ops1, ops2, n1, n2, h1, h2, ha, ho, hn⟩ := ih h
      · exact .inl ⟨r, hf, .op hw h1⟩
      · exact .inr ⟨_ :: as1, as2, _ :: ops1, ops2, n1, n2, .op hw h1, h2, congrArg _ ha, congrArg _ ho, hn⟩
    | fails w => exact .inl ⟨_, rfl, .fails w sc⟩

/-! ### What a script leaves -/

/-- s with another block. -/
def State.withBlk (s : State) (b : Block) : State := { s with blk := b }

/-- s after these operations and n delays of d ms, with `rest` the chip's answers that are left. -/
def State.paced (s : State) (d : Half) (ops : List WireOp) (n : Nat) (rest : List Answer) : State :=
  (s.afterOps ops rest).advance (pauses n d)

theorem pauses_add (m n : Nat) (d : Half) : pauses (m + n) d = pauses m d + pauses n d := by
  simp [pauses, BitVec.ofNat_add, BitVec.add_mul]

theorem pauses_zero (d : Half) : pauses 0 d = 0 := BitVec.zero_mul

theorem pauses_one (d : Half) : pauses 1 d = d.setWidth 32 := BitVec.one_mul _

theorem paced_paced (s : State) (d : Half) (ops ops' : List WireOp) (n n' : Nat) (rest rest' : List Answer) :
    (s.paced d ops n rest).paced d ops' n' rest' = s.paced d (ops ++ ops') (n + n') rest' := by
  simp [State.paced, State.advance, State.setNow, State.afterOps, pauses_add, BitVec.add_assoc]

/-- Without delays only operations have happened; the block is as it was. -/
theorem paced_no_pauses (s : State) (d : Half) (ops : List WireOp) (rest : List Answer) :
    (s.paced d ops 0 rest).withBlk s.blk = s.afterOps ops rest := by
  have h : s.env.now + pauses 0 d = s.env.now := by simp [pauses_zero]
  simp [State.paced, State.advance, State.setNow, State.withBlk, State.afterOps, h]

theorem paced_nothing {s : State} {rest : List Answer} (d : Half) (h : s.env.answers = rest) :
    (s.paced d [] 0 rest).withBlk s.blk = s := by
  rw [paced_no_pauses, afterOps_nil h]

/-- The end of a sequence with this value, or with this response's error. -/
def ending {α : Type} : Except Response α → State → EStateM.Result Stop State α
  | .ok a, s => .ok a s
  | .error r, s => .error (.raised r.status r.rdata) s

/-- Begun at block b with nobody interfering, x goes as the script does: it ends at block b', with a failing operation's
response or else with `out`. Delays last d ms. -/
def Follows (p : Params) (d : Half) (b b' : Block) {α : Type} (x : Run α) (sc : List Beat) (out : Except Response α) : Prop :=
  ∀ ⦃s : State⦄ ⦃as : List Answer⦄ ⦃ops : List WireOp⦄ ⦃n : Nat⦄ ⦃f : Option Response⦄ ⦃rest : List Answer⦄,
    s.par = p → s.blk = b → s.env.sched = [] → Played sc as ops n f → s.env.answers = as ++ rest →
      x.run s = ending (f.elim out .error) ((s.paced d ops n rest).withBlk b')

section
variable {p : Params} {d : Half} {b b' b'' : Block} {α β : Type} {sc sc' : List Beat}

theorem pure_follows (a : α) : Follows p d b b (pure a) [] (.ok a) := by
  intro s as ops n f rest _ hb _ hp ha
  cases hp
  subst hb
  exact congrArg (EStateM.Result.ok a) (paced_nothing d ha).symm

theorem raise_follows (st : Status) (info : Word) :
    Follows p d b b (raise st info : Run α) [] (.error ⟨st, info⟩) := by
  intro s as ops n f rest _ hb _ hp ha
  cases hp
  subst hb
  exact congrArg (EStateM.Result.error (Stop.raised st info)) (paced_nothing d ha).symm

/-- One sequence after another. -/
theorem Follows.bind {x : Run α} {f : α → Run β} {a : α} {out : Except Response β} (hx : Follows p d b b' x sc (.ok a))
    (hf : Follows p d b' b' (f a) sc' out) : Follows p d b b' (x >>= f) (sc ++ sc') out := by
  intro s as ops n g rest hpar hb hs hp ha
  obtain ⟨r, rfl, h1⟩ | ⟨as1, as2, ops1, ops2, n1, n2, h1, h2, rfl, rfl, rfl⟩ := hp.append_cases
  · rw [run_bind, hx hpar hb hs h1 ha]
    rfl
  · rw [List.append_assoc] at ha
    rw [run_bind, hx hpar hb hs h1 ha]
    refine (hf (s := (s.paced d ops1 n1 (as2 ++ rest)).withBlk b') hpar rfl hs h2 rfl).trans ?_
    rw [← paced_paced s d ops1 ops2 n1 n2 (as2 ++ rest) rest]
    rfl

/-- A sequence that raises ends what it is part of. -/
theorem Follows.bind_error {x : Run α} {f : α → Run β} {r : Response} (hx : Follows p d b b' x sc (.error r)) :
    Follows p d b b' (x >>= f) sc (.error r) := by
  intro s as ops n g rest hpar hb hs hp ha
  rw [run_bind, hx hpar hb hs hp ha]
  cases g <;> rfl

/-- A sequence and then a value computed from its own. -/
theorem Follows.thenPure {x : Run α} {out : Except Response α} (hx : Follows p d b b' x sc out) (g : α → β) :
    Follows p d b b' (x >>= fun a => pure (g a)) sc (out.map g) := by
  cases out with
  | ok a => exact List.append_nil sc ▸ hx.bind (pure_follows (g a))
  | error r => exact hx.bind_error

/-- A value read that the parameters and the block fix. -/
theorem Follows.readS {f : State → α} {g : α → Run β} {v : α} {out : Except Response β}
    (hf : ∀ s, s.par = p → s.blk = b → f s = v) (hg : Follows p d b b' (g v) sc out) :
    Follows p d b b' (readS f >>= g) sc out := by
  intro s as ops n r rest hpar hb hs hp ha
  rw [run_bind, run_readS, hf s hpar hb]
  exact hg hpar hb hs hp ha

/-- A change of the block. -/
theorem Follows.changeS {f : State → State} {g : Unit → Run β} {out : Except Response β}
    (hf : ∀ s, s.blk = b → f s = s.withBlk b') (hg : Follows p d b' b'' (g ()) sc out) :
    Follows p d b b'' (changeS f >>= g) sc out := by
  intro s as ops n r rest hpar hb hs hp ha
  rw [run_bind, run_changeS, hf s hb]
  exact hg (s := s.withBlk b') hpar rfl hs hp ha

theorem Follows.activeChannel {ch : BitVec 4} {c : Chan} {g : Chan → Run β} {out : Except Response β}
    (hc : activeChan b.n ch = some c) (hg : Follows p d b b' (g c) sc out) :
    Follows p d b b' (activeChannel ch >>= g) sc out := by
  intro s as ops n r rest hpar hb hs hp ha
  rw [run_bind, activeChannel_some (by rw [hb]; exact hc)]
  exact hg hpar hb hs hp ha

theorem require_follows {c : Bool} (h : c = true) (st : Status) : Follows p d b b (require c st) [] (.ok ()) := by
  subst h
  exact pure_follows ()

/-- A sequence that is one operation, answered or failing. -/
theorem op_follows {x : Run α} {w : WireOp} {a : α}
    (hdone : ∀ (s : State) ans rest, s.env.sched = [] → w.answeredBy ans →
      x.run (s.afterOps [] (ans :: rest)) = .ok a (s.afterOps [w] rest))
    (hfail : ∀ (s : State) rest, s.env.sched = [] →
      x.run (s.afterOps [] (.fail :: rest)) =
        .error (.raised .commError (failInfo w.chan w.reg)) (s.afterOps [w.fails] rest)) :
    Follows p d b b x [.op w] (.ok a) := by
  intro s as ops n f rest _ hb hs hp ha
  subst hb
  cases hp with
  | op hw h =>
    cases h
    have e := hdone s _ rest hs hw
    rw [← List.singleton_append, afterOps_nil ha] at e
    exact e.trans (congrArg _ (paced_no_pauses s d [w] rest).symm)
  | fails =>
    have e := hfail s rest hs
    rw [← List.singleton_append, afterOps_nil ha] at e
    exact e.trans (congrArg _ (paced_no_pauses s d [w.fails] rest).symm)

theorem cmdRead_follows (c : Chan) (a v : Byte) :
    Follows p d b b (cmdRead c a) [.op (.read c a (.data v))] (.ok v) :=
  op_follows (fun _ _ rest hs hw => hw ▸ cmdRead_data hs c a v [] rest) fun _ rest hs => cmdRead_fail hs c a [] rest

theorem cmdWrite_follows (c : Chan) (a v : Byte) :
    Follows p d b b (cmdWrite c a v) [.op (.write c a v .done)] (.ok ()) :=
  op_follows (fun _ _ rest hs ⟨ack, hack⟩ => hack ▸ cmdWrite_data hs c a v ack [] rest) fun _ rest hs =>
    cmdWrite_fail hs c a v [] rest

theorem delay_follows : Follows p d b b (delay d) [.pause] (.ok ()) := by
  intro s as ops n f rest _ hb hs hp ha
  subst hb
  cases hp with
  | pause h =>
    cases h
    rw [delay_of_no_schedule d hs, State.paced, Nat.zero_add, pauses_one, List.nil_append] at *
    rw [afterOps_nil ha]
    rfl

/-- An atomic unit holds the grant for its whole body (R80). -/
theorem atomicUnit_follows {x : Run α} {out : Except Response α}
    (hx : Follows p d { b with grant := .command } b' x sc out) :
    Follows p d b { b' with grant := .none } (atomicUnit x) sc out := by
  intro s as ops n f rest hpar hb hs hp ha
  have hrun := hx (s := s.setGrant .command) hpar (by rw [State.setGrant_blk, hb]) hs hp ha
  cases he : f.elim out .error with
  | ok a => rw [he] at hrun; exact atomicUnit_ok hs hrun hs
  | error r => rw [he] at hrun; exact atomicUnit_error hs hrun

end

/-- A sequence all of whose operations the chip answers. -/
theorem Follows.through {α : Type} {s : State} {d : Half} {x : Run α} {sc : List Beat} {out : Except Response α}
    {as rest : List Answer} (h : Follows s.par d s.blk s.blk x sc out) (hs : s.env.sched = [])
    (has : List.Forall₂ WireOp.answeredBy (opsOf sc) as) (ha : s.env.answers = as ++ rest) :
    x.run s = ending out ((s.afterOps (opsOf sc) rest).advance (pauses (pausesBefore sc (opsOf sc).length) d)) :=
  h rfl rfl hs (.through has) ha

/-! ### Commands -/

/-- The response a command ends with. -/
def responseOf : Except Response Word → Response
  | .ok rdata => ⟨.ok, rdata⟩
  | .error r => r

/-- The command i, begun in s, goes as the script does and responds r unless an operation fails. Delays last d ms. -/
def Performs (s : State) (d : Half) (i : Instr) (sc : List Beat) (r : Response) : Prop :=
  ∀ ⦃as : List Answer⦄ ⦃ops : List WireOp⦄ ⦃n : Nat⦄ ⦃f : Option Response⦄ ⦃rest : List Answer⦄,
    Played sc as ops n f → s.env.answers = as ++ rest → exec i s = .next ((s.paced d ops n rest).present (f.getD r))

/-- A host command in a quiet state goes as its sequence, and ends with the block as it was. -/
theorem Follows.performs {s : State} {d : Half} {i : Instr} {b' : Block} {body : Run Word} {sc : List Beat}
    {out : Except Response Word} (hq : s.Quiet) (hi : exec i s = command i body s)
    (h : Follows s.par d { s.blk with cmd := some i } b' body sc out)
    (hb : { b' with ramTx := none, cmd := none } = s.blk) : Performs s d i sc (responseOf out) := by
  intro as ops n f rest hp ha
  obtain ⟨-, -, hs, hr⟩ := hq
  have hrun := h (s := s.setCmd (some i)) rfl rfl hs hp ha
  have hend : ((((s.setCmd (some i)).paced d ops n rest).withBlk b').endCommand) = s.paced d ops n rest :=
    congrArg (s.paced d ops n rest).withBlk hb
  have hresp : responseOf (f.elim out .error) = f.getD (responseOf out) := by cases f <;> rfl
  rw [hi, ← hend, ← hresp]
  cases he : f.elim out .error with
  | ok v => rw [he] at hrun; exact command_ok hr hrun hr
  | error r => rw [he] at hrun; exact command_raised hr hrun hr

/-- A command all of whose operations the chip answers. -/
theorem Performs.through {s : State} {d : Half} {i : Instr} {sc : List Beat} {r : Response} {as rest : List Answer}
    (h : Performs s d i sc r) (has : List.Forall₂ WireOp.answeredBy (opsOf sc) as) (ha : s.env.answers = as ++ rest) :
    exec i s = .next (((s.afterOps (opsOf sc) rest).advance
      (pauses (pausesBefore sc (opsOf sc).length) d)).present r) :=
  h (.through has) ha

/-- A command whose k-th operation fails. -/
theorem Performs.failing {s : State} {d : Half} {i : Instr} {sc : List Beat} {r : Response} {k : Nat} {w : WireOp}
    {as rest : List Answer} (h : Performs s d i sc r) (hk : (opsOf sc)[k]? = some w)
    (has : List.Forall₂ WireOp.answeredBy ((opsOf sc).take k) as) (ha : s.env.answers = as ++ .fail :: rest) :
    exec i s = .next (((s.afterOps ((opsOf sc).take k ++ [w.fails]) rest).advance
      (pauses (pausesBefore sc k) d)).present ⟨.commError, failInfo w.chan w.reg⟩) :=
  h (.failing hk has) (ha.trans (List.append_cons as .fail rest))

end Sys2Proof.Machine
end

