-- ==== Sys2Proof/Proofs/ProtocolEngine.lean ====
section
/-! The Register/RAM Protocol Engine (40_protocol_engine.md): the register commands, the wait for the RAM window, and the
scripts of the RAM commands. -/

namespace Sys2Proof.Machine

/-! ### The register commands -/

/-- The next answer does not depend on the command in progress or on who holds the transport. -/
theorem takeAnswer_in_unit (s : State) (i : Option Instr) (g : Grant) :
    ((s.setCmd i).setGrant g).takeAnswer = (s.takeAnswer.1, (s.takeAnswer.2.setCmd i).setGrant g) := by
  unfold State.takeAnswer
  rw [State.setGrant_env, State.setCmd_env]
  split <;> rfl

/-- A command that was one atomic unit in a quiet state leaves the block as it was. -/
theorem endCommand_of_unit {s t : State} {i : Option Instr} (hq : s.Quiet) (ht : t.blk = s.blk) :
    (((t.setCmd i).setGrant .command).setGrant .none).endCommand = t := by
  obtain ⟨hidle, hg, -, -⟩ := hq
  have htg : t.setGrant .none = t := by
    rw [State.setGrant, ht, ← hg, ← ht]
  have hti : t.Idle := by
    rw [State.Idle, ht]
    exact hidle
  calc (((t.setCmd i).setGrant .command).setGrant .none).endCommand
      = ((t.setCmd i).endCommand).setGrant .none := rfl
    _ = t := by rw [endCommand_setCmd hti, htg]

/-- A read in such a unit, by how the chip answers it (R143, R320, R350). -/
theorem cmdRead_in_unit {s : State} (hs : s.env.sched = []) (i : Option Instr) (g : Grant) (c : Chan) (a : Byte) :
    (cmdRead c a).run ((s.setCmd i).setGrant g) = match s.takeAnswer with
      | (.data v, s') => .ok v (((s'.logWire (.read c a (.data v))).setCmd i).setGrant g)
      | (.fail, s') =>
        .error (.raised .commError (failInfo c a)) (((s'.logWire (.read c a .failed)).setCmd i).setGrant g)
      | (.resetDuring, s') => .error .reset (s'.logWire (.read c a .abandoned)).blockReset := by
  have hs' : ((s.setCmd i).setGrant g).env.sched = [] := hs
  rw [cmdRead, run_bind, point_of_no_schedule hs']
  dsimp only
  rw [run_bind, run_readOp, takeAnswer_in_unit]
  rcases s.takeAnswer with ⟨_ | _ | _, s'⟩ <;> rfl

/-- A write in such a unit, by how the chip answers it (R144, R320, R350). -/
theorem cmdWrite_in_unit {s : State} (hs : s.env.sched = []) (i : Option Instr) (g : Grant) (c : Chan) (a v : Byte) :
    (cmdWrite c a v).run ((s.setCmd i).setGrant g) = match s.takeAnswer with
      | (.data _, s') => .ok () (((s'.logWire (.write c a v .done)).setCmd i).setGrant g)
      | (.fail, s') =>
        .error (.raised .commError (failInfo c a)) (((s'.logWire (.write c a v .failed)).setCmd i).setGrant g)
      | (.resetDuring, s') => .error .reset (s'.logWire (.write c a v .abandoned)).blockReset := by
  have hs' : ((s.setCmd i).setGrant g).env.sched = [] := hs
  rw [cmdWrite, run_bind, point_of_no_schedule hs']
  dsimp only
  rw [run_bind, run_writeOp, takeAnswer_in_unit]
  rcases s.takeAnswer with ⟨_ | _ | _, s'⟩ <;> rfl

section
variable {s t : State} {ch : BitVec 4} {c : Chan} {i : Instr} {α : Type} {x : Chan → Run α} {g : α → Word}

/-- What a command on a channel that is one atomic unit runs once its channel is found active. -/
theorem unitCommand_run (hc : activeChan s.blk.n ch = some c) :
    (do let c ← activeChannel ch; let a ← atomicUnit (x c); pure (g a) : Run Word).run (s.setCmd (some i)) =
      (do let a ← atomicUnit (x c); pure (g a) : Run Word).run (s.setCmd (some i)) := by
  have hc' : activeChan (s.setCmd (some i)).blk.n ch = some c := hc
  rw [run_bind, activeChannel_some hc']

/-- Such a command whose unit ends, with a value or with an error. -/
theorem unitCommand_ends (hq : s.Quiet) (hc : activeChan s.blk.n ch = some c) {out : Except Response α}
    (hx : (x c).run ((s.setCmd (some i)).setGrant .command) = ending out ((t.setCmd (some i)).setGrant .command))
    (hb : t.blk = s.blk) (hs : t.env.sched = []) (hr : t.env.resets = []) :
    command i (do let c ← activeChannel ch; let a ← atomicUnit (x c); pure (g a)) s =
      .next (t.present (responseOf (out.map g))) := by
  have hend := endCommand_of_unit (i := some i) hq hb
  obtain ⟨-, -, hs0, hr0⟩ := hq
  have hs1 : (s.setCmd (some i)).env.sched = [] := hs0
  rw [← hend]
  cases out with
  | ok a =>
    refine command_ok hr0 ((unitCommand_run hc).trans ?_) hr
    rw [run_bind, atomicUnit_ok hs1 hx hs]
    rfl
  | error r =>
    refine command_raised hr0 ((unitCommand_run hc).trans ?_) hr
    rw [run_bind, atomicUnit_error hs1 hx]

/-- Such a command whose unit a reset abandons. -/
theorem unitCommand_reset (hq : s.Quiet) (hc : activeChan s.blk.n ch = some c)
    (hx : (x c).run ((s.setCmd (some i)).setGrant .command) = .error .reset t.blockReset) :
    command i (do let c ← activeChannel ch; let a ← atomicUnit (x c); pure (g a)) s = .next t.blockReset := by
  obtain ⟨-, -, hs, hr⟩ := hq
  have hs1 : (s.setCmd (some i)).env.sched = [] := hs
  refine command_reset hr ((unitCommand_run hc).trans ?_)
  rw [run_bind, atomicUnit_error hs1 hx]
  rfl

end

/-- Settles O8: the one read, by its three answers. -/
theorem regRdReadsTheRegisterOnce : Obligations.RegRdReadsTheRegisterOnce := by
  intro s ch c a hq hc
  have ⟨_, _, hs, hr⟩ := hq
  obtain ⟨-, hb, -, -, hs', -, -, -, hr'⟩ := takeAnswer_keeps s
  have hx := cmdRead_in_unit hs (some (.regRd ch a)) .command c a
  rw [hs] at hs'
  rw [hr] at hr'
  rcases hans : s.takeAnswer with ⟨v | _ | _, s'⟩ <;> rw [hans] at hx hb hs' hr'
  · exact unitCommand_ends (out := .ok v) (x := fun c => cmdRead c a) (g := BitVec.setWidth 32)
      hq hc hx hb hs' hr'
  · exact unitCommand_ends (out := .error ⟨.commError, failInfo c a⟩) (x := fun c => cmdRead c a) (g := BitVec.setWidth 32)
      hq hc hx hb hs' hr'
  · exact unitCommand_reset (x := fun c => cmdRead c a) (g := BitVec.setWidth 32) hq hc hx

/-- Settles O9: the one write, by its three answers. -/
theorem regWrWritesTheRegisterOnce : Obligations.RegWrWritesTheRegisterOnce := by
  intro s ch c a v hq hc
  have ⟨_, _, hs, hr⟩ := hq
  obtain ⟨-, hb, -, -, hs', -, -, -, hr'⟩ := takeAnswer_keeps s
  have hx := cmdWrite_in_unit hs (some (.regWr ch a v)) .command c a v
  rw [hs] at hs'
  rw [hr] at hr'
  rcases hans : s.takeAnswer with ⟨_ | _ | _, s'⟩ <;> rw [hans] at hx hb hs' hr'
  · exact unitCommand_ends (out := .ok ()) (x := fun c => cmdWrite c a v) (g := fun _ => 0)
      hq hc hx hb hs' hr'
  · exact unitCommand_ends (out := .error ⟨.commError, failInfo c a⟩) (x := fun c => cmdWrite c a v) (g := fun _ => 0)
      hq hc hx hb hs' hr'
  · exact unitCommand_reset (x := fun c => cmdWrite c a v) (g := fun _ => 0) hq hc hx

end Sys2Proof.Machine
end

