-- ==== Sys2Proof/Proofs/WaitReady.lean ====
section
/-! The wait for the RAM window as a script of polls (40_protocol_engine.md R140, R141). -/

namespace Sys2Proof.Machine

/-- Polls of the RAM status that returned these bytes, with a delay between two polls (R140). -/
def pollScript (c : Chan) (a : Byte) (polls : List Byte) : List Beat := spaced ((readsOf c a polls).map fun w => [w])

@[simp] theorem opsOf_pollScript (c : Chan) (a : Byte) (polls : List Byte) :
    opsOf (pollScript c a polls) = readsOf c a polls := by
  rw [pollScript, opsOf_spaced, ← List.flatMap_def]
  exact List.flatMap_singleton' _

@[simp] theorem length_readsOf (c : Chan) (a : Byte) (bytes : List Byte) : (readsOf c a bytes).length = bytes.length :=
  List.length_map _

@[simp] theorem pausesBefore_pollScript (c : Chan) (a : Byte) (polls : List Byte) (k : Nat) :
    pausesBefore (pollScript c a polls) k = min k (polls.length - 1) := by
  rw [pollScript, pausesBefore_spaced Nat.zero_lt_one (by simp), Nat.div_one]
  simp

theorem readsOf_answeredBy (c : Chan) (a : Byte) (bytes : List Byte) :
    List.Forall₂ WireOp.answeredBy (readsOf c a bytes) (answering bytes) := by
  induction bytes with
  | nil => exact .nil
  | cons v bytes ih => exact .cons rfl ih

section
variable {p : Params} {d : Half} {b : Block} {c : Chan} {a : Byte}

/-- A busy poll with polls left over. -/
theorem pollReady_busy {k : Nat} {v : Byte} {polls : List Byte} {out : Except Response Unit} (hv : v.getLsbD 0 = true)
    (hk : k ≠ 0) (hpolls : polls ≠ []) (h : Follows p d b b (pollReady c a d k) (pollScript c a polls) out) :
    Follows p d b b (pollReady c a d (k + 1)) (pollScript c a (v :: polls)) out := by
  have hsc : pollScript c a (v :: polls) = [.op (.read c a (.data v))] ++ ([.pause] ++ pollScript c a polls) :=
    spaced_cons _ (by simpa [readsOf] using hpolls)
  rw [hsc]
  refine (cmdRead_follows c a v).bind ?_
  rw [if_pos (show ramBusy v = true from hv), if_neg hk]
  exact delay_follows.bind h

/-- A wait whose polls are all busy times out (R140, R141). -/
theorem pollReady_timeout {polls : List Byte} (hbusy : ∀ v ∈ polls, v.getLsbD 0 = true) :
    Follows p d b b (pollReady c a d polls.length) (pollScript c a polls) (.error ⟨.timeout, failInfo c a⟩) := by
  induction polls with
  | nil => exact raise_follows _ _
  | cons v polls ih =>
    obtain ⟨hv, hbusy⟩ := List.forall_mem_cons.1 hbusy
    cases polls with
    | nil =>
      refine (cmdRead_follows c a v).bind (sc' := []) ?_
      rw [if_pos (show ramBusy v = true from hv)]
      exact raise_follows _ _
    | cons v' polls => exact pollReady_busy hv (Nat.succ_ne_zero _) (List.cons_ne_nil _ _) (ih hbusy)

/-- A wait that sees the chip ready before its polls have run out ends (R140). -/
theorem pollReady_ready {polls : List Byte} {r : Byte} {k : Nat} (hbusy : ∀ v ∈ polls, v.getLsbD 0 = true)
    (hr : r.getLsbD 0 = false) (hk : polls.length < k) :
    Follows p d b b (pollReady c a d k) (pollScript c a (polls ++ [r])) (.ok ()) := by
  obtain ⟨k, rfl⟩ : ∃ k', k = k' + 1 := ⟨k - 1, by omega⟩
  induction polls generalizing k with
  | nil =>
    refine (cmdRead_follows c a r).bind (sc' := []) ?_
    rw [ramBusy, hr]
    exact pure_follows ()
  | cons v polls ih =>
    obtain ⟨hv, hbusy⟩ := List.forall_mem_cons.1 hbusy
    obtain ⟨k, rfl⟩ : ∃ k', k = k' + 1 := ⟨k - 1, by simp only [List.length_cons] at hk; omega⟩
    exact pollReady_busy hv (Nat.succ_ne_zero k) (by simp) (ih hbusy k (Nat.lt_of_succ_lt_succ hk))

end

section
variable {p : Params} {b : Block} {sc : List Beat} {out : Except Response Unit} {polls : List Byte} {r : Byte}

/-- A wait is the polls of its budget with its delay between them (R140). -/
theorem waitReady_follows {c : Chan}
    (h : Follows p b.ramPollDelay b b (pollReady c p.regRamstat b.ramPollDelay b.ramRetryBudget.toNat) sc out) :
    Follows p b.ramPollDelay b b (waitReady c) sc out :=
  .readS (fun _ _ hb => congrArg Block.ramRetryBudget hb) <| .readS (fun _ _ hb => congrArg Block.ramPollDelay hb) <|
    .readS (fun _ hp _ => congrArg Params.regRamstat hp) h

theorem waitReady_follows_ready (c : Chan) (h : busyPolls b.ramRetryBudget polls) (hr : r.getLsbD 0 = false) :
    Follows p b.ramPollDelay b b (waitReady c) (pollScript c p.regRamstat (polls ++ [r])) (.ok ()) := by
  obtain ⟨hlen, hbusy⟩ := h
  exact waitReady_follows (pollReady_ready hbusy hr hlen)

theorem waitReady_follows_timeout (c : Chan) (hbusy : ∀ v ∈ polls, v.getLsbD 0 = true)
    (hlen : polls.length = b.ramRetryBudget.toNat) :
    Follows p b.ramPollDelay b b (waitReady c) (pollScript c p.regRamstat polls)
      (.error ⟨.timeout, failInfo c p.regRamstat⟩) :=
  waitReady_follows (hlen ▸ pollReady_timeout hbusy)

end

/-- Settles O13: the polls of the wait as a script. -/
theorem waitReadyPollsExactlyTheBudget : Obligations.WaitReadyPollsExactlyTheBudget := by
  refine ⟨fun s c polls r rest hs hbusy hr hlen ha => ?_, fun s c polls rest hs hbusy hlen ha => ?_⟩
  · have h := (waitReady_follows_ready c ⟨hlen, hbusy⟩ hr).through hs (opsOf_pollScript .. ▸ readsOf_answeredBy ..) ha
    simpa [ending] using h
  · have h := (waitReady_follows_timeout c hbusy hlen).through hs (opsOf_pollScript .. ▸ readsOf_answeredBy ..) ha
    simpa [ending] using h

end Sys2Proof.Machine
end

