-- ==== Sys2Proof/Proofs/RamCommands.lean ====
section
/-! The scripts of RAM_WR and RAM_RD, and what comes of them when the chip answers all of a script (40_protocol_engine.md R145
to R149). -/

namespace Sys2Proof.Machine

/-! ### The scripts of the RAM commands -/

/-- Two waits with window writes between them. -/
def twoWaits (c : Chan) (a : Byte) (polls : List Byte) (window : List WireOp) (polls' : List Byte) : List Beat :=
  pollScript c a polls ++ (straight window ++ pollScript c a polls')

@[simp] theorem opsOf_twoWaits (c : Chan) (a : Byte) (polls : List Byte) (window : List WireOp) (polls' : List Byte) :
    opsOf (twoWaits c a polls window polls') = readsOf c a polls ++ window ++ readsOf c a polls' := by
  simp [twoWaits]

@[simp] theorem pausesBefore_twoWaits (c : Chan) (a : Byte) (polls : List Byte) (window : List WireOp)
    (polls' : List Byte) (k : Nat) :
    pausesBefore (twoWaits c a polls window polls') k =
      min k (polls.length - 1) + min (k - (polls.length + window.length)) (polls'.length - 1) := by
  have h : pausesBefore (pollScript c a polls') 0 = 0 := by simp
  rw [twoWaits, pausesBefore_append _ (by rw [pausesBefore_append _ h]; simp), pausesBefore_append _ h]
  simp [Nat.sub_sub]

/-- The script of a RAM_WR whose two waits see the chip ready (R145). -/
def ramWriteScript (p : Params) (c : Chan) (addr : BitVec 12) (v : Word) (b1 : List Byte) (r1 : Byte) (b2 : List Byte)
    (r2 : Byte) : List Beat :=
  twoWaits c p.regRamstat (b1 ++ [r1]) (ramWriteWindow p c addr v) (b2 ++ [r2])

/-- The script of a RAM_RD whose two waits see the chip ready (R146). -/
def ramReadScript (p : Params) (c : Chan) (addr : BitVec 12) (b1 : List Byte) (r1 : Byte) (b2 : List Byte) (r2 : Byte)
    (d3 d2 d1 d0 : Byte) : List Beat :=
  twoWaits c p.regRamstat (b1 ++ [r1]) (ramReadWindow p c addr) (b2 ++ [r2]) ++ straight (ramLaneReads p c d3 d2 d1 d0)

theorem opsOf_ramWriteScript (p : Params) (c : Chan) (addr : BitVec 12) (v : Word) (b1 : List Byte) (r1 : Byte)
    (b2 : List Byte) (r2 : Byte) :
    opsOf (ramWriteScript p c addr v b1 r1 b2 r2) = ramWriteOps p c addr v b1 r1 b2 r2 :=
  opsOf_twoWaits ..

theorem opsOf_ramReadScript (p : Params) (c : Chan) (addr : BitVec 12) (b1 : List Byte) (r1 : Byte) (b2 : List Byte)
    (r2 d3 d2 d1 d0 : Byte) :
    opsOf (ramReadScript p c addr b1 r1 b2 r2 d3 d2 d1 d0) = ramReadOps p c addr b1 r1 b2 r2 d3 d2 d1 d0 := by
  rw [ramReadScript, opsOf_append, opsOf_twoWaits, opsOf_straight]
  rfl

theorem pausesBefore_ramWriteScript (p : Params) (c : Chan) (addr : BitVec 12) (v : Word) (b1 : List Byte) (r1 : Byte)
    (b2 : List Byte) (r2 : Byte) (k : Nat) :
    pausesBefore (ramWriteScript p c addr v b1 r1 b2 r2) k =
      min k b1.length + min (k - (b1.length + 1 + 6)) b2.length := by
  simp [ramWriteScript, ramWriteWindow]

theorem pausesBefore_ramWriteScript_all (p : Params) (c : Chan) (addr : BitVec 12) (v : Word) (b1 : List Byte)
    (r1 : Byte) (b2 : List Byte) (r2 : Byte) :
    pausesBefore (ramWriteScript p c addr v b1 r1 b2 r2) (ramWriteOps p c addr v b1 r1 b2 r2).length =
      b1.length + b2.length := by
  rw [pausesBefore_ramWriteScript]
  simp only [ramWriteOps, waitOps, ramWriteWindow, List.length_append, length_readsOf, List.length_cons, List.length_nil]
  omega

theorem pausesBefore_ramReadScript (p : Params) (c : Chan) (addr : BitVec 12) (b1 : List Byte) (r1 : Byte)
    (b2 : List Byte) (r2 d3 d2 d1 d0 : Byte) (k : Nat) :
    pausesBefore (ramReadScript p c addr b1 r1 b2 r2 d3 d2 d1 d0) k =
      min k b1.length + min (k - (b1.length + 1 + 2)) b2.length := by
  rw [ramReadScript, pausesBefore_append _ (pausesBefore_straight _ 0)]
  simp [ramReadWindow]

theorem pausesBefore_ramReadScript_all (p : Params) (c : Chan) (addr : BitVec 12) (b1 : List Byte) (r1 : Byte)
    (b2 : List Byte) (r2 d3 d2 d1 d0 : Byte) :
    pausesBefore (ramReadScript p c addr b1 r1 b2 r2 d3 d2 d1 d0)
      (ramReadOps p c addr b1 r1 b2 r2 d3 d2 d1 d0).length = b1.length + b2.length := by
  rw [pausesBefore_ramReadScript]
  simp only [ramReadOps, waitOps, ramReadWindow, ramLaneReads, List.length_append, length_readsOf, List.length_cons,
    List.length_nil]
  omega

/-! ### The units of the RAM commands -/

section
variable {p : Params} {d : Half} {b b' : Block} {c : Chan} {addr : BitVec 12} {a : Byte} {polls polls' : List Byte}
  {r : Response}

/-- The block with this RamTransaction (R40). -/
def Block.withRamTx (b : Block) (tx : RamTransaction) : Block := { b with ramTx := some tx }

/-- The RamTransaction of a RAM_WR (R145). -/
def ramWriteTx (addr : BitVec 12) (v : Word) : RamTransaction := ⟨ramAddrHi addr, ramAddrLo addr, some (ramLanes v)⟩

/-- The RamTransaction of a RAM_RD (R146). -/
def ramReadTx (addr : BitVec 12) : RamTransaction := ⟨ramAddrHi addr, ramAddrLo addr, none⟩

theorem setRamTx_withBlk {s : State} (tx : RamTransaction) (h : s.blk = b) :
    s.setRamTx (some tx) = s.withBlk (b.withRamTx tx) := by
  subst h
  rfl

theorem ramWriteUnit_follows {v : Word} {out : Except Response Unit} (hb : b' = b.withRamTx (ramWriteTx addr v))
    (h1 : Follows p d b' b' (waitReady c) (pollScript c a polls) (.ok ()))
    (h2 : Follows p d b' b' (waitReady c) (pollScript c a polls') out) :
    Follows p d b b' (ramWriteUnit p c addr v) (twoWaits c a polls (ramWriteWindow p c addr v) polls') out :=
  .changeS (fun _ hs => hb ▸ setRamTx_withBlk (ramWriteTx addr v) hs) <| h1.bind <|
    (cmdWrite_follows c _ _).bind <| (cmdWrite_follows c _ _).bind <| (cmdWrite_follows c _ _).bind <|
    (cmdWrite_follows c _ _).bind <| (cmdWrite_follows c _ _).bind <| (cmdWrite_follows c _ _).bind h2

/-- A first wait that raises ends the unit before any write (R148). -/
theorem ramWriteUnit_firstWait {v : Word} (hb : b' = b.withRamTx (ramWriteTx addr v))
    (h : Follows p d b' b' (waitReady c) (pollScript c a polls) (.error r)) :
    Follows p d b b' (ramWriteUnit p c addr v) (pollScript c a polls) (.error r) :=
  .changeS (fun _ hs => hb ▸ setRamTx_withBlk (ramWriteTx addr v) hs) h.bind_error

theorem ramReadUnit_follows (hb : b' = b.withRamTx (ramReadTx addr)) (d3 d2 d1 d0 : Byte)
    (h1 : Follows p d b' b' (waitReady c) (pollScript c a polls) (.ok ()))
    (h2 : Follows p d b' b' (waitReady c) (pollScript c a polls') (.ok ())) :
    Follows p d b b' (ramReadUnit p c addr)
      (twoWaits c a polls (ramReadWindow p c addr) polls' ++ straight (ramLaneReads p c d3 d2 d1 d0))
      (.ok (ramReassemble d3 d2 d1 d0)) := by
  rw [twoWaits, List.append_assoc, List.append_assoc]
  exact .changeS (fun _ hs => hb ▸ setRamTx_withBlk (ramReadTx addr) hs) <| h1.bind <|
    (cmdWrite_follows c _ _).bind <| (cmdWrite_follows c _ _).bind <| h2.bind <|
    (cmdRead_follows c _ d3).bind <| (cmdRead_follows c _ d2).bind <| (cmdRead_follows c _ d1).bind <|
    (cmdRead_follows c _ d0).bind <| pure_follows _

theorem ramReadUnit_firstWait (hb : b' = b.withRamTx (ramReadTx addr))
    (h : Follows p d b' b' (waitReady c) (pollScript c a polls) (.error r)) :
    Follows p d b b' (ramReadUnit p c addr) (pollScript c a polls) (.error r) :=
  .changeS (fun _ hs => hb ▸ setRamTx_withBlk (ramReadTx addr) hs) h.bind_error

/-- A second wait that raises ends the unit before any lane is read (R146). -/
theorem ramReadUnit_secondWait (hb : b' = b.withRamTx (ramReadTx addr))
    (h1 : Follows p d b' b' (waitReady c) (pollScript c a polls) (.ok ()))
    (h2 : Follows p d b' b' (waitReady c) (pollScript c a polls') (.error r)) :
    Follows p d b b' (ramReadUnit p c addr) (twoWaits c a polls (ramReadWindow p c addr) polls') (.error r) :=
  .changeS (fun _ hs => hb ▸ setRamTx_withBlk (ramReadTx addr) hs) <| h1.bind <|
    (cmdWrite_follows c _ _).bind <| (cmdWrite_follows c _ _).bind h2.bind_error

end

/-! ### The RAM commands -/

section
variable {s : State} {ch : BitVec 4} {c : Chan} {addr : BitVec 12} {v : Word} {sc : List Beat} {b1 b2 : List Byte}
  {r1 r2 : Byte}

/-- The block within the unit of a quiet state's command. -/
def State.unitBlk (s : State) (i : Instr) : Block := { s.blk with cmd := some i, grant := .command }

/-- A quiet state's command that was one RAM unit leaves the block as it was. -/
theorem State.Quiet.released (hq : s.Quiet) (i : Instr) (tx : RamTransaction) :
    { (s.unitBlk i).withRamTx tx with grant := .none, ramTx := none, cmd := none } = s.blk := by
  obtain ⟨⟨hcmd, htx⟩, hg, -, -⟩ := hq
  rw [State.unitBlk, Block.withRamTx, ← hg, ← hcmd, ← htx]

/-- RAM_WR goes as its unit. -/
theorem ramWrite_performs {out : Except Response Unit} (hq : s.Quiet) (hc : activeChan s.blk.n ch = some c)
    (h : Follows s.par s.blk.ramPollDelay (s.unitBlk (.ramWr ch addr v))
      ((s.unitBlk (.ramWr ch addr v)).withRamTx (ramWriteTx addr v)) (ramWriteUnit s.par c addr v) sc out) :
    Performs s s.blk.ramPollDelay (.ramWr ch addr v) sc (responseOf (out.map fun _ => 0)) :=
  Follows.performs (body := ramWrite ch addr v) hq rfl
    (.activeChannel hc <| .readS (fun _ hp _ => hp) <|
      (atomicUnit_follows (b := { s.blk with cmd := some (.ramWr ch addr v) }) h).thenPure fun _ => 0)
    (hq.released (.ramWr ch addr v) (ramWriteTx addr v))

/-- RAM_RD goes as its unit. -/
theorem ramRead_performs {out : Except Response Word} (hq : s.Quiet) (hc : activeChan s.blk.n ch = some c)
    (h : Follows s.par s.blk.ramPollDelay (s.unitBlk (.ramRd ch addr))
      ((s.unitBlk (.ramRd ch addr)).withRamTx (ramReadTx addr)) (ramReadUnit s.par c addr) sc out) :
    Performs s s.blk.ramPollDelay (.ramRd ch addr) sc (responseOf out) :=
  Follows.performs (body := ramRead ch addr) hq rfl
    (.activeChannel hc <| .readS (fun _ hp _ => hp) <|
      atomicUnit_follows (b := { s.blk with cmd := some (.ramRd ch addr) }) h)
    (hq.released (.ramRd ch addr) (ramReadTx addr))

/-- RAM_WR where both waits see the chip ready (R145). -/
theorem ramWr_performs_ready (hq : s.Quiet) (hc : activeChan s.blk.n ch = some c)
    (h1 : busyPolls s.blk.ramRetryBudget b1) (h2 : busyPolls s.blk.ramRetryBudget b2) (e1 : r1.getLsbD 0 = false)
    (e2 : r2.getLsbD 0 = false) :
    Performs s s.blk.ramPollDelay (.ramWr ch addr v) (ramWriteScript s.par c addr v b1 r1 b2 r2) ⟨.ok, 0⟩ :=
  ramWrite_performs (out := .ok ()) hq hc <|
    ramWriteUnit_follows rfl (waitReady_follows_ready c h1 e1) (waitReady_follows_ready c h2 e2)

/-- RAM_RD where both waits see the chip ready (R146). -/
theorem ramRd_performs_ready (hq : s.Quiet) (hc : activeChan s.blk.n ch = some c)
    (h1 : busyPolls s.blk.ramRetryBudget b1) (h2 : busyPolls s.blk.ramRetryBudget b2) (e1 : r1.getLsbD 0 = false)
    (e2 : r2.getLsbD 0 = false) (d3 d2 d1 d0 : Byte) :
    Performs s s.blk.ramPollDelay (.ramRd ch addr) (ramReadScript s.par c addr b1 r1 b2 r2 d3 d2 d1 d0)
      ⟨.ok, ramReassemble d3 d2 d1 d0⟩ :=
  ramRead_performs (out := .ok _) hq hc <|
    ramReadUnit_follows rfl d3 d2 d1 d0 (waitReady_follows_ready c h1 e1) (waitReady_follows_ready c h2 e2)

end

/-! ### Values through the RAM window -/

/-- A reassembled value has 29 bits (R121). -/
theorem ramReassemble_lt (d3 d2 d1 d0 : Byte) : (ramReassemble d3 d2 d1 d0).toNat < 2 ^ 29 := by
  refine Nat.lt_pow_two_of_testBit _ fun i hi => ?_
  have lane (d : Byte) {k : Nat} (hk : 8 ≤ k) : d.getLsbD k = false := BitVec.getLsbD_of_ge d k hk
  rw [BitVec.testBit_toNat]
  simp [ramReassemble, lane d3 (k := i - 21) (by omega), lane d2 (k := i - 13) (by omega),
    lane d1 (k := i - 5) (by omega), lane d0 (k := 3 + i) (by omega)]

/-- A lane put back in its place has the bits of the value there (R121). -/
theorem lane_getLsbD (v : Word) (n i : Nat) (hi : i < 32) :
    (((v >>> n).setWidth 8).setWidth 32 <<< n).getLsbD i = (decide (n ≤ i ∧ i < n + 8) && v.getLsbD i) := by
  by_cases hn : n ≤ i
  · simp [hi, show ¬ i < n by omega, show i - n < 32 by omega, show n + (i - n) = i by omega, hn,
      show i - n < 8 ↔ i < n + 8 by omega]
  · simp [hn, show i < n by omega]

/-- The lowest lane put back in its place has the five lowest bits (R121). -/
theorem lowLane_getLsbD (v : Word) (i : Nat) :
    (((v <<< 3).setWidth 8).setWidth 32 >>> 3).getLsbD i = (decide (i < 5) && v.getLsbD i) := by
  by_cases h : i < 5
  · simp [h, show 3 + i < 32 by omega, show 3 + i < 8 by omega]
  · simp [h, show ¬ 3 + i < 8 by omega]

theorem getLsbD_mask29 : ∀ i < 32, (0x1FFFFFFF#32).getLsbD i = decide (i < 29) := by decide

/-- The lanes of a value give it back without its top three bits (R121, R149). -/
theorem ramReassemble_ramLanes (v : Word) :
    ramReassemble (ramLanes v)[3] (ramLanes v)[2] (ramLanes v)[1] (ramLanes v)[0] = v &&& 0x1FFFFFFF#32 := by
  refine BitVec.eq_of_getLsbD_eq fun i hi => ?_
  have hlanes : ramReassemble (ramLanes v)[3] (ramLanes v)[2] (ramLanes v)[1] (ramLanes v)[0] =
      ((v >>> 21).setWidth 8).setWidth 32 <<< 21 ||| ((v >>> 13).setWidth 8).setWidth 32 <<< 13 |||
        ((v >>> 5).setWidth 8).setWidth 32 <<< 5 ||| ((v <<< 3).setWidth 8).setWidth 32 >>> 3 := rfl
  rw [hlanes, BitVec.getLsbD_and, getLsbD_mask29 i hi]
  simp only [BitVec.getLsbD_or, lane_getLsbD v _ i hi, lowLane_getLsbD]
  cases v.getLsbD i with
  | false => simp
  | true =>
    simp only [Bool.and_true, Bool.true_and, ← Bool.decide_or, decide_eq_decide]
    omega

/-- The address bytes depend on the low eleven bits of the address (R120). -/
theorem ramAddr_eq {addr addr' : BitVec 12} (h : addr'.setWidth 11 = addr.setWidth 11) :
    ramAddrHi addr' = ramAddrHi addr ∧ ramAddrLo addr' = ramAddrLo addr := by
  have hbit (i : Nat) (hi : i < 11) : addr'.getLsbD i = addr.getLsbD i := by
    simpa [hi] using congrArg (·.getLsbD i) h
  constructor
  · refine BitVec.eq_of_getLsbD_eq fun i hi => ?_
    simp [ramAddrHi, hbit (3 + i) (by omega)]
  · refine BitVec.eq_of_getLsbD_eq fun i hi => ?_
    simp [ramAddrLo, hbit i (by omega)]

/-! ### The obligations -/

/-- Settles O10: the script of RAM_WR, all of it answered. -/
theorem ramWrSendsLanesThenAddressLow : Obligations.RamWrSendsLanesThenAddressLow := by
  intro s ch c addr v b1 b2 r1 r2 as rest hq hc h1 h2 e1 e2 has ha
  have h := (ramWr_performs_ready (addr := addr) (v := v) hq hc h1 h2 e1 e2).through
    (by rwa [opsOf_ramWriteScript]) ha
  rwa [opsOf_ramWriteScript, pausesBefore_ramWriteScript_all] at h

/-- RAM_RD with its script all answered. -/
theorem ramRd_ready {s : State} {ch : BitVec 4} {c : Chan} {addr : BitVec 12} {b1 b2 : List Byte}
    {r1 r2 d3 d2 d1 d0 : Byte} {as rest : List Answer} (hq : s.Quiet) (hc : activeChan s.blk.n ch = some c)
    (h1 : busyPolls s.blk.ramRetryBudget b1) (h2 : busyPolls s.blk.ramRetryBudget b2) (e1 : r1.getLsbD 0 = false)
    (e2 : r2.getLsbD 0 = false)
    (has : List.Forall₂ WireOp.answeredBy (ramReadOps s.par c addr b1 r1 b2 r2 d3 d2 d1 d0) as)
    (ha : s.env.answers = as ++ rest) :
    exec (.ramRd ch addr) s =
      .next (((s.afterOps (ramReadOps s.par c addr b1 r1 b2 r2 d3 d2 d1 d0) rest).advance
        (pauses (b1.length + b2.length) s.blk.ramPollDelay)).present ⟨.ok, ramReassemble d3 d2 d1 d0⟩) := by
  have h := (ramRd_performs_ready (addr := addr) hq hc h1 h2 e1 e2 d3 d2 d1 d0).through
    (by rwa [opsOf_ramReadScript]) ha
  rwa [opsOf_ramReadScript, pausesBefore_ramReadScript_all] at h

/-- Settles O11: the script of RAM_RD, all of it answered. -/
theorem ramRdReadsLanesDescending : Obligations.RamRdReadsLanesDescending :=
  fun _ _ _ _ _ _ _ _ d3 d2 d1 d0 _ _ hq hc h1 h2 e1 e2 has ha =>
    ⟨ramRd_ready hq hc h1 h2 e1 e2 has ha, ramReassemble_lt d3 d2 d1 d0⟩

/-- Settles O15: the other address sends the same bytes, and the lanes give the value back. -/
theorem ramRoundTripReturnsTheValue : Obligations.RamRoundTripReturnsTheValue := by
  intro s ch c addr addr' v b1 b2 r1 r2 as rest ops haddr hq hc h1 h2 e1 e2 has ha
  obtain ⟨hhi, hlo⟩ := ramAddr_eq haddr
  have hops : ramReadOps s.par c addr' b1 r1 b2 r2 (ramLanes v)[3] (ramLanes v)[2] (ramLanes v)[1] (ramLanes v)[0] =
      ops := by
    simp only [ops, ramReadOps, ramReadWindow, hhi, hlo]
  have h := ramRd_ready hq hc h1 h2 e1 e2 (hops ▸ has) ha
  rwa [hops, ramReassemble_ramLanes] at h

/-- A command that is the polls of one wait, all answered. -/
theorem Performs.polls {s : State} {d : Half} {i : Instr} {c : Chan} {a : Byte} {polls : List Byte} {r : Response}
    {rest : List Answer} (h : Performs s d i (pollScript c a polls) r) (ha : s.env.answers = answering polls ++ rest) :
    exec i s = .next (((s.afterOps (readsOf c a polls) rest).advance (pauses (polls.length - 1) d)).present r) := by
  simpa using h.through (opsOf_pollScript .. ▸ readsOf_answeredBy ..) ha

/-- A command that ends with its second wait, all answered. -/
theorem Performs.waits {s : State} {d : Half} {i : Instr} {c : Chan} {a : Byte} {polls polls' : List Byte}
    {window : List WireOp} {r : Response} {as rest : List Answer} (h : Performs s d i (twoWaits c a polls window polls') r)
    (has : List.Forall₂ WireOp.answeredBy (readsOf c a polls ++ window) as)
    (ha : s.env.answers = as ++ answering polls' ++ rest) :
    exec i s = .next (((s.afterOps (readsOf c a polls ++ window ++ readsOf c a polls') rest).advance
      (pauses (polls.length - 1 + (polls'.length - 1)) d)).present r) := by
  have hgo := h.through (opsOf_twoWaits .. ▸ List.rel_append has (readsOf_answeredBy ..)) ha
  have hall : pausesBefore (twoWaits c a polls window polls')
      (readsOf c a polls ++ window ++ readsOf c a polls').length = polls.length - 1 + (polls'.length - 1) := by
    simp only [pausesBefore_twoWaits, List.length_append, length_readsOf]
    omega
  rwa [opsOf_twoWaits, hall] at hgo

/-- Settles O14: the polls of the first wait alone, or the script up to the end of the second. -/
theorem ramCommandsTimeOut : Obligations.RamCommandsTimeOut := by
  refine ⟨fun s ch c addr v polls rest hq hc hbusy hlen ha => ?_,
    fun s ch c addr v b1 r1 polls hq hc h1 e1 hbusy hlen => ?_⟩
  · refine List.forall_mem_cons.2 ⟨?_, List.forall_mem_singleton.2 ?_⟩
    · exact (ramRead_performs hq hc (ramReadUnit_firstWait rfl (waitReady_follows_timeout c hbusy hlen))).polls ha
    · exact (ramWrite_performs hq hc (ramWriteUnit_firstWait rfl (waitReady_follows_timeout c hbusy hlen))).polls ha
  · have hlen1 : (b1 ++ [r1]).length - 1 = b1.length := by simp
    refine List.forall_mem_cons.2 ⟨fun as rest has ha => ?_, List.forall_mem_singleton.2 fun as rest has ha => ?_⟩
    · exact hlen1 ▸ (ramWrite_performs hq hc (ramWriteUnit_follows rfl (waitReady_follows_ready c h1 e1)
        (waitReady_follows_timeout c hbusy hlen))).waits has ha
    · exact hlen1 ▸ (ramRead_performs hq hc (ramReadUnit_secondWait rfl (waitReady_follows_ready c h1 e1)
        (waitReady_follows_timeout c hbusy hlen))).waits has ha

end Sys2Proof.Machine
end

