-- ==== Sys2Proof/Proofs/CalibrationScript.lean ====
section
/-! CAL as a script: the seed writes and then the iterations with a delay between two (41_calibration.md R171 to R175). -/

namespace Sys2Proof.Machine

section
variable {p : Params} {d : Half} {b : Block}

/-- An operation that is an atomic unit of its own leaves the grant free again (R80). -/
theorem atomicOp_follows {α : Type} {x : Run α} {sc : List Beat} {out : Except Response α} (hg : b.grant = .none)
    (h : ∀ b', Follows p d b' b' x sc out) : Follows p d b b (atomicUnit x) sc out := by
  have hb : b = { ({ b with grant := .command } : Block) with grant := .none } := by rw [← hg]
  have hx := atomicUnit_follows (h { b with grant := .command })
  rwa [← hb] at hx

theorem writeSeeds_follows (hg : b.grant = .none) (c : Chan) (base : Byte) (seeds : Word) (l : List Nat) :
    Follows p d b b (writeSeeds c base seeds l)
      (straight (l.map fun i => .write c (calReg base i) (seedByte seeds i) .done)) (.ok ()) := by
  induction l with
  | nil => exact pure_follows ()
  | cons i l ih => exact (atomicOp_follows hg fun _ => cmdWrite_follows c _ _).bind ih

theorem writeAllSeeds_follows (hg : b.grant = .none) (seeds : Word) (chans : List Chan) :
    Follows p d b b (writeAllSeeds p.regCalBase seeds chans) (straight (seedOps p seeds chans)) (.ok ()) := by
  induction chans with
  | nil => exact pure_follows ()
  | cons c chans ih =>
    rw [seedOps, List.flatMap_cons, straight_append]
    exact (writeSeeds_follows hg c _ seeds [0, 1, 2, 3]).bind ih

theorem firstBusyOf_cons (c : Chan) (v : Byte) (chans : List Chan) (bytes : List Byte) :
    firstBusyOf (c :: chans) (v :: bytes) = if calBusy v then some c else firstBusyOf chans bytes := by
  rw [firstBusyOf, List.zip_cons_cons, List.find?_cons]
  cases calBusy v <;> rfl

/-- One iteration reads every channel and remembers the first busy one (R173). -/
theorem scanCal_follows (hg : b.grant = .none) {chans : List Chan} {bytes : List Byte}
    (hlen : bytes.length = chans.length) (first : Option Chan) :
    Follows p d b b (scanCal p.regCalStatus chans first) (straight (scanOps p chans bytes))
      (.ok (first.or (firstBusyOf chans bytes))) := by
  induction chans generalizing bytes first with
  | nil => exact Option.or_none ▸ pure_follows first
  | cons c chans ih =>
    cases bytes with
    | nil => cases hlen
    | cons v bytes =>
      have hfirst : first.or (firstBusyOf (c :: chans) (v :: bytes)) =
          (if calBusy v && first.isNone then some c else first).or (firstBusyOf chans bytes) := by
        rw [firstBusyOf_cons]
        cases first <;> cases calBusy v <;> rfl
      rw [hfirst]
      exact (atomicOp_follows hg fun _ => cmdRead_follows c _ v).bind (ih (Nat.succ.inj hlen) _)

/-- A busy iteration with iterations left over. -/
theorem pollCal_busy (hg : b.grant = .none) {chans : List Chan} {bytes : List Byte} {c : Chan}
    (hlen : bytes.length = chans.length) (hc : firstBusyOf chans bytes = some c) {k : Nat} (hk : k ≠ 0)
    {scans : List (List Byte)} (hscans : scans ≠ []) (first : Option Chan) {out : Except Response Unit}
    (h : Follows p d b b (pollCal p.regCalStatus d chans k (some c)) (spaced (scans.map (scanOps p chans))) out) :
    Follows p d b b (pollCal p.regCalStatus d chans (k + 1) first)
      (spaced ((bytes :: scans).map (scanOps p chans))) out := by
  rw [List.map_cons, spaced_cons _ (by simpa using hscans)]
  refine (scanCal_follows hg hlen none).bind ?_
  rw [Option.none_or, hc]
  dsimp only
  rw [if_neg hk]
  exact delay_follows.bind (sc := [.pause]) h

/-- Iterations that each see a busy channel time out, naming the first busy one of the last (R173, R175). -/
theorem pollCal_timeout (hg : b.grant = .none) {chans : List Chan} {scans : List (List Byte)}
    (hscans : ∀ bytes ∈ scans, bytes.length = chans.length ∧ (firstBusyOf chans bytes).isSome) (first : Option Chan) :
    Follows p d b b (pollCal p.regCalStatus d chans scans.length first) (spaced (scans.map (scanOps p chans)))
      (.error ⟨.timeout, calTimeoutInfo p.regCalStatus (scans.getLast?.elim first (firstBusyOf chans))⟩) := by
  induction scans generalizing first with
  | nil => exact raise_follows _ _
  | cons bytes scans ih =>
    obtain ⟨⟨hlen, hbusy⟩, hscans⟩ := List.forall_mem_cons.1 hscans
    obtain ⟨c, hc⟩ := Option.isSome_iff_exists.1 hbusy
    cases scans with
    | nil =>
      have hraise : Follows p d b b (pollCal p.regCalStatus d chans 0 (some c)) []
          (.error ⟨.timeout, calTimeoutInfo p.regCalStatus (some c)⟩) := raise_follows _ _
      rw [List.map_singleton, spaced, ← List.append_nil (straight _)]
      refine (scanCal_follows hg hlen none).bind ?_
      rw [Option.none_or, hc]
      simpa [hc] using hraise
    | cons bytes' scans =>
      exact pollCal_busy hg hlen hc (Nat.succ_ne_zero _) (List.cons_ne_nil _ _) first (ih hscans (some c))

end

/-- A busy status byte makes its channel, or one before it, the first busy one. -/
theorem firstBusyOf_isSome {chans : List Chan} {bytes : List Byte} (hlen : bytes.length = chans.length)
    (h : ∃ v ∈ bytes, v.getLsbD 7 = true) : (firstBusyOf chans bytes).isSome := by
  induction chans generalizing bytes with
  | nil =>
    obtain ⟨v, hv, -⟩ := h
    simp [List.length_eq_zero_iff.1 hlen] at hv
  | cons c chans ih =>
    cases bytes with
    | nil => cases hlen
    | cons v bytes =>
      rw [firstBusyOf_cons]
      split
      · rfl
      · next hv =>
        obtain ⟨w, hw, hbusy⟩ := h
        obtain rfl | hw := List.mem_cons.1 hw
        · exact absurd hbusy hv
        · exact ih (Nat.succ.inj hlen) ⟨w, hw, hbusy⟩

theorem channelsBelow_length : ∀ n : Fin 3, (channelsBelow n).length = n.val := by decide

/-- The script of a CAL with these iterations. -/
def calScript (p : Params) (seeds : Word) (chans : List Chan) (scans : List (List Byte)) : List Beat :=
  straight (seedOps p seeds chans) ++ spaced (scans.map (scanOps p chans))

theorem opsOf_calScript (p : Params) (seeds : Word) (chans : List Chan) (scans : List (List Byte)) :
    opsOf (calScript p seeds chans scans) = seedOps p seeds chans ++ scans.flatMap (scanOps p chans) := by
  rw [calScript, opsOf_append, opsOf_straight, opsOf_spaced, List.flatMap_def]

theorem seedOps_length (p : Params) (seeds : Word) (chans : List Chan) :
    (seedOps p seeds chans).length = 4 * chans.length := by
  induction chans with
  | nil => rfl
  | cons c chans ih =>
    rw [seedOps, List.flatMap_cons, List.length_append]
    change 4 + (seedOps p seeds chans).length = _
    rw [ih, List.length_cons]
    omega

/-- Four seed writes for each channel, and then a delay after every iteration but the last (R173). -/
theorem pausesBefore_calScript (p : Params) (seeds : Word) {chans : List Chan} (hne : 0 < chans.length)
    {scans : List (List Byte)} (hscans : ∀ bytes ∈ scans, bytes.length = chans.length) (k : Nat) :
    pausesBefore (calScript p seeds chans scans) k =
      min ((k - 4 * chans.length) / chans.length) (scans.length - 1) := by
  have hgroups : ∀ g ∈ scans.map (scanOps p chans), g.length = chans.length := by
    simpa [scanOps] using fun bytes hb => (hscans bytes hb).ge
  rw [calScript, pausesBefore_append _ (by rw [pausesBefore_spaced hne hgroups]; simp), pausesBefore_straight,
    pausesBefore_spaced hne hgroups]
  simp [seedOps_length]

/-- CAL where every iteration up to its limit sees a busy channel (R173, R175). -/
theorem calibrate_follows_timeout {p : Params} {b : Block} (hg : b.grant = .none) (seeds : Word) {scans : List (List Byte)}
    (hscans : ∀ bytes ∈ scans, bytes.length = b.n.val ∧ ∃ v ∈ bytes, v.getLsbD 7 = true)
    (hlen : scans.length = 5 * b.calRetryBudget.toNat) :
    Follows p b.calPollDelay b b (calibrate 4 seeds) (calScript p seeds (channelsBelow b.n) scans)
      (.error ⟨.timeout, calTimeoutInfo p.regCalStatus (scans.getLast?.elim none (firstBusyOf (channelsBelow b.n)))⟩) := by
  have hbusy : ∀ bytes ∈ scans, bytes.length = (channelsBelow b.n).length ∧
      (firstBusyOf (channelsBelow b.n) bytes).isSome := fun bytes hb => by
    obtain ⟨hl, hv⟩ := hscans bytes hb
    have hl' := hl.trans (channelsBelow_length b.n).symm
    exact ⟨hl', firstBusyOf_isSome hl' hv⟩
  have hpoll := pollCal_timeout (p := p) (d := b.calPollDelay) hg hbusy none
  rw [hlen] at hpoll
  refine (require_follows (by decide) _).bind (sc := []) <| .readS (fun _ hp _ => hp) <|
    .readS (fun _ _ hb => congrArg Block.n hb) ?_
  refine (writeAllSeeds_follows hg seeds _).bind ?_
  exact .readS (fun _ _ hb => congrArg Block.calRetryBudget hb) <|
    .readS (fun _ _ hb => congrArg Block.calPollDelay hb) hpoll.bind_error

/-- The command CAL in a quiet state goes so. -/
theorem cal_performs_timeout {s : State} (hq : s.Quiet) (seeds : Word) {scans : List (List Byte)}
    (hscans : ∀ bytes ∈ scans, bytes.length = s.blk.n.val ∧ ∃ v ∈ bytes, v.getLsbD 7 = true)
    (hlen : scans.length = 5 * s.blk.calRetryBudget.toNat) :
    Performs s s.blk.calPollDelay (.cal 4 seeds) (calScript s.par seeds (channelsBelow s.blk.n) scans)
      ⟨.timeout, calTimeoutInfo s.par.regCalStatus (scans.getLast?.elim none (firstBusyOf (channelsBelow s.blk.n)))⟩ := by
  have ⟨⟨hcmd, htx⟩, hg, _, _⟩ := hq
  exact Follows.performs hq rfl
    (calibrate_follows_timeout (b := { s.blk with cmd := some (.cal 4 seeds) }) hg seeds hscans hlen)
    (by rw [← hcmd, ← htx])

end Sys2Proof.Machine
end

