-- ==== Sys2Proof/Proofs/FirstFailure.lean ====
section
/-! A RAM command or a CAL whose k-th operation fails ends there (R145, R146, R147, R173, R176, R320). -/

namespace Sys2Proof.Machine

/-! ### The RAM commands -/

theorem readsOf_chan (c : Chan) (a : Byte) (bytes : List Byte) : ∀ w ∈ readsOf c a bytes, w.chan = c := by
  simp [readsOf, WireOp.chan]

theorem ramWriteOps_chan (p : Params) (c : Chan) (addr : BitVec 12) (v : Word) (b1 : List Byte) (r1 : Byte)
    (b2 : List Byte) (r2 : Byte) : ∀ w ∈ ramWriteOps p c addr v b1 r1 b2 r2, w.chan = c := by
  simp only [ramWriteOps, waitOps, List.forall_mem_append]
  exact ⟨⟨readsOf_chan c _ _, by simp [ramWriteWindow, WireOp.chan]⟩, readsOf_chan c _ _⟩

theorem ramReadOps_chan (p : Params) (c : Chan) (addr : BitVec 12) (b1 : List Byte) (r1 : Byte) (b2 : List Byte)
    (r2 d3 d2 d1 d0 : Byte) : ∀ w ∈ ramReadOps p c addr b1 r1 b2 r2 d3 d2 d1 d0, w.chan = c := by
  simp only [ramReadOps, waitOps, List.forall_mem_append]
  exact ⟨⟨⟨readsOf_chan c _ _, by simp [ramReadWindow, WireOp.chan]⟩, readsOf_chan c _ _⟩,
    by simp [ramLaneReads, WireOp.chan]⟩

/-! ### CAL -/

theorem scanOps_length (p : Params) {chans : List Chan} {bytes : List Byte} (h : bytes.length = chans.length) :
    (scanOps p chans bytes).length = chans.length := by
  rw [scanOps, List.length_zipWith, h, Nat.min_self]

theorem calOps_length (p : Params) (seeds : Word) {chans : List Chan} {scans : List (List Byte)}
    (h : ∀ bytes ∈ scans, bytes.length = chans.length) :
    (seedOps p seeds chans ++ scans.flatMap (scanOps p chans)).length = 4 * chans.length + chans.length * scans.length := by
  rw [List.length_append, seedOps_length]
  congr 1
  induction scans with
  | nil => rfl
  | cons bytes scans ih =>
    obtain ⟨hb, hscans⟩ := List.forall_mem_cons.1 h
    rw [List.flatMap_cons, List.length_append, scanOps_length p hb, ih hscans, List.length_cons, Nat.mul_succ, Nat.add_comm]

/-- The k-th operation comes in one of the m iterations: none but the last of them has no delay after it. -/
theorem iteration_le {n m k limit : Nat} (hn : 0 < n) (hk : k < 4 * n + n * m) (hm : m ≤ limit) :
    (k - 4 * n) / n ≤ limit - 1 := by
  rcases Nat.eq_zero_or_pos m with rfl | hpos
  · have h0 : k - 4 * n = 0 := by omega
    simp [h0]
  · have hm0 : 0 < n * m := Nat.mul_pos hn hpos
    have hlt : (k - 4 * n) / n < m := Nat.div_lt_of_lt_mul (by omega)
    omega

/-- Iterations in which every channel is busy, after those given: as many in all as CAL may make. -/
def fillScans (n limit : Nat) (scans : List (List Byte)) : List (List Byte) :=
  scans ++ List.replicate (limit - scans.length) (List.replicate n 0x80)

theorem fillScans_length {n limit : Nat} {scans : List (List Byte)} (h : scans.length ≤ limit) :
    (fillScans n limit scans).length = limit := by
  simp [fillScans, h]

theorem fillScans_busy {n limit : Nat} (hn : 0 < n) {scans : List (List Byte)}
    (h : ∀ bytes ∈ scans, bytes.length = n ∧ ∃ v ∈ bytes, v.getLsbD 7 = true) :
    ∀ bytes ∈ fillScans n limit scans, bytes.length = n ∧ ∃ v ∈ bytes, v.getLsbD 7 = true := by
  rw [fillScans, List.forall_mem_append]
  refine ⟨h, fun bytes hb => ?_⟩
  rw [List.eq_of_mem_replicate hb]
  exact ⟨List.length_replicate, 0x80, List.mem_replicate.2 ⟨hn.ne', rfl⟩, rfl⟩

/-- An operation of the iterations given comes before all those that fill them up. -/
theorem opsOf_calScript_fillScans (p : Params) (seeds : Word) (chans : List Chan) (n limit : Nat)
    (scans : List (List Byte)) : ∃ more, opsOf (calScript p seeds chans (fillScans n limit scans)) =
      seedOps p seeds chans ++ scans.flatMap (scanOps p chans) ++ more := by
  rw [opsOf_calScript, fillScans, List.flatMap_append, ← List.append_assoc]
  exact ⟨_, rfl⟩

/-- Without a channel CAL issues nothing. -/
theorem calOps_no_channel (p : Params) (seeds : Word) (scans : List (List Byte)) :
    seedOps p seeds [] ++ scans.flatMap (scanOps p []) = [] := by
  simp [seedOps, scanOps]

/-- A CAL whose k-th operation fails: its iterations are filled up to the limit, and the k-th operation is not reached by
that. -/
theorem cal_first_failure {s : State} (hq : s.Quiet) {seeds : Word} {scans : List (List Byte)} {k : Nat} {op : WireOp}
    {as rest : List Answer} (hscans : ∀ b ∈ scans, b.length = s.blk.n.val ∧ ∃ v ∈ b, v.getLsbD 7 = true)
    (hlimit : scans.length ≤ 5 * s.blk.calRetryBudget.toNat) {ops : List WireOp}
    (hops : ops = seedOps s.par seeds (channelsBelow s.blk.n) ++ scans.flatMap (scanOps s.par (channelsBelow s.blk.n)))
    (hk : ops[k]? = some op) (has : List.Forall₂ WireOp.answeredBy (ops.take k) as)
    (ha : s.env.answers = as ++ .fail :: rest) :
    exec (.cal 4 seeds) s =
      .next (((s.afterOps (ops.take k ++ [op.fails]) rest).advance
        (pauses ((k - 4 * s.blk.n.val) / s.blk.n.val) s.blk.calPollDelay)).present
          ⟨.commError, failInfo op.chan op.reg⟩) := by
  have hchans := channelsBelow_length s.blk.n
  have hpos : 0 < s.blk.n.val := by
    refine Nat.pos_of_ne_zero fun h0 => ?_
    rw [hops, List.length_eq_zero_iff.1 (hchans.trans h0), calOps_no_channel] at hk
    cases hk
  obtain ⟨hklt, -⟩ := List.getElem?_eq_some_iff.1 hk
  obtain ⟨more, hmore⟩ := opsOf_calScript_fillScans s.par seeds (channelsBelow s.blk.n) s.blk.n.val
    (5 * s.blk.calRetryBudget.toNat) scans
  rw [← hops] at hmore
  have hfill := fillScans_busy (limit := 5 * s.blk.calRetryBudget.toNat) hpos hscans
  have htake : (ops ++ more).take k = ops.take k := List.take_append_of_le_length hklt.le
  have hgo := (cal_performs_timeout hq seeds hfill (fillScans_length hlimit)).failing (k := k) (w := op)
    (by rw [hmore, List.getElem?_append_left hklt, hk]) (by rwa [hmore, htake]) ha
  have hlen : ops.length = 4 * s.blk.n.val + s.blk.n.val * scans.length := by
    rw [hops, calOps_length s.par seeds fun b hb => (hscans b hb).1.trans hchans.symm, hchans]
  have hpauses : pausesBefore (calScript s.par seeds (channelsBelow s.blk.n)
      (fillScans s.blk.n.val (5 * s.blk.calRetryBudget.toNat) scans)) k = (k - 4 * s.blk.n.val) / s.blk.n.val := by
    rw [pausesBefore_calScript s.par seeds (hchans ▸ hpos) (fun b hb => (hfill b hb).1.trans hchans.symm) k,
      fillScans_length hlimit, hchans]
    exact Nat.min_eq_left (iteration_le hpos (hlen ▸ hklt) hlimit)
  rwa [hmore, htake, hpauses] at hgo

/-- Settles O12: the failing operation of each script. -/
theorem ramAndCalCommandsStopAtTheFirstFailure : Obligations.RamAndCalCommandsStopAtTheFirstFailure := by
  refine ⟨fun s ch c addr i b1 b2 window ops k op as rest hq hc h1 h2 hi hk has ha => ?_,
    fun s seeds scans k op as rest hq hscans hlimit hk has ha =>
      cal_first_failure hq hscans hlimit rfl hk has ha⟩
  obtain ⟨v, r1, r2, e1, e2, rfl, rfl, rfl⟩ | ⟨r1, r2, d3, d2, d1, d0, e1, e2, rfl, rfl, rfl⟩ := hi
  · have hgo := (ramWr_performs_ready (addr := addr) (v := v) hq hc h1 h2 e1 e2).failing
      (by rwa [opsOf_ramWriteScript]) (by rwa [opsOf_ramWriteScript]) ha
    rwa [opsOf_ramWriteScript, pausesBefore_ramWriteScript, ramWriteOps_chan _ _ _ _ _ _ _ _ op (List.mem_of_getElem? hk)]
      at hgo
  · have hgo := (ramRd_performs_ready (addr := addr) hq hc h1 h2 e1 e2 d3 d2 d1 d0).failing
      (by rwa [opsOf_ramReadScript]) (by rwa [opsOf_ramReadScript]) ha
    rwa [opsOf_ramReadScript, pausesBefore_ramReadScript,
      ramReadOps_chan _ _ _ _ _ _ _ _ _ _ _ op (List.mem_of_getElem? hk)] at hgo

end Sys2Proof.Machine
end

