-- ==== Sys2Proof/Proofs/CalibrationOutcomes.lean ====
section
/-! CAL when the chip answers every operation: it succeeds at the first clear iteration or times out after its limit
(41_calibration.md R171 to R175). -/

namespace Sys2Proof.Machine

/-! ### A CAL that sees every channel clear -/

/-- An iteration whose status bytes are all clear has no busy channel (R123). -/
theorem firstBusyOf_eq_none {chans : List Chan} {bytes : List Byte} (h : ∀ v ∈ bytes, v.getLsbD 7 = false) :
    firstBusyOf chans bytes = none := by
  rw [firstBusyOf, Option.map_eq_none_iff, List.find?_eq_none]
  intro x hx
  exact Bool.eq_false_iff.1 (h x.2 (List.of_mem_zip hx).2)

section
variable {p : Params} {d : Half} {b : Block}

/-- Busy iterations and then a clear one, before the iterations have run out, succeed (R173). -/
theorem pollCal_ready (hg : b.grant = .none) {chans : List Chan} {scans : List (List Byte)} {last : List Byte}
    (hscans : ∀ bytes ∈ scans, bytes.length = chans.length ∧ (firstBusyOf chans bytes).isSome)
    (hlen : last.length = chans.length) (hlast : firstBusyOf chans last = none) {k : Nat} (hk : scans.length < k)
    (first : Option Chan) :
    Follows p d b b (pollCal p.regCalStatus d chans k first) (spaced ((scans ++ [last]).map (scanOps p chans)))
      (.ok ()) := by
  obtain ⟨k, rfl⟩ := Nat.exists_eq_add_one_of_ne_zero (Nat.ne_zero_of_lt hk)
  induction scans generalizing k first with
  | nil =>
    rw [List.nil_append, List.map_singleton, spaced, ← List.append_nil (straight _)]
    refine (scanCal_follows hg hlen none).bind ?_
    rw [Option.none_or, hlast]
    exact pure_follows ()
  | cons bytes scans ih =>
    obtain ⟨⟨hbytes, hbusy⟩, hscans⟩ := List.forall_mem_cons.1 hscans
    obtain ⟨c, hc⟩ := Option.isSome_iff_exists.1 hbusy
    have hk := Nat.lt_of_succ_lt_succ hk
    obtain ⟨k, rfl⟩ := Nat.exists_eq_add_one_of_ne_zero (Nat.ne_zero_of_lt hk)
    exact pollCal_busy hg hbytes hc (Nat.succ_ne_zero k) (by simp) first (ih hscans (some c) k hk)

/-- CAL where an iteration before its limit sees every channel clear (R173). -/
theorem calibrate_follows_ready (hg : b.grant = .none) (seeds : Word) {scans : List (List Byte)} {last : List Byte}
    (hscans : ∀ bytes ∈ scans, bytes.length = b.n.val ∧ ∃ v ∈ bytes, v.getLsbD 7 = true)
    (hlen : last.length = b.n.val) (hlast : ∀ v ∈ last, v.getLsbD 7 = false)
    (hlimit : scans.length < 5 * b.calRetryBudget.toNat) :
    Follows p b.calPollDelay b b (calibrate 4 seeds) (calScript p seeds (channelsBelow b.n) (scans ++ [last])) (.ok 0) := by
  have hn := channelsBelow_length b.n
  have hbusy : ∀ bytes ∈ scans, bytes.length = (channelsBelow b.n).length ∧
      (firstBusyOf (channelsBelow b.n) bytes).isSome := fun bytes hb => by
    obtain ⟨hl, hv⟩ := hscans bytes hb
    exact ⟨hl.trans hn.symm, firstBusyOf_isSome (hl.trans hn.symm) hv⟩
  have hpoll := pollCal_ready (p := p) (d := b.calPollDelay) hg hbusy (hlen.trans hn.symm) (firstBusyOf_eq_none hlast)
    hlimit none
  refine (require_follows (by decide) _).bind (sc := []) <| .readS (fun _ hp _ => hp) <|
    .readS (fun _ _ hb => congrArg Block.n hb) ?_
  refine (writeAllSeeds_follows hg seeds _).bind ?_
  exact .readS (fun _ _ hb => congrArg Block.calRetryBudget hb) <|
    .readS (fun _ _ hb => congrArg Block.calPollDelay hb) (hpoll.thenPure fun _ => 0)

end

/-- The command CAL in a quiet state goes so. -/
theorem cal_performs_ready {s : State} (hq : s.Quiet) (seeds : Word) {scans : List (List Byte)} {last : List Byte}
    (hscans : ∀ bytes ∈ scans, bytes.length = s.blk.n.val ∧ ∃ v ∈ bytes, v.getLsbD 7 = true)
    (hlen : last.length = s.blk.n.val) (hlast : ∀ v ∈ last, v.getLsbD 7 = false)
    (hlimit : scans.length < 5 * s.blk.calRetryBudget.toNat) :
    Performs s s.blk.calPollDelay (.cal 4 seeds) (calScript s.par seeds (channelsBelow s.blk.n) (scans ++ [last]))
      ⟨.ok, 0⟩ := by
  have ⟨⟨hcmd, htx⟩, hg, _, _⟩ := hq
  exact Follows.performs hq rfl
    (calibrate_follows_ready (b := { s.blk with cmd := some (.cal 4 seeds) }) hg seeds hscans hlen hlast hlimit)
    (by rw [← hcmd, ← htx])

/-! ### A CAL all of whose operations the chip answers -/

/-- No delay stands among the operations before a script. -/
theorem pausesBefore_straight_append (ops : List WireOp) (sc : List Beat) (k : Nat) :
    pausesBefore (straight ops ++ sc) (ops.length + k) = pausesBefore sc k := by
  induction ops with
  | nil => exact congrArg (pausesBefore sc) (Nat.zero_add k)
  | cons w ops ih =>
    rw [List.length_cons, Nat.succ_add]
    exact ih

/-- All the delays of spaced groups: one between two groups, whatever the groups hold. -/
theorem pausesBefore_spaced_all (gs : List (List WireOp)) :
    pausesBefore (spaced gs) gs.flatten.length = gs.length - 1 := by
  induction gs with
  | nil => rfl
  | cons g gs ih =>
    cases gs with
    | nil => exact pausesBefore_straight g _
    | cons g' gs =>
      rw [spaced_cons g (List.cons_ne_nil g' gs), List.flatten_cons, List.length_append, pausesBefore_straight_append,
        pausesBefore, ih]
      rfl

/-- CAL makes a delay after every iteration but the last, for any number of channels (R173). -/
theorem pausesBefore_calScript_all (p : Params) (seeds : Word) (chans : List Chan) (scans : List (List Byte)) :
    pausesBefore (calScript p seeds chans scans) (opsOf (calScript p seeds chans scans)).length = scans.length - 1 := by
  rw [calScript, opsOf_append, opsOf_straight, opsOf_spaced, List.length_append, pausesBefore_straight_append,
    pausesBefore_spaced_all, List.length_map]

/-- A seed write completes whatever byte answers it. -/
theorem seedOps_answeredBy (p : Params) (seeds : Word) {chans : List Chan} {acks : List Byte}
    (h : acks.length = 4 * chans.length) :
    List.Forall₂ WireOp.answeredBy (seedOps p seeds chans) (answering acks) := by
  refine List.forall₂_iff_zip.2 ⟨by rw [seedOps_length, answering, List.length_map, h], fun {w a} hwa => ?_⟩
  obtain ⟨hw, ha⟩ := List.of_mem_zip hwa
  obtain ⟨c, -, hw⟩ := List.mem_flatMap.1 hw
  obtain ⟨i, -, rfl⟩ := List.mem_map.1 hw
  obtain ⟨ack, -, rfl⟩ := List.mem_map.1 ha
  exact ⟨ack, rfl⟩

theorem scanOps_answeredBy (p : Params) {chans : List Chan} {bytes : List Byte} (h : bytes.length = chans.length) :
    List.Forall₂ WireOp.answeredBy (scanOps p chans bytes) (answering bytes) := by
  induction chans generalizing bytes with
  | nil =>
    rw [List.length_eq_zero_iff.1 h]
    exact .nil
  | cons c chans ih =>
    cases bytes with
    | nil => cases h
    | cons v bytes => exact .cons rfl (ih (Nat.succ.inj h))

theorem scans_answeredBy (p : Params) {chans : List Chan} {scans : List (List Byte)}
    (h : ∀ bytes ∈ scans, bytes.length = chans.length) :
    List.Forall₂ WireOp.answeredBy (scans.flatMap (scanOps p chans)) (scans.flatMap answering) := by
  induction scans with
  | nil => exact .nil
  | cons bytes scans ih =>
    obtain ⟨hbytes, hscans⟩ := List.forall_mem_cons.1 h
    exact List.rel_append (scanOps_answeredBy p hbytes) (ih hscans)

/-- A CAL in a state whose environment answers its seed writes and its iterations. -/
theorem Performs.iterations {s : State} {d : Half} {i : Instr} {seeds : Word} {acks : List Byte} {scans : List (List Byte)}
    {r : Response} {rest : List Answer}
    (h : Performs s d i (calScript s.par seeds (channelsBelow s.blk.n) scans) r) (hacks : acks.length = 4 * s.blk.n.val)
    (hscans : ∀ bytes ∈ scans, bytes.length = s.blk.n.val)
    (ha : s.env.answers = answering acks ++ scans.flatMap answering ++ rest) :
    exec i s = .next (((s.afterOps (seedOps s.par seeds (channelsBelow s.blk.n) ++
      scans.flatMap (scanOps s.par (channelsBelow s.blk.n))) rest).advance (pauses (scans.length - 1) d)).present r) := by
  rw [← channelsBelow_length] at hacks hscans
  have hgo := h.through
    (opsOf_calScript .. ▸ List.rel_append (seedOps_answeredBy s.par seeds hacks) (scans_answeredBy s.par hscans)) ha
  rwa [pausesBefore_calScript_all, opsOf_calScript] at hgo

/-- Settles O16: the script of a CAL whose last iteration is the clear one, all of it answered. -/
theorem calSucceedsAtTheFirstClearIteration : Obligations.CalSucceedsAtTheFirstClearIteration := by
  intro s seeds acks busyScans last rest hq hacks hbusy hlen hlast hlimit ha
  have hscans : ∀ bytes ∈ busyScans ++ [last], bytes.length = s.blk.n.val :=
    List.forall_mem_append.2 ⟨fun bytes hb => (hbusy bytes hb).1, List.forall_mem_singleton.2 hlen⟩
  have hgo := (cal_performs_ready hq seeds hbusy hlen hlast hlimit).iterations hacks hscans (rest := rest)
    (by simpa using ha)
  simpa using hgo

/-- Settles O17: the script of a CAL with as many busy iterations as its limit, all of it answered. -/
theorem calTimesOutAfterItsLimit : Obligations.CalTimesOutAfterItsLimit := by
  intro s seeds acks scans rest hq hacks hbusy hlimit ha
  have hgo := (cal_performs_timeout hq seeds hbusy hlimit).iterations hacks (fun bytes hb => (hbusy bytes hb).1) ha
  have hfirst : scans.getLast?.elim none (firstBusyOf (channelsBelow s.blk.n)) =
      scans.getLast?.bind (firstBusyOf (channelsBelow s.blk.n)) := by
    cases scans.getLast? <;> rfl
  rwa [hfirst] at hgo

end Sys2Proof.Machine
end

