-- ==== Sys2Proof/Proofs/FlagOrder.lean ====
section
/-! Stage 2 as the flags of one list of map entries, and the order in which it keeps them (R191 to R193). -/

namespace Sys2Proof.Machine

/-! ### One map entry -/

theorem addFlag_flag (flags : List Nat) (k : Nat) :
    addFlag flags (.flag k) = if k ∈ flags then flags else flags ++ [k] := rfl

theorem mem_addFlag {flags : List Nat} {e : FlagEntry} {h : Nat} : h ∈ addFlag flags e ↔ h ∈ flags ∨ e = .flag h := by
  cases e with
  | unmapped => simp [addFlag]
  | noflag => simp [addFlag]
  | flag k =>
    rw [addFlag_flag]
    split
    · next hk => exact ⟨.inl, fun | .inl hm => hm | .inr he => FlagEntry.flag.inj he ▸ hk⟩
    · simp [eq_comm]

theorem isPrefix_addFlag (flags : List Nat) (e : FlagEntry) : flags <+: addFlag flags e := by
  cases e with
  | unmapped => exact List.prefix_rfl
  | noflag => exact List.prefix_rfl
  | flag k =>
    rw [addFlag_flag]
    split
    · exact List.prefix_rfl
    · exact List.prefix_append flags [k]

theorem nodup_addFlag {flags : List Nat} (hn : flags.Nodup) (e : FlagEntry) : (addFlag flags e).Nodup := by
  cases e with
  | unmapped => exact hn
  | noflag => exact hn
  | flag k =>
    rw [addFlag_flag]
    split
    · exact hn
    · next hk => simpa using hn.concat hk

/-! ### A list of map entries -/

theorem mem_foldl_addFlag {es : List FlagEntry} {flags : List Nat} {h : Nat} :
    h ∈ es.foldl addFlag flags ↔ h ∈ flags ∨ .flag h ∈ es := by
  induction es generalizing flags with
  | nil => simp
  | cons e es ih => rw [List.foldl_cons, ih, mem_addFlag, List.mem_cons, or_assoc, eq_comm]

theorem isPrefix_foldl_addFlag (es : List FlagEntry) (flags : List Nat) : flags <+: es.foldl addFlag flags := by
  induction es generalizing flags with
  | nil => exact List.prefix_rfl
  | cons e es ih => exact (isPrefix_addFlag flags e).trans (ih _)

theorem nodup_foldl_addFlag (es : List FlagEntry) {flags : List Nat} (hn : flags.Nodup) :
    (es.foldl addFlag flags).Nodup := by
  induction es generalizing flags with
  | nil => exact hn
  | cons e es ih => exact ih (nodup_addFlag hn e)

/-- A flag of the front part comes before one that is not in it. -/
theorem idxOf_lt_of_isPrefix {front all : List Nat} {h h' : Nat} (hp : front <+: all) (hm : h ∈ front) (hm' : h' ∉ front) :
    all.idxOf h < all.idxOf h' := by
  obtain ⟨back, rfl⟩ := hp
  rw [List.idxOf_append_of_mem hm, List.idxOf_append_of_notMem hm']
  exact Nat.lt_add_right _ (List.idxOf_lt_length_iff.2 hm)

/-- A flag comes before every new flag that no entry up to its own maps to (R193). -/
theorem idxOf_foldl_addFlag_lt {seen later : List FlagEntry} {flags : List Nat} {h h' : Nat} (hnew : h' ∉ flags)
    (hseen : .flag h' ∉ seen) (hne : h ≠ h') :
    ((seen ++ .flag h :: later).foldl addFlag flags).idxOf h < ((seen ++ .flag h :: later).foldl addFlag flags).idxOf h' := by
  have hsplit : (seen ++ .flag h :: later).foldl addFlag flags =
      later.foldl addFlag ((seen ++ [FlagEntry.flag h]).foldl addFlag flags) := by
    simp only [List.foldl_append, List.foldl_cons, List.foldl_nil]
  rw [hsplit]
  refine idxOf_lt_of_isPrefix (isPrefix_foldl_addFlag _ _) (mem_foldl_addFlag.2 (.inr (by simp))) fun hm => ?_
  rcases mem_foldl_addFlag.1 hm with hold | hmap
  · exact hnew hold
  · rcases List.mem_append.1 hmap with hmap | hmap
    · exact hseen hmap
    · exact hne (FlagEntry.flag.inj (List.mem_singleton.1 hmap)).symm

/-! ### The entries of a flag register -/

/-- What these bits of flag register i map to where r sets them (R191). -/
def setEntries (p : Params) (i : Fin 3) (r : Byte) (bits : List (Fin 8)) : List FlagEntry :=
  (bits.filter (fun b => r.getLsbD b.val)).map (fun b => p.flagMap[i][b])

theorem mem_setEntries {p : Params} {i : Fin 3} {r : Byte} {bits : List (Fin 8)} {e : FlagEntry} :
    e ∈ setEntries p i r bits ↔ ∃ b ∈ bits, r.getLsbD b.val = true ∧ p.flagMap[i][b] = e := by
  simp only [setEntries, List.mem_map, List.mem_filter, and_assoc]

theorem addFlags_eq_foldl (p : Params) (i : Fin 3) (r : Byte) (flags : List Nat) :
    addFlags p i r flags = (setEntries p i r (List.finRange 8)).foldl addFlag flags := by
  rw [setEntries, List.foldl_map, List.foldl_filter]
  rfl

/-- The bits in their order, split at one that is set (R191). -/
theorem exists_setEntries_split (p : Params) (i : Fin 3) {r : Byte} {b : Fin 8} (hb : r.getLsbD b.val = true) :
    ∃ lower upper, (∀ b'' ∈ lower, b'' < b) ∧
      setEntries p i r (List.finRange 8) = setEntries p i r lower ++ p.flagMap[i][b] :: setEntries p i r upper := by
  obtain ⟨lower, upper, hbits⟩ := List.append_of_mem (List.mem_finRange b)
  have hsorted : (lower ++ b :: upper).Pairwise (· < ·) := hbits ▸ (List.sortedLT_finRange 8).pairwise
  refine ⟨lower, upper, fun b'' hb'' => (List.pairwise_append.1 hsorted).2.2 b'' hb'' b List.mem_cons_self, ?_⟩
  rw [hbits]
  rw [setEntries, List.filter_append, List.filter_cons_of_pos (p := fun b : Fin 8 => r.getLsbD b.val) hb, List.map_append,
    List.map_cons]
  rfl

/-- Settles O24: the flags of the entries of the set bits, split at the bit of the earlier flag. -/
theorem stageTwoKeepsFirstSeenOrder : Obligations.StageTwoKeepsFirstSeenOrder := by
  intro p i r flags
  rw [addFlags_eq_foldl]
  refine ⟨isPrefix_foldl_addFlag _ _, nodup_foldl_addFlag _, fun h => ?_, ?_⟩
  · rw [mem_foldl_addFlag, mem_setEntries]
    simp only [List.mem_finRange, true_and]
  · intro b _ _ h h' hmap _ hset _ _ hnew hne hfirst
    obtain ⟨lower, upper, hlower, hsplit⟩ := exists_setEntries_split p i hset
    rw [hsplit, hmap]
    refine idxOf_foldl_addFlag_lt hnew (fun hmem => ?_) hne
    obtain ⟨b'', hb'', hset'', hmap''⟩ := mem_setEntries.1 hmem
    exact hfirst b'' (hlower b'' hb'') hset'' hmap''

end Sys2Proof.Machine
end

