-- ==== Sys2Proof/Proofs/InterruptCommands.lean ====
section
/-! The event port's gate, and the commands and computations of interrupts that do not involve the agent: stage 1,
IRQ_CHANNELS and IRQ_ENABLE (R190, R203 to R207). -/

namespace Sys2Proof.Machine

/-! ### The event port's gate -/

theorem gateEvent_of_closed {s : State} (h : s.blk.irqEn = false) (payload : Option Byte) (t : Word) :
    (gateEvent payload t).run s = (discardEvent .irqDiscarded).run s := by
  simp only [gateEvent, run_bind, run_readS, h, Bool.false_eq_true, if_false]

theorem gateEvent_of_open {s : State} (h : s.blk.irqEn = true) (payload : Option Byte) (t : Word) :
    (gateEvent payload t).run s = .ok () (if s.hasRoom then s.queueEvent payload t else s) := by
  simp only [gateEvent, run_bind, run_readS, h, if_true, run_changeS]

/-- The event presented leaves the port and joins the tail of the queue (R203). -/
theorem queueEvent_of_cons {s : State} {r : EventReq} {rest : List EventReq} (hq : s.env.eventQ = r :: rest)
    (payload : Option Byte) (t : Word) :
    s.queueEvent payload t = { s with
      blk := { s.blk with
        irqQ := s.blk.irqQ ++ [⟨payload, t, r.src⟩]
        irqQcount := queueCount (s.blk.irqQ.length + 1) }
      env := { s.env with eventQ := rest } } := by
  simp only [State.queueEvent, State.consumeEvent, State.setIrqQ, State.eventSrc, hq, List.tail_cons, List.length_append,
    List.length_singleton]

/-- An interrupt event's meaning is the gate (R204, R205). -/
theorem exec_event {i : Instr} {payload : Option Byte} {t : Word}
    (h : i = .irqEv t ∧ payload = none ∨ ∃ b, i = .irqEvp b t ∧ payload = some b) (s : State) :
    exec i s = .next (settle ((gateEvent payload t).run s)) := by
  rcases h with ⟨rfl, rfl⟩ | ⟨b, rfl, rfl⟩
  · rfl
  · rfl

/-- Settles O18: the gate's three outcomes. -/
theorem eventPortDiscardsQueuesOrHolds : Obligations.EventPortDiscardsQueuesOrHolds := by
  intro s r rest payload t i hq hi
  rw [exec_event hi]
  refine ⟨fun hclosed hr => ?_, fun hopen hroom => ?_, fun hopen hfull => ?_⟩
  · rw [gateEvent_of_closed hclosed, discardEvent_of_no_resets hr hq]
    rfl
  · rw [gateEvent_of_open hopen, State.hasRoom, if_pos (decide_eq_true hroom), queueEvent_of_cons hq]
    rfl
  · have hfull' : ¬ s.hasRoom = true := by simpa [State.hasRoom] using hfull
    rw [gateEvent_of_open hopen, if_neg hfull']
    rfl

/-! ### Stage 1 -/

theorem stage1_eq_filter (v : Byte) :
    stage1 v = [(Chan.zero, v.extractLsb' 0 4), (Chan.one, v.extractLsb' 4 4)].filter (fun x => decide (x.2 ≠ 0)) := by
  simp only [stage1, ne_eq, and_0F_eq_zero_iff, and_F0_eq_zero_iff]
  by_cases h0 : v.extractLsb' 0 4 = 0#4 <;> by_cases h1 : v.extractLsb' 4 4 = 0#4 <;> simp [h0, h1]

/-- Settles O21: each nibble is kept where it is not zero. -/
theorem stageOneListsPendingChannels : Obligations.StageOneListsPendingChannels :=
  ⟨rfl, rfl, rfl, rfl, stage1_eq_filter⟩

/-! ### IRQ_CHANNELS and IRQ_ENABLE -/

/-- IRQ_CHANNELS is one read as an atomic unit, and the packing (R206). -/
theorem irqChannels_run (s : State) :
    irqChannels.run s =
      (do let v ← atomicUnit (cmdRead .zero s.par.regIrqStatus); pure (irqChannelsWord v) : Run Word).run s := by
  rw [irqChannels, run_bind, run_readS]

/-- Settles O19: the one read, by its three answers. -/
theorem irqChannelsPacksTheStatusByte : Obligations.IrqChannelsPacksTheStatusByte := by
  intro s hq
  have ⟨_, _, hs, hr⟩ := hq
  obtain ⟨-, hb, -, -, hs', -, -, -, hr'⟩ := takeAnswer_keeps s
  have hsched : (s.setCmd (some .irqChannels)).env.sched = [] := hs
  have hread := cmdRead_in_unit hs (some .irqChannels) .command .zero s.par.regIrqStatus
  have hrun := irqChannels_run (s.setCmd (some .irqChannels))
  rw [hs] at hs'
  rw [hr] at hr'
  change command .irqChannels irqChannels s = _
  rcases hans : s.takeAnswer with ⟨v | _ | _, s'⟩ <;> rw [hans] at hread hb hs' hr'
  · rw [run_bind, State.setCmd_par, atomicUnit_ok hsched hread hs'] at hrun
    rw [command_ok hr hrun hr', endCommand_of_unit (t := s'.logWire _) hq hb]
  · rw [run_bind, State.setCmd_par, atomicUnit_error hsched hread] at hrun
    rw [command_raised hr hrun hr', endCommand_of_unit (t := s'.logWire _) hq hb]
  · rw [run_bind, State.setCmd_par, atomicUnit_error hsched hread] at hrun
    rw [command_reset hr hrun]
    rfl

/-- Settles O22: the one write, which the end of the command leaves as it is. -/
theorem irqEnableWritesTheGate : Obligations.IrqEnableWritesTheGate := by
  intro s en hs
  obtain ⟨hidle, hr⟩ := hs
  have hend := endCommand_setCmd (s := { s with blk := { s.blk with irqEn := en } }) (i := some (.irqEnable en)) hidle
  change command (.irqEnable en) (irqEnable en) s = _
  rw [command_ok (t := { s with blk := { s.blk with irqEn := en } }.setCmd (some (.irqEnable en))) hr rfl hr, hend]
  rfl

end Sys2Proof.Machine
end

