-- ==== Sys2Proof/Proofs/HookSampleCases.lean ====
section
/-! The three cases of HookSample, with its windows as order facts (R280, R281, R283). -/

namespace Sys2Proof.Machine

theorem inWindow_iff {lo hi d : Word} : inWindow lo hi d = true ↔ lo ≤ d ∧ d ≤ hi := by
  rw [inWindow, Bool.and_eq_true, decide_eq_true_iff, decide_eq_true_iff]

theorem countUp_eq_min (count : Byte) : countUp count = BitVec.ofNat 8 (min (count.toNat + 1) 255) := by
  unfold countUp
  split
  · next h => rw [h]; rfl
  · next h => bv_omega

/-- The pulse count after a change of level: one more where the change ends a pulse (R280). -/
def pulsesAfter (thr : HookThresholds) (lvl : Level) (d : Word) (h : Hook) : Byte :=
  if lvl = .offhook ∧ thr.minDigit ≤ d ∧ d ≤ thr.maxDigit then BitVec.ofNat 8 (min (h.count.toNat + 1) 255) else h.count

section
variable {thr : HookThresholds} {lvl : Level} {t : Word} {h : Hook}

theorem hookSample_same (hl : lvl = h.level) : hookSample thr lvl t h = (h, false) := by
  rw [hookSample, if_pos hl]

theorem hookSample_flash (hl : lvl ≠ h.level) (hw : thr.minFlash ≤ t - h.lastT ∧ t - h.lastT ≤ thr.maxFlash) :
    hookSample thr lvl t h = (⟨lvl, t, 0, false⟩, true) := by
  rw [hookSample, if_neg hl]
  exact if_pos (inWindow_iff.2 hw)

theorem hookSample_change (hl : lvl ≠ h.level) (hw : ¬ (thr.minFlash ≤ t - h.lastT ∧ t - h.lastT ≤ thr.maxFlash)) :
    hookSample thr lvl t h = (⟨lvl, t, pulsesAfter thr lvl (t - h.lastT) h, true⟩, false) := by
  rw [hookSample, if_neg hl]
  refine (if_neg (mt inWindow_iff.1 hw)).trans ?_
  simp only [pulsesAfter, ← countUp_eq_min, ← inWindow_iff, Bool.and_eq_true, decide_eq_true_eq]

end

/-! ### Feeding a sample to a channel -/

theorem hookLevelOf_eq_ite (r : Byte) : hookLevelOf r = if r.getLsbD 1 then .onhook else .offhook := rfl

theorem State.setHook_hook (s : State) (c : Chan) : s.setHook c (s.chan c).hook = s := s.setChan_chan c

section
variable {s : State} {c : Chan} {lvl : Level} {t : Word}

theorem feedHook_same (hl : lvl = (s.chan c).hook.level) : s.feedHook c lvl t = s := by
  rw [State.feedHook, hookSample_same hl]
  exact s.setHook_hook c

theorem feedHook_flash (hl : lvl ≠ (s.chan c).hook.level)
    (hw : (s.chan c).thr.minFlash ≤ t - (s.chan c).hook.lastT ∧ t - (s.chan c).hook.lastT ≤ (s.chan c).thr.maxFlash) :
    s.feedHook c lvl t = (s.setHook c ⟨lvl, t, 0, false⟩).emit (.hookflash c) := by
  rw [State.feedHook, hookSample_flash hl hw]

theorem feedHook_change (hl : lvl ≠ (s.chan c).hook.level)
    (hw : ¬ ((s.chan c).thr.minFlash ≤ t - (s.chan c).hook.lastT ∧
      t - (s.chan c).hook.lastT ≤ (s.chan c).thr.maxFlash)) :
    s.feedHook c lvl t =
      s.setHook c ⟨lvl, t, pulsesAfter (s.chan c).thr lvl (t - (s.chan c).hook.lastT) (s.chan c).hook, true⟩ := by
  rw [State.feedHook, hookSample_change hl hw]

end

theorem feedHook_setIrqPos (s : State) (c : Chan) (lvl : Level) (t : Word) (p : IrqPos) :
    (s.feedHook c lvl t).setIrqPos p = (s.setIrqPos p).feedHook c lvl t := by
  unfold State.feedHook
  rw [State.setIrqPos_chan]
  split <;> cases c <;> rfl

end Sys2Proof.Machine
end

