-- ==== Sys2Proof/Proofs/InterruptAgent.lean ====
section
/-! The interrupt agent: what its move does in each position, its read units, and what whole parts of `Process` leave
(R190 to R202, R208 to R212). -/

namespace Sys2Proof.Machine

/-! ### The move in each position -/

/-- The read of a register by the agent, and where it goes on (R80). -/
def irqRead (c : Chan) (a : Byte) (next : Option Byte → IrqPos) : Run Unit :=
  whenGranted .interrupt (do let r ← readOp c a; goIrq (next r))

section
variable {s : State} {t : Word} {c : Chan} {i : Fin 3} {flags : List Nat} {todo : List Pending}

theorem irqMove_idle {e : IrqEvent} {q : List IrqEvent} (h : s.blk.irqPos = .idle) (hq : s.blk.irqQ = e :: q) :
    irqMove.run s = .ok () (s.takeEvent e q) :=
  show irqMove s = _ by simp only [irqMove, h, hq]

theorem irqMove_wantStatus (h : s.blk.irqPos = .wantStatus t) :
    irqMove.run s = (irqRead .zero s.par.regIrqStatus (.haveStatus t)).run s :=
  show irqMove s = _ by simp only [irqMove, h]; rfl

theorem irqMove_wantFlag (h : s.blk.irqPos = .wantFlag t c i flags todo) :
    irqMove.run s = (irqRead c s.par.regIrqFlag[i] (.haveFlag t c i flags todo)).run s :=
  show irqMove s = _ by simp only [irqMove, h]; rfl

theorem irqMove_wantHook (h : s.blk.irqPos = .wantHook t c todo) :
    irqMove.run s = (irqRead c s.par.regHookStatus (.haveHook t c todo)).run s :=
  show irqMove s = _ by simp only [irqMove, h]; rfl

theorem irqMove_status (b : Byte) (h : s.blk.irqPos = .haveStatus t (some b)) :
    irqMove.run s = .ok () (s.setIrqPos (.pairs t (stage1 b))) :=
  show irqMove s = _ by simp only [irqMove, h]

theorem irqMove_statusFailed (h : s.blk.irqPos = .haveStatus t none) :
    irqMove.run s = .ok () ((s.emit (.log .zero .irqStatusReadFail 0)).setIrqPos .idle) :=
  show irqMove s = _ by simp only [irqMove, h]

theorem irqMove_lastPair (h : s.blk.irqPos = .pairs t []) : irqMove.run s = .ok () (s.setIrqPos .idle) :=
  show irqMove s = _ by simp only [irqMove, h]

theorem irqMove_pair {m : BitVec 4} (h : s.blk.irqPos = .pairs t ((c, m) :: todo)) :
    irqMove.run s =
      .ok () (s.setIrqPos (if c.toNat < s.blk.n.val then .wantFlag t c 0 [] todo else .pairs t todo)) := by
  change irqMove s = _
  simp only [irqMove, h]
  split <;> rfl

theorem irqMove_flag (b : Byte) (h : s.blk.irqPos = .haveFlag t c i flags todo (some b)) :
    irqMove.run s = .ok () (s.setIrqPos (afterFlag t c i (addFlags s.par i b flags) todo)) :=
  show irqMove s = _ by simp only [irqMove, h]

theorem irqMove_flagFailed (h : s.blk.irqPos = .haveFlag t c i flags todo none) :
    irqMove.run s =
      .ok () ((s.emit (.log c .irqFlagReadFail (BitVec.ofNat 24 i.val))).setIrqPos (.dispatch t c flags flags todo)) :=
  show irqMove s = _ by simp only [irqMove, h]

theorem irqMove_report {f : Nat} {left : List Nat} (h : s.blk.irqPos = .dispatch t c (f :: left) flags todo) :
    irqMove.run s = .ok () ((s.emit (.flag c f)).setIrqPos (.dispatch t c left flags todo)) :=
  show irqMove s = _ by simp only [irqMove, h]

theorem irqMove_dispatched (h : s.blk.irqPos = .dispatch t c [] flags todo) :
    irqMove.run s = .ok () ((s.preempt c flags).setIrqPos (afterDispatch s.par t c flags todo)) :=
  show irqMove s = _ by simp only [irqMove, h]

theorem irqMove_hook (b : Byte) (h : s.blk.irqPos = .haveHook t c todo (some b)) :
    irqMove.run s = .ok () ((s.feedHook c (hookLevelOf b) t).setIrqPos (.pairs t todo)) :=
  show irqMove s = _ by simp only [irqMove, h]

theorem irqMove_hookFailed (h : s.blk.irqPos = .haveHook t c todo none) :
    irqMove.run s = .ok () ((s.emit (.log c .hookReadFail 0)).setIrqPos (.pairs t todo)) :=
  show irqMove s = _ by simp only [irqMove, h]

end

/-! ### Steps of the agent -/

/-- The state a read unit leaves: one operation on the wire, its answer used up, the agent at p. -/
def State.afterRead (s : State) (w : WireOp) (rest : List Answer) (l : List Slot) (p : IrqPos) : State :=
  ((s.afterOps [w] rest).setSched l).setIrqPos p

/-- How a read ends that the chip answers with r, or fails. -/
def readEnd (r : Option Byte) : ReadEnd := r.elim .failed .data

/-- The chip's answer that ends a read so. -/
def answerOf (r : Option Byte) : Answer := r.elim .fail .data

theorem irqRead_run {s : State} (hg : s.blk.grant = .none) (c : Chan) (a : Byte) (next : Option Byte → IrqPos)
    {r : Option Byte} {rest : List Answer} (ha : s.env.answers = answerOf r :: rest) :
    (irqRead c a next).run s = .ok () ((s.afterOps [.read c a (readEnd r)] rest).setIrqPos (next r)) := by
  have hfree : ((s.afterOps [.read c a (readEnd r)] rest).setIrqPos (next r)).setGrant .none = _ :=
    State.setGrant_none_of_none hg
  have ha' : (s.setGrant .interrupt).env.answers = answerOf r :: rest := ha
  rw [irqRead, run_whenGranted, if_pos hg, run_holding, run_bind, run_readOp, takeAnswer_of_cons ha', ← hfree]
  cases r <;> rfl

section
variable {s u : State} {l : List Slot}

theorem step_of_irqMove (hs : s.env.sched = .interrupt :: l) (h : irqMove.run (s.setSched l) = .ok () u) :
    step s = .next u := by
  rw [step_eq_slotTurn hs]
  change Host.Outcome.next (settle (irqMove.run (s.setSched l))) = _
  rw [h, settle]

theorem steps_one (h : step s = .next u) : steps 1 s = .next u := by
  rw [steps_succ_of_next h]
  rfl

theorem steps_add_of_next {m : Nat} (h : steps m s = .next u) (n : Nat) : steps (m + n) s = steps n u := by
  induction m generalizing s with
  | zero =>
    cases h
    rw [Nat.zero_add]
  | succ m ih =>
    rw [steps] at h
    cases e : step s with
    | next v =>
      rw [e] at h
      rw [Nat.succ_add, steps_succ_of_next e, ih h]
    | fault x => rw [e] at h; cases h
    | refused x => rw [e] at h; cases h

/-- A read of the agent and the move that looks at its result. -/
theorem steps_two_of_read {c : Chan} {a : Byte} {next : Option Byte → IrqPos} {r : Option Byte} {rest : List Answer}
    (hg : s.blk.grant = .none) (hs : s.env.sched = .interrupt :: .interrupt :: l) (ha : s.env.answers = answerOf r :: rest)
    (hread : irqMove.run (s.setSched (.interrupt :: l)) = (irqRead c a next).run (s.setSched (.interrupt :: l)))
    (hlook : irqMove.run (s.afterRead (.read c a (readEnd r)) rest l (next r)) = .ok () u) :
    steps 2 s = .next u := by
  have hfirst : step s = .next (s.afterRead (.read c a (readEnd r)) rest (.interrupt :: l) (next r)) := by
    refine step_of_irqMove hs (hread.trans ?_)
    exact irqRead_run (s := s.setSched (.interrupt :: l)) hg c a next ha
  rw [steps_succ_of_next hfirst]
  exact steps_one (step_of_irqMove rfl hlook)

end

/-! ### The status byte and the flag registers -/

/-- Settles O27: the move in each of the positions named. -/
theorem interruptAgentTakesTheHeadEventAndSkipsInactiveChannels :
    Obligations.InterruptAgentTakesTheHeadEventAndSkipsInactiveChannels := by
  refine ⟨fun s t r rest l hp hg hs ha => ?_, fun s l hs => ⟨fun e q hp hq => ?_, fun t c m todo hp => ?_, fun t hp => ?_⟩⟩
  · rw [← stage1_eq_filter]
    exact steps_two_of_read (r := some r) hg hs ha (irqMove_wantStatus hp) (irqMove_status r rfl)
  · rw [step_of_irqMove hs (irqMove_idle hp hq), State.takeEvent]
    cases e.payload <;> rfl
  · have hmove := step_of_irqMove hs (irqMove_pair hp)
    refine ⟨fun hinactive => ?_, fun hactive => ?_⟩
    · rw [hmove, State.setSched_blk, if_neg (Nat.not_lt.2 hinactive)]
    · rw [hmove, State.setSched_blk, if_pos hactive]
  · exact step_of_irqMove hs (irqMove_lastPair hp)

/-- One flag register: its read, and its flags collected (R191). -/
theorem steps_two_of_flag {s : State} {t : Word} {c : Chan} {i : Fin 3} {flags : List Nat} {todo : List Pending} {r : Byte}
    {rest : List Answer} {l : List Slot} (hp : s.blk.irqPos = .wantFlag t c i flags todo) (hg : s.blk.grant = .none)
    (hs : s.env.sched = .interrupt :: .interrupt :: l) (ha : s.env.answers = .data r :: rest) :
    steps 2 s = .next (s.afterRead (.read c s.par.regIrqFlag[i] (.data r)) rest l
      (afterFlag t c i (addFlags s.par i r flags) todo)) :=
  steps_two_of_read (r := some r) hg hs ha (irqMove_wantFlag hp) (irqMove_flag r rfl)

/-- Settles O23: three flag registers one after the other. -/
theorem stageTwoReadsTheThreeFlagRegisters : Obligations.StageTwoReadsTheThreeFlagRegisters := by
  intro s t c todo r0 r1 r2 rest l hp hg hs ha
  refine (steps_add_of_next (steps_two_of_flag hp hg hs ha) 4).trans ?_
  refine (steps_add_of_next (steps_two_of_flag rfl (by exact hg) rfl rfl) 2).trans ?_
  refine (steps_two_of_flag rfl (by exact hg) rfl rfl).trans ?_
  simp [State.afterRead, State.afterOps, State.setSched, State.setIrqPos, afterFlag]

/-! ### Dispatch -/

section
variable {s : State} {c : Chan} {flags : List Nat}

theorem preempt_of_not_mem (h : s.par.hookFlag ∉ flags) : s.preempt c flags = s := if_neg h

theorem preempt_of_silent (h : s.par.hookFlag ∈ flags) (ha : (s.chan c).ring.active = false) : s.preempt c flags = s := by
  rw [State.preempt, if_pos h, State.requestCancel, ha]
  rfl

theorem preempt_of_ringing (h : s.par.hookFlag ∈ flags) (ha : (s.chan c).ring.active = true) :
    s.preempt c flags = s.setRing c { (s.chan c).ring with cancel := true } := by
  rw [State.preempt, if_pos h, State.requestCancel, if_pos ha]

theorem preempt_setIrqPos (s : State) (c : Chan) (flags : List Nat) (p : IrqPos) :
    ((s.setIrqPos p).preempt c flags) = (s.preempt c flags).setIrqPos p := by
  simp only [State.preempt, State.requestCancel, State.setIrqPos_par, State.setIrqPos_chan]
  split
  · split
    · cases c <;> rfl
    · rfl
  · rfl

theorem preempt_keeps (s : State) (c : Chan) (flags : List Nat) :
    (s.preempt c flags).par = s.par ∧ (s.preempt c flags).env = s.env ∧ (s.preempt c flags).out = s.out := by
  unfold State.preempt State.requestCancel
  split
  · split <;> exact ⟨rfl, rfl, rfl⟩
  · exact ⟨rfl, rfl, rfl⟩

end

/-- The flags `left` of channel c reported, with l the schedule that is left: the agent's position aside, all that the
reports of a dispatch change. -/
def State.reported (s : State) (c : Chan) (left : List Nat) (l : List Slot) : State :=
  (s.setSched l).afterEvents (left.map (Event.flag c))

theorem State.reported_chan (s : State) (c : Chan) (left : List Nat) (l : List Slot) (d : Chan) :
    (s.reported c left l).chan d = s.chan d := by
  rw [State.reported, State.afterEvents_chan, State.setSched_chan]

/-- The flags left are reported in order, one move each (R195, R84). -/
theorem steps_of_report {s : State} {t : Word} {c : Chan} {left flags : List Nat} {todo : List Pending} {l : List Slot}
    (hp : s.blk.irqPos = .dispatch t c left flags todo) (hs : s.env.sched = List.replicate left.length .interrupt ++ l) :
    steps left.length s = .next ((s.reported c left l).setIrqPos (.dispatch t c [] flags todo)) := by
  induction left generalizing s with
  | nil =>
    have hl : s.setSched l = s := congrArg s.setSched hs.symm
    have hpos : s.setIrqPos (.dispatch t c [] flags todo) = s := congrArg s.setIrqPos hp.symm
    rw [State.reported, hl, List.map_nil, State.afterEvents_nil, hpos]
    rfl
  | cons f left ih =>
    rw [List.length_cons, steps_succ_of_next (step_of_irqMove hs (irqMove_report hp)), ih rfl rfl]
    simp [State.reported, State.setIrqPos, State.setSched, State.emit, State.afterEvents]

/-- A whole dispatch: the flags left are reported, then a running ring is preempted (R195, R196). -/
theorem steps_of_dispatch {s : State} {t : Word} {c : Chan} {left flags : List Nat} {todo : List Pending} {l : List Slot}
    (hp : s.blk.irqPos = .dispatch t c left flags todo)
    (hs : s.env.sched = List.replicate (left.length + 1) .interrupt ++ l) :
    steps (left.length + 1) s =
      .next (((s.reported c left l).preempt c flags).setIrqPos (afterDispatch s.par t c flags todo)) := by
  rw [List.replicate_succ', List.append_assoc] at hs
  rw [steps_add_of_next (steps_of_report hp hs)]
  have hlast : irqMove.run ((s.reported c left l).setIrqPos (.dispatch t c [] flags todo)) = _ := irqMove_dispatched rfl
  rw [preempt_setIrqPos] at hlast
  exact steps_one (step_of_irqMove rfl hlast)

/-- The hook read of a dispatch feeds the detector (R195). -/
theorem steps_two_of_hook {s : State} {t : Word} {c : Chan} {todo : List Pending} {r : Byte} {rest : List Answer}
    {l : List Slot} (hp : s.blk.irqPos = .wantHook t c todo) (hg : s.blk.grant = .none)
    (hs : s.env.sched = .interrupt :: .interrupt :: l) (ha : s.env.answers = .data r :: rest) :
    steps 2 s = .next ((s.afterRead (.read c s.par.regHookStatus (.data r)) rest l (.pairs t todo)).feedHook c
      (hookLevelOf r) t) := by
  rw [steps_two_of_read (r := some r) hg hs ha (irqMove_wantHook hp) (irqMove_hook r rfl), feedHook_setIrqPos]
  rfl

/-- Settles O25: the reports and the move after the last, then the hook read and the three cases of its sample. -/
theorem dispatchReportsFlagsAndPreemptsTheRing : Obligations.DispatchReportsFlagsAndPreemptsTheRing := by
  refine ⟨fun s t c h left flags todo l hp hs => step_of_irqMove hs (irqMove_report hp),
    fun s t c left flags todo l hp hs => ?_, fun s t c todo r rest l hp hg hs ha => ?_⟩
  · obtain ⟨hpar, henv, hout⟩ := preempt_keeps (s.reported c left l) c flags
    refine ⟨_, steps_of_dispatch hp hs, hpar, henv, hout, fun hn => ?_, fun hm hsilent => ?_, fun hm hring => ?_⟩
    · rw [preempt_of_not_mem (s := s.reported c left l) hn, afterDispatch, if_neg hn]
      rfl
    · rw [preempt_of_silent (s := s.reported c left l) hm (by rwa [State.reported_chan]), afterDispatch, if_pos hm]
      rfl
    · rw [preempt_of_ringing (s := s.reported c left l) hm (by rwa [State.reported_chan]), afterDispatch, if_pos hm]
      cases c <;> rfl
  · rw [steps_two_of_hook hp hg hs ha, hookLevelOf_eq_ite]
    have hchan : (s.afterRead (.read c s.par.regHookStatus (.data r)) rest l (.pairs t todo)).chan c = s.chan c := by
      simp [State.afterRead]
    refine ⟨fun hl => ?_, fun hl hw => ?_, fun hl hw => ?_⟩
    · rw [feedHook_same (hl.trans (by rw [hchan]))]
      rfl
    · rw [feedHook_flash (by rwa [hchan]) (by rwa [hchan])]
      rfl
    · rw [feedHook_change (by rwa [hchan]) (by rwa [hchan]), hchan]
      rfl

/-! ### Failures -/

/-- Settles O26: each failed read, and each move that sees a failure. -/
theorem interruptFailuresAreLoggedAndIsolated : Obligations.InterruptFailuresAreLoggedAndIsolated := by
  intro s l t c i flags todo rest
  refine ⟨fun hg hs ha => ⟨fun hp => ?_, fun hp => ?_, fun hp => ?_⟩, fun hs => ⟨fun hp => ?_, fun hp => ?_, fun hp => ?_⟩⟩
  · exact steps_two_of_read (r := none) hg hs ha (irqMove_wantStatus hp) (irqMove_statusFailed rfl)
  · exact steps_two_of_read (r := none) hg hs ha (irqMove_wantFlag hp) (irqMove_flagFailed rfl)
  · exact steps_two_of_read (r := none) hg hs ha (irqMove_wantHook hp) (irqMove_hookFailed rfl)
  · exact step_of_irqMove hs (irqMove_statusFailed hp)
  · exact step_of_irqMove hs (irqMove_flagFailed hp)
  · exact step_of_irqMove hs (irqMove_hookFailed hp)

end Sys2Proof.Machine
end

