-- ==== Sys2Proof/Proofs/LineState.lean ====
section
/-! The Line State Machine (43_line_state.md): one `SetLineFeed` by the chip's answers, the linefeed commands, and
GET_HOOK. -/

namespace Sys2Proof.Machine

/-! ### Operations that a failure ends -/

section
variable {s : State} {c : Chan} {req : LfState} {pt : Run Unit}

/-- Nothing happens at pt, whatever operations have been issued since s. -/
def Still (pt : Run Unit) (s : State) : Prop :=
  ∀ ops rest, pt.run (s.afterOps ops rest) = .ok () (s.afterOps ops rest)

/-- A command's `SetLineFeed` has scheduling points between its operations. -/
theorem point_still (hs : s.env.sched = []) : Still point s := fun _ _ => point_of_no_schedule hs

/-- A ringer's `SetLineFeed` has moments between its operations. -/
theorem moment_still (hr : s.env.resets = []) : Still moment s := fun _ _ => moment_of_no_resets hr

/-- From s after any operations, x issues `todo` and sets the stored linefeed state where the chip answers all of it, and
ends with the register of the first of them that fails (R220, R228, R229). -/
def SetsAfter (s : State) (c : Chan) (req : LfState) (x : Run LfResult) (todo : List WireOp) : Prop :=
  ∀ (done : List WireOp) (as rest : List Answer),
    (List.Forall₂ WireOp.answeredBy todo as →
      x.run (s.afterOps done (as ++ rest)) = .ok .ok ((s.afterOps (done ++ todo) rest).setLf c req)) ∧
    ∀ (k : Nat) (op : WireOp), todo[k]? = some op → List.Forall₂ WireOp.answeredBy (todo.take k) as →
      x.run (s.afterOps done (as ++ .fail :: rest)) =
        .ok (.commError op.reg) (s.afterOps (done ++ (todo.take k ++ [op.fails])) rest)

/-- Where no operation is left, the state is set. -/
theorem setLf_setsAfter : SetsAfter s c req (do changeS (fun s => s.setLf c req); pure .ok) [] := by
  intro done as rest
  refine ⟨fun has => ?_, nofun⟩
  cases has
  rw [List.append_nil]
  rfl

/-- An operation that goes on with k once it is answered and ends the sequence where it fails. -/
theorem SetsAfter.op {x k : Run LfResult} {w : WireOp} {todo : List WireOp} (hk : SetsAfter s c req k todo)
    (hdone : ∀ done a rest, w.answeredBy a →
      x.run (s.afterOps done (a :: rest)) = k.run (s.afterOps (done ++ [w]) rest))
    (hfail : ∀ done rest,
      x.run (s.afterOps done (.fail :: rest)) = .ok (.commError w.reg) (s.afterOps (done ++ [w.fails]) rest)) :
    SetsAfter s c req x (w :: todo) := by
  intro done as rest
  refine ⟨fun has => ?_, fun j op hop has => ?_⟩
  · obtain _ | ⟨hw, has⟩ := has
    obtain ⟨hall, -⟩ := hk (done ++ [w]) _ rest
    rw [List.cons_append, hdone _ _ _ hw, hall has, ← List.append_cons]
  · cases j with
    | zero =>
      cases hop
      cases has
      exact hfail done rest
    | succ j =>
      obtain _ | ⟨hw, has⟩ := has
      obtain ⟨-, hfirst⟩ := hk (done ++ [w]) _ rest
      rw [List.cons_append, hdone _ _ _ hw, hfirst j op hop has, ← List.append_cons]
      rfl

/-! ### The parts of `SetLineFeed` -/

/-- A write of the bracket, and then its rest. -/
theorem bracketWrite_setsAfter (hpt : Still pt s) {a v : Byte} {k : Run LfResult} {todo : List WireOp}
    (hk : SetsAfter s c req k todo) :
    SetsAfter s c req (do pt; let done ← writeOp c a v; if done then k else pure (.commError a))
      (.write c a v .done :: todo) := by
  refine hk.op (fun done ans rest hw => ?_) fun done rest => ?_
  · obtain ⟨b, rfl⟩ := hw
    simp only [run_bind, hpt _ _, writeOp_afterOps_data, if_true]
  · simp only [run_bind, hpt _ _, writeOp_afterOps_fail, Bool.false_eq_true, if_false, run_pure]
    rfl

theorem autoBracket_setsAfter (hpt : Still pt s) (p : Params) (a : Byte) :
    SetsAfter s c req (autoBracket pt p c req a) (bracketWrites p c req a) :=
  bracketWrite_setsAfter hpt <| bracketWrite_setsAfter hpt <| bracketWrite_setsAfter hpt setLf_setsAfter

/-- `SetLineFeed` after a linefeed read under which neither guard applies: the AUTO read and the bracket (R220, R226). -/
def unguardedRest (pt : Run Unit) (p : Params) (c : Chan) (req : LfState) : Run LfResult := do
  pt
  let a ← readOp c p.regAuto
  match a with
  | none => pure (.commError p.regAuto)
  | some a => autoBracket pt p c req a

theorem unguardedRest_setsAfter (hpt : Still pt s) (p : Params) (a : Byte) :
    SetsAfter s c req (unguardedRest pt p c req) (.read c p.regAuto (.data a) :: bracketWrites p c req a) := by
  refine (autoBracket_setsAfter hpt p a).op (fun done ans rest hw => ?_) fun done rest => ?_
  · cases hw
    simp only [unguardedRest, run_bind, hpt _ _, readOp_afterOps_data]
  · simp only [unguardedRest, run_bind, hpt _ _, readOp_afterOps_fail, run_pure]
    rfl

/-- `SetLineFeed` once its linefeed read is answered. -/
theorem setLineFeed_data (hpt : Still pt s) (v : Byte) (done : List WireOp) (rest : List Answer) :
    (setLineFeed pt c req).run (s.afterOps done (.data v :: rest)) =
      (if lfGuarded s.par req v then pure .ok else unguardedRest pt s.par c req : Run LfResult).run
        (s.afterOps (done ++ [.read c s.par.regLinefeed (.data v)]) rest) := by
  simp only [setLineFeed, run_bind, run_readS, hpt _ _, afterOps_par, readOp_afterOps_data]
  rfl

theorem setLineFeed_setsAfter (hpt : Still pt s) {v : Byte} (hv : ¬ lfGuards s.par req v) (a : Byte) :
    SetsAfter s c req (setLineFeed pt c req) (bracketOps s.par c req v a) := by
  refine (unguardedRest_setsAfter hpt s.par a).op (fun done ans rest hw => ?_) fun done rest => ?_
  · cases hw
    rw [setLineFeed_data hpt, if_neg (hv ∘ (lfGuarded_iff req v).1)]
  · simp only [setLineFeed, run_bind, run_readS, hpt _ _, afterOps_par, readOp_afterOps_fail, run_pure]
    rfl

/-! ### One `SetLineFeed` -/

/-- s after a `SetLineFeed(c, req)` with these operations, `rest` the chip's answers that are left. -/
def State.afterLinefeed (s : State) (c : Chan) (req : LfState) (ops : List WireOp) (moved : Bool) (rest : List Answer) :
    State :=
  if moved then (s.afterOps ops rest).setLf c req else s.afterOps ops rest

/-- `SetLineFeed` goes as the chip answers it, where nothing happens between its operations (R220). -/
theorem setLineFeed_run (hpt : Still pt s) {ops : List WireOp} {as rest : List Answer} {res : LfResult} {moved : Bool}
    (h : LinefeedRun s.par c req ops as res moved) (ha : s.env.answers = as ++ rest) :
    (setLineFeed pt c req).run s = .ok res (s.afterLinefeed c req ops moved rest) := by
  rw [← afterOps_nil ha]
  cases h with
  | guarded v hv =>
    rw [List.singleton_append, setLineFeed_data hpt, if_pos ((lfGuarded_iff req v).2 hv), run_pure]
    simp [State.afterLinefeed]
  | full v a as hv has =>
    obtain ⟨hall, -⟩ := setLineFeed_setsAfter (c := c) hpt hv a [] as rest
    rw [hall has]
    simp [State.afterLinefeed]
  | failed v a k op as hv hk has =>
    obtain ⟨-, hfirst⟩ := setLineFeed_setsAfter (c := c) hpt hv a [] as rest
    rw [← List.append_cons, hfirst k op hk has]
    simp [State.afterLinefeed]

end

/-! ### The linefeed commands -/

/-- The response of a linefeed command by the result of its `SetLineFeed` (R221). -/
def lfResponse (c : Chan) : LfResult → Response
  | .ok => ⟨.ok, 0⟩
  | .commError a => ⟨.commError, failInfo c a⟩

section
variable {s : State} {c : Chan} {req : LfState} {ops : List WireOp} {moved : Bool} {rest : List Answer}

/-- The three linefeed commands are one request (R221, R222, R223). -/
theorem exec_linefeedRequest {i : Instr} {ch : BitVec 4} (hi : linefeedRequest i = some (ch, req)) (s : State) :
    exec i s = command i (requestLf ch req) s := by
  cases i with
  | setLf ch' req' => cases hi; rfl
  | startRing ch' => cases hi; rfl
  | stopRing ch' => cases hi; rfl
  | _ => cases hi

/-- The end of a unit and of its command gives the agent's own fields back. -/
theorem afterLinefeed_in_unit (hq : s.Quiet) (i : Option Instr) :
    (((((s.setCmd i).setGrant .command).afterLinefeed c req ops moved rest).setGrant .none).endCommand) =
      s.afterLinefeed c req ops moved rest := by
  obtain ⟨hidle, hg, -, -⟩ := hq
  have hend : (s.setGrant .none).endCommand = s := by
    rw [State.setGrant_none_of_none hg, State.endCommand_of_idle hidle]
  conv_rhs => rw [← hend]
  cases moved <;> cases c <;> rfl

@[simp] theorem afterLinefeed_sched : (s.afterLinefeed c req ops moved rest).env.sched = s.env.sched := by
  cases moved <;> rfl

@[simp] theorem afterLinefeed_resets : (s.afterLinefeed c req ops moved rest).env.resets = s.env.resets := by
  cases moved <;> rfl

section
variable {i : Instr} {ch : BitVec 4} {as : List Answer} {res : LfResult}

/-- The sequence of a linefeed command in a quiet state: one `SetLineFeed` as an atomic unit, and its response (R80, R221). -/
theorem requestLf_run (hq : s.Quiet) (hc : activeChan s.blk.n ch = some c) (h : LinefeedRun s.par c req ops as res moved)
    (ha : s.env.answers = as ++ rest) :
    (requestLf ch req).run (s.setCmd (some i)) = (lfRespond c res).run
      ((((s.setCmd (some i)).setGrant .command).afterLinefeed c req ops moved rest).setGrant .none) := by
  obtain ⟨-, -, hsched, -⟩ := hq
  have hs : (s.setCmd (some i)).env.sched = [] := hsched
  have hactive : (activeChannel ch).run (s.setCmd (some i)) = .ok c (s.setCmd (some i)) := activeChannel_some hc
  have hlf := setLineFeed_run (s := (s.setCmd (some i)).setGrant .command) (point_still hs) h ha
  have hunit := atomicUnit_ok hs hlf (by simpa using hs)
  simp only [requestLf, run_bind, hactive, hunit]

/-- A linefeed command in a quiet state is one `SetLineFeed`, and its response (R221). -/
theorem exec_linefeed (hq : s.Quiet) (hi : linefeedRequest i = some (ch, req)) (hc : activeChan s.blk.n ch = some c)
    (h : LinefeedRun s.par c req ops as res moved) (ha : s.env.answers = as ++ rest) :
    exec i s = .next ((s.afterLinefeed c req ops moved rest).present (lfResponse c res)) := by
  have hrun := requestLf_run (i := i) hq hc h ha
  rw [exec_linefeedRequest hi, ← afterLinefeed_in_unit hq (some i)]
  obtain ⟨-, -, -, hr⟩ := hq
  cases res with
  | ok => exact command_ok hr hrun (by simpa using hr)
  | commError a => exact command_raised hr hrun (by simpa using hr)

end

end

/-- Settles O28: the run is the guarded one. -/
theorem linefeedGuardsIssueNoWrite : Obligations.LinefeedGuardsIssueNoWrite :=
  fun _ _ _ _ _ v _ hq hi hc ha hv => exec_linefeed hq hi hc (.guarded v hv) ha

/-- Settles O29: the run is the full one. -/
theorem linefeedTransitionRunsTheAutoBracket : Obligations.LinefeedTransitionRunsTheAutoBracket :=
  fun _ _ _ _ _ v a as _ hq hi hc hv has ha => exec_linefeed hq hi hc (.full v a as hv has) ha

/-- Settles O30: the run is the failed one. -/
theorem linefeedFailureEndsTheBracket : Obligations.LinefeedFailureEndsTheBracket :=
  fun _ _ _ _ _ v a k op as rest hq hi hc hv hk has ha =>
    exec_linefeed hq hi hc (.failed v a k op as hv hk has) (ha.trans (List.append_cons as .fail rest))

/-! ### GET_HOOK -/

/-- The level as a word is bit 1 of the status byte (R35, R126). -/
theorem bitWord_hookLevelOf : ∀ v : Byte, bitWord (hookLevelOf v).toBit = (v.extractLsb' 1 1).setWidth 32 := by decide

/-- GET_HOOK is one read as an atomic unit, and the level (R224). -/
theorem getHook_run (ch : BitVec 4) (s : State) :
    (getHook ch).run s = (do
      let c ← activeChannel ch
      let v ← atomicUnit (cmdRead c s.par.regHookStatus)
      pure (bitWord (hookLevelOf v).toBit) : Run Word).run s := by
  rw [getHook, run_bind, run_bind, run_activeChannel]
  cases activeChan s.blk.n ch <;> rfl

/-- Settles O31: the one read, by its three answers. -/
theorem getHookReturnsBitOne : Obligations.GetHookReturnsBitOne := by
  intro s ch c hq hc
  have ⟨_, _, hs, hr⟩ := hq
  obtain ⟨-, hb, -, -, hs', -, -, -, hr'⟩ := takeAnswer_keeps s
  have hx := cmdRead_in_unit hs (some (.getHook ch)) .command c s.par.regHookStatus
  rw [hs] at hs'
  rw [hr] at hr'
  change command (.getHook ch) (getHook ch) s = _
  rw [command_of_no_resets hr, getHook_run, State.setCmd_par, ← command_of_no_resets hr]
  rcases hans : s.takeAnswer with ⟨v | _ | _, s'⟩ <;> rw [hans] at hx hb hs' hr'
  · dsimp only
    rw [← bitWord_hookLevelOf]
    exact unitCommand_ends (out := .ok v) (x := fun c => cmdRead c s.par.regHookStatus)
      (g := fun v => bitWord (hookLevelOf v).toBit) hq hc hx hb hs' hr'
  · exact unitCommand_ends (out := .error ⟨.commError, failInfo c s.par.regHookStatus⟩)
      (x := fun c => cmdRead c s.par.regHookStatus) (g := fun v => bitWord (hookLevelOf v).toBit) hq hc hx hb hs' hr'
  · exact unitCommand_reset (x := fun c => cmdRead c s.par.regHookStatus)
      (g := fun v => bitWord (hookLevelOf v).toBit) hq hc hx

end Sys2Proof.Machine
end

