-- ==== Sys2Proof/Proofs/RingCommands.lean ====
section
/-! The cadence table and its pattern, and the commands that begin and cancel a ring (R250 to R252, R260, R261). -/

namespace Sys2Proof.Machine

/-! ### Cadences -/

/-- Every phase of a table with at most 16 is an entry of its vector (R38). -/
theorem phaseAt_of_fin (cad : Cadence) (k : Fin 16) : cad.phaseAt k.val = cad.phase[k] := dif_pos k.isLt

/-- Validity in the words of R251. -/
theorem Cadence.valid_iff {cad : Cadence} :
    cad.valid = true ↔ cad.n.toNat % 2 = 0 ∧ 2 ≤ cad.n.toNat ∧ cad.n.toNat ≤ 16 ∧
      ∀ k : Fin 16, k.val < cad.n.toNat → cad.phase[k] ≠ 0 := by
  have one_le_iff (d : Word) : 1#32 ≤ d ↔ d ≠ 0 := by bv_omega
  simp only [Cadence.valid, Bool.and_eq_true, decide_eq_true_eq, List.all_eq_true, List.mem_range, one_le_iff, and_assoc]
  refine and_congr_right fun _ => and_congr_right fun _ => and_congr_right fun hn =>
    ⟨fun h k hk => ?_, fun h k hk => ?_⟩
  · rw [← phaseAt_of_fin]
    exact h k hk
  · rw [phaseAt_of_fin cad ⟨k, Nat.lt_of_lt_of_le hk hn⟩]
    exact h _ hk

/-- A phase of 0 ms is rejected (R250). -/
theorem parsePhase_ne_zero {text : List Char} {d : Word} (h : parsePhase text = some d) : d ≠ 0 := by
  unfold parsePhase at h
  split at h
  · split at h
    · cases h
    · next hd => cases h; exact hd
  · cases h

theorem parsePhases_ne_zero {texts : List (List Char)} {ds : List Word} (h : parsePhases texts = some ds) :
    ∀ d ∈ ds, d ≠ 0 := by
  induction texts generalizing ds with
  | nil => cases h; exact nofun
  | cons text texts ih =>
    unfold parsePhases at h
    split at h
    · next d ds' hd hds =>
      cases h
      exact List.forall_mem_cons.2 ⟨parsePhase_ne_zero hd, ih hds⟩
    · cases h

/-- The checks an accepted pattern has passed (R250). -/
theorem parsePattern_checked {text : List Char} {p : Pattern} (h : parsePattern text = some p) :
    phaseCountOk p.phases.length = true ∧ ∀ d ∈ p.phases, d ≠ 0 := by
  unfold parsePattern at h
  split at h
  · split at h
    · split at h
      · next hds =>
        split at h
        · next hcount => cases h; exact ⟨hcount, parsePhases_ne_zero hds⟩
        · cases h
      · cases h
    · cases h
  · cases h

/-- Settles O60: the pattern's checks are those of validity, phase by phase. -/
theorem acceptedPatternsAreValidCadences : Obligations.AcceptedPatternsAreValidCadences := by
  intro text p h
  obtain ⟨hcount, hphases⟩ := parsePattern_checked h
  simp only [phaseCountOk, Bool.and_eq_true, decide_eq_true_eq] at hcount
  obtain ⟨⟨heven, htwo⟩, hsixteen⟩ := hcount
  refine ⟨heven, htwo, hsixteen, hphases, fun cad hn hload => ?_⟩
  have hlen : cad.n.toNat = p.phases.length := by
    rw [hn, BitVec.toNat_ofNat, Nat.mod_eq_of_lt (by omega)]
  rw [Cadence.valid_iff, hlen]
  refine ⟨heven, htwo, hsixteen, fun k hk => ?_⟩
  rw [hload k _ (List.getElem?_eq_getElem hk)]
  exact hphases _ (List.getElem_mem hk)

/-! ### RING_BEGIN -/

section
variable {s : State} {c : Chan}

/-- A command's read as an atomic unit of its own, by how the chip answers it (R80, R143). -/
theorem atomicRead_run (hq : s.Quiet) (i : Option Instr) (c : Chan) (a : Byte) :
    (atomicUnit (cmdRead c a)).run (s.setCmd i) = match s.takeAnswer with
      | (.data v, s') => .ok v ((s'.logWire (.read c a (.data v))).setCmd i)
      | (.fail, s') => .error (.raised .commError (failInfo c a)) ((s'.logWire (.read c a .failed)).setCmd i)
      | (.resetDuring, s') => .error .reset (s'.logWire (.read c a .abandoned)).blockReset := by
  obtain ⟨-, hg, hs, -⟩ := hq
  obtain ⟨-, hb, -, -, hs', -⟩ := takeAnswer_keeps s
  have hread := cmdRead_in_unit hs i .command c a
  have hsi : (s.setCmd i).env.sched = [] := hs
  rw [hs] at hs'
  have hfree (t : State) (ht : t.blk = s.blk) : ((t.setCmd i).setGrant .command).setGrant .none = t.setCmd i :=
    State.setGrant_none_of_none (s := t.setCmd i) (by rw [State.setCmd_blk, ht]; exact hg)
  rcases hans : s.takeAnswer with ⟨v | _ | _, s'⟩ <;> rw [hans] at hread hb hs'
  · rw [atomicUnit_ok hsi hread hs', hfree (s'.logWire _) hb]
  · rw [atomicUnit_error hsi hread, hfree (s'.logWire _) hb]
  · rw [atomicUnit_error hsi hread]
    rfl

theorem beginRing_setCmd (s : State) (i : Option Instr) (c : Chan) :
    (s.setCmd i).beginRing c = (s.beginRing c).setCmd i := by cases c <;> rfl

theorem beginRing_idle (h : s.Idle) (c : Chan) : (s.beginRing c).Idle := by cases c <;> exact h

/-- RING_BEGIN on a ringing channel (R252). -/
theorem ringBegin_ringing {ch : BitVec 4} (hc : activeChan s.blk.n ch = some c) (ha : (s.chan c).ring.active = true) :
    (ringBegin ch).run s = .ok 0 s := by
  simp only [ringBegin, run_bind, activeChannel_some hc, run_readS, ha, if_true, run_pure]

/-- RING_BEGIN on a channel that does not ring and whose cadence is not valid (R252, R251). -/
theorem ringBegin_invalid {ch : BitVec 4} (hc : activeChan s.blk.n ch = some c) (ha : (s.chan c).ring.active = false)
    (hv : (s.chan c).cad.valid = false) : (ringBegin ch).run s = .error (.raised .badPattern 0) s := by
  simp only [ringBegin, beginWhenIdle, run_bind, activeChannel_some hc, run_readS, ha, hv, Bool.false_eq_true, if_false,
    run_require_false]

/-- RING_BEGIN once the hook status is read: the ring begins where the line is off-hook (R252, R126). -/
def beginOffhook (c : Chan) (r : Byte) : Run Word := do
  require (decide (hookLevelOf r = .offhook)) .ringUnhook
  changeS (fun s => s.beginRing c)
  pure 0

theorem beginOffhook_onhook {r : Byte} (h : r.getLsbD 1 = true) (c : Chan) (s : State) :
    (beginOffhook c r).run s = .error (.raised .ringUnhook 0) s := by
  simp only [beginOffhook, hookLevelOf_eq_ite, h, if_true, reduceCtorEq, decide_false, run_bind, run_require_false]

theorem beginOffhook_offhook {r : Byte} (h : r.getLsbD 1 = false) (c : Chan) (s : State) :
    (beginOffhook c r).run s = .ok 0 (s.beginRing c) := by
  simp only [beginOffhook, hookLevelOf_eq_ite, h, Bool.false_eq_true, if_false, decide_true, run_bind, run_require_true,
    run_changeS, run_pure]

/-- RING_BEGIN past its checks is the hook read and what comes of it (R252). -/
theorem ringBegin_valid {ch : BitVec 4} (hc : activeChan s.blk.n ch = some c) (ha : (s.chan c).ring.active = false)
    (hv : (s.chan c).cad.valid = true) :
    (ringBegin ch).run s =
      (do let r ← atomicUnit (cmdRead c s.par.regHookStatus); beginOffhook c r : Run Word).run s := by
  simp only [ringBegin, beginWhenIdle, beginOffhook, run_bind, activeChannel_some hc, run_readS, ha, hv,
    Bool.false_eq_true, if_false, run_require_true]

end

/-- Settles O32: a ringing channel, an invalid cadence, or the hook read by its three answers. -/
theorem ringBeginStartsTheRinger : Obligations.RingBeginStartsTheRinger := by
  intro s ch c hq hc
  have ⟨hidle, _, _, hr⟩ := hq
  have hc' : activeChan (s.setCmd (some (.ringBegin ch))).blk.n ch = some c := hc
  have hchan := s.setCmd_chan (some (.ringBegin ch)) c
  dsimp only
  rw [← Cadence.valid_iff, Bool.not_eq_true]
  change (_ → command _ (ringBegin ch) s = _) ∧ (_ → _ → command _ (ringBegin ch) s = _) ∧
    (_ → _ → command _ (ringBegin ch) s = _)
  refine ⟨fun ha => ?_, fun ha hv => ?_, fun ha hv => ?_⟩
  · rw [command_ok hr (ringBegin_ringing hc' (by rwa [hchan])) hr, endCommand_setCmd hidle]
  · rw [command_raised hr (ringBegin_invalid hc' (by rwa [hchan]) (by rwa [hchan])) hr, endCommand_setCmd hidle]
  · have hrun := ringBegin_valid hc' (by rwa [hchan]) (by rwa [hchan])
    rw [run_bind, atomicRead_run hq] at hrun
    obtain ⟨-, hb, -, hnow, -, -, -, -, hr'⟩ := takeAnswer_keeps s
    rw [hr] at hr'
    have hkept (t : State) (ht : t.blk = s.blk) : t.Idle ∧ t.chan c = s.chan c := by
      rw [State.Idle, State.chan, ht]
      exact ⟨hidle, rfl⟩
    rcases hans : s.takeAnswer with ⟨v | _ | _, s'⟩ <;> rw [hans] at hrun hb hnow hr'
    · obtain ⟨hidle', hchan'⟩ := hkept (s'.logWire (.read c s.par.regHookStatus (.data v))) hb
      dsimp only at hrun ⊢
      cases hlevel : v.getLsbD 1
      · rw [beginOffhook_offhook hlevel, beginRing_setCmd] at hrun
        rw [command_ok hr hrun hr', State.setCmd_par, endCommand_setCmd (beginRing_idle hidle' c), State.beginRing, hchan',
          State.logWire_env, hnow]
        rfl
      · rw [beginOffhook_onhook hlevel] at hrun
        rw [command_raised hr hrun hr', State.setCmd_par, endCommand_setCmd hidle', if_pos rfl]
    · obtain ⟨hidle', -⟩ := hkept (s'.logWire (.read c s.par.regHookStatus .failed)) hb
      rw [command_raised hr hrun hr', State.setCmd_par, endCommand_setCmd hidle']
    · rw [command_reset hr hrun, State.setCmd_par]

/-! ### RING_CANCEL and RING_CANCEL_ALL -/

/-- The test and the write of a cancellation, said without the test (R260, R261; log entry 5). -/
theorem requestCancel_eq_or (s : State) (c : Chan) :
    s.requestCancel c =
      s.setRing c { (s.chan c).ring with cancel := (s.chan c).ring.cancel || (s.chan c).ring.active } := by
  unfold State.requestCancel
  split
  · next ha => rw [ha, Bool.or_true]
  · next ha =>
    rw [Bool.not_eq_true] at ha
    rw [ha, Bool.or_false]
    exact (s.setChan_chan c).symm

theorem requestCancel_setCmd (s : State) (i : Option Instr) (c : Chan) :
    (s.setCmd i).requestCancel c = (s.requestCancel c).setCmd i := by
  rw [requestCancel_eq_or, requestCancel_eq_or]
  cases c <;> rfl

theorem requestCancel_idle {s : State} (h : s.Idle) (c : Chan) : (s.requestCancel c).Idle := by
  rw [requestCancel_eq_or]
  cases c <;> exact h

/-- Channel d does not ring without a cancellation. -/
def State.CancelsAt (s : State) (d : Chan) : Prop := (s.chan d).ring.active = true → (s.chan d).ring.cancel = true

/-- What is cancelled stays so until the ring ends. -/
def CancelsKept (s t : State) : Prop := ∀ d, s.CancelsAt d → t.CancelsAt d

/-- No channel rings. -/
def State.Silent (s : State) : Prop := ∀ d, (s.chan d).ring.active = false

theorem State.Silent.cancelsAt {s : State} (h : s.Silent) (d : Chan) : s.CancelsAt d :=
  fun ha => absurd (ha.symm.trans (h d)) (by decide)

theorem blockReset_silent (s : State) : s.blockReset.Silent := fun d => by cases d <;> rfl

theorem CancelsKept.of_rings {s t : State} (h : ∀ d, (t.chan d).ring = (s.chan d).ring) : CancelsKept s t := by
  intro d
  unfold State.CancelsAt
  rw [h d]
  exact id

theorem CancelsKept.of_ring {s : State} {c : Chan} {r : Ring}
    (h : s.CancelsAt c → r.active = true → r.cancel = true) : CancelsKept s (s.setRing c r) := by
  intro d
  by_cases hd : d = c
  · subst hd
    unfold State.CancelsAt
    rw [State.chan_setRing_same]
    exact h
  · unfold State.CancelsAt
    rw [State.chan_setRing_other _ _ hd]
    exact id

theorem requestCancel_cancelsAt (s : State) (c : Chan) : (s.requestCancel c).CancelsAt c := by
  unfold State.CancelsAt
  rw [requestCancel_eq_or, State.chan_setRing_same]
  intro ha
  exact Bool.or_eq_true_iff.2 (.inr ha)

theorem requestCancel_cancelsKept (s : State) (c : Chan) : CancelsKept s (s.requestCancel c) := by
  rw [requestCancel_eq_or]
  exact .of_ring fun _ ha => Bool.or_eq_true_iff.2 (.inr ha)

/-- Only RING_BEGIN starts a ring that is not cancelled. -/
theorem cancelsKept_closed : Closed CancelsKept (fun _ t => t.Silent) where
  refl _ := .of_rings fun _ => rfl
  trans h1 h2 d := h2 d ∘ h1 d
  reset _ := blockReset_silent _
  transReset _ h := h
  answer s := by
    obtain ⟨-, hb, -⟩ := takeAnswer_keeps s
    exact .of_rings fun d => by rw [State.chan, hb]; rfl
  wire s w := .of_rings fun d => by simp
  resets s l := .of_rings fun d => by simp
  lf c req _ h _ d hd := by
    unfold State.CancelsAt
    rw [State.chan_setLf_ring]
    exact h d hd
  resetFree h d := by rw [State.setGrant_chan]; exact h d
  grant s g := .of_rings fun d => by simp
  ramTx s x := .of_rings fun d => by simp
  sched s l := .of_rings fun d => by simp
  now s t := .of_rings fun d => by simp
  consume s := .of_rings fun d => by simp
  event s e _ := .of_rings fun d => by simp
  queue s payload t _ := .of_rings fun d => by simp [State.queueEvent]
  take s e rest _ := by
    obtain ⟨-, -, hc⟩ := takeEvent_keeps s e rest
    exact .of_rings fun d => by rw [hc]
  irqPos s p _ := .of_rings fun d => by simp
  flagsRead s _ _ _ _ _ _ _ := .of_rings fun d => by simp
  feed s c lvl t := by
    obtain ⟨-, -, h⟩ := feedHook_keeps s c lvl t
    exact .of_rings fun d => (h d).2
  cancel := requestCancel_cancelsKept
  phase s c _ := by
    obtain ⟨_, _, e⟩ := startPhase_eq s c
    rw [e]
    exact .of_ring id
  ringPos _ _ _ _ := .of_ring id
  wait _ _ _ _ := .of_ring id
  stop _ _ := .of_ring nofun

/-- Where RING_CANCEL_ALL has run, or a reset has ended it, no channel rings without a cancellation (R261). -/
theorem ringCancelAll_cancels (s : State) :
    EndsIn [] (fun _ t => ∀ d, t.CancelsAt d) (fun _ t => t.Silent) s (ringCancelAll.run s) := by
  have hpoint := point_ends (A := []) cancelsKept_closed (s.requestCancel .zero)
  simp only [ringCancelAll, run_bind, run_changeS]
  revert hpoint
  cases point.run (s.requestCancel .zero) with
  | error e t =>
    cases e with
    | raised st info => exact fun ⟨hst, _⟩ => nomatch hst
    | reset => exact id
  | ok _ t =>
    intro hkept d
    cases d with
    | zero => exact requestCancel_cancelsKept t .one .zero (hkept .zero (requestCancel_cancelsAt s .zero))
    | one => exact requestCancel_cancelsAt t .one

theorem respond_cancelsAt {s : State} (h : ∀ d, s.CancelsAt d) (r : Response) (d : Chan) : (s.respond r).CancelsAt d := by
  obtain ⟨l, e⟩ | ⟨l, e⟩ := respond_cases s r <;> rw [e]
  · unfold State.CancelsAt
    rw [State.present_chan, State.setResets_chan]
    exact h d
  · exact (blockReset_silent _).cancelsAt d

/-- Settles O33: the one write of RING_CANCEL, and the two of RING_CANCEL_ALL with and without others between them. -/
theorem ringCancelRequestsCancellation : Obligations.RingCancelRequestsCancellation := by
  refine ⟨fun s ch c hs hc => ?_, fun s t d e => ?_, fun s hs hsched => ?_⟩
  · obtain ⟨hidle, hr⟩ := hs
    have hrun : (ringCancel ch).run (s.setCmd (some (.ringCancel ch))) =
        .ok 0 ((s.requestCancel c).setCmd (some (.ringCancel ch))) := by
      have hc' : activeChan (s.setCmd (some (.ringCancel ch))).blk.n ch = some c := hc
      simp only [ringCancel, run_bind, activeChannel_some hc', run_changeS, run_pure, requestCancel_setCmd]
    have hr' : (s.requestCancel c).env.resets = [] := by rw [requestCancel_eq_or]; exact hr
    change command _ (ringCancel ch) s = _
    rw [command_ok hr hrun hr', endCommand_setCmd (requestCancel_idle hidle c), State.requestCancel]
    split <;> rfl
  · change command _ ringCancelAll s = _ at e
    obtain ⟨l, e'⟩ | ⟨l, e'⟩ := command_cases .ringCancelAll ringCancelAll s <;> rw [e'] at e <;> cases e
    · have hends := ringCancelAll_cancels ((s.setCmd (some .ringCancelAll)).setResets l)
      revert hends
      cases ringCancelAll.run ((s.setCmd (some .ringCancelAll)).setResets l) with
      | ok _ t => exact fun h => respond_cancelsAt (fun d => by rw [State.CancelsAt, State.endCommand_chan]; exact h d) _ d
      | error e t =>
        cases e with
        | raised st info => exact fun ⟨hst, _⟩ => nomatch hst
        | reset => exact fun h => h.cancelsAt d
    · exact (blockReset_silent _).cancelsAt d
  · obtain ⟨hidle, hr⟩ := hs
    have hrun : ringCancelAll.run (s.setCmd (some .ringCancelAll)) =
        .ok 0 (((s.requestCancel .zero).requestCancel .one).setCmd (some .ringCancelAll)) := by
      have hs0 : ((s.requestCancel .zero).setCmd (some .ringCancelAll)).env.sched = [] := by
        rw [requestCancel_eq_or]
        exact hsched
      simp only [ringCancelAll, run_bind, run_changeS, requestCancel_setCmd, point_of_no_schedule hs0, run_pure]
    have hr' : ((s.requestCancel .zero).requestCancel .one).env.resets = [] := by
      rw [requestCancel_eq_or, requestCancel_eq_or]
      exact hr
    refine ⟨(s.requestCancel .zero).requestCancel .one, ?_, ?_⟩
    · change command _ ringCancelAll s = _
      rw [command_ok hr hrun hr', endCommand_setCmd (requestCancel_idle (requestCancel_idle hidle _) _)]
    · rw [requestCancel_eq_or, requestCancel_eq_or]
      exact ⟨rfl, rfl, rfl, rfl⟩

end Sys2Proof.Machine
end

