-- ==== Sys2Proof/Proofs/RingerAgent.lean ====
section
/-! The ringer agents: what a move does in each position, the phase it computes, and what whole parts of a ring leave (R253 to
R259). -/

namespace Sys2Proof.Machine

/-! ### The phase computation -/

/-- The wait is over where the deadline is reached or a cancellation is requested (R255, R257). -/
theorem ringWakes_iff {now : Word} {r : Ring} :
    ringWakes now r = true ↔ (now - r.deadline).toNat < 2 ^ 31 ∨ r.cancel = true := by
  simp only [ringWakes, timeReached, elapsedSince, Bool.or_eq_true, decide_eq_true_eq, BitVec.lt_def]
  rfl

/-- A phase duration is at most the phase's own, and it fits in the time remaining (R254). -/
theorem phaseDuration_fits {cad : Cadence} {idx : Byte} {elapsed : Word} (h : elapsed < cad.total) :
    elapsed.toNat + (phaseDuration cad idx elapsed).toNat ≤ cad.total.toNat ∧
      phaseDuration cad idx elapsed ≤ cad.phaseAt idx.toNat := by
  unfold phaseDuration
  dsimp only
  split
  · next hd => exact ⟨by bv_omega, BitVec.le_refl _⟩
  · next hd => exact ⟨by bv_omega, by bv_omega⟩

section
variable {s : State} {c : Chan}

theorem startPhase_cancelled (h : (s.chan c).ring.cancel = true) :
    s.startPhase c = s.setRing c { (s.chan c).ring with pos := .wantExit .cancelled } := by
  rw [State.startPhase, if_pos h, State.setRingPos]

theorem startPhase_exhausted (h : (s.chan c).ring.cancel = false)
    (ht : (s.chan c).cad.total ≤ s.env.now - (s.chan c).ring.t0) :
    s.startPhase c = s.setRing c { (s.chan c).ring with pos := .wantExit .exhausted } := by
  rw [State.startPhase, if_neg (by rw [h]; decide), if_pos ht, State.setRingPos]

theorem startPhase_next (h : (s.chan c).ring.cancel = false) (ht : s.env.now - (s.chan c).ring.t0 < (s.chan c).cad.total) :
    s.startPhase c = s.setRing c { (s.chan c).ring with
      idx := nextIdx (s.chan c).cad (s.chan c).ring.idx
      pos := .wantPhase (phaseState (s.chan c).ring.idx)
        (phaseDuration (s.chan c).cad (s.chan c).ring.idx (s.env.now - (s.chan c).ring.t0)) } := by
  rw [State.startPhase, if_neg (by rw [h]; decide), if_neg (BitVec.not_le.2 ht)]

/-- The next phase, by its index in the table (R253, R254). -/
theorem startPhase_of_index (k : Fin 16) :
    (s.chan c).ring.cancel = false → s.env.now - (s.chan c).ring.t0 < (s.chan c).cad.total →
    (s.chan c).ring.idx.toNat = k.val →
    s.startPhase c = s.setRing c { (s.chan c).ring with
      idx := BitVec.ofNat 8 ((k.val + 1) % (s.chan c).cad.n.toNat)
      pos := .wantPhase (if k.val % 2 = 0 then .ringing else .ringIdle)
        (if (s.chan c).cad.phase[k] ≤ (s.chan c).cad.total - (s.env.now - (s.chan c).ring.t0) then (s.chan c).cad.phase[k]
          else (s.chan c).cad.total - (s.env.now - (s.chan c).ring.t0)) } := by
  intro h ht hk
  rw [startPhase_next h ht, nextIdx, phaseState, phaseDuration, hk, phaseAt_of_fin]

theorem startPhase_setSched (s : State) (l : List Slot) (c : Chan) :
    (s.setSched l).startPhase c = (s.startPhase c).setSched l := by
  simp only [State.startPhase, State.setRingPos, State.setSched_chan, State.setSched_env]
  split
  · rfl
  · split
    · rfl
    · rfl

/-- A computation that gives a phase found time remaining, and gives it the duration of R254. -/
theorem startPhase_wantPhase {req : LfState} {d : Word} (h : ((s.startPhase c).chan c).ring.pos = .wantPhase req d) :
    s.env.now - (s.chan c).ring.t0 < (s.chan c).cad.total ∧
      d = phaseDuration (s.chan c).cad (s.chan c).ring.idx (s.env.now - (s.chan c).ring.t0) := by
  cases hc : (s.chan c).ring.cancel
  · by_cases ht : (s.chan c).cad.total ≤ s.env.now - (s.chan c).ring.t0
    · rw [startPhase_exhausted hc ht, State.chan_setRing_same] at h
      cases h
    · rw [BitVec.not_le] at ht
      rw [startPhase_next hc ht, State.chan_setRing_same] at h
      cases h
      exact ⟨ht, rfl⟩
  · rw [startPhase_cancelled hc, State.chan_setRing_same] at h
    cases h

end

/-! ### The move in each position -/

/-- The agent of a ringing channel is to compute its next phase: it is not waiting yet, or its wait is over (R253, R255). -/
def State.ringerDue (s : State) (c : Chan) : Prop :=
  (s.chan c).ring.pos = .ready ∨ (s.chan c).ring.pos = .waiting ∧ ringWakes s.env.now (s.chan c).ring = true

/-- The `SetLineFeed` of channel c's ringer, and where it goes on (R80, R253, R259). -/
def ringerUnit (c : Chan) (req : LfState) (next : LfResult → RingPos) : Run Unit :=
  whenGranted (.ringer c) (do
    let res ← setLineFeed moment c req
    changeS (fun s => s.setRingPos c (next res)))

/-- The two positions in which a ringer wants a `SetLineFeed`, what it requests, and where it goes on (R253, R259). -/
inductive RingerRequest : RingPos → LfState → (LfResult → RingPos) → Prop
  | phase (req : LfState) (d : Word) : RingerRequest (.wantPhase req d) req (.havePhase d)
  | exit (reason : RingEndReason) : RingerRequest (.wantExit reason) .idle (.haveExit reason)

theorem RingerRequest.next_ne {p : RingPos} {req req' : LfState} {next : LfResult → RingPos} {res : LfResult}
    {d : Word} (h : RingerRequest p req next) : next res ≠ .wantPhase req' d := by
  cases h with
  | phase => exact nofun
  | exit => exact nofun

section
variable {s : State} {c : Chan}

theorem ringerMove_silent (ha : (s.chan c).ring.active = false) : (ringerMove c).run s = .ok () s :=
  show ringerMove c s = _ by simp only [ringerMove, ha, Bool.false_eq_true, if_false]

variable (ha : (s.chan c).ring.active = true)
include ha

theorem ringerMove_due (hd : s.ringerDue c) : (ringerMove c).run s = .ok () (s.startPhase c) := by
  change ringerMove c s = _
  obtain hp | ⟨hp, hw⟩ := hd
  · simp only [ringerMove, ha, if_true, hp]
  · simp only [ringerMove, ha, if_true, hp, hw]

theorem ringerMove_waiting (hp : (s.chan c).ring.pos = .waiting) (hw : ringWakes s.env.now (s.chan c).ring = false) :
    (ringerMove c).run s = .ok () s :=
  show ringerMove c s = _ by simp only [ringerMove, ha, if_true, hp, hw, Bool.false_eq_true, if_false]

theorem ringerMove_request {p : RingPos} {req : LfState} {next : LfResult → RingPos} (h : RingerRequest p req next)
    (hp : (s.chan c).ring.pos = p) : (ringerMove c).run s = (ringerUnit c req next).run s := by
  change ringerMove c s = _
  cases h with
  | phase => simp only [ringerMove, ha, if_true, hp]; rfl
  | exit => simp only [ringerMove, ha, if_true, hp]; rfl

/-- A failed `SetLineFeed` is logged with its status and does not end the ring (R258). -/
theorem ringerMove_failed {p : RingPos} {req : LfState} {next : LfResult → RingPos} (h : RingerRequest p req next)
    {a : Byte} (hp : (s.chan c).ring.pos = next (.commError a)) :
    (ringerMove c).run s = .ok () ((s.emit (.log c .ringLfFail 1)).setRingPos c (next .ok)) := by
  change ringerMove c s = _
  cases h with
  | phase => simp only [ringerMove, ha, if_true, hp]; rfl
  | exit => simp only [ringerMove, ha, if_true, hp]; rfl

theorem ringerMove_phaseDone {d : Word} (hp : (s.chan c).ring.pos = .havePhase d .ok) :
    (ringerMove c).run s = .ok () (s.beginWait c d) :=
  show ringerMove c s = _ by simp only [ringerMove, ha, if_true, hp]

theorem ringerMove_exitDone {reason : RingEndReason} (hp : (s.chan c).ring.pos = .haveExit reason .ok) :
    (ringerMove c).run s = .ok () (s.reportEnd c reason) :=
  show ringerMove c s = _ by simp only [ringerMove, ha, if_true, hp]

theorem ringerMove_ended (hp : (s.chan c).ring.pos = .ended) : (ringerMove c).run s = .ok () (s.stopRing c) :=
  show ringerMove c s = _ by simp only [ringerMove, ha, if_true, hp]

end

/-- Where a unit of a ringer leaves it: as it was while it waits for the grant, past the unit, or stopped by a reset. -/
theorem ringerUnit_pos (c : Chan) (req : LfState) (next : LfResult → RingPos) (s : State) :
    settle ((ringerUnit c req next).run s) = s ∨
      (∃ res, ((settle ((ringerUnit c req next).run s)).chan c).ring.pos = next res) ∨
      ((settle ((ringerUnit c req next).run s)).chan c).ring.pos = .ready := by
  rw [ringerUnit, run_whenGranted]
  split
  · right
    rw [run_holding, run_bind]
    have hends := ringerLineFeed_ends (A := []) soundKept_closedOps c req (s.setGrant (.ringer c))
    revert hends
    cases (setLineFeed moment c req).run (s.setGrant (.ringer c)) with
    | ok res t =>
      refine fun _ => .inl ⟨res, ?_⟩
      simp [settle, State.setRingPos]
    | error e t =>
      cases e with
      | raised st info => exact fun ⟨hst, _⟩ => nomatch hst
      | reset =>
        intro ⟨_, hb⟩
        refine .inr ?_
        rw [settle, State.setGrant_chan, State.chan, hb]
        cases c <;> rfl
  · exact .inl rfl

/-- Only the phase computation leaves a ringer wanting a phase that it did not want before. -/
theorem ringerMove_wantPhase {s : State} {c : Chan} {req : LfState} {d : Word}
    (hp : (s.chan c).ring.pos ≠ .wantPhase req d)
    (hu : ((settle ((ringerMove c).run s)).chan c).ring.pos = .wantPhase req d) :
    settle ((ringerMove c).run s) = s.startPhase c := by
  have stays (h : settle ((ringerMove c).run s) = s) : False := hp (by rwa [h] at hu)
  have moved {t} (h : (ringerMove c).run s = .ok () t) (ht : (t.chan c).ring.pos ≠ .wantPhase req d) : False := by
    rw [h] at hu
    exact ht hu
  cases ha : (s.chan c).ring.active
  · exact (stays (by rw [ringerMove_silent ha]; rfl)).elim
  · have unit {p req' next} (h : RingerRequest p req' next) (hpos : (s.chan c).ring.pos = p) : False := by
      rw [ringerMove_request ha h hpos] at hu stays
      obtain hsame | ⟨res, hnext⟩ | hready := ringerUnit_pos c req' next s
      · exact stays hsame
      · exact h.next_ne (hnext.symm.trans hu)
      · cases hready.symm.trans hu
    cases hpos : (s.chan c).ring.pos with
    | ready => rw [ringerMove_due ha (.inl hpos)]; rfl
    | wantPhase req' d' => exact (unit (.phase req' d') hpos).elim
    | havePhase d' res =>
      cases res with
      | ok => exact (moved (ringerMove_phaseDone ha hpos) (by simp [State.beginWait])).elim
      | commError a =>
        exact (moved (ringerMove_failed ha (.phase req d') hpos) (by simp [State.setRingPos])).elim
    | waiting =>
      cases hw : ringWakes s.env.now (s.chan c).ring
      · exact (stays (by rw [ringerMove_waiting ha hpos hw]; rfl)).elim
      · rw [ringerMove_due ha (.inr ⟨hpos, hw⟩)]; rfl
    | wantExit reason => exact (unit (.exit reason) hpos).elim
    | haveExit reason res =>
      cases res with
      | ok => exact (moved (ringerMove_exitDone ha hpos) (by simp [State.reportEnd, State.setRingPos])).elim
      | commError a => exact (moved (ringerMove_failed ha (.exit reason) hpos) (by simp [State.setRingPos])).elim
    | ended => exact (moved (ringerMove_ended ha hpos) (by simp [State.stopRing])).elim

/-! ### Steps of the agent -/

section
variable {s u : State} {c : Chan} {l : List Slot}

theorem step_of_ringer (hs : s.env.sched = .ringer c :: l) :
    step s = .next (settle ((ringerMove c).run (s.setSched l))) := step_eq_slotTurn hs

theorem step_of_ringerMove (hs : s.env.sched = .ringer c :: l) (h : (ringerMove c).run (s.setSched l) = .ok () u) :
    step s = .next u := by
  rw [step_of_ringer hs, h, settle]

/-- Settles O37: a new phase comes of the phase computation. -/
theorem phaseDurationFitsInTheTimeRemaining : Obligations.PhaseDurationFitsInTheTimeRemaining := by
  intro s u c l req d hs e hp hu
  rw [step_of_ringer hs] at e
  cases e
  rw [← State.setSched_chan s l] at hp
  have hphase := ringerMove_wantPhase hp hu
  rw [hphase] at hu
  obtain ⟨ht, rfl⟩ := startPhase_wantPhase hu
  rw [State.setSched_chan, State.setSched_env] at ht ⊢
  exact phaseDuration_fits ht


/-- The step of a ringer that is due is its phase computation. -/
theorem step_of_due (hs : s.env.sched = .ringer c :: l) (ha : (s.chan c).ring.active = true) (hd : s.ringerDue c) :
    step s = .next ((s.startPhase c).setSched l) := by
  rw [← State.setSched_chan s l] at ha
  rw [← startPhase_setSched]
  refine step_of_ringerMove hs (ringerMove_due ha ?_)
  rwa [State.ringerDue, State.setSched_chan]

/-- Settles O35: the move of a ringer that waits, and the three outcomes of the phase computation of one that is due. -/
theorem ringerWaitsForDeadlineOrCancellation : Obligations.RingerWaitsForDeadlineOrCancellation := by
  intro s c l k
  dsimp only
  rw [← ringWakes_iff]
  intro ha hs
  refine ⟨fun hp hd => ?_, fun hd hc => ?_, fun hd hc ht => ?_, fun hd hc ht hk _ => ?_⟩
  · have hw : ringWakes s.env.now (s.chan c).ring = false := Bool.eq_false_iff.2 fun hw => hd (.inr ⟨hp, hw⟩)
    rw [← State.setSched_chan s l] at ha hp hw
    exact step_of_ringerMove hs (ringerMove_waiting ha hp hw)
  · rw [step_of_due hs ha hd, startPhase_cancelled hc]
    cases c <;> rfl
  · rw [step_of_due hs ha hd, startPhase_exhausted hc ht]
    cases c <;> rfl
  · rw [step_of_due hs ha hd, startPhase_of_index k hc ht hk]
    cases c <;> rfl

section
variable {p : RingPos} {req : LfState} {next : LfResult → RingPos} (h : RingerRequest p req next)
include h

/-- The `SetLineFeed` of a ringer where nobody holds the transport and no reset falls (R220, R80). -/
theorem step_of_request {ops : List WireOp} {as rest : List Answer} {res : LfResult} {moved : Bool}
    (ha : (s.chan c).ring.active = true) (hp : (s.chan c).ring.pos = p) (hg : s.blk.grant = .none)
    (hs : s.env.sched = .ringer c :: l) (hr : s.env.resets = []) (hlf : LinefeedRun s.par c req ops as res moved)
    (hans : s.env.answers = as ++ rest) :
    step s = .next (((s.afterOps ops rest).setSched l).setChan c
      { s.chan c with
        lf := if moved then req else (s.chan c).lf
        ring := { (s.chan c).ring with pos := next res } }) := by
  have hrun := setLineFeed_run (s := (s.setSched l).setGrant (.ringer c)) (moment_still hr) hlf hans
  have hg' : (s.setSched l).blk.grant = .none := hg
  rw [← State.setSched_chan s l] at ha hp
  refine step_of_ringerMove hs ((ringerMove_request ha h hp).trans ?_)
  rw [ringerUnit, run_whenGranted, if_pos hg', run_holding, run_bind, hrun]
  refine congrArg (EStateM.Result.ok ()) ?_
  conv_rhs => rw [← State.setGrant_none_of_none hg]
  cases moved <;> cases c <;> rfl

/-- A failure of a ringer's `SetLineFeed` is logged in one move, and a success needs none (R258). -/
theorem steps_of_failLog {res : LfResult} (ha : (s.chan c).ring.active = true) (hp : (s.chan c).ring.pos = next res)
    (hs : s.env.sched = List.replicate (lfFailLog c res).length (.ringer c) ++ l) :
    steps (lfFailLog c res).length s =
      .next (((s.setSched l).setRingPos c (next .ok)).afterEvents (lfFailLog c res)) := by
  cases res with
  | ok =>
    have hsame : (s.setSched l).setRingPos c (next .ok) = s := by
      calc (s.setSched l).setRingPos c (next .ok)
          = (s.setSched s.env.sched).setRingPos c (s.chan c).ring.pos := by rw [hp, hs]; rfl
        _ = s := s.setChan_chan c
    rw [lfFailLog, State.afterEvents_nil, hsame]
    rfl
  | commError a =>
    rw [← State.setSched_chan s l] at ha hp
    refine steps_one (step_of_ringerMove hs ((ringerMove_failed ha h hp).trans ?_))
    cases c <;> rfl

end

/-- The end of a phase's `SetLineFeed`: a failure is logged, and the wait begins (R253, R258). -/
theorem steps_of_phaseEnd {d : Word} {res : LfResult} (ha : (s.chan c).ring.active = true)
    (hp : (s.chan c).ring.pos = .havePhase d res)
    (hs : s.env.sched = List.replicate ((lfFailLog c res).length + 1) (.ringer c) ++ l) :
    steps ((lfFailLog c res).length + 1) s = .next (((s.setSched l).setRing c
      { (s.chan c).ring with deadline := s.env.now + d, pos := .waiting }).afterEvents (lfFailLog c res)) := by
  rw [List.replicate_add, List.append_assoc] at hs
  rw [steps_add_of_next (steps_of_failLog (.phase .ringing d) ha hp hs)]
  refine (steps_one (step_of_ringerMove (l := l) rfl (ringerMove_phaseDone (d := d) ?_ ?_))).trans ?_
  · cases c <;> exact ha
  · cases c <;> rfl
  · cases c <;> rfl

/-- A phase once it is computed: its `SetLineFeed`, the log of a failure, and the wait begun (R253, R258). -/
theorem steps_of_phase {req : LfState} {d : Word} {ops : List WireOp} {as rest : List Answer} {res : LfResult}
    {moved : Bool} (ha : (s.chan c).ring.active = true) (hp : (s.chan c).ring.pos = .wantPhase req d)
    (hg : s.blk.grant = .none) (hs : s.env.sched = List.replicate ((lfFailLog c res).length + 2) (.ringer c) ++ l)
    (hr : s.env.resets = []) (hlf : LinefeedRun s.par c req ops as res moved) (hans : s.env.answers = as ++ rest) :
    steps ((lfFailLog c res).length + 2) s = .next ((((s.afterOps ops rest).setSched l).setChan c
      { s.chan c with
        lf := if moved then req else (s.chan c).lf
        ring := { (s.chan c).ring with deadline := s.env.now + d, pos := .waiting } }).afterEvents (lfFailLog c res)) := by
  rw [steps_succ_of_next (step_of_request (.phase req d) ha hp hg hs hr hlf hans)]
  refine (steps_of_phaseEnd (d := d) (l := l) ?_ ?_ rfl).trans ?_
  · cases c <;> exact ha
  · cases c <;> rfl
  · cases c <;> rfl

/-- RING_END and the stop are one move each (R259, R14). -/
theorem steps_two_of_exitDone {reason : RingEndReason} (ha : (s.chan c).ring.active = true)
    (hp : (s.chan c).ring.pos = .haveExit reason .ok) (hs : s.env.sched = .ringer c :: .ringer c :: l) :
    steps 2 s = .next (((s.setSched l).setRing c
      { (s.chan c).ring with active := false, cancel := false, pos := .ready }).afterEvents [.ringEnd c reason]) := by
  rw [← State.setSched_chan s (.ringer c :: l)] at ha hp
  rw [steps_succ_of_next (step_of_ringerMove hs (ringerMove_exitDone ha hp))]
  refine (steps_one (step_of_ringerMove (l := l) rfl (ringerMove_ended ?_ ?_))).trans ?_
  · cases c <;> exact ha
  · cases c <;> rfl
  · cases c <;> rfl

/-- The end of a ring once its `SetLineFeed` has ended: a failure is logged, RING_END reported, the agent stopped (R258,
R259). -/
theorem steps_of_exit {reason : RingEndReason} {res : LfResult} (ha : (s.chan c).ring.active = true)
    (hp : (s.chan c).ring.pos = .haveExit reason res)
    (hs : s.env.sched = List.replicate (2 + (lfFailLog c res).length) (.ringer c) ++ l) :
    steps (2 + (lfFailLog c res).length) s = .next (((s.setSched l).setRing c
      { (s.chan c).ring with active := false, cancel := false, pos := .ready }).afterEvents
        (lfFailLog c res ++ [.ringEnd c reason])) := by
  rw [Nat.add_comm, List.replicate_add, List.append_assoc] at hs
  rw [Nat.add_comm, steps_add_of_next (steps_of_failLog (.exit reason) ha hp hs), ← State.afterEvents_afterEvents]
  refine (steps_two_of_exitDone (reason := reason) (l := l) ?_ ?_ rfl).trans ?_
  · cases c <;> exact ha
  · cases c <;> rfl
  · cases c <;> rfl

/-- Settles O36: the exit's `SetLineFeed`, and the moves that follow it. -/
theorem ringerExitReportsAndStops : Obligations.RingerExitReportsAndStops := by
  refine ⟨fun s c reason ops as res moved rest l ha hp hg hs hr hlf hans => ?_, fun s c reason res l => steps_of_exit⟩
  rw [Nat.add_right_comm 2 1] at hs ⊢
  rw [steps_succ_of_next (step_of_request (.exit reason) ha hp hg hs hr hlf hans)]
  refine (steps_of_exit (reason := reason) (l := l) ?_ ?_ rfl).trans ?_
  · cases c <;> exact ha
  · cases c <;> rfl
  · cases c <;> rfl

/-- Settles O34: the phase computation, its `SetLineFeed`, the log of a failure, and the wait begun. -/
theorem ringerRunsOnePhase : Obligations.RingerRunsOnePhase := by
  intro s c ops as res moved rest l k
  dsimp only
  intro ha hp hc hg hk _ ht hs hr hlf hans
  rw [Nat.add_comm] at hs ⊢
  rw [steps_succ_of_next (step_of_due hs ha (.inl hp)), startPhase_of_index k hc ht hk]
  refine (steps_of_phase (d := ?_) (l := l) ?_ ?_ ?_ rfl ?_ (by exact hlf) (by exact hans)).trans ?_
  rotate_left
  · cases c <;> exact ha
  · rw [State.setSched_chan, State.chan_setRing_same]
  · cases c <;> exact hg
  · exact hr
  · cases c <;> rfl

end
end Sys2Proof.Machine
end

