-- ==== Sys2Proof/Proofs/HookDetector.lean ====
section
/-! The hook detector's operations on a channel, and the two commands that are one of them each (R280 to R289). -/

namespace Sys2Proof.Machine

/-! ### One operation of a channel's detector -/

/-- One operation of channel c's detector: its HookDebounceState moves on, and its events are emitted (R280, R282, R304). -/
def State.detectorOp (s : State) (c : Chan) (op : DetectorOp) : State :=
  (s.setHook c (op.act (s.chan c).thr c (s.chan c).hook).1).afterEvents (op.act (s.chan c).thr c (s.chan c).hook).2

theorem feedHook_eq_detectorOp (s : State) (c : Chan) (lvl : Level) (t : Word) :
    s.feedHook c lvl t = s.detectorOp c (.sample lvl t) := by
  simp only [State.feedHook, State.detectorOp, DetectorOp.act]
  rcases hookSample (s.chan c).thr lvl t (s.chan c).hook with ⟨h, _ | _⟩
  · exact (State.afterEvents_nil _).symm
  · rfl

theorem tickHook_eq_detectorOp (s : State) (c : Chan) (t : Word) : s.tickHook c t = s.detectorOp c (.tick t) := by
  simp only [State.tickHook, State.detectorOp, DetectorOp.act]
  cases tickEvent c (hookTickReport (s.chan c).thr t (s.chan c).hook) with
  | none => exact (State.afterEvents_nil _).symm
  | some e => rfl

theorem initHook_eq_detectorOp (s : State) (c : Chan) (r : Byte) :
    s.initHook c r = s.detectorOp c (.start (hookLevelOf r) s.env.now) :=
  (State.afterEvents_nil _).symm

theorem detectorOp_setCmd (s : State) (i : Option Instr) (c : Chan) (op : DetectorOp) :
    (s.setCmd i).detectorOp c op = (s.detectorOp c op).setCmd i := by
  unfold State.detectorOp
  rw [State.setCmd_chan]
  cases c <;> rfl

theorem detectorOp_idle {s : State} (h : s.Idle) (c : Chan) (op : DetectorOp) : (s.detectorOp c op).Idle := by
  cases c <;> exact h

/-- A command that is one operation of an active channel's detector, whatever the schedule (R286, R287). -/
theorem command_of_detectorOp {f : State → Chan → State} {op : DetectorOp} (hf : ∀ s c, f s c = s.detectorOp c op)
    {s : State} {ch : BitVec 4} {c : Chan} (hs : s.Calm) (hc : activeChan s.blk.n ch = some c) (i : Instr) :
    command i (do let c ← activeChannel ch; changeS (fun s => f s c); pure 0) s =
      .next ((s.detectorOp c op).present ⟨.ok, 0⟩) := by
  obtain ⟨hidle, hr⟩ := hs
  have hc' : activeChan (s.setCmd (some i)).blk.n ch = some c := hc
  have hrun : (do let c ← activeChannel ch; changeS (fun s => f s c); pure 0 : Run Word).run (s.setCmd (some i)) =
      .ok 0 ((s.detectorOp c op).setCmd (some i)) := by
    simp only [run_bind, activeChannel_some hc', run_changeS, run_pure, hf, detectorOp_setCmd]
  rw [command_ok hr hrun hr, endCommand_setCmd (detectorOp_idle hidle c op)]

section
variable {s : State} {ch : BitVec 4} {c : Chan} (hs : s.Calm) (hc : activeChan s.blk.n ch = some c)
include hs hc

theorem exec_hookSample (lvl : Level) (t : Word) :
    exec (.hookSample ch lvl t) s = .next ((s.feedHook c lvl t).present ⟨.ok, 0⟩) := by
  rw [feedHook_eq_detectorOp]
  exact command_of_detectorOp (fun s c => feedHook_eq_detectorOp s c lvl t) hs hc _

theorem exec_hookTick (t : Word) : exec (.hookTick ch t) s = .next ((s.tickHook c t).present ⟨.ok, 0⟩) := by
  rw [tickHook_eq_detectorOp]
  exact command_of_detectorOp (fun s c => tickHook_eq_detectorOp s c t) hs hc _

end

/-- Settles O38: the command is the sample, whose three cases exclude each other. -/
theorem hookSampleClassifiesOneLevelChange : Obligations.HookSampleClassifiesOneLevelChange := by
  intro s ch c lvl t hs hc
  dsimp only
  rw [exec_hookSample hs hc]
  refine ⟨fun hl => ?_, fun hl hw => ?_, fun hl hw => ?_⟩
  · rw [feedHook_same hl]
  · rw [feedHook_flash hl hw]
  · rw [feedHook_change hl hw, pulsesAfter]

/-! ### What a tick reports -/

section
variable {thr : HookThresholds} {t : Word} {h : Hook}

/-- A tick that does not end the awaiting (R282, R284). -/
theorem hookTickReport_of_not_ended (hn : ¬ (h.await = true ∧ thr.minInterDigit ≤ t - h.lastT)) :
    hookTickReport thr t h = .nothing := by
  unfold hookTickReport
  split
  · rfl
  · next ha => exact if_neg fun hd => hn ⟨Bool.eq_true_of_not_eq_false ha, hd⟩

section
variable (he : h.await = true ∧ thr.minInterDigit ≤ t - h.lastT)
include he

theorem hookTickReport_of_timeout (ht : thr.minHookTimeout < t - h.lastT) :
    hookTickReport thr t h = .timeout h.level := by
  obtain ⟨ha, hd⟩ := he
  rw [hookTickReport, if_neg (by rw [ha]; decide)]
  exact (if_pos hd).trans (if_pos ht)

theorem hookTickReport_of_in_time (ht : ¬ thr.minHookTimeout < t - h.lastT) :
    hookTickReport thr t h = if h.count ≠ 0 then .digit h.count else .nothing := by
  obtain ⟨ha, hd⟩ := he
  rw [hookTickReport, if_neg (by rw [ha]; decide)]
  exact (if_pos hd).trans (if_neg ht)

end

theorem hookTickReport_awaited (hr : hookTickReport thr t h ≠ .nothing) : h.await = true := by
  by_contra ha
  exact hr (hookTickReport_of_not_ended fun ⟨ha', _⟩ => ha ha')

/-- A tick that reports nothing leaves the state, and one that reports resets it and gives one event (R282, R281). -/
theorem hookTick_cases (thr : HookThresholds) (t : Word) (h : Hook) (c : Chan) :
    (hookTick thr t h = h ∧ tickEvent c (hookTickReport thr t h) = none) ∨
    (h.await = true ∧ hookTick thr t h = hookReset h ∧
      ∃ e, tickEvent c (hookTickReport thr t h) = some e ∧ ∀ d, e.reports d = decide (c = d)) := by
  cases hr : hookTickReport thr t h with
  | nothing => exact .inl ⟨by rw [hookTick, hr], rfl⟩
  | timeout lvl =>
    refine .inr ⟨hookTickReport_awaited (by rw [hr]; exact nofun), by rw [hookTick, hr], ?_⟩
    cases lvl <;> exact ⟨_, rfl, fun _ => rfl⟩
  | digit count => exact .inr ⟨hookTickReport_awaited (by rw [hr]; exact nofun), by rw [hookTick, hr], _, rfl, fun _ => rfl⟩

end

section
variable {s : State} {c : Chan} {t : Word}

theorem tickHook_of_no_event (he : tickEvent c (hookTickReport (s.chan c).thr t (s.chan c).hook) = none) :
    s.tickHook c t = s := by
  obtain ⟨hsame, -⟩ | ⟨-, -, e, he', -⟩ := hookTick_cases (s.chan c).thr t (s.chan c).hook c
  · simp only [State.tickHook, he, hsame, State.setHook_hook]
  · cases he.symm.trans he'

theorem tickHook_of_event {e : Event} (he : tickEvent c (hookTickReport (s.chan c).thr t (s.chan c).hook) = some e) :
    s.tickHook c t = (s.setHook c { (s.chan c).hook with count := 0, await := false }).emit e := by
  obtain ⟨-, hnone⟩ | ⟨-, hreset, -⟩ := hookTick_cases (s.chan c).thr t (s.chan c).hook c
  · cases he.symm.trans hnone
  · simp only [State.tickHook, he, hreset, hookReset]

end

/-- Settles O39: the command is the tick, by what the tick reports. -/
theorem hookTickReportsTimeoutOrDigit : Obligations.HookTickReportsTimeoutOrDigit := by
  intro s ch c t hs hc
  dsimp only
  rw [exec_hookTick hs hc]
  refine ⟨fun he ht hl => ?_, fun he ht hl => ?_, fun he ht hn => ?_, fun he ht hn => ?_, fun hn => ?_⟩
  · rw [tickHook_of_event (e := .onhookTimeout c) (by rw [hookTickReport_of_timeout he ht, hl]; rfl)]
  · rw [tickHook_of_event (e := .offhookTimeout c) (by rw [hookTickReport_of_timeout he ht, hl]; rfl)]
  · rw [tickHook_of_event (by rw [hookTickReport_of_in_time he ht, if_pos hn]; rfl)]
  · rw [tickHook_of_no_event (by rw [hookTickReport_of_in_time he ht, if_neg (not_not_intro hn)]; rfl)]
  · rw [tickHook_of_no_event (by rw [hookTickReport_of_not_ended hn]; rfl)]

end Sys2Proof.Machine
end

