-- ==== Sys2Proof/Proofs/DetectorHistory.lean ====
section
/-! What changes a channel's detector: in every step a sequence of its operations, in a move of another agent the sample the
interrupt agent feeds, and how many reports such a sequence can give (R284, R288). -/

namespace Sys2Proof.Machine

/-! ### Sequences of operations -/

theorem detect_append (thr : HookThresholds) (c : Chan) (ops ops' : List DetectorOp) (h : Hook) :
    detect thr c (ops ++ ops') h =
      ((detect thr c ops' (detect thr c ops h).1).1,
        (detect thr c ops h).2 ++ (detect thr c ops' (detect thr c ops h).1).2) := by
  induction ops generalizing h with
  | nil => rfl
  | cons op rest ih => simp only [List.cons_append, detect, ih, List.append_assoc]

theorem detect_singleton (thr : HookThresholds) (c : Chan) (op : DetectorOp) (h : Hook) :
    detect thr c [op] h = op.act thr c h := by
  simp only [detect, List.append_nil]

/-- The events of an operation are those of its own channel's detector. -/
theorem act_events_detected {thr : HookThresholds} {c : Chan} {h : Hook} {op : DetectorOp} {e : Event}
    (he : e ∈ (op.act thr c h).2) (d : Chan) : e.detected d = decide (c = d) := by
  cases op with
  | sample lvl t =>
    simp only [DetectorOp.act] at he
    split at he
    · rw [List.mem_singleton.1 he]
      simp [Event.detected, Event.reports]
    · cases he
  | tick t =>
    simp only [DetectorOp.act] at he
    obtain ⟨-, hnone⟩ | ⟨-, -, e', he', hreports⟩ := hookTick_cases thr t h c
    · rw [hnone] at he
      cases he
    · rw [he', Option.toList_some, List.mem_singleton] at he
      subst he
      have hflash : e ≠ .hookflash d := fun hf => by
        have hc := hreports c
        rw [hf, decide_eq_true rfl] at hc
        cases hc
      rw [Event.detected, hreports, decide_eq_false hflash, Bool.false_or]
  | start lvl t => cases he

/-- A report ends an awaiting, and only a level change begins one (R280, R282, R284). -/
theorem act_reports_le (thr : HookThresholds) (c : Chan) (op : DetectorOp) (h : Hook) :
    ((op.act thr c h).2.filter (Event.reports c)).length + (op.act thr c h).1.await.toNat ≤
      levelChanges thr c [op] h + h.await.toNat := by
  cases op with
  | sample lvl t =>
    simp only [levelChanges, DetectorOp.act]
    by_cases hl : lvl = h.level
    · rw [hookSample_same hl, if_pos hl]
      simp
    · rw [if_neg hl]
      by_cases hw : thr.minFlash ≤ t - h.lastT ∧ t - h.lastT ≤ thr.maxFlash
      · rw [hookSample_flash hl hw]
        simp [Event.reports]
      · rw [hookSample_change hl hw]
        simp
  | tick t =>
    simp only [levelChanges, DetectorOp.act]
    obtain ⟨hsame, hnone⟩ | ⟨ha, hreset, e, he, hreports⟩ := hookTick_cases thr t h c
    · rw [hsame, hnone]
      simp
    · rw [hreset, he, ha]
      simp [hookReset, hreports]
  | start lvl t => simp [levelChanges, DetectorOp.act]

/-- In every sequence the reports are paid for by level changes. -/
theorem detect_reports_le (thr : HookThresholds) (c : Chan) (ops : List DetectorOp) (h : Hook) :
    ((detect thr c ops h).2.filter (Event.reports c)).length + (detect thr c ops h).1.await.toNat ≤
      levelChanges thr c ops h + h.await.toNat := by
  induction ops generalizing h with
  | nil => simp [detect, levelChanges]
  | cons op rest ih =>
    have hop := act_reports_le thr c op h
    have hrest := ih (op.act thr c h).1
    simp only [levelChanges, detect, List.filter_append, List.length_append, Nat.add_zero] at hop hrest ⊢
    omega

/-! ### What leaves a detector alone -/

/-- The events of channel c's detector so far. -/
def State.detections (s : State) (c : Chan) : List Event := s.out.events.filter (Event.detected c)

/-- The parameters and channel c's detector stay, and the detector emits nothing. -/
structure DetectorKept (c : Chan) (s t : State) : Prop where
  par : t.par = s.par
  hook : (t.chan c).hook = (s.chan c).hook
  thr : (t.chan c).thr = (s.chan c).thr
  detections : t.detections c = s.detections c

section
variable {c : Chan}

theorem DetectorKept.of_chan {s t : State} (hp : t.par = s.par) (hc : t.chan c = s.chan c)
    (he : t.out.events = s.out.events) : DetectorKept c s t :=
  ⟨hp, by rw [hc], by rw [hc], by rw [State.detections, he]; rfl⟩

/-- A change of the block that leaves the channels. -/
theorem DetectorKept.of_same {s t : State} (hp : t.par = s.par) (h0 : t.blk.ch0 = s.blk.ch0) (h1 : t.blk.ch1 = s.blk.ch1)
    (he : t.out.events = s.out.events) : DetectorKept c s t :=
  .of_chan hp (by cases c; exacts [h0, h1]) he

theorem DetectorKept.trans {s t u : State} (h1 : DetectorKept c s t) (h2 : DetectorKept c t u) : DetectorKept c s u where
  par := h2.par.trans h1.par
  hook := h2.hook.trans h1.hook
  thr := h2.thr.trans h1.thr
  detections := h2.detections.trans h1.detections

theorem emit_detectorKept (s : State) {e : Event} (he : e.detected c = false) : DetectorKept c s (s.emit e) :=
  ⟨rfl, by rw [State.emit_chan], by rw [State.emit_chan], by simp [State.detections, he]⟩

theorem setRing_detectorKept (s : State) (d : Chan) (r : Ring) : DetectorKept c s (s.setRing d r) :=
  ⟨rfl, State.chan_setRing_hook s d r c, State.chan_setRing_thr s d r c, rfl⟩

theorem detectorOp_other_kept (s : State) {d : Chan} (hd : d ≠ c) (op : DetectorOp) :
    DetectorKept c s (s.detectorOp d op) := by
  have hchan : (s.detectorOp d op).chan c = s.chan c := by
    rw [State.detectorOp, State.afterEvents_chan, State.chan_setHook_other s _ hd.symm]
  refine ⟨rfl, by rw [hchan], by rw [hchan], ?_⟩
  have hnone : (op.act (s.chan d).thr d (s.chan d).hook).2.filter (Event.detected c) = [] :=
    List.filter_eq_nil_iff.2 fun e he => by rw [act_events_detected he]; simpa using hd
  simp [State.detections, State.detectorOp, hnone]

theorem takeEvent_detectorKept (s : State) (e : IrqEvent) (rest : List IrqEvent) :
    DetectorKept c s (s.takeEvent e rest) := by
  obtain ⟨hp, ho, hc⟩ := takeEvent_keeps s e rest
  exact .of_chan hp (hc c) (by rw [ho])

theorem requestCancel_detectorKept (s : State) (d : Chan) : DetectorKept c s (s.requestCancel d) := by
  obtain ⟨_, e⟩ := requestCancel_eq s d
  rw [e]
  exact setRing_detectorKept s d _

theorem startPhase_detectorKept (s : State) (d : Chan) : DetectorKept c s (s.startPhase d) := by
  obtain ⟨_, _, e⟩ := startPhase_eq s d
  rw [e]
  exact setRing_detectorKept s d _

theorem detectorKept_closedOps : ClosedOps (DetectorKept c) WasReset where
  refl _ := .of_same rfl rfl rfl rfl
  trans := DetectorKept.trans
  reset h := .of_blockReset h.par
  transReset h := .after h.par
  answer s := by
    obtain ⟨hp, hb, ho, -⟩ := takeAnswer_keeps s
    exact .of_same hp (by rw [hb]) (by rw [hb]) (by rw [ho])
  wire _ _ := .of_same rfl rfl rfl rfl
  resets _ _ := .of_same rfl rfl rfl rfl
  lf d x _ h _ := h.trans ⟨rfl, State.chan_setLf_hook _ d x c, State.chan_setLf_thr _ d x c, rfl⟩

/-! ### The moves of the others -/

/-- How every move ends that feeds channel c no sample. -/
abbrev KeepsDetector (c : Chan) (x : Run Unit) : Prop := Ends [] (DetectorKept c) WasReset x

/-- An atomic unit of another agent: a register read or a `SetLineFeed` (R80). -/
theorem othersUnit_keepsDetector {g : Grant} {body : Run Unit} (h : OthersUnit g body) :
    KeepsDetector c (whenGranted g body) := by
  have hbody : KeepsDetector c body := by
    cases h with
    | read d a next =>
      exact bind_ends detectorKept_closedOps (readOp_ends detectorKept_closedOps d a) fun _ =>
        changeS_ends fun _ => .of_same rfl rfl rfl rfl
    | linefeed d req next =>
      exact bind_ends detectorKept_closedOps (ringerLineFeed_ends detectorKept_closedOps d req) fun _ =>
        changeS_ends fun s => setRing_detectorKept s d _
  have hgrant (s : State) (g : Grant) : DetectorKept c s (s.setGrant g) := .of_same rfl rfl rfl rfl
  intro s
  rw [run_whenGranted]
  split
  · have hb := EndsIn.after detectorKept_closedOps (hgrant s g) (hbody (s.setGrant g))
    rw [run_holding]
    cases hr : body.run (s.setGrant g) with
    | ok a t =>
      rw [hr] at hb
      exact hb.trans (hgrant t .none)
    | error e t =>
      rw [hr] at hb
      cases e with
      | raised st info => exact ⟨hb.1, hb.2.trans (hgrant t .none)⟩
      | reset => exact WasReset.free hb
  · exact detectorKept_closedOps.refl s

theorem discardEvent_keepsDetector (code : LogCode) : KeepsDetector c (discardEvent code) :=
  bind_ends detectorKept_closedOps (readS_ends detectorKept_closedOps _) fun _ =>
    bind_ends detectorKept_closedOps (changeS_ends fun _ => .of_same rfl rfl rfl rfl) fun _ =>
    bind_ends detectorKept_closedOps (moment_ends detectorKept_closedOps) fun _ => changeS_ends fun s =>
    emit_detectorKept s rfl

theorem gateEvent_keepsDetector (payload : Option Byte) (t : Word) : KeepsDetector c (gateEvent payload t) :=
  bind_ends detectorKept_closedOps (readS_ends detectorKept_closedOps _) fun _ => ite_ends
    (changeS_ends fun s => by
      split
      · exact .of_same rfl rfl rfl rfl
      · exact .of_same rfl rfl rfl rfl)
    (discardEvent_keepsDetector _)

theorem eventMove_keepsDetector : KeepsDetector c eventMove := by
  intro s
  change EndsIn _ _ _ s (eventMove s)
  unfold eventMove
  split
  · exact .of_same rfl rfl rfl rfl
  · split
    · exact gateEvent_keepsDetector _ _ s
    · exact gateEvent_keepsDetector _ _ s
    · exact discardEvent_keepsDetector _ s

/-- A move of the interrupt agent that feeds channel c no sample. -/
theorem irqMove_keepsDetector {s : State} (hs : ∀ t todo b, s.blk.irqPos ≠ .haveHook t c todo (some b)) :
    EndsIn [] (DetectorKept c) WasReset s (irqMove.run s) := by
  have goes (p : IrqPos) {u : State} (h : DetectorKept c s u) : DetectorKept c s (u.setIrqPos p) :=
    h.trans (.of_same rfl rfl rfl rfl)
  have refl : DetectorKept c s s := detectorKept_closedOps.refl s
  change EndsIn _ _ _ s (irqMove s)
  unfold irqMove
  cases hp : s.blk.irqPos with
  | idle =>
    dsimp only
    split
    · exact refl
    · exact takeEvent_detectorKept s _ _
  | wantStatus t => exact othersUnit_keepsDetector (.read .zero _ (.haveStatus t)) s
  | haveStatus t r =>
    cases r with
    | none => exact goes _ (emit_detectorKept s rfl)
    | some b => exact goes _ refl
  | pairs t todo =>
    cases todo with
    | nil => exact goes _ refl
    | cons x rest =>
      dsimp only
      split
      · exact goes _ refl
      · exact goes _ refl
  | wantFlag t d i flags todo => exact othersUnit_keepsDetector (.read d _ (.haveFlag t d i flags todo)) s
  | haveFlag t d i flags todo r =>
    cases r with
    | none => exact goes _ (emit_detectorKept s rfl)
    | some b => exact goes _ refl
  | dispatch t d left flags todo =>
    cases left with
    | nil =>
      refine goes _ ?_
      unfold State.preempt
      split
      · exact requestCancel_detectorKept s d
      · exact refl
    | cons f rest => exact goes _ (emit_detectorKept s rfl)
  | wantHook t d todo => exact othersUnit_keepsDetector (.read d _ (.haveHook t d todo)) s
  | haveHook t d todo r =>
    cases r with
    | none => exact goes _ (emit_detectorKept s rfl)
    | some b =>
      have hd : d ≠ c := fun e => hs t todo b (e ▸ hp)
      refine goes _ ?_
      rw [feedHook_eq_detectorOp]
      exact detectorOp_other_kept s hd _

theorem ringerMove_keepsDetector (d : Chan) : KeepsDetector c (ringerMove d) := by
  intro s
  have rings (r : Ring) {u : State} (h : DetectorKept c s u) : DetectorKept c s (u.setRing d r) :=
    h.trans (setRing_detectorKept u d r)
  have refl : DetectorKept c s s := detectorKept_closedOps.refl s
  change EndsIn _ _ _ s (ringerMove d s)
  unfold ringerMove
  dsimp only
  split
  · cases (s.chan d).ring.pos with
    | ready => exact startPhase_detectorKept s d
    | wantPhase req w => exact othersUnit_keepsDetector (.linefeed d req (.havePhase w)) s
    | havePhase w res =>
      cases res with
      | ok => exact rings _ refl
      | commError a => exact rings _ (emit_detectorKept s rfl)
    | waiting =>
      dsimp only
      split
      · exact startPhase_detectorKept s d
      · exact refl
    | wantExit reason => exact othersUnit_keepsDetector (.linefeed d .idle (.haveExit reason)) s
    | haveExit reason res =>
      cases res with
      | ok => exact rings _ (emit_detectorKept s rfl)
      | commError a => exact rings _ (emit_detectorKept s rfl)
    | ended => exact rings _ refl
  · exact refl

/-- Every move of another agent leaves the detector alone, or feeds it the sample the interrupt agent holds, or resets the
block (R288). -/
theorem move_detector_cases (c : Chan) (slot : Slot) (s : State) :
    DetectorKept c s (settle ((move slot).run s)) ∨ WasReset s (settle ((move slot).run s)) ∨
    slot = .interrupt ∧ ∃ t todo b, s.blk.irqPos = .haveHook t c todo (some b) := by
  have ends {r : EStateM.Result Stop State Unit} (h : EndsIn [] (DetectorKept c) WasReset s r) :
      DetectorKept c s (settle r) ∨ WasReset s (settle r) := h.settle
  rw [← or_assoc]
  cases slot with
  | command => exact .inl (.inl (.of_same rfl rfl rfl rfl))
  | eventPort => exact .inl (ends (eventMove_keepsDetector s))
  | interrupt =>
    by_cases hp : ∃ t todo b, s.blk.irqPos = .haveHook t c todo (some b)
    · exact .inr ⟨rfl, hp⟩
    · exact .inl (ends (irqMove_keepsDetector fun t todo b e => hp ⟨t, todo, b, e⟩))
  | ringer d => exact .inl (ends (ringerMove_keepsDetector d s))
  | tick ms => exact .inl (.inl (.of_same rfl rfl rfl rfl))
  | reset => exact .inl (.inr (.of_blockReset rfl))

end

/-- A sample that changes the state changes its level and sets its time (R280). -/
theorem hookSample_changes {thr : HookThresholds} {lvl : Level} {t : Word} {h : Hook}
    (hne : (hookSample thr lvl t h).1 ≠ h) :
    (hookSample thr lvl t h).1.level ≠ h.level ∧ (hookSample thr lvl t h).1.lastT = t := by
  by_cases hl : lvl = h.level
  · exact absurd (by rw [hookSample_same hl]) hne
  · by_cases hw : thr.minFlash ≤ t - h.lastT ∧ t - h.lastT ≤ thr.maxFlash
    · rw [hookSample_flash hl hw]
      exact ⟨hl, rfl⟩
    · rw [hookSample_change hl hw]
      exact ⟨hl, rfl⟩

/-- Settles O41: of the others' moves only the interrupt agent's sample is not one that leaves the detector alone. -/
theorem onlyTheDetectorChangesHookState : Obligations.OnlyTheDetectorChangesHookState := by
  intro s u c slot l hs hslot e hr hne
  rw [step_eq_slotTurn hs, slotTurn_of_ne_command hslot] at e
  cases e
  have hsame : (s.setSched l).chan c = s.chan c := s.setSched_chan l c
  obtain kept | ⟨-, reset⟩ | ⟨rfl, t, todo, b, hp⟩ := move_detector_cases c slot (s.setSched l)
  · exact absurd (kept.hook.trans (by rw [hsame])) hne
  · exact absurd reset hr
  · refine ⟨rfl, t, todo, b, hp, ?_⟩
    have hmove : (move .interrupt).run (s.setSched l) = _ := irqMove_hook b hp
    have hhook : ((settle ((move .interrupt).run (s.setSched l))).chan c).hook =
        (hookSample (s.chan c).thr (hookLevelOf b) t (s.chan c).hook).1 := by
      rw [hmove, settle, State.setIrqPos_chan, feedHook_eq_detectorOp, State.detectorOp, State.afterEvents_chan,
        State.chan_setHook_same, hsame]
      rfl
    rw [hhook] at hne ⊢
    exact hookSample_changes hne

end Sys2Proof.Machine
end

