-- ==== Sys2Proof/Proofs/LevelReports.lean ====
section
/-! Every step as a sequence of operations of a channel's detector, and the reports such a sequence gives (R284, R285, R288,
R304). -/

namespace Sys2Proof.Machine

/-- From s to t channel c's detector has gone through operations, all of them allowed, and nothing else. -/
def Detects (c : Chan) (allowed : DetectorOp → Prop) (s t : State) : Prop :=
  t.par = s.par ∧ (t.chan c).thr = (s.chan c).thr ∧ ∃ ops, (∀ op ∈ ops, allowed op) ∧
    (t.chan c).hook = (detect (s.chan c).thr c ops (s.chan c).hook).1 ∧
    t.detections c = s.detections c ++ (detect (s.chan c).thr c ops (s.chan c).hook).2

section
variable {c : Chan} {allowed : DetectorOp → Prop}

theorem DetectorKept.detects {s t : State} (h : DetectorKept c s t) : Detects c allowed s t :=
  ⟨h.par, h.thr, [], nofun, h.hook, h.detections.trans (List.append_nil _).symm⟩

theorem Detects.trans {s t u : State} (h1 : Detects c allowed s t) (h2 : Detects c allowed t u) :
    Detects c allowed s u := by
  obtain ⟨p1, t1, ops1, a1, k1, d1⟩ := h1
  obtain ⟨p2, t2, ops2, a2, k2, d2⟩ := h2
  rw [t1, k1] at k2 d2
  refine ⟨p2.trans p1, t2.trans t1, ops1 ++ ops2, List.forall_mem_append.2 ⟨a1, a2⟩, ?_, ?_⟩
  · rw [k2, detect_append]
  · rw [d2, d1, detect_append, List.append_assoc]

/-- An operation of any channel's detector, if it is allowed for channel c. -/
theorem detectorOp_detects (s : State) {d : Chan} {op : DetectorOp} (h : d = c → allowed op) :
    Detects c allowed s (s.detectorOp d op) := by
  by_cases hd : d = c
  · subst hd
    have hall : (op.act (s.chan d).thr d (s.chan d).hook).2.filter (Event.detected d) =
        (op.act (s.chan d).thr d (s.chan d).hook).2 :=
      List.filter_eq_self.2 fun e he => by rw [act_events_detected he, decide_eq_true rfl]
    refine ⟨rfl, ?_, [op], by simpa using h rfl, ?_, ?_⟩
    · simp [State.detectorOp]
    · simp [State.detectorOp, detect_singleton]
    · simp [State.detections, State.detectorOp, detect_singleton, hall]
  · exact (detectorOp_other_kept s hd op).detects

theorem detects_closedPorts (hsample : ∀ lvl t, allowed (.sample lvl t)) : ClosedPorts (Detects c allowed) WasReset where
  refl s := (detectorKept_closedOps.refl s).detects
  trans := Detects.trans
  reset h := .of_blockReset h.1
  transReset h := .after h.1
  answer s := (detectorKept_closedOps.answer s).detects
  wire s w := (detectorKept_closedOps.wire s w).detects
  resets s l := (detectorKept_closedOps.resets s l).detects
  lf {_ t} d x _ h _ := h.trans
    (DetectorKept.detects ⟨rfl, State.chan_setLf_hook t d x c, State.chan_setLf_thr t d x c, rfl⟩)
  resetFree := .free
  grant _ _ := (DetectorKept.of_same rfl rfl rfl rfl).detects
  ramTx _ _ := (DetectorKept.of_same rfl rfl rfl rfl).detects
  sched _ _ := (DetectorKept.of_same rfl rfl rfl rfl).detects
  now _ _ := (DetectorKept.of_same rfl rfl rfl rfl).detects
  consume _ := (DetectorKept.of_same rfl rfl rfl rfl).detects
  event s _ he := (emit_detectorKept s (he c)).detects
  queue _ _ _ _ := (DetectorKept.of_same rfl rfl rfl rfl).detects
  take s e rest _ := (takeEvent_detectorKept s e rest).detects
  irqPos _ _ _ := (DetectorKept.of_same rfl rfl rfl rfl).detects
  flagsRead _ _ _ _ _ _ _ _ := (DetectorKept.of_same rfl rfl rfl rfl).detects
  feed s d lvl t := by
    rw [feedHook_eq_detectorOp]
    exact detectorOp_detects s fun _ => hsample lvl t
  cancel s d := (requestCancel_detectorKept s d).detects
  phase s d _ := (startPhase_detectorKept s d).detects
  ringPos s d _ _ := (setRing_detectorKept s d _).detects
  wait s d _ _ := (setRing_detectorKept s d _).detects
  stop s d := (setRing_detectorKept s d _).detects
  turn _ _ := (DetectorKept.of_same rfl rfl rfl rfl).detects
  request _ := (DetectorKept.of_same rfl rfl rfl rfl).detects
  begin _ _ := (DetectorKept.of_same rfl rfl rfl rfl).detects
  finish _ := (DetectorKept.of_same rfl rfl rfl rfl).detects
  present _ _ := (DetectorKept.of_same rfl rfl rfl rfl).detects

end

/-! ### Steps other than CFG_WR's -/

/-- The operations of channel c's detector that the step from s can make: samples always, a tick or a start only as the
command it runs (R286 to R288, R304). -/
def State.permits (s : State) (c : Chan) : DetectorOp → Prop
  | .sample _ _ => True
  | .tick t => ∃ ch, chanOf ch = some c ∧ s.runs (.hookTick ch t)
  | .start _ _ => s.runs .init

theorem chanOf_of_activeChan {n : Fin 3} {ch : BitVec 4} {c : Chan} (h : activeChan n ch = some c) :
    chanOf ch = some c := by
  unfold activeChan at h
  split at h
  · next d hd =>
    split at h
    · rw [hd, h]
    · cases h
  · cases h

/-- The instruction that a step from s runs makes only operations that the step permits, if it is not CFG_WR. -/
theorem exec_detects {s u t : State} {i : Instr} (c : Chan) (hcfg : ∀ ch idx v, ¬ s.runs (.cfgWr ch idx v))
    (hi : s.runs i ∨ i.port = .interrupt) (e : exec i u = .next t) : Detects c (s.permits c) u t ∨ WasReset u t := by
  have h : ClosedPorts (Detects c (s.permits c)) WasReset := detects_closedPorts fun _ _ => trivial
  have hruns {j : Instr} (hj : i = j) (hp : j.port ≠ .interrupt) : s.runs j := hj ▸ hi.resolve_right (hj ▸ hp)
  cases ha : answersOnHostPort i
  · cases i <;> cases ha <;> cases e
    · exact (gateEvent_ends (A := []) h.toClosed none _ u).settle
    · exact (gateEvent_ends (A := []) h.toClosed (some _) _ u).settle
  · rw [exec_hostBody ha] at e
    refine h.command (hostBody_ends h.toClosed ha ?_ ?_ ?_ ?_ ?_ ?_) e
    · exact fun ch idx v hj => absurd (hruns hj nofun) (hcfg ch idx v)
    · exact fun _ _ _ => (DetectorKept.of_same rfl rfl rfl rfl).detects
    · exact fun _ _ _ => (DetectorKept.of_same rfl rfl rfl rfl).detects
    · intro hj u d r
      rw [initHook_eq_detectorOp]
      exact detectorOp_detects u fun _ => hruns hj nofun
    · intro ch t hj u d hd
      rw [tickHook_eq_detectorOp]
      exact detectorOp_detects u fun hdc => ⟨ch, hdc ▸ chanOf_of_activeChan hd, hruns hj nofun⟩
    · exact fun _ _ u d _ _ => (setRing_detectorKept u d _).detects

/-! ### The step of CFG_WR -/

/-- A step that runs a host command is that command, on the same block (R101). -/
theorem step_of_runs {s : State} {i : Instr} (h : s.runs i) (hp : i.port = .host) :
    ∃ u, step s = exec i u ∧ u.par = s.par ∧ u.blk = s.blk ∧ u.out = s.out := by
  obtain ⟨hslot, hc, r, rest, hq, hd⟩ := h
  have runs (u : State) (hcu : u.blk.cmd = none) (hqu : u.env.hostQ = r :: rest) :
      slotTurn .command u = exec i u.takeRequest :=
    (hostTurn_of_request hcu hqu).trans (runRequest_of_decode hd hp _)
  cases hs : s.env.sched with
  | nil =>
    have hturn : step s = slotTurn s.defaultSlot s.passTurn := by simp only [step, hs]
    have hdefault : s.defaultSlot = .command := by simpa only [State.nextSlot, hs] using hslot
    exact ⟨s.passTurn.takeRequest, by rw [hturn, hdefault, runs s.passTurn hc hq], rfl, rfl, rfl⟩
  | cons slot l =>
    have hcommand : slot = .command := by simpa only [State.nextSlot, hs] using hslot
    exact ⟨(s.setSched l).takeRequest, by rw [step_eq_slotTurn hs, hcommand, runs (s.setSched l) hc hq], rfl, rfl, rfl⟩

/-- All the sequence of CFG_WR can do: the write, or an error that changes nothing (R301). -/
theorem cfgWrite_cases (ch : BitVec 4) (idx : BitVec 12) (v : Word) (s : State) :
    (∃ f, (cfgWrite ch idx v).run s = .ok 0 (s.writeField v f)) ∨
    ∃ st, (cfgWrite ch idx v).run s = .error (.raised st 0) s := by
  cases hd : cfgDecode idx ch with
  | error st => exact .inr ⟨st, by simp only [cfgWrite, decodeField_error hd, run_bind, run_raise]⟩
  | ok f =>
    cases hb : s.fieldBusy f
    · exact .inl ⟨f, by
        simp only [cfgWrite, decodeField_ok hd, run_bind, run_pure, run_readS, hb, Bool.not_false, run_require_true,
          run_changeS]⟩
    · exact .inr ⟨.busy, by
        simp only [cfgWrite, decodeField_ok hd, run_bind, run_pure, run_readS, hb, Bool.not_true, run_require_false]⟩

/-- CFG_WR leaves every HookDebounceState and emits nothing, or a reset falls in it: it has no point at which others
move. -/
theorem exec_cfgWr_keeps {ch : BitVec 4} {idx : BitVec 12} {v : Word} {s t : State}
    (e : exec (.cfgWr ch idx v) s = .next t) :
    (∀ c, (t.chan c).hook = (s.chan c).hook) ∧ t.out.events = s.out.events ∨ WasReset s t := by
  have responds (u : State) (r : Response) (hp : u.par = s.par) (hh : ∀ c, (u.chan c).hook = (s.chan c).hook)
      (he : u.out.events = s.out.events) : (∀ c, ((u.endCommand.respond r).chan c).hook = (s.chan c).hook) ∧
        (u.endCommand.respond r).out.events = s.out.events ∨ WasReset s (u.endCommand.respond r) := by
    obtain ⟨l, e⟩ | ⟨l, e⟩ := respond_cases u.endCommand r <;> rw [e]
    · exact .inl ⟨fun c => by simpa using hh c, he⟩
    · exact .inr (.of_blockReset hp)
  change command _ (cfgWrite ch idx v) s = _ at e
  obtain ⟨l, e'⟩ | ⟨l, e'⟩ := command_cases (.cfgWr ch idx v) (cfgWrite ch idx v) s <;> rw [e'] at e <;> cases e
  · obtain ⟨f, hrun⟩ | ⟨st, hrun⟩ := cfgWrite_cases ch idx v ((s.setCmd (some (.cfgWr ch idx v))).setResets l)
    · rw [hrun]
      obtain ⟨-, hpar⟩ := writeField_growsFrom ((s.setCmd (some (.cfgWr ch idx v))).setResets l) v f
      refine responds _ _ hpar (fun c => ?_) (by rw [State.writeField_out]; rfl)
      obtain ⟨-, hhook, -⟩ := State.writeField_chan_keeps ((s.setCmd (some (.cfgWr ch idx v))).setResets l) v f c
      rw [hhook, State.setResets_chan, State.setCmd_chan]
    · rw [hrun]
      exact responds _ _ rfl (fun c => by simp) rfl
  · exact .inr (.of_blockReset rfl)

/-! ### Every step -/

/-- In a step without a reset a channel's detector goes through operations that the step permits, and nothing else: the
thresholds they are judged by are those before the step, since CFG_WR's own step makes none. -/
theorem step_detects {s u : State} (c : Chan) (e : step s = .next u) (hr : u.blk ≠ Block.reset s.par) :
    ∃ ops, (∀ op ∈ ops, s.permits c op) ∧ (u.chan c).hook = (detect (s.chan c).thr c ops (s.chan c).hook).1 ∧
      u.detections c = s.detections c ++ (detect (s.chan c).thr c ops (s.chan c).hook).2 := by
  by_cases hcfg : ∃ ch idx v, s.runs (.cfgWr ch idx v)
  · obtain ⟨ch, idx, v, hruns⟩ := hcfg
    obtain ⟨w, hw, hp, hb, ho⟩ := step_of_runs hruns rfl
    rw [hw] at e
    obtain ⟨hhook, hevents⟩ | ⟨-, reset⟩ := exec_cfgWr_keeps e
    · refine ⟨[], nofun, ?_, ?_⟩
      · rw [hhook, State.chan, hb]
        rfl
      · rw [State.detections, hevents, ho]
        exact (List.append_nil _).symm
    · exact absurd (hp ▸ reset) hr
  · have hno (ch idx v) : ¬ s.runs (.cfgWr ch idx v) := fun h => hcfg ⟨ch, idx, v, h⟩
    have hports : ClosedPorts (Detects c (s.permits c)) WasReset := detects_closedPorts fun _ _ => trivial
    obtain ⟨-, -, detects⟩ | ⟨-, reset⟩ := hports.step (exec_detects c hno) e
    · exact detects
    · exact absurd reset hr

/-- Settles O40: the tick and the sample of the commands, the operations of every step, and the reports they give. -/
theorem oneReportForEachLevelChange : Obligations.OneReportForEachLevelChange := by
  refine ⟨fun s ch c t hs hc ha => ?_, fun s u ch c t hs hc e hne => ?_, fun s ch c t hs hc => ?_, fun s u c e hr => ?_,
    detect_reports_le⟩
  · have hn : hookTickReport (s.chan c).thr t (s.chan c).hook = .nothing :=
      hookTickReport_of_not_ended fun ⟨ha', _⟩ => Bool.false_ne_true (ha.symm.trans ha')
    rw [exec_hookTick hs hc, tickHook_of_no_event (by rw [hn]; rfl)]
  · rw [exec_hookTick hs hc] at e
    cases e
    cases hr : tickEvent c (hookTickReport (s.chan c).thr t (s.chan c).hook) with
    | none => exact absurd (by rw [tickHook_of_no_event hr]; rfl) hne
    | some ev =>
      rw [tickHook_of_event hr]
      exact ⟨by simp, by simp⟩
  · rw [exec_hookSample hs hc, feedHook_same rfl]
  · obtain ⟨ops, hpermits, hhook, hdetections⟩ := step_detects c e hr
    obtain ⟨⟨-, -, new, hnew⟩, -⟩ := outputsOnlyGrow s u e
    refine ⟨ops, new, hhook, hnew.symm, ?_, fun lvl t h => hpermits _ h, fun t h => hpermits _ h⟩
    rw [State.detections, ← hnew, List.filter_append] at hdetections
    exact List.append_cancel_left hdetections

end Sys2Proof.Machine
end

