-- ==== Sys2Proof/Proofs/ChannelChecks.lean ====
section
/-! The channel check of the commands, which comes before anything else they do, and GET_NCH (R300, R305, R306). -/

namespace Sys2Proof.Machine

/-! ### Commands that need an active channel -/

theorem answersOnHostPort_of_activeChannelField {i : Instr} {ch : BitVec 4} (h : activeChannelField i = some ch) :
    answersOnHostPort i = true := by
  cases i <;> cases h <;> rfl

/-- Every command of R306's first list begins with the check of its channel field. -/
theorem hostBody_eq_activeChannel_bind {i : Instr} {ch : BitVec 4} (h : activeChannelField i = some ch) :
    ∃ f : Chan → Run Word, hostBody i = activeChannel ch >>= f := by
  cases i <;> cases h <;> exact ⟨_, rfl⟩

theorem chanBits_toNat (c : Chan) : (chanBits c).toNat = c.toNat := by cases c <;> rfl

/-- A channel field that is not below N names no active channel (R142, R306). -/
theorem activeChan_of_le {n : Fin 3} {ch : BitVec 4} (h : n.val ≤ ch.toNat) : activeChan n ch = none := by
  unfold activeChan
  cases hc : chanOf ch with
  | none => rfl
  | some c =>
    rw [chanOf_eq_some hc, chanBits_toNat] at h
    exact if_neg (Nat.not_lt.2 h)

/-- A command on a channel that is not active responds BAD_CHANNEL and changes nothing, whatever the schedule (R306). -/
theorem exec_of_inactive {s : State} (hs : s.Calm) {i : Instr} {ch : BitVec 4} (hi : activeChannelField i = some ch)
    (hn : s.blk.n.val ≤ ch.toNat) : exec i s = .next (s.present ⟨.badChannel, 0⟩) := by
  obtain ⟨f, hf⟩ := hostBody_eq_activeChannel_bind hi
  have hc : activeChan (s.setCmd (some i)).blk.n ch = none := activeChan_of_le hn
  rw [exec_hostBody (answersOnHostPort_of_activeChannelField hi), hf]
  exact command_rejected hs (by rw [run_bind, activeChannel_none hc])

/-! ### Configuration commands -/

theorem chanOf_of_two_le {ch : BitVec 4} (h : 2 ≤ ch.toNat) : chanOf ch = none := by
  unfold chanOf
  split
  · omega
  · omega
  · rfl

/-- A per-channel index with a channel that does not exist (R300, R306). -/
theorem cfgDecode_badChannel {ch : BitVec 4} {idx : BitVec 12} (hidx : isChannelIndex idx = true) (hch : 2 ≤ ch.toNat) :
    cfgDecode idx ch = .error .badChannel := by
  obtain ⟨f, hf⟩ := exists_chanField hidx
  rw [chanFieldAt_eq_some hf]
  simp only [cfgDecode, globalFieldAt_chanField_index, chanFieldAt_index, chanOf_of_two_le hch]

/-- Both configuration commands reject operands that name no field with what decoding raises (R301, R302). -/
theorem cfg_rejected {s : State} (hs : s.Calm) {ch : BitVec 4} {idx : BitVec 12} {st : Status}
    (h : cfgDecode idx ch = .error st) (v : Word) :
    ∀ i ∈ [Instr.cfgWr ch idx v, Instr.cfgRd ch idx], exec i s = .next (s.present ⟨st, 0⟩) := by
  simp only [List.forall_mem_cons, List.not_mem_nil, false_implies, implies_true, and_true]
  exact ⟨cfgWr_of_decode_error hs h, cfgRd_of_decode_error hs h⟩

/-- Settles O45: the first check of each command raises, before it has changed anything. -/
theorem badChannelsChangeNothing : Obligations.BadChannelsChangeNothing := by
  refine ⟨fun s i ch hs hi hn => exec_of_inactive hs hi hn,
    fun s ch idx v hs hidx hch => cfg_rejected hs (cfgDecode_badChannel hidx hch) v, fun s ch idx v hs hidx hch => ?_⟩
  have hillegal : cfgOperandsLegal ch idx = false := by
    rw [cfgOperandsLegal, if_pos hidx]
    exact decide_eq_false hch
  exact cfg_rejected hs (cfgDecode_of_illegal hillegal) v

/-- Settles O48: GET_NCH is one read of N. -/
theorem getNchReturnsTheChannelCount : Obligations.GetNchReturnsTheChannelCount := fun _ hs =>
  command_unchanged (i := .getNch) (body := getNch) hs (run_readS _ _)

end Sys2Proof.Machine
end

