-- ==== Sys2Proof/Proofs/Initialisation.lean ====
section
/-! INIT where nobody interferes: the identification reads, the hook reads, and how it ends (R303, R304, R322). -/

namespace Sys2Proof.Machine

/-! ### The reads of INIT -/

section
variable {u : State} {c : Chan} {a v : Byte} {l : List Chan} {n : Nat} {ops : List WireOp} {rest : List Answer}
  {α : Type}

theorem initRead_data (hu : u.env.sched = []) :
    (initRead c a).run (u.afterOps ops (.data v :: rest)) = .ok v (u.afterOps (ops ++ [.read c a (.data v)]) rest) := by
  have h : (u.afterOps ops (.data v :: rest)).env.sched = [] := hu
  simp only [initRead, run_bind, point_of_no_schedule h, readOp_afterOps_data, run_pure]

/-- A failing read of INIT is INIT_ERROR (R303, R322). -/
theorem initRead_fail (hu : u.env.sched = []) :
    (initRead c a).run (u.afterOps ops (.fail :: rest)) =
      .error (.raised .initError 0) (u.afterOps (ops ++ [.read c a .failed]) rest) := by
  have h : (u.afterOps ops (.fail :: rest)).env.sched = [] := hu
  simp only [initRead, run_bind, point_of_no_schedule h, readOp_afterOps_fail, run_raise]

/-- The probe goes on after a channel that answers (R303). -/
theorem probe_present {f : Nat → Run α} (hu : u.env.sched = []) (hv : v ≠ 0xFF#8) :
    (probe a (c :: l) n >>= f).run (u.afterOps ops (.data v :: rest)) =
      (probe a l (n + 1) >>= f).run (u.afterOps (ops ++ [.read c a (.data v)]) rest) := by
  simp only [probe, run_bind, initRead_data hu, if_neg hv]

/-- The probe stops at the first absent channel (R303, R127). -/
theorem probe_absent {f : Nat → Run α} (hu : u.env.sched = []) (hv : v = 0xFF#8) :
    (probe a (c :: l) n >>= f).run (u.afterOps ops (.data v :: rest)) =
      (f n).run (u.afterOps (ops ++ [.read c a (.data v)]) rest) := by
  simp only [probe, run_bind, initRead_data hu, if_pos hv, run_pure]

/-- The probe stops after the last channel (R303). -/
theorem probe_nil {f : Nat → Run α} : (probe a [] n >>= f).run u = (f n).run u := rfl

theorem probe_fail {f : Nat → Run α} (hu : u.env.sched = []) :
    (probe a (c :: l) n >>= f).run (u.afterOps ops (.fail :: rest)) =
      .error (.raised .initError 0) (u.afterOps (ops ++ [.read c a .failed]) rest) := by
  simp only [probe, run_bind, initRead_fail hu]

/-- One detector is started from the line's level, and the hook reads go on (R304). -/
theorem initHooks_data {f : Unit → Run α} (hu : u.env.sched = []) :
    (initHooks a (c :: l) >>= f).run (u.afterOps ops (.data v :: rest)) =
      (initHooks a l >>= f).run ((u.initHook c v).afterOps (ops ++ [.read c a (.data v)]) rest) := by
  have hstart : (u.afterOps (ops ++ [.read c a (.data v)]) rest).initHook c v =
      (u.initHook c v).afterOps (ops ++ [.read c a (.data v)]) rest := by cases c <;> rfl
  simp only [initHooks, run_bind, initRead_data hu, run_changeS, hstart]

theorem initHooks_nil {f : Unit → Run α} : (initHooks a [] >>= f).run u = (f ()).run u := rfl

theorem initHooks_fail {f : Unit → Run α} (hu : u.env.sched = []) :
    (initHooks a (c :: l) >>= f).run (u.afterOps ops (.fail :: rest)) =
      .error (.raised .initError 0) (u.afterOps (ops ++ [.read c a .failed]) rest) := by
  simp only [initHooks, run_bind, initRead_fail hu]

end

/-! ### The unit of INIT -/

/-- The end of the unit: N is stored, and others may move before it is (R303, R341). -/
def storeCount (n : Fin 3) : Run (Fin 3) := do
  point
  changeS (fun s => s.setN n)
  pure n

theorem storeCount_run {u : State} (hu : u.env.sched = []) (n : Fin 3) : (storeCount n).run u = .ok n (u.setN n) := by
  simp only [storeCount, run_bind, point_of_no_schedule hu, run_changeS, run_pure]

/-- The unit once the probe has counted the channels: none is a failure, else the hook reads and the end (R303). -/
def afterProbe (p : Params) (count : Nat) : Run (Fin 3) := do
  require (decide (count ≠ 0)) .initError
  initHooks p.regHookStatus (channelsBelow (Fin.ofNat 3 count))
  storeCount (Fin.ofNat 3 count)

theorem afterProbe_none (p : Params) (u : State) : (afterProbe p 0).run u = .error (.raised .initError 0) u := rfl

theorem afterProbe_one (p : Params) (u : State) :
    (afterProbe p 1).run u = (initHooks p.regHookStatus [.zero] >>= fun _ => storeCount 1).run u := rfl

theorem afterProbe_two (p : Params) (u : State) :
    (afterProbe p 2).run u = (initHooks p.regHookStatus [.zero, .one] >>= fun _ => storeCount 2).run u := rfl

/-- The unit of INIT once N = 0: the probe of both channels, and what follows it (R303). -/
def probeAndStart (p : Params) : Run (Fin 3) := probe p.regId [.zero, .one] 0 >>= afterProbe p

theorem initSequence_run (u : State) : initSequence.run u = (probeAndStart u.par).run (u.setN 0) := rfl

/-- s inside the unit of INIT. -/
def State.initUnit (s : State) : State := (s.setCmd (some .init)).setGrant .command

/-- What the unit of INIT leaves where it ends in t, whose transport is free and whose command agent is idle. -/
theorem initUnit_released {t : State} (ht : t.Quiet) : (t.initUnit.setGrant .none).endCommand = t := by
  obtain ⟨hidle, hg, -⟩ := ht
  calc (t.initUnit.setGrant .none).endCommand
      = ((t.setCmd (some .init)).endCommand).setGrant .none := rfl
    _ = t := by rw [endCommand_setCmd hidle, State.setGrant_none_of_none hg]

/-- INIT in a quiet state where no channel rings goes as its unit does (R303). -/
theorem exec_init_of_unit {s t : State} {as : List Answer} {out : Except Response (Fin 3)} (hq : s.Quiet)
    (h0 : s.blk.ch0.ring.active = false) (h1 : s.blk.ch1.ring.active = false) (ha : s.env.answers = as) (ht : t.Quiet)
    (hx : (probeAndStart s.par).run ((s.setN 0).initUnit.afterOps [] as) = ending out t.initUnit) :
    exec .init s = .next (t.present (responseOf (out.map fun n => BitVec.ofNat 32 n.val))) := by
  have hend := initUnit_released ht
  obtain ⟨-, -, hs, hr⟩ := hq
  obtain ⟨-, -, hs', hr'⟩ := ht
  have hstart : (s.setCmd (some .init)).env.sched = [] := hs
  have hanswers : (s.setN 0).initUnit.env.answers = as := ha
  have hunit : initSequence.run s.initUnit = ending out t.initUnit := by
    rw [initSequence_run, ← hx, afterOps_nil hanswers]
    rfl
  have hsilent : (((s.setCmd (some .init)).chan .zero).ring.active || ((s.setCmd (some .init)).chan .one).ring.active) =
      false := by
    rw [State.setCmd_chan, State.setCmd_chan]
    exact Bool.or_eq_false_iff.2 ⟨h0, h1⟩
  have hrun : initCmd.run (s.setCmd (some .init)) =
      (do let n ← atomicUnit initSequence; pure (BitVec.ofNat 32 n.val) : Run Word).run (s.setCmd (some .init)) := by
    simp only [initCmd, run_bind, run_readS, hsilent, Bool.not_false, run_require_true]
  rw [← hend]
  cases out with
  | ok n =>
    rw [run_bind, atomicUnit_ok hstart hunit hs'] at hrun
    exact command_ok hr hrun hr'
  | error r =>
    rw [run_bind, atomicUnit_error hstart hunit] at hrun
    exact command_raised hr hrun hr'

/-- INIT whose unit fails (R303, R322). -/
theorem exec_init_of_failure {s t : State} {as : List Answer} (hq : s.Quiet) (h0 : s.blk.ch0.ring.active = false)
    (h1 : s.blk.ch1.ring.active = false) (ha : s.env.answers = as) (ht : t.Quiet)
    (hx : (probeAndStart s.par).run ((s.setN 0).initUnit.afterOps [] as) = .error (.raised .initError 0) t.initUnit) :
    exec .init s = .next (t.present ⟨.initError, 0⟩) :=
  exec_init_of_unit (out := .error ⟨.initError, 0⟩) hq h0 h1 ha ht hx

/-- Settles O46: the probe counts one channel or both, and as many detectors are started. -/
theorem initProbesTheChannels : Obligations.InitProbesTheChannels := by
  intro s id0 id1 h0 h1 rest hq ha0 ha1 hid0
  have ⟨_, _, hsched, _⟩ := hq
  have hw : (s.setN 0).initUnit.env.sched = [] := hsched
  have hw0 : ((s.setN 0).initUnit.initHook .zero h0).env.sched = [] := hw
  refine ⟨fun hid1 ha => ?_, fun hid1 ha => ?_⟩
  · refine exec_init_of_unit (as := .data id0 :: .data id1 :: .data h0 :: rest) (out := .ok 1) hq ha0 ha1 ha hq ?_
    rw [probeAndStart, probe_present hw hid0, probe_absent hw hid1, afterProbe_one, initHooks_data hw, initHooks_nil,
      storeCount_run]
    · rfl
    · exact hw0
  · refine exec_init_of_unit (as := .data id0 :: .data id1 :: .data h0 :: .data h1 :: rest) (out := .ok 2) hq ha0 ha1 ha
      hq ?_
    rw [probeAndStart, probe_present hw hid0, probe_present hw hid1, probe_nil, afterProbe_two, initHooks_data hw,
      initHooks_data hw0, initHooks_nil, storeCount_run]
    · rfl
    · exact hw0

end Sys2Proof.Machine
end

