-- ==== Sys2Proof/Proofs/FailedInit.lean ====
section
/-! A failed INIT, from every cause and under every schedule: INIT_ERROR with RDATA = 0 and no active channel (R303, R306,
R307, R322). -/

namespace Sys2Proof.Machine

/-! ### What the others leave of the command agent's fields -/

theorem SameCommandFields.refl (s : State) : SameCommandFields s s := ⟨rfl, rfl, rfl, rfl, rfl, rfl, rfl, rfl, rfl, rfl⟩

theorem SameCommandFields.trans {s t u : State} (h1 : SameCommandFields s t) (h2 : SameCommandFields t u) :
    SameCommandFields s u := by
  obtain ⟨n, rb, rd, cb, cd, en, c0, c1, t0, t1⟩ := h1
  obtain ⟨n', rb', rd', cb', cd', en', c0', c1', t0', t1'⟩ := h2
  exact ⟨n'.trans n, rb'.trans rb, rd'.trans rd, cb'.trans cb, cd'.trans cd, en'.trans en, c0'.trans c0, c1'.trans c1,
    t0'.trans t0, t1'.trans t1⟩

theorem SameCommandFields.of_blk {s t : State} (h : t.blk = s.blk) : SameCommandFields s t := by
  unfold SameCommandFields
  rw [h]
  exact SameCommandFields.refl s

theorem setChan_sameCommandFields (s : State) {c : Chan} {x : ChanState} (hc : x.cad = (s.chan c).cad)
    (ht : x.thr = (s.chan c).thr) : SameCommandFields s (s.setChan c x) := by
  cases c with
  | zero => exact ⟨rfl, rfl, rfl, rfl, rfl, rfl, hc, rfl, ht, rfl⟩
  | one => exact ⟨rfl, rfl, rfl, rfl, rfl, rfl, rfl, hc, rfl, ht⟩

/-- No move of another agent and no shared operation of the commands writes the command agent's fields (R341). -/
theorem sameCommandFields_closed : Closed SameCommandFields (fun _ _ => True) where
  refl := .refl
  trans := .trans
  reset _ := trivial
  transReset _ _ := trivial
  answer s := by
    obtain ⟨-, hb, -⟩ := takeAnswer_keeps s
    exact .of_blk hb
  wire s _ := .of_blk rfl
  resets s _ := .of_blk rfl
  lf _ _ _ h _ := h.trans (setChan_sameCommandFields _ rfl rfl)
  resetFree _ := trivial
  grant s _ := .refl s
  ramTx s _ := .refl s
  sched s _ := .refl s
  now s _ := .refl s
  consume s := .refl s
  event s _ _ := .refl s
  queue s _ _ _ := .refl s
  take s e rest _ := by
    unfold State.takeEvent
    split <;> exact .refl s
  irqPos s _ _ := .refl s
  flagsRead s _ _ _ _ _ _ _ := .refl s
  feed s c lvl t := by
    rw [feedHook_eq_detectorOp]
    exact setChan_sameCommandFields s rfl rfl
  cancel s c := by
    rw [requestCancel_eq_or]
    exact setChan_sameCommandFields s rfl rfl
  phase s c _ := by
    obtain ⟨_, _, e⟩ := startPhase_eq s c
    rw [e]
    exact setChan_sameCommandFields s rfl rfl
  ringPos s _ _ _ := setChan_sameCommandFields s rfl rfl
  wait s _ _ _ := setChan_sameCommandFields s rfl rfl
  stop s _ := setChan_sameCommandFields s rfl rfl

/-! ### How the unit of INIT fails -/

/-- How a part of INIT ends that began with N = 0: normally with Q, or with INIT_ERROR, RDATA = 0 and N = 0 still, or by a
reset (R303, R322). -/
def EndsInInit (Q : State → Prop) {α : Type} : EStateM.Result Stop State α → Prop
  | .ok _ t => Q t
  | .error (.raised st info) t => st = .initError ∧ info = 0 ∧ t.blk.n = 0
  | .error .reset _ => True

/-- Begun with N = 0, the sequence leaves N = 0, and it fails only as INIT does. -/
def KeepsNone {α : Type} (x : Run α) : Prop := ∀ s, s.blk.n = 0 → EndsInInit (fun t => t.blk.n = 0) (x.run s)

section
variable {α β : Type} {x : Run α} {f : α → Run β}

theorem KeepsNone.then {Q : State → Prop} (hx : KeepsNone x) (hf : ∀ a t, t.blk.n = 0 → EndsInInit Q ((f a).run t))
    {s : State} (hs : s.blk.n = 0) : EndsInInit Q ((x >>= f).run s) := by
  have h := hx s hs
  rw [run_bind]
  cases hr : x.run s with
  | ok a t =>
    rw [hr] at h
    exact hf a t h
  | error e t =>
    rw [hr] at h
    cases e <;> exact h

theorem KeepsNone.bind (hx : KeepsNone x) (hf : ∀ a, KeepsNone (f a)) : KeepsNone (x >>= f) := fun _ hs => hx.then hf hs

theorem pure_keepsNone (a : α) : KeepsNone (pure a) := fun _ hs => hs

theorem initError_keepsNone : KeepsNone (raise .initError 0 : Run α) := fun _ hs => ⟨rfl, rfl, hs⟩

/-- What leaves the command agent's fields and raises nothing. -/
theorem keepsNone_of_ends (h : Ends [] SameCommandFields (fun _ _ => True) x) : KeepsNone x := by
  intro s hs
  have h := h s
  cases hr : x.run s with
  | ok a t =>
    rw [hr] at h
    obtain ⟨hn, -⟩ := h
    exact hn.trans hs
  | error e t =>
    rw [hr] at h
    cases e with
    | raised st info => exact absurd h.1 List.not_mem_nil
    | reset => trivial

theorem point_keepsNone : KeepsNone point := keepsNone_of_ends (point_ends sameCommandFields_closed)

theorem initRead_keepsNone (c : Chan) (a : Byte) : KeepsNone (initRead c a) :=
  point_keepsNone.bind fun _ => (keepsNone_of_ends (readOp_ends sameCommandFields_closed.ops c a)).bind fun r => by
    cases r with
    | none => exact initError_keepsNone
    | some v => exact pure_keepsNone v

theorem probe_keepsNone (a : Byte) (l : List Chan) (n : Nat) : KeepsNone (probe a l n) := by
  induction l generalizing n with
  | nil => exact pure_keepsNone n
  | cons c rest ih =>
    refine (initRead_keepsNone c a).bind fun v => ?_
    split
    · exact pure_keepsNone n
    · exact ih (n + 1)

theorem initHooks_keepsNone (a : Byte) (l : List Chan) : KeepsNone (initHooks a l) := by
  induction l with
  | nil => exact pure_keepsNone ()
  | cons c rest ih =>
    have hstart (r : Byte) : KeepsNone (changeS fun s => s.initHook c r) := fun s hs => by
      cases c <;> exact hs
    exact (initRead_keepsNone c a).bind fun r => (hstart r).bind fun _ => ih

theorem afterProbe_fails (p : Params) (count : Nat) {s : State} (hs : s.blk.n = 0) :
    EndsInInit (fun _ => True) ((afterProbe p count).run s) := by
  have hcount : KeepsNone (require (decide (count ≠ 0)) .initError) := by
    unfold require
    split
    · exact pure_keepsNone ()
    · exact initError_keepsNone
  refine hcount.then (fun _ t ht => (initHooks_keepsNone _ _).then (fun _ u hu => ?_) ht) hs
  refine KeepsNone.then point_keepsNone (fun _ _ _ => ?_) hu
  trivial

/-- The unit of INIT fails only with INIT_ERROR, RDATA = 0 and N = 0, whatever the schedule and the chip's answers (R303,
R322). -/
theorem initSequence_fails (s : State) : EndsInInit (fun _ => True) (initSequence.run s) := by
  rw [initSequence_run]
  exact (probe_keepsNone _ _ _).then (fun count _ => afterProbe_fails _ count) rfl

end

/-! ### How a command fails -/

section
variable {α β : Type} {x : Run α} {f : α → Run β} {s t : State} {st : Status} {info : Word}

/-- The part of a sequence that raised its error. -/
theorem bind_raised (e : (x >>= f).run s = .error (.raised st info) t) :
    x.run s = .error (.raised st info) t ∨ ∃ a u, x.run s = .ok a u ∧ (f a).run u = .error (.raised st info) t := by
  rw [run_bind] at e
  cases hx : x.run s with
  | ok a u => rw [hx] at e; exact .inr ⟨a, u, rfl, e⟩
  | error e' u => rw [hx] at e; cases e; exact .inl rfl

theorem point_not_raised : point.run s ≠ .error (.raised st info) t := by
  intro e
  have h := point_ends (A := []) sameCommandFields_closed s
  rw [e] at h
  exact absurd h.1 List.not_mem_nil

/-- An error raised in an atomic unit is its sequence's, and the transport is free after it (R80). -/
theorem atomicUnit_raised (e : (atomicUnit x).run s = .error (.raised st info) t) :
    ∃ u v, x.run u = .error (.raised st info) v ∧ t = v.setGrant .none := by
  obtain e | ⟨_, u, -, e⟩ := bind_raised e
  · exact absurd e point_not_raised
  obtain e | ⟨a, v, -, e⟩ := bind_raised e
  · rw [run_holding] at e
    cases hx : x.run (u.setGrant .command) with
    | ok a v => rw [hx] at e; cases e
    | error e' v =>
      rw [hx] at e
      cases e
      exact ⟨_, v, hx, rfl⟩
  obtain e | ⟨_, _, -, e⟩ := bind_raised e
  · exact absurd e point_not_raised
  · cases e

/-- INIT raises BUSY before it has done anything, or INIT_ERROR with N = 0; RDATA = 0 in both cases (R303). -/
theorem initCmd_raised (e : initCmd.run s = .error (.raised st info) t) :
    info = 0 ∧ (st = .busy ∨ st = .initError ∧ t.blk.n = 0) := by
  obtain e | ⟨ringing, u, -, e⟩ := bind_raised e
  · cases e
  obtain e | ⟨_, u, -, e⟩ := bind_raised e
  · cases ringing <;> cases e
    exact ⟨rfl, .inl rfl⟩
  obtain e | ⟨n, u, -, e⟩ := bind_raised e
  · obtain ⟨w, v, hw, rfl⟩ := atomicUnit_raised e
    have h := initSequence_fails w
    rw [hw] at h
    obtain ⟨hst, hinfo, hn⟩ := h
    exact ⟨hinfo, .inr ⟨hst, hn⟩⟩
  · cases e

end

/-- A command that responds r has run its sequence to the end that r tells of, and no reset has come between. -/
theorem exec_responded {i : Instr} (ha : answersOnHostPort i = true) {s t : State} {r : Response} (e : exec i s = .next t)
    (hr : t.out.resps = s.out.resps ++ [r]) :
    ∃ l l' u out, (hostBody i).run ((s.setCmd (some i)).setResets l) = ending out u ∧ responseOf out = r ∧
      t = (u.endCommand.setResets l').present r := by
  have responds (u : State) (r' : Response) (hu : u.out.resps = s.out.resps)
      (h : (u.endCommand.respond r').out.resps = s.out.resps ++ [r]) :
      r' = r ∧ ∃ l', u.endCommand.respond r' = (u.endCommand.setResets l').present r := by
    obtain ⟨hrr, -⟩ := respond_presented (s := s) (u := u.endCommand) hu h
    subst hrr
    obtain ⟨l', e⟩ | ⟨l', e⟩ := respond_cases u.endCommand r'
    · exact ⟨rfl, l', e⟩
    · rw [e] at h
      have h : u.out.resps = s.out.resps ++ [r'] := h
      simp [hu] at h
  rw [exec_hostBody ha] at e
  obtain ⟨l, e'⟩ | ⟨l, e'⟩ := command_cases i (hostBody i) s <;> rw [e'] at e <;> cases e
  · have hkept := hostBody_keepsOrder i ((s.setCmd (some i)).setResets l)
    cases hrun : (hostBody i).run ((s.setCmd (some i)).setResets l) with
    | ok v u =>
      rw [hrun] at hr hkept
      obtain ⟨hrr, l', ht⟩ := responds u ⟨.ok, v⟩ hkept.resps hr
      exact ⟨l, l', u, .ok v, hrun, hrr, ht⟩
    | error stop u =>
      rw [hrun] at hr hkept
      cases stop with
      | raised st info =>
        obtain ⟨hrr, l', ht⟩ := responds u ⟨st, info⟩ hkept.2.resps hr
        exact ⟨l, l', u, .error ⟨st, info⟩, hrun, hrr, ht⟩
      | reset =>
        have hresp : u.out.resps = s.out.resps ++ [r] := hr
        have hkept : OrderKept _ u := hkept
        rw [hkept.resps] at hresp
        simp at hresp
  · have hresp : s.out.resps = s.out.resps ++ [r] := hr
    simp at hresp

/-- An INIT that responds anything but OK and BUSY responds INIT_ERROR with RDATA = 0, and leaves N = 0 and an idle command
agent (R303, R307). -/
theorem init_responded {s t : State} {r : Response} (e : exec .init s = .next t) (hr : t.out.resps = s.out.resps ++ [r])
    (hok : r.status ≠ .ok) (hbusy : r.status ≠ .busy) : r = ⟨.initError, 0⟩ ∧ t.blk.n = 0 ∧ t.Idle := by
  obtain ⟨l, l', u, out, hrun, rfl, rfl⟩ := exec_responded rfl e hr
  cases out with
  | ok v => exact absurd rfl hok
  | error r =>
    obtain ⟨hinfo, hst | ⟨hst, hn⟩⟩ := initCmd_raised hrun
    · exact absurd hst hbusy
    · refine ⟨?_, hn, rfl, rfl⟩
      change r = _
      cases r
      cases hst
      cases hinfo
      rfl

/-- One more response, the last of all, is all that has been responded since. -/
theorem resps_eq_of_last {s t : State} {i : Instr} {r : Response} (e : exec i s = .next t)
    (hlast : t.out.resps.getLast? = some r) (hlen : t.out.resps.length = s.out.resps.length + 1) :
    t.out.resps = s.out.resps ++ [r] := by
  obtain ⟨⟨-, ⟨added, hadded⟩, -⟩, -⟩ : GrowsFrom s t := (growsFrom_closedStep.exec e).elim id id
  rw [← hadded, List.length_append] at hlen
  obtain ⟨r', rfl⟩ := List.length_eq_one_iff.1 (Nat.add_left_cancel hlen)
  rw [← hadded, List.getLast?_append, List.getLast?_singleton] at hlast
  cases hlast
  exact hadded.symm

/-- Settles O47: the five failing runs of the undisturbed unit, and how INIT fails under every schedule. -/
theorem failedInitLeavesNoActiveChannel : Obligations.FailedInitLeavesNoActiveChannel := by
  refine ⟨fun s id0 id1 h0 rest hq ha0 ha1 => ?_, fun s t e => ⟨fun ⟨info, hlast, hlen⟩ => ?_, fun info hr => ?_⟩⟩
  · have ⟨_, _, hsched, _⟩ := hq
    have hw : (s.setN 0).initUnit.env.sched = [] := hsched
    have hw0 : ((s.setN 0).initUnit.initHook .zero h0).env.sched = [] := hw
    have fails {as : List Answer} {t : State} := exec_init_of_failure (t := t) (as := as) hq ha0 ha1
    dsimp only
    refine ⟨fun ha => fails ha hq (probe_fail hw), fun ha => fails ha hq ?_,
      fun hid0 ha => fails (as := .data id0 :: .fail :: rest) ha hq ?_,
      fun hid0 ha => fails (as := .data id0 :: .data id1 :: .fail :: rest) ha hq ?_,
      fun hid0 hid1 ha => fails (as := .data id0 :: .data id1 :: .data h0 :: .fail :: rest) ha hq ?_⟩
    · rw [probeAndStart, probe_absent hw (v := 0xFF) rfl, afterProbe_none]
      rfl
    · rw [probeAndStart, probe_present hw hid0, probe_fail hw]
      rfl
    · by_cases hid1 : id1 = 0xFF
      · rw [probeAndStart, probe_present hw hid0, probe_absent hw hid1, afterProbe_one, initHooks_fail hw]
        rfl
      · rw [probeAndStart, probe_present hw hid0, probe_present hw hid1, probe_nil, afterProbe_two, initHooks_fail hw]
        rfl
    · rw [probeAndStart, probe_present hw hid0, probe_present hw hid1, probe_nil, afterProbe_two, initHooks_data hw,
        initHooks_fail hw0]
      rfl
  · have hr := resps_eq_of_last e hlast hlen
    obtain ⟨hresp, hn, hidle⟩ := init_responded e hr nofun nofun
    refine ⟨hresp ▸ hr, hn, fun hresets i ch hi => exec_of_inactive ⟨hidle, hresets⟩ hi ?_⟩
    rw [hn]
    exact Nat.zero_le _
  · obtain ⟨hresp, -⟩ := init_responded e hr nofun nofun
    cases hresp

end Sys2Proof.Machine
end

