-- ==== Sys2Proof/Proofs/StatusTable.lean ====
section
/-! What a host command has responded when it ends, and what most of them leave of the command agent's fields, under every
schedule (R101, R326, R341, R350). -/

namespace Sys2Proof.Machine

/-- Every host command's sequence raises only statuses of its row of R326 and keeps the parameters, or a reset ends it. -/
theorem hostBody_statuses {i : Instr} (ha : answersOnHostPort i = true) :
    Ends (allowedStatuses i) SoundKept WasReset (hostBody i) :=
  have h := soundKept_closedStep
  hostBody_ends h.toClosed ha (fun _ _ _ _ => h.config) (fun en _ s => h.enable s en) (fun _ => h.channels)
    (fun _ => h.start) (fun _ t _ s c _ => h.tick s c t) fun _ _ => h.ring

/-- OK is in every row of R326. -/
theorem ok_mem_allowedStatuses {i : Instr} (ha : answersOnHostPort i = true) : .ok ∈ allowedStatuses i := by
  revert ha
  cases i <;> simp [answersOnHostPort, allowedStatuses]

/-- From s to t one response has come, with a status of A (R101). -/
def RespondsWithin (A : List Status) (s t : State) : Prop :=
  ∃ st info, t.out.resps = s.out.resps ++ [⟨st, info⟩] ∧ st ∈ A

/-- From s to t a reset has come and no response (R350). -/
def Abandoned (s t : State) : Prop := t.out.resps = s.out.resps ∧ t.blk = Block.reset s.par

section
variable {A : List Status} {s u : State}

/-- A response to a command that has responded nothing yet: presented, or prevented by a reset. -/
theorem respond_answers (hp : u.par = s.par) (hu : u.out.resps = s.out.resps) {r : Response} (hr : r.status ∈ A) :
    RespondsWithin A s (u.respond r) ∨ Abandoned s (u.respond r) := by
  obtain ⟨l, e⟩ | ⟨l, e⟩ := respond_cases u r <;> rw [e]
  · exact .inl ⟨r.status, r.rdata, congrArg (· ++ [r]) hu, hr⟩
  · exact .inr ⟨hu, congrArg Block.reset hp⟩

/-- However a sequence that responds nothing itself ends, its command gives one response, or a reset prevents it. -/
theorem finish_answers {r : EStateM.Result Stop State Word} (hok : .ok ∈ A) (h : EndsIn A SoundKept WasReset s r)
    (hresps : (settle r).out.resps = s.out.resps) : RespondsWithin A s (finish r) ∨ Abandoned s (finish r) := by
  cases r with
  | ok rdata t =>
    have ⟨hp, _⟩ : SoundKept s t := h
    exact respond_answers (u := t.endCommand) hp hresps hok
  | error e t =>
    cases e with
    | raised st info =>
      obtain ⟨hst, hp, -⟩ := h
      exact respond_answers (u := t.endCommand) hp hresps hst
    | reset =>
      have ⟨_, hb⟩ : WasReset s t := h
      exact .inr ⟨hresps, hb⟩

end

/-- Every host command gives one response of its row of R326, or a reset abandons it (R326, R350). -/
theorem exec_answers {i : Instr} (ha : answersOnHostPort i = true) {s t : State} (e : exec i s = .next t) :
    RespondsWithin (allowedStatuses i) s t ∨ Abandoned s t := by
  rw [exec_hostBody ha] at e
  obtain ⟨l, e'⟩ | ⟨l, e'⟩ := command_cases i (hostBody i) s <;> rw [e'] at e <;> cases e
  · have hresps := (hostBody_keepsOrder i ((s.setCmd (some i)).setResets l)).settle.elim (·.resps) (·.resps)
    exact finish_answers (s := (s.setCmd (some i)).setResets l) (ok_mem_allowedStatuses ha) (hostBody_statuses ha _)
      hresps
  · exact .inr ⟨rfl, rfl⟩

/-- Settles O50: the response is one of the command's row or a reset abandoned it, and a command begun with the transport free
ends at rest. -/
theorem everyCommandRespondsWithinTheStatusTable : Obligations.EveryCommandRespondsWithinTheStatusTable := by
  intro s t i ha hg e
  obtain ⟨hidle, hfree⟩ := exec_atRest ha hg e
  obtain ⟨st, info, hr, hst⟩ | abandoned := exec_answers ha e
  · exact .inl ⟨st, info, hr, hst, hidle, hfree⟩
  · exact .inr abandoned

/-! ### The command agent's fields -/

theorem tickHook_sameCommandFields (s : State) (c : Chan) (t : Word) : SameCommandFields s (s.tickHook c t) := by
  rw [tickHook_eq_detectorOp]
  exact setChan_sameCommandFields s rfl rfl

/-- No sequence but those of CFG_WR, IRQ_ENABLE and INIT writes the command agent's fields (R341). -/
theorem hostBody_sameCommandFields {i : Instr} (ha : answersOnHostPort i = true) (hw : ∀ ch idx v, i ≠ .cfgWr ch idx v)
    (he : ∀ en, i ≠ .irqEnable en) (hn : i ≠ .init) :
    Ends (allowedStatuses i) SameCommandFields (fun _ _ => True) (hostBody i) :=
  hostBody_ends sameCommandFields_closed ha (fun ch idx v h => absurd h (hw ch idx v)) (fun en h => absurd h (he en))
    (absurd · hn) (absurd · hn) (fun _ t _ s c _ => tickHook_sameCommandFields s c t)
    fun _ _ s _ _ _ => setChan_sameCommandFields s rfl rfl

/-- Settles O54: a command that responds has run its sequence to the end, and the sequence leaves the fields alone. -/
theorem otherCommandsKeepTheConfiguration : Obligations.OtherCommandsKeepTheConfiguration := by
  intro s t i ha hw he hn e hresps
  obtain ⟨st, info, hr, -⟩ | ⟨hnone, -⟩ := exec_answers ha e
  · obtain ⟨l, l', u, out, hrun, -, rfl⟩ := exec_responded ha e hr
    have hends := hostBody_sameCommandFields ha hw he hn ((s.setCmd (some i)).setResets l)
    rw [hrun] at hends
    cases out with
    | ok rdata => exact hends
    | error r => exact hends.2
  · exact absurd hnone hresps

end Sys2Proof.Machine
end

