-- ==== Sys2Proof/Proofs/ResetInput.lean ====
section
/-! The reset input: between two steps, and at the moments within a step at which only a reset can fall (R350, R351; log entry
15). -/

namespace Sys2Proof.Machine

/-! ### Moments -/

section
variable {s : State} {l : List Bool}

theorem moment_passed (h : s.env.resets = false :: l) : moment.run s = .ok () (s.setResets l) := by
  rw [run_moment, h]

theorem moment_reset (h : s.env.resets = true :: l) : moment.run s = .error .reset (s.setResets l).blockReset := by
  rw [run_moment, h]

/-- A response that a reset prevents. -/
theorem respond_reset (h : s.env.resets = true :: l) (r : Response) : s.respond r = (s.setResets l).blockReset := by
  simp only [State.respond, run_bind, moment_reset h, settle]

/-- A command that a reset abandons between the end of its sequence and its response. -/
theorem command_reset_before_response {i : Instr} {body : Run Word} {t : State} {out : Except Response Word}
    (hs : s.env.resets = false :: true :: l)
    (hrun : body.run ((s.setResets (true :: l)).setCmd (some i)) = ending out t) (ht : t.env.resets = true :: l) :
    command i body s = .next (t.setResets l).blockReset := by
  have hbegin : moment.run (s.setCmd (some i)) = .ok () ((s.setResets (true :: l)).setCmd (some i)) := moment_passed hs
  have hend (r : Response) : t.endCommand.respond r = (t.setResets l).blockReset := respond_reset (s := t.endCommand) ht r
  rw [command, run_bind, hbegin]
  dsimp only
  rw [hrun]
  cases out with
  | ok rdata => exact congrArg Host.Outcome.next (hend _)
  | error r => exact congrArg Host.Outcome.next (hend _)

end

/-! ### The commands -/

section
variable {s : State} {ch : BitVec 4} {c : Chan} {l : List Bool} (hc : activeChan s.blk.n ch = some c)
  (hr : s.env.resets = false :: true :: l)
include hc hr

/-- A HOOK_SAMPLE that flashes and is then abandoned (R286, R350). -/
theorem hookSample_reset_before_response {lvl : Level} {t : Word} (hl : lvl ≠ (s.chan c).hook.level)
    (hw : (s.chan c).thr.minFlash ≤ t - (s.chan c).hook.lastT ∧ t - (s.chan c).hook.lastT ≤ (s.chan c).thr.maxFlash) :
    exec (.hookSample ch lvl t) s = .next ((s.emit (.hookflash c)).setResets l).blockReset := by
  let begun := (s.setResets (true :: l)).setCmd (some (.hookSample ch lvl t))
  have hchan : begun.chan c = s.chan c := by rw [State.setCmd_chan, State.setResets_chan]
  have hc' : activeChan begun.blk.n ch = some c := hc
  rw [← hchan] at hl hw
  refine command_reset_before_response (out := .ok 0) hr ?_
    (t := (begun.setHook c ⟨lvl, t, 0, false⟩).emit (.hookflash c)) rfl
  rw [hookSampleCmd, run_bind, activeChannel_some hc', ← feedHook_flash hl hw]
  rfl

/-- A REG_RD whose read fails and which is then abandoned (R143, R320, R350). -/
theorem regRd_reset_before_response {a : Byte} {rest : List Answer} (hs : s.env.sched = [])
    (ha : s.env.answers = .fail :: rest) :
    exec (.regRd ch a) s = .next ((s.afterOps [.read c a .failed] rest).setResets l).blockReset := by
  let begun := (s.setResets (true :: l)).setCmd (some (.regRd ch a))
  have hs' : begun.env.sched = [] := hs
  have hread := cmdRead_fail (s := begun.setGrant .command) hs c a [] rest
  rw [afterOps_nil (s := begun.setGrant .command) ha] at hread
  refine command_reset_before_response (out := .error ⟨.commError, failInfo c a⟩) hr
    ((unitCommand_run (s := s.setResets (true :: l)) (x := fun c => cmdRead c a) (g := BitVec.setWidth 32) hc).trans ?_)
    (t := ((begun.setGrant .command).afterOps [.read c a .failed] rest).setGrant .none) rfl
  rw [run_bind, atomicUnit_error hs' hread]
  rfl

end

/-! ### A ringer's linefeed unit -/

/-- A `SetLineFeed` of a ringer that a reset ends after its first read (R220, R350). -/
theorem ringerLineFeed_reset_after_read {s : State} {c : Chan} {req : LfState} {v : Byte} {rest : List Answer}
    {l : List Bool} (hv : ¬ lfGuards s.par req v) (ha : s.env.answers = .data v :: rest)
    (hr : s.env.resets = false :: true :: l) : (setLineFeed moment c req).run s =
      .error .reset ((s.afterOps [.read c s.par.regLinefeed (.data v)] rest).setResets l).blockReset := by
  have hread := readOp_afterOps_data (s.setResets (true :: l)) c s.par.regLinefeed v [] rest
  rw [afterOps_nil (s := s.setResets (true :: l)) ha] at hread
  have hguard : ¬ lfGuarded s.par req v = true := hv ∘ (lfGuarded_iff req v).1
  have hreset := moment_reset (s := (s.setResets (true :: l)).afterOps [.read c s.par.regLinefeed (.data v)] rest) rfl
  simp only [setLineFeed, run_bind, run_readS, moment_passed hr, hread, List.nil_append, if_neg hguard, hreset]
  rfl

/-- Settles O56: a reset is a step, or falls at a moment of a command or of a unit, and overwrites the block there. -/
theorem resetInputRestoresTheBlock : Obligations.ResetInputRestoresTheBlock := by
  refine ⟨fun s l hs => ?_, fun s i l ha hr => ?_, fun s ch c lvl t l _ hc hl hlo hhi hr => ?_,
    fun s ch c a rest l _ hc hs ha hr => ?_, fun s c req d v rest l l' hactive hp hg hs ha hv hr => ?_,
    fun s t c h left flags todo l hp hs => ?_⟩
  · rw [step_eq_slotTurn hs]
    rfl
  · rw [exec_hostBody ha, command_reset_at_once hr]
    rfl
  · exact hookSample_reset_before_response hc hr hl ⟨hlo, hhi⟩
  · exact regRd_reset_before_response hc hr hs ha
  · have hunit := ringerLineFeed_reset_after_read (s := (s.setSched l).setGrant (.ringer c)) (c := c) hv ha hr
    have hg' : (s.setSched l).blk.grant = .none := hg
    rw [← State.setSched_chan s l] at hactive hp
    rw [step_of_ringer hs, ringerMove_request hactive (.phase req d) hp, ringerUnit, run_whenGranted, if_pos hg', run_holding,
      run_bind, hunit]
    rfl
  · rw [steps_succ_of_next (step_of_irqMove hs (irqMove_report hp))]
    refine steps_one ((step_eq_slotTurn (slot := .reset) (l := l) rfl).trans ?_)
    rfl

end Sys2Proof.Machine
end

