-- ==== Sys2Proof/Proofs/ResetState.lean ====
section
/-! The machine after reset: its values and its invariant (R352). -/

namespace Sys2Proof.Machine

/-- Settles O57: the table of R352, field by field. -/
theorem resetValuesAreTheTables : Obligations.ResetValuesAreTheTables := by
  refine ⟨rfl, rfl, rfl, rfl, rfl, rfl, rfl, rfl, rfl, rfl, rfl, rfl, fun c => ?_⟩
  have hphase (k : Fin 16) : (Vector.replicate 16 (0 : Word))[k] = 0 := Vector.getElem_replicate k.isLt
  cases c with
  | zero => exact ⟨rfl, rfl, rfl, rfl, rfl, hphase, rfl⟩
  | one => exact ⟨rfl, rfl, rfl, rfl, rfl, hphase, rfl⟩

/-- The parameters at reset meet R9 and R10, whatever the open ones are (log entry 1). -/
theorem configParams_wf : Config.params.wf = true := by
  unfold Config.params
  split
  · assumption
  · decide

/-- Settles O58: at reset the queue, the collected flags and both channels are empty, and the machine is at rest. -/
theorem resetMeetsTheInvariant : Obligations.ResetMeetsTheInvariant := by
  have hsound : State.reset.Sound :=
    ⟨configParams_wf, Nat.zero_le _, rfl, flagsOk_nil _, ChanState.reset_ok _, ChanState.reset_ok _⟩
  exact ⟨hsound, ⟨rfl, rfl⟩, rfl⟩

end Sys2Proof.Machine
end

