-- ==== Sys2Proof/Proofs/SampleWords.lean ====
section
/-! The sample words of the spec's test vectors (95_test_vectors.md sections 2 and 3). -/

namespace Sys2Proof

/-- Settles O3: ten words, which the decoder evaluates. -/
theorem sampleCommandWordsDecode : Obligations.SampleCommandWordsDecode := by
  unfold Obligations.SampleCommandWordsDecode
  decide

end Sys2Proof
end
